-- ==== Sys2Proof/Word.lean ====
section
/-! DEFINITION. Words, bytes and the sparse tables the state is written in. -/

namespace Sys2Proof

/-- A 32-bit register (R67). -/
abbrev Word := BitVec 32

/-- A register pair, an address or a system register: 64 bits (R67, R12, R436). -/
abbrev DWord := BitVec 64

/-- A byte of memory; bit `a mod 8` of byte `a / 8` is the bit at bit address `a` (R4). -/
abbrev Byte := BitVec 8

/-- A sparse table: pairs of a key and a value, keys strictly rising, no entry equal to the value that an
unlisted key has. Memory, register files, tiles and the like are such tables (`Machine/Ops.lean` reads and
writes them). -/
abbrev Table (α : Type) := List (Nat × α)

end Sys2Proof
end

