-- ==== Sys2Proof/Syntax.lean ====
section
/-! DEFINITION. The operations of the part: one constructor of `Instr` for each row of the table. An instruction row
carries the fields of its word (R38 to R40); an event row carries what the event names. -/

namespace Sys2Proof

/-- The guard pair of R38: each names a predicate (7 is always true), possibly negated. -/
structure Guard where
  ga  : BitVec 3
  gan : Bool
  gb  : BitVec 3
  gbn : Bool
  deriving DecidableEq, Repr

/-- What follows bits [63:0] of an instruction word (R39). -/
inductive Ext where
  | none                                                   -- 64 bits
  | immI (imm : BitVec 32)                                 -- 96 bits, kind I
  | extE (xmod : BitVec 16) (f e : BitVec 8)               -- 96 bits, kind E
  | full (xmod : BitVec 16) (f e : BitVec 8) (imm : BitVec 32)   -- 128 bits
  deriving DecidableEq, Repr

/-- The common layout (R38) and its extension (R39). `k` is the uniform form bit K. -/
structure Fields where
  guard : Guard
  drain : Bool
  hint  : BitVec 2
  k     : Bool
  mod   : BitVec 4
  d     : BitVec 8
  a     : BitVec 8
  b     : BitVec 8
  c     : BitVec 8
  asel  : BitVec 2
  bsel  : BitVec 2
  ext   : Ext
  deriving DecidableEq, Repr

/-- The fields of the 256-bit LOOPNEST (R147) that are not fixed: drain, the four base fields, the five extents
(minus 1), the four stride fields, rounding control, formats, reduced levels, levels minus 1 and the operation. -/
structure NestFields where
  drain : Bool
  d   : BitVec 8
  a   : BitVec 8
  b   : BitVec 8
  c   : BitVec 8
  ext0 : BitVec 16
  ext1 : BitVec 16
  ext2 : BitVec 16
  ext3 : BitVec 16
  ext4 : BitVec 16
  tC  : BitVec 8
  tB  : BitVec 8
  tA  : BitVec 8
  tD  : BitVec 8
  rnd : BitVec 3
  fd  : BitVec 3
  fs  : BitVec 3
  r   : BitVec 3
  lv  : BitVec 3
  xop : BitVec 5
  deriving DecidableEq, Repr

/-- Where a warp context is: die, core (0 to 63; Vesper core v of the die is core 64 + v), the block's number and the
warp's number in the block. -/
structure WarpId where
  die   : Nat
  core  : Nat
  block : Nat
  warp  : Nat
  deriving DecidableEq, Repr

/-- What a die asks of the home of a line (R374). -/
inductive ReqKind where
  | getS | getM | homeLoad | homeStore | fill
  deriving DecidableEq, Repr

/-- How the page of an access is held: its coherence and migration bits and its replica die, if any (R357), and the cache hint of the
access (R232). -/
structure Mode where
  coh  : Bool
  mig  : Bool
  rdie : Option Nat
  hint : Nat
  deriving DecidableEq, Repr

/-- One part of a load that has not been performed: the scoreboard entry it belongs to, the lane, the fabric bit address
(R18), the width in bits and the place of the part within the lane's value. -/
structure LoadPart where
  entry : Nat
  lane  : Nat
  pa    : Nat
  width : Nat
  at_   : Nat
  mode  : Mode
  va    : Nat                  -- the lane's virtual bit address of the part
  packed : Bool                -- of a packed-class access, or of LDX (R234, R245)
  deriving DecidableEq, Repr

/-- One part of a store: fabric bit address, width in bits and value; `packed` as in a load part. -/
structure StorePart where
  pa    : Nat
  width : Nat
  value : Nat
  packed : Bool
  deriving DecidableEq, Repr

/-- A request about a line, with the accesses of the warp that wait for it. `seq` is its place in issue order, `base` that of
its instruction, and `after` the places of requests of its instruction that hold earlier parts of its lanes (R21). `rel` is
the scope of a release that the request's own writes follow (R243). -/
structure Req where
  die    : Nat                 -- the requesting die
  core   : Nat
  kind   : ReqKind
  line   : Nat                 -- fabric bit address of the 256-byte line
  seq    : Nat                 -- issue order
  base   : Nat
  after  : List Nat
  warp   : Option WarpId
  gang   : List Nat            -- the quads that issued it
  pid    : Nat                 -- the process whose page it is on
  fillL1 : Bool                -- PREF.l1: the line goes into the core's L1 too (R246)
  loads  : List LoadPart
  stores : List StorePart
  mode   : Mode
  rel    : Option Nat
  deriving DecidableEq, Repr

/-- One lane of an atomic request: lane, fabric bit address, virtual bit address, data operand and second operand. -/
structure AtomicLane where
  lane : Nat
  addr : Nat
  va   : Nat
  x    : Nat
  y    : Nat
  deriving DecidableEq, Repr

/-- An atomic request to a home (R275): one for each distinct 64-bit word (128-bit for ATOMX). Slots 32 and 33 are the
sync-word updates of SYNCADD and SYNCSET (R216), which no warp waits for; `spad` is then the block whose scratchpad holds
the word, if one does. `entry` is the scoreboard entry of the issuer that waits for its acknowledgement; `acq` and `rel`
are the scopes of its orderings (R276), and `gang` the quads that issued it. -/
structure AtomicReq where
  warp  : WarpId
  gang  : List Nat
  pid   : Nat
  srcDie : Nat
  slot  : Nat
  width : Nat
  seq   : Nat
  entry : Option Nat
  spad  : Option Nat
  mode  : Mode
  acq   : Option Nat
  rel   : Option Nat
  lanes : List AtomicLane
  deriving DecidableEq, Repr

/-- Where a forwarded write goes: the replica die, and the write's place in its primary's order (R378). -/
structure ForwardTo where
  die : Nat
  seq : Nat
  deriving DecidableEq, Repr

/-- What a handler run returns to its issuer (R275, R278, R281). -/
inductive HandlerResult where
  | old (values : List (Nat × Nat))          -- lane and old value
  | poison (lane addr state : Nat)
  | budget (slot : Nat)
  deriving DecidableEq, Repr

/-- A flit (R395), less its FEC field, which a receiver that takes the flit has checked. -/
structure Flit where
  seq     : BitVec 16
  vc      : BitVec 3
  kind    : BitVec 2
  credit  : BitVec 11
  payload : BitVec 512
  deriving DecidableEq, Repr

/-- An Angelus message (R382). -/
structure AngelusMsg where
  seq     : Nat
  epoch   : BitVec 16
  kind    : BitVec 8
  srcDev  : BitVec 9
  srcDie  : BitVec 2
  payload : BitVec 384
  deriving DecidableEq, Repr

/-- A load, store or atomic request over the fabric or from a host (R403, R409). -/
inductive RemoteOp where
  | load (addr width : Nat)
  | store (addr width value : Nat)
  | atomic (slot addr width x y : Nat)
  deriving DecidableEq, Repr

/-- The causes that abort a placement conversion (R341, R342). -/
inductive AbortCause where
  | mismatch | timeout | lostDie
  | engine (status : Nat)
  deriving DecidableEq, Repr

/-- The operations of the part, in the table's order. -/
inductive Instr where
  -- group 0x0: control
  | nop (f : Fields) | bra (f : Fields) | brx (f : Fields) | call (f : Fields) | callx (f : Fields)
  | ret (f : Fields) | exit_ (f : Fields) | yield_ (f : Fields) | loop (f : Fields) | enter (f : Fields)
  | leave (f : Fields)
  -- group 0x1: integer
  | iadd (f : Fields) | isub (f : Fields) | iadd3 (f : Fields) | iaddc (f : Fields) | imul (f : Fields)
  | imulhi (f : Fields) | imad (f : Fields) | imadw (f : Fields) | idiv (f : Fields) | imin (f : Fields)
  | imax (f : Fields) | iabs (f : Fields) | ineg (f : Fields) | isad (f : Fields) | dot4 (f : Fields)
  | mov (f : Fields) | movi (f : Fields) | movx (f : Fields) | sel (f : Fields) | xset (f : Fields)
  | xadd (f : Fields) | rdspec (f : Fields) | p2v (f : Fields) | v2p (f : Fields)
  -- group 0x2: logic, bit fields, compare
  | and_ (f : Fields) | or_ (f : Fields) | xor_ (f : Fields) | andn (f : Fields) | not_ (f : Fields)
  | tern (f : Fields) | shl (f : Fields) | shr (f : Fields) | sar (f : Fields) | rot (f : Fields)
  | dsh (f : Fields) | bfx (f : Fields) | bfi (f : Fields) | popc (f : Fields) | clz (f : Fields)
  | ctz (f : Fields) | brev (f : Fields) | pack (f : Fields) | unpk (f : Fields) | ipred (f : Fields)
  | imask (f : Fields) | pcomb (f : Fields) | icvt (f : Fields)
  -- group 0x3: floating point
  | fadd (f : Fields) | fsub (f : Fields) | fmul (f : Fields) | ffma (f : Fields) | fmin (f : Fields)
  | fmax (f : Fields) | fpred (f : Fields) | fmask (f : Fields) | fclass (f : Fields) | frnd (f : Fields)
  | fscale (f : Fields) | redf (f : Fields) | loopnest (f : NestFields) | loopnestChunk (w : WarpId)
  -- group 0x4: conversions and special functions
  | f2f (f : Fields) | f2i (f : Fields) | i2f (f : Fields) | rcp (f : Fields) | rsq (f : Fields)
  | sqrt (f : Fields) | ex2 (f : Fields) | exp (f : Fields) | lg2 (f : Fields) | log (f : Fields)
  | sin (f : Fields) | cos (f : Fields) | tanh (f : Fields) | sigm (f : Fields)
  -- group 0x5: cross-lane
  | xlane (f : Fields) | pgath (f : Fields) | bcast (f : Fields) | redi (f : Fields) | match_ (f : Fields)
  -- group 0x6: addresses
  | lea (f : Fields) | aligndn (f : Fields) | alignup (f : Fields) | alcls (f : Fields) | bitofs (f : Fields)
  | b2bit (f : Fields) | bit2b (f : Fields) | pdiff (f : Fields)
  -- group 0x7: memory
  | ld (f : Fields) | st (f : Fields) | ldk (f : Fields) | stk (f : Fields) | ldx (f : Fields)
  | stx (f : Fields) | pref (f : Fields) | cctl (f : Fields) | fence (f : Fields) | fenceEng (f : Fields)
  | migr (f : Fields)
  -- group 0x8: scratchpad, sync words, barriers
  | lds (f : Fields) | sts (f : Fields) | ldsc (f : Fields) | stsc (f : Fields) | atoms (f : Fields)
  | syncset (f : Fields) | syncadd (f : Fields) | syncwait (f : Fields) | syncwaitWake (w : WarpId)
  | synctest (f : Fields) | barArrive (f : Fields) | barWait (f : Fields) | barSync (f : Fields)
  | cbarArrive (f : Fields) | clusterBarrierArrival (launch cluster barrier rank warp : Nat)
  | cbarWait (f : Fields)
  -- group 0x9: atomics and messages
  | atom (f : Fields) | red (f : Fields) | atomk (f : Fields) | atomx (f : Fields)
  | handlerRun (r : AtomicReq) | atomicAcknowledgement (r : AtomicReq) (res : HandlerResult)
  | msg (f : Fields) | msgRetry (op : Nat)
  -- group 0xA: copy engines and futures
  | cpy (f : Fields) | cpyMm (f : Fields) | gather (f : Fields) | scatter (f : Fields)
  | copyCommandStart (die core engine : Nat) | arrivalUnit (op : Nat) (unit : Nat)
  | copyOperationEnd (op : Nat) | cancelHonoured (op : Nat) | engineMissResume (op : Nat) (resolved : Bool)
  | fwait (f : Fields) | ftest (f : Fields) | fcancel (f : Fields) | fmov (f : Fields)
  -- group 0xB: matrix engines
  | mma (f : Fields) | mmaSm (f : Fields) | accld (f : Fields) | accst (f : Fields) | accz (f : Fields)
  | accside (f : Fields) | quant (f : Fields) | deq (f : Fields)
  | matrixCommandStart (die core engine : Nat) | matrixCommandEnd (die core engine : Nat)
  -- group 0xC: placement
  | pldef (f : Fields) | plset (f : Fields) | ldPl (f : Fields) | plconv (f : Fields) | plwait (f : Fields)
  | plqry (f : Fields) | pldrop (f : Fields)
  | joinRequest (pid entry member gen cur demanded : Nat)
  | sourceSectorRead (pid entry member sector : Nat) | destinationSectorWritten (pid entry member sector : Nat)
  | conversionComplete (pid entry : Nat) | conversionAbort (pid entry : Nat) (cause : AbortCause)
  | placementTimeout (pid entry : Nat)
  -- group 0xD: contexts
  | spawn (f : Fields) | launch (f : Fields) | produce (f : Fields) | await (f : Fields) | awaitWake (w : WarpId)
  | sleep (f : Fields) | sleepWake (w : WarpId) | setprio (f : Fields)
  -- group 0xE: system
  | trap (f : Fields) | rte (f : Fields) | sysrd (f : Fields) | syswr (f : Fields) | halt (f : Fields)
  | wakeEvent (die vcore : Nat) | tlbinvInv (f : Fields) | tlbinvCommit (f : Fields) | amsg (f : Fields)
  | arecv (f : Fields) | bkpt (f : Fields) | pmark (f : Fields)
  -- events of a core
  | longLatencyResult (w : WarpId) (entry : Nat) | parkReplay (w : WarpId) (resolved : Bool)
  | engineWatchReport (w : WarpId) (engine handle pid vaddr mask time : Nat)
  | homeWatchReport (die pa mask kind slot srcDev srcDie pid : Nat)
  | samplingCycle (die : Nat) | stopRequest (die core : Nat) (dbgctl : DWord)
  -- launches and residency
  | launchIntake (pid queue : Nat) | clusterDispatch (launch cluster bay : Nat) (cores : List Nat)
  | warpPromotion (w : WarpId) | rotation (launch cluster : Nat)
  | clusterRestore (launch cluster die bay : Nat) (cores : List Nat) | blockRetirement (block : Nat)
  -- coherence
  | gets (r : Req) | getm (r : Req) | putm (die line : Nat) | homeStore (r : Req)
  | recall (die line : Nat) (keep : Bool) | lineInvalidation (die line : Nat) | transactionComplete (line : Nat)
  | forwardedWrite (line mask value : Nat) (dest : ForwardTo)
  -- Angelus channel and membership
  | submittedMessage (grp : Bool) (m : AngelusMsg)
  | invalidate (die : Nat) (m : AngelusMsg) | translationInvalidation (die agent seq : Nat) (lines : List Nat) (all : Bool)
  | commit (die : Nat) (m : AngelusMsg) | angelusAck (grp : Bool) (seq from_ : Nat)
  | pageflush (grp : Bool) (die : Nat) (m : AngelusMsg) | user (grp : Bool) (die : Nat) (m : AngelusMsg)
  | membership (grp : Bool) (die : Nat) (m : AngelusMsg)
  | heartbeat (die : Nat) | memberRemoval (die : Nat) | selfRemoval (die : Nat) | sequencerTakeover (grp : Bool)
  -- fault queue, pre-emption, contexts
  | faultRecordEnqueue (die : Nat) | corectlHalt (die core : Nat) | haltCompletion (die core : Nat)
  | corectlResume (die core : Nat) | corectlDiscard (die core slot : Nat) (whole : Bool)
  | contextSave (die : Nat) (cmd : Nat) | contextRestore (die : Nat) (cmd : Nat)
  | fullCheckpoint (die : Nat) (desc : Nat) | incrementalCheckpoint (die : Nat) (desc : Nat)
  | wake (die : Nat) (mask : BitVec 4) | suproot (die : Nat) (value : DWord)
  -- links
  | errorWindowEnd (link wavelength : Nat) | wavelengthRemoval (link wavelength : Nat)
  | trainingAttemptEnd (link wavelength : Nat) (passed : Bool) | trainingRetry (link wavelength : Nat)
  | handBack (link wavelength : Nat) (s : BitVec 16)
  | linkFailure (link : Nat) | planeDrainTimeout (plane : Nat)
  | leaseExpiry (hostId : Nat)
  -- events that the outside causes
  | hostRequest (hostId : Nat) (op : RemoteOp) (cache : Bool) | fabricRequest (srcDev tag : Nat) (op : RemoteOp)
  | uncorrectableError (pa : Nat) | doorbell (hostId : Nat) (value : DWord) | planeRejoin (plane : Nat)
  | flit (link wavelength : Nat) (f : Flit) (corrected : Nat) (uncorrectable : Bool)
  | negativeAcknowledgement (link : Nat) (first : BitVec 16) | flitAcknowledgement (link : Nat) (upTo : BitVec 16)
  | leaseRenewal (hostId : Nat) | packageReset | configurationRecord (bytes : List Byte) | vesperBootImage (bytes : List Byte)
  | extensionHandlerLoad (slot : Nat) (code sig : List Byte)
  | tenantKeyRequest (request key : List Byte) (pid : Nat) | keyHandleRevoke (handle : Nat)
  | rangeTableUpdate (index : Nat) (entry : BitVec 256) | attestationRequest (nonce : List Byte) (pid : Nat)
  | thermalThrottle (island : Nat) (celsius : Nat) | thermalShutdown (island : Nat) (celsius : Nat)
  deriving DecidableEq, Repr

end Sys2Proof
end

