-- ==== Sys2Proof/Decode.lean ====
section
/-! DEFINITION. The instruction words (R35 to R61): what each opcode's word may hold, the decoder and the encoder. -/

namespace Sys2Proof

/-- The instruction lengths that carry the common layout (R35, R39). -/
inductive Form where
  | w64 | w96I | w96E | w128
  deriving DecidableEq, Repr

/-- Which register file a field names: by K (R44), always vector, always uniform. -/
inductive Cls where
  | byK | vec | uni
  deriving DecidableEq, Repr

/-- What a field without a selector holds (R43): nothing (it must be 0), a literal its row's own check reads, `n`
consecutive registers whose first is a multiple of `al`, a predicate, an index register or a handle. -/
inductive FieldKind where
  | zero | lit
  | reg (cls : Cls) (n al : Nat)
  | pred | idx | hnd
  deriving DecidableEq, Repr

/-- What a source field holds under its selector (R44, R45): unread; a field of R43 with selector 00; a vector, uniform
or (if `ind`) indirect operand; a vector or indirect one; a uniform one (selector 01 when K = 0). -/
inductive SrcKind where
  | zero
  | fld (k : FieldKind)
  | src (n al : Nat) (ind : Bool)
  | vecOrInd (n al : Nat)
  | uniOnly (n al : Nat)
  deriving DecidableEq, Repr

/-- Which immediates take the place of b (R48); `must`: bsel has to be 10. -/
inductive ImmKind where
  | no | i16 | i32 | both | must
  deriving DecidableEq, Repr

/-- The operands of an opcode. `disp`: imm32 has a role of its own when bsel is not 10 (R48). -/
structure Shape where
  d : FieldKind := .zero
  a : SrcKind := .zero
  b : SrcKind := .zero
  imm : ImmKind := .no
  c : FieldKind := .zero
  e : FieldKind := .zero
  f : FieldKind := .zero
  disp : Bool := false
  deriving DecidableEq, Repr

/-- A row of the opcode map (R61) with its operands and the check of its modifiers. -/
structure OpSpec where
  op : Nat
  forms : List Form
  k0 : Bool
  k1 : Bool
  hints : Bool
  shape : Shape
  mods : Bool

/-- A register that a field names directly (R47): uniform or vector, and its number. -/
structure RegRef where
  uniform : Bool
  number : Nat
  deriving DecidableEq, Repr

namespace Fields

def form (f : Fields) : Form :=
  match f.ext with
  | .none => .w64
  | .immI _ => .w96I
  | .extE .. => .w96E
  | .full .. => .w128

/-- The slot in bits (R35). -/
def slot (f : Fields) : Nat := match f.ext with | .none => 64 | _ => 128

def imm32 (f : Fields) : BitVec 32 :=
  match f.ext with
  | .immI i => i
  | .full _ _ _ i => i
  | _ => 0

def imm16 (f : Fields) : BitVec 16 := f.b ++ f.c

def xmod (f : Fields) : BitVec 16 :=
  match f.ext with
  | .extE x _ _ => x
  | .full x _ _ _ => x
  | _ => 0

def e (f : Fields) : BitVec 8 :=
  match f.ext with
  | .extE _ _ e => e
  | .full _ _ e _ => e
  | _ => 0

def fh (f : Fields) : BitVec 8 :=
  match f.ext with
  | .extE _ h _ => h
  | .full _ h _ _ => h
  | _ => 0

/-- b is an immediate (R48). -/
def isImm (f : Fields) : Bool := f.bsel == 2

/-- b : c is the immediate of the 64-bit form. -/
def isImm16 (f : Fields) : Bool := f.isImm && (f.form == .w64)

/-- The control byte (R76, R128): field c, and 0 where c carries the low byte of imm16. -/
def ctl (f : Fields) : BitVec 8 := if f.isImm16 then 0 else f.c

/-- Bit `i` of the control byte, of mod and of xmod. -/
def cb (f : Fields) (i : Nat) : Bool := f.ctl.getLsbD i
def mb (f : Fields) (i : Nat) : Bool := f.mod.getLsbD i
def xb (f : Fields) (i : Nat) : Bool := f.xmod.getLsbD i

/-- Bits [hi:lo] of the control byte, of mod and of xmod, as numbers. -/
def cn (f : Fields) (hi lo : Nat) : Nat := (f.ctl.toNat >>> lo) % 2 ^ (hi + 1 - lo)
def mn (f : Fields) (hi lo : Nat) : Nat := (f.mod.toNat >>> lo) % 2 ^ (hi + 1 - lo)
def xn (f : Fields) (hi lo : Nat) : Nat := (f.xmod.toNat >>> lo) % 2 ^ (hi + 1 - lo)

end Fields

/-- Width in bits of a type code of R73 (0 for the reserved codes). -/
def typeWidth : Nat → Nat
  | 0 => 32 | 1 => 32 | 2 => 64 | 3 => 64 | 4 => 16 | 5 => 16 | 6 => 8 | 7 => 8
  | 8 => 6 | 9 => 6 | 10 => 4 | 11 => 4 | 12 => 3 | 13 => 3 | _ => 0

/-- Signed types have even codes (R73). -/
def typeSigned (t : Nat) : Bool := t % 2 == 0

/-- Width of a load or store width code (R213); 0 for 15. -/
def accessWidth : Nat → Nat
  | 0 => 1 | 1 => 2 | 2 => 3 | 3 => 4 | 4 => 6 | 5 => 8 | 6 => 16 | 7 => 32 | 8 => 64 | 9 => 128
  | 10 => 3 | 11 => 4 | 12 => 6 | 13 => 8 | 14 => 16 | _ => 0

/-- Registers that hold w bits: 1, 2 or 4. -/
def regsFor (w : Nat) : Nat := if w ≤ 32 then 1 else if w ≤ 64 then 2 else 4

namespace FieldKind

def isUniform (k : Bool) : Cls → Bool
  | .byK => k
  | .vec => false
  | .uni => true

/-- The static check of R43. -/
def ok (k : Bool) : FieldKind → BitVec 8 → Bool
  | .zero, x => x == 0
  | .lit, _ => true
  | .reg cls _ al, x => x.toNat % al == 0 && (!isUniform k cls || x.toNat < 128)
  | .pred, x => x.toNat < 8
  | .idx, x => x.toNat < 4
  | .hnd, x => x.toNat < 16

/-- The registers the field names (R47). -/
def refs (k : Bool) : FieldKind → BitVec 8 → List RegRef
  | .reg cls n _, x => (List.range n).map fun i => ⟨isUniform k cls, x.toNat + i⟩
  | _, _ => []

/-- `n` registers by K, aligned to their number. -/
def regs (n : Nat) : FieldKind := .reg .byK n n

end FieldKind

namespace SrcKind

def ok (k : Bool) (sel : BitVec 2) (x : BitVec 8) : SrcKind → Bool
  | .zero => sel == 0 && x == 0
  | .fld fk => sel == 0 && fk.ok k x
  | .src _ al ind =>
      if k then (sel == 0 || sel == 1) && x.toNat % al == 0 && x.toNat < 128
      else if sel == 0 then x.toNat % al == 0
      else if sel == 1 then x.toNat % al == 0 && x.toNat < 128
      else sel == 3 && ind
  | .vecOrInd _ al => !k && ((sel == 0 && x.toNat % al == 0) || sel == 3)
  | .uniOnly _ al =>
      (if k then sel == 0 || sel == 1 else sel == 1) && x.toNat % al == 0 && x.toNat < 128

def refs (k : Bool) (sel : BitVec 2) (x : BitVec 8) : SrcKind → List RegRef
  | .zero => []
  | .fld fk => fk.refs k x
  | .src n _ _ | .vecOrInd n _ | .uniOnly n _ =>
      if sel == 3 then [] else (List.range n).map fun i => ⟨k || sel == 1, x.toNat + i⟩

end SrcKind

namespace Shape

/-- The field and selector checks of R59, item 2 (R39, R43, R44, R48). -/
def ok (s : Shape) (f : Fields) : Bool :=
  s.d.ok f.k f.d && s.a.ok f.k f.asel f.a &&
  (if f.isImm then
      match f.form, s.imm with
      | .w64, .i16 | .w64, .both | .w64, .must => true
      | .w96I, .i32 | .w96I, .both | .w96I, .must | .w128, .i32 | .w128, .both | .w128, .must =>
          f.b == 0 && s.c.ok f.k f.c
      | _, _ => false
    else s.imm != .must && s.b.ok f.k f.bsel f.b && s.c.ok f.k f.c) &&
  (f.isImm || s.disp || f.imm32 == 0) &&
  s.e.ok f.k f.e && s.f.ok f.k f.fh

/-- The registers the word names directly (R47). -/
def refs (s : Shape) (f : Fields) : List RegRef :=
  s.d.refs f.k f.d ++ s.a.refs f.k f.asel f.a ++ (if f.isImm then [] else s.b.refs f.k f.bsel f.b) ++
  (if f.isImm16 then [] else s.c.refs f.k f.c) ++ s.e.refs f.k f.e

end Shape

/-! ## The opcode map -/

/-- A type code of R73 is allowed when it is assigned and `p` holds of it. -/
def typeOk (t : Nat) : Bool := t ≤ 13
def wideType (t : Nat) : Bool := t ≤ 3
def regsOfType (t : Nat) : Nat := regsFor (typeWidth t)

/-- mod[1:0] of R127 names a format, and .X2 is not f32. -/
def floatTypeOk (f : Fields) : Bool := f.mn 1 0 != 3
def x2Ok (f : Fields) : Bool := !(f.mb 2 && f.mn 1 0 == 0)

/-- The width operand of R27 in field c. -/
def widthFieldOk (f : Fields) : Bool := if f.mb 3 then f.c.toNat < 64 else f.c.toNat < 128

/-- A scope field and the bit that says whether it is read (R218, R242, R283). -/
def scopeOk (ordered : Bool) (scope : Nat) : Bool := if ordered then scope != 7 else scope == 0

/-- The address operands of R239: shape of a, b and c by form, selector and index kind. `none` where the form breaks
the rule's table. -/
def addressShape (f : Fields) : Shape × Bool :=
  let kind := f.ctl.toNat >>> 6
  let base : Shape := { a := .src 2 2 true, c := .lit, imm := .both, disp := true }
  let kindOk := kind != 0 || f.ctl.toNat % 64 == 0
  let idx : SrcKind := if kind == 0 then .zero else .src (if kind == 3 then 2 else 1) (if kind == 3 then 2 else 1) true
  match f.form with
  | .w64 => ({ base with b := idx }, kindOk)
  | .w96E => ({ base with b := idx, imm := .no }, kindOk)
  | _ => if f.isImm then (base, f.c == 0) else ({ base with b := idx }, kind != 0)

/-- The slots of R267 and the widths each allows; `code` is the width code of R273 and `wm1` its extension. -/
def atomicWidth (code wm1 : Nat) : Nat :=
  match code with
  | 0 => 8 | 1 => 16 | 2 => 32 | 3 => 64 | 4 => wm1 + 1 | _ => 0

def slotBitwise (s : Nat) : Bool := s == 8 || s == 9 || s == 10 || s == 13

def atomicWidthOk (slot code wm1 : Nat) : Bool :=
  code ≤ 4 && (code == 4 || wm1 == 0) && (code != 4 || slotBitwise slot) &&
  (let w := atomicWidth code wm1
   if slotBitwise slot then true
   else match slot with
     | 14 | 18 => w == 32
     | 15 | 16 | 19 | 20 => w == 16
     | 17 | 21 => w == 8
     | 22 => false
     | 23 => w == 64
     | _ => true)

/-- ord and scope of the 128-bit forms (R242, R273). -/
def ordScopeOk (f : Fields) : Bool := scopeOk (f.xn 4 3 != 0) (f.xn 2 0)

/-- The width in bits of LD, ST, LDK and STK (R242). -/
def memWidth (f : Fields) : Nat := if f.mod == 15 then f.xn 10 5 + 1 else accessWidth f.mod.toNat

def memModOk (f : Fields) (store : Bool) : Bool :=
  (if f.form == .w128 then
      f.xn 15 12 == 0 && (f.mod == 15 || (f.xn 11 11 == 0 && f.xn 10 5 == 0)) &&
      f.xn 4 3 != 3 && f.xn 4 3 != (if store then 1 else 2) && ordScopeOk f
    else f.mod != 15) &&
  (!store || f.mod.toNat ≤ 9 || (f.mod == 15 && f.xn 11 11 == 0))

/-- Operand shapes of the copy instructions (R295, R296). -/
def copyShape (f : Fields) (regs : Nat) (third : Bool) : Shape :=
  { d := if f.xb 2 then .reg .uni 2 2 else .zero, a := .uniOnly 2 2, b := .uniOnly 2 2, c := .reg .uni regs 1,
    e := if third then .reg .uni 2 2 else .zero, f := .hnd }

def copyRegs (dims : Nat) : Nat := match dims with | 0 => 1 | 1 => 4 | _ => 7

/-- The fields of an instruction row, if it has the common layout. -/
def Instr.fields? : Instr → Option Fields
  | .nop f | .bra f | .brx f | .call f | .callx f | .ret f | .exit_ f | .yield_ f | .loop f | .enter f | .leave f
  | .iadd f | .isub f | .iadd3 f | .iaddc f | .imul f | .imulhi f | .imad f | .imadw f | .idiv f | .imin f | .imax f
  | .iabs f | .ineg f | .isad f | .dot4 f | .mov f | .movi f | .movx f | .sel f | .xset f | .xadd f | .rdspec f
  | .p2v f | .v2p f | .and_ f | .or_ f | .xor_ f | .andn f | .not_ f | .tern f | .shl f | .shr f | .sar f | .rot f
  | .dsh f | .bfx f | .bfi f | .popc f | .clz f | .ctz f | .brev f | .pack f | .unpk f | .ipred f | .imask f
  | .pcomb f | .icvt f | .fadd f | .fsub f | .fmul f | .ffma f | .fmin f | .fmax f | .fpred f | .fmask f | .fclass f
  | .frnd f | .fscale f | .redf f | .f2f f | .f2i f | .i2f f | .rcp f | .rsq f | .sqrt f | .ex2 f | .exp f | .lg2 f
  | .log f | .sin f | .cos f | .tanh f | .sigm f | .xlane f | .pgath f | .bcast f | .redi f | .match_ f | .lea f
  | .aligndn f | .alignup f | .alcls f | .bitofs f | .b2bit f | .bit2b f | .pdiff f | .ld f | .st f | .ldk f | .stk f
  | .ldx f | .stx f | .pref f | .cctl f | .fence f | .fenceEng f | .migr f | .lds f | .sts f | .ldsc f | .stsc f
  | .atoms f | .syncset f | .syncadd f | .syncwait f | .synctest f | .barArrive f | .barWait f | .barSync f
  | .cbarArrive f | .cbarWait f | .atom f | .red f | .atomk f | .atomx f | .msg f | .cpy f | .cpyMm f | .gather f
  | .scatter f | .fwait f | .ftest f | .fcancel f | .fmov f | .mma f | .mmaSm f | .accld f | .accst f | .accz f
  | .accside f | .quant f | .deq f | .pldef f | .plset f | .ldPl f | .plconv f | .plwait f | .plqry f | .pldrop f
  | .spawn f | .launch f | .produce f | .await f | .sleep f | .setprio f | .trap f | .rte f | .sysrd f | .syswr f
  | .halt f | .tlbinvInv f | .tlbinvCommit f | .amsg f | .arecv f | .bkpt f | .pmark f => some f
  | _ => none

/-- Rows of the map by shape: the integer and logic rows. -/
def specInt (op : Nat) (forms : List Form) (n : Nat) (imm : ImmKind) (c : FieldKind) (mods : Bool) : OpSpec :=
  { op, forms, k0 := true, k1 := true, hints := false, mods,
    shape := { d := .regs n, a := .src n n true, b := .src n n true, imm, c } }

def specSfu (op : Nat) (f : Fields) : OpSpec :=
  { op, forms := [.w64], k0 := true, k1 := true, hints := false, mods := f.mn 3 2 == 0 && floatTypeOk f,
    shape := { d := .regs 1, a := .src 1 1 true } }

/-- What one opcode allows (R61 and the encoding table of its chapter). DEDUCED (log entry 19): b of DSH and of XLANE may be
indirect, as R44 reads it, and MOVX's field a, a register number, is not itself an operand that R47 checks. -/
def Instr.spec? (i : Instr) : Option OpSpec :=
  let both := [Form.w64, Form.w96I]
  let row (op : Nat) (forms : List Form) (k0 k1 hints : Bool) (mods : Bool) (shape : Shape) : Option OpSpec :=
    some { op, forms, k0, k1, hints, mods, shape }
  -- group 0x0 (R166)
  let ctrl (op : Nat) (f : Fields) (lx : Bool) (imm : Bool) (d : FieldKind) (a : SrcKind) : Option OpSpec :=
    row op (if imm then both else [.w64]) true true false
      (f.mn 3 2 == 0 && (lx || !f.mb 1) && !(f.k && f.mb 0)) { d, a, imm := if imm then .must else .no }
  let bare (op : Nat) (f : Fields) (k1 : Bool) : Option OpSpec := row op [.w64] true k1 false (f.mod == 0) {}
  let t (f : Fields) := f.mod.toNat
  let n (f : Fields) := regsOfType f.mod.toNat
  let n0 (f : Fields) := if f.mb 0 then 2 else 1
  let satOk (f : Fields) := f.ctl.toNat < 2
  let lg (op : Nat) (f : Fields) : Option OpSpec := some (specInt op both (n0 f) .both .zero (f.mn 3 1 == 0))
  let shift (op : Nat) (f : Fields) : Option OpSpec :=
    row op both true true false (f.mn 3 1 == 0) { d := .regs (n0 f), a := .src (n0 f) (n0 f) true, b := .src 1 1 true, imm := .both }
  let count (op : Nat) (f : Fields) : Option OpSpec :=
    row op [.w64] true true false (f.mn 3 1 == 0) { d := .regs 1, a := .src (n0 f) (n0 f) true }
  let fl (op : Nat) (f : Fields) (imm : ImmKind) (c : FieldKind) (d : FieldKind) (mods : Bool) : Option OpSpec :=
    row op both true true false (mods && floatTypeOk f && x2Ok f) { d, a := .src 1 1 true, b := .src 1 1 true, imm, c }
  let addr (op : Nat) (f : Fields) (forms : List Form) (d : FieldKind) (b : SrcKind) (mods : Bool) : Option OpSpec :=
    row op forms true true false (mods && widthFieldOk f)
      { d, a := .src 2 2 true, b, c := .lit, disp := op == 0x180 }
  let mem (op : Nat) (f : Fields) (forms : List Form) (k0 k1 : Bool) (d : FieldKind) (mods : Bool) : Option OpSpec :=
    row op forms k0 k1 true (mods && (addressShape f).2) { (addressShape f).1 with d }
  let memD (f : Fields) := FieldKind.regs (regsFor (memWidth f))
  let spad (op : Nat) (f : Fields) (store : Bool) (a : SrcKind) : Option OpSpec :=
    row op both true false false (f.mod != 15 && (!store || f.mod.toNat ≤ 9))
      { d := .regs (regsFor (accessWidth f.mod.toNat)), a, imm := .must }
  let sync (op : Nat) (f : Fields) (forms : List Form) (d : FieldKind) (imm : ImmKind) : Option OpSpec :=
    row op forms true true false (scopeOk (!f.mb 3) (f.mn 2 0)) { d, a := .src 2 2 false, b := .src 1 1 false, imm }
  let bar (op : Nat) (f : Fields) (d : FieldKind) (arrive : Bool) : Option OpSpec :=
    row op [.w64] true true false (f.mod == 0)
      (if arrive then { d, b := .src 1 1 false, imm := .i16 } else { d, a := .src 1 1 false })
  let atomR (f : Fields) := regsFor (atomicWidth (f.c.toNat >>> 5) (f.xn 10 5))
  let aSlot (f : Fields) := f.c.toNat % 32
  let atomic (op : Nat) (f : Fields) (forms : List Form) (k0 k1 : Bool) (d e : FieldKind) (mods : Bool) : Option OpSpec :=
    row op forms k0 k1 true (mods && atomicWidthOk (aSlot f) (f.c.toNat >>> 5) (f.xn 10 5) && (f.c.toNat >>> 5 != 4 || f.form == .w128))
      { d, a := .src 2 2 true, b := .src (atomR f) (atomR f) true, c := .lit, e, disp := true }
  let pl (op : Nat) (hints : Bool) (d : FieldKind) (b : SrcKind) (c : FieldKind) (mods : Bool) : Option OpSpec :=
    row op [.w64] true true hints mods { d, a := .uniOnly 1 1, b, c }
  let sys (op : Nat) (d : FieldKind) (a : SrcKind) (imm : ImmKind) (mods : Bool) : Option OpSpec :=
    row op [.w64] true true false mods { d, a, b := if imm == .no then .zero else .src 1 1 false, imm }
  match i with
  | .nop f => row 0x001 [.w64] true false false (f.mod == 0 && f.guard == ⟨7, false, 7, false⟩) {}
  | .bra f => ctrl 0x002 f true true .zero .zero
  | .brx f => ctrl 0x003 f true false .zero (.src 2 2 false)
  | .call f => ctrl 0x004 f false true (.regs 2) .zero
  | .callx f => ctrl 0x005 f false false (.regs 2) (.src 2 2 false)
  | .ret f => ctrl 0x006 f false false .zero (.src 2 2 false)
  | .exit_ f => bare 0x007 f false
  | .yield_ f => bare 0x008 f false
  | .loop f => ctrl 0x009 f true true (.regs 1) .zero
  | .enter f => row 0x00A [.w64] true false false (f.mod == 0 && f.imm16 != 0) { imm := .must }
  | .leave f => bare 0x00B f false
  -- group 0x1 (R78 to R91)
  | .iadd f => some (specInt 0x040 both (n f) .both .lit (typeOk (t f) && satOk f))
  | .isub f => some (specInt 0x041 both (n f) .both .lit (typeOk (t f) && satOk f))
  | .iadd3 f => some (specInt 0x042 both (n f) .i32 (.regs (n f)) (typeOk (t f)))
  | .iaddc f => some (specInt 0x043 both (n f) .i32 .pred (t f == 1 || t f == 3))
  | .imul f => some (specInt 0x044 both (n f) .both .lit (typeOk (t f) && satOk f))
  | .imulhi f => some (specInt 0x045 both (n f) .both .zero (wideType (t f)))
  | .imad f => some (specInt 0x046 both (n f) .i32 (.regs (n f)) (typeOk (t f)))
  | .imadw f => row 0x047 both true true false (t f ≤ 1)
      { d := .regs 2, a := .src 1 1 true, b := .src 1 1 true, imm := .i32, c := .regs 2 }
  | .idiv f => some (specInt 0x048 [.w64] (n f) .no .lit (wideType (t f) && satOk f))
  | .imin f => some (specInt 0x049 both (n f) .both .zero (typeOk (t f)))
  | .imax f => some (specInt 0x04A both (n f) .both .zero (typeOk (t f)))
  | .iabs f => row 0x04B [.w64] true true false (typeOk (t f) && typeSigned (t f) && satOk f)
      { d := .regs (n f), a := .src (n f) (n f) true, c := .lit }
  | .ineg f => row 0x04C [.w64] true true false (typeOk (t f) && satOk f)
      { d := .regs (n f), a := .src (n f) (n f) true, c := .lit }
  | .isad f => some (specInt 0x04D [.w64] 1 .no (.regs 1) (typeOk (t f) && t f != 2 && t f != 3))
  | .dot4 f => some (specInt 0x04E [.w64] 1 .no (.regs 1) (!f.mb 2))
  | .mov f => row 0x060 both true true false (f.mn 3 1 == 0) { d := .regs (n0 f), b := .src (n0 f) (n0 f) true, imm := .both }
  | .movi f => row 0x061 both true true false
      (if f.form == .w64 then f.mn 3 2 == 0 else f.mn 3 1 == 2)
      { d := .regs (if f.form == .w64 then (if f.mb 1 then 2 else 1) else if f.mb 0 then 2 else 1), imm := .must }
  | .movx f => row 0x062 [.w64] true true false (f.mn 3 1 == 0 && (!f.k || f.a.toNat < 128))
      { d := .regs (n0 f), a := .fld .lit, b := .src 1 1 false }
  | .sel f =>
      let m := if f.mb 1 then 2 else 1
      row 0x063 both true true false (f.mn 3 2 == 0) { d := .regs m, a := .src m m true, b := .src m m true, imm := .i32, c := .pred }
  | .xset f => row 0x064 both true true false (f.mod == 0) { d := .idx, b := .src 1 1 true, imm := .both }
  | .xadd f => row 0x065 both true true false (f.mod == 0) { d := .idx, a := .fld .idx, b := .src 1 1 true, imm := .both }
  | .rdspec f => row 0x066 [.w64] true true false (f.mod == 0 && f.a.toNat ≤ 0x14 && !(f.k && f.a.toNat ≤ 1))
      { d := .regs (if f.a == 0x0F || f.a == 0x10 || f.a == 0x12 then 2 else 1), a := .fld .lit }
  | .p2v f => row 0x067 [.w64] true true false (f.mod == 0) { d := .regs 1 }
  | .v2p f => row 0x068 [.w64] true true false (f.mod == 0 && f.b.toNat < 128) { a := .src 1 1 true, b := .fld .lit }
  -- group 0x2 (R92 to R101)
  | .and_ f => lg 0x080 f
  | .or_ f => lg 0x081 f
  | .xor_ f => lg 0x082 f
  | .andn f => lg 0x083 f
  | .not_ f => row 0x084 [.w64] true true false (f.mn 3 1 == 0) { d := .regs (n0 f), a := .src (n0 f) (n0 f) true }
  | .tern f =>
      let m := if f.xb 8 then 2 else 1
      row 0x085 [.w96E, .w128] true true false (f.mod == 0 && f.xn 15 9 == 0)
        { d := .regs m, a := .src m m true, b := .src m m true, imm := .i32, c := .regs m }
  | .shl f => shift 0x086 f
  | .shr f => shift 0x087 f
  | .sar f => shift 0x088 f
  | .rot f => shift 0x089 f
  | .dsh f => row 0x08A both true true false (f.mn 3 1 == 0)
      { d := .regs 1, a := .src 1 1 true, b := .src 1 1 true, imm := .i32, c := .regs 1 }
  | .bfx f => row 0x08B both true true false (f.mn 3 2 == 0)
      { d := .regs (n0 f), a := .src (n0 f) (n0 f) true, b := .src 1 1 true, imm := .both }
  | .bfi f => row 0x08C both true true false (f.mn 3 1 == 0)
      { d := .regs (n0 f), a := .src (n0 f) (n0 f) true, b := .src 1 1 true, imm := .i32, c := .regs (n0 f) }
  | .popc f => count 0x08D f
  | .clz f => count 0x08E f
  | .ctz f => count 0x08F f
  | .brev f => row 0x090 [.w64] true true false (f.mn 3 1 == 0) { d := .regs (n0 f), a := .src (n0 f) (n0 f) true }
  | .pack f => some (specInt 0x091 [.w64] 1 .no (.regs 1) (4 ≤ t f && t f ≤ 13))
  | .unpk f => some (specInt 0x092 [.w64] 1 .i16 .zero (4 ≤ t f && t f ≤ 13))
  | .ipred f => row 0x0A0 both true true false (wideType (t f) && f.ctl.toNat < 6)
      { d := .pred, a := .src (n f) (n f) true, b := .src (n f) (n f) true, imm := .both, c := .lit }
  | .imask f => some (specInt 0x0A1 both (n f) .both .lit (wideType (t f) && f.ctl.toNat < 6))
  | .pcomb _ => row 0x0A2 [.w64] true true false true { d := .pred, a := .fld .pred, b := .fld .pred, c := .pred }
  | .icvt f => row 0x0A3 [.w64] true true false (typeOk (t f) && typeOk (f.cn 3 0) && f.cn 7 5 == 0)
      { d := .regs (regsOfType (f.cn 3 0)), a := .src (n f) (n f) true, c := .lit }
  -- group 0x3 (R126)
  | .fadd f => fl 0x0C0 f .both .lit (.regs 1) (f.ctl.toNat < 4)
  | .fsub f => fl 0x0C1 f .both .lit (.regs 1) (f.ctl.toNat < 4)
  | .fmul f => fl 0x0C2 f .both .lit (.regs 1) (f.ctl.toNat < 4)
  | .ffma f => fl 0x0C3 f .i32 (.regs 1) (.regs 1) true
  | .fmin f => fl 0x0C4 f .both .lit (.regs 1) (!f.mb 3 && f.ctl.toNat < 2)
  | .fmax f => fl 0x0C5 f .both .lit (.regs 1) (!f.mb 3 && f.ctl.toNat < 2)
  | .fpred f => fl 0x0C6 f .both .lit .pred (f.mn 3 2 == 0 && f.cn 7 4 == 0 && !(f.cb 3 && 6 ≤ f.cn 2 0))
  | .fmask f => fl 0x0C7 f .both .lit (.regs 1) (!f.mb 3 && f.cn 7 4 == 0 && !(f.cb 3 && 6 ≤ f.cn 2 0))
  | .fclass f => row 0x0C8 [.w64] true true false (f.mn 3 2 == 0 && floatTypeOk f) { d := .regs 1, a := .src 1 1 true }
  | .frnd f => row 0x0C9 [.w64] true true false (!f.mb 3 && floatTypeOk f && x2Ok f && f.ctl.toNat < 4)
      { d := .regs 1, a := .src 1 1 true, c := .lit }
  | .fscale f => row 0x0CA [.w64] true true false (floatTypeOk f && x2Ok f && f.ctl.toNat < 4)
      { d := .regs 1, a := .src 1 1 true, b := .src 1 1 true, imm := .i16, c := .lit }
  | .redf f => row 0x0CB [.w64] true false false (floatTypeOk f && x2Ok f && f.cn 1 0 != 3 && f.cn 7 4 == 0)
      { d := .reg .uni 1 1, a := .src 1 1 true, c := .lit }
  -- group 0x4
  | .f2f f => row 0x100 [.w64, .w96E] true true false
      (!f.mb 3 && f.cn 7 6 == 0 && f.xn 15 10 == 0) { d := .regs 1, a := .src 1 1 true, c := .lit }
  | .f2i f => row 0x101 [.w64] true true false (f.mn 3 2 == 0 && !f.cb 3 && typeOk (f.cn 7 4))
      { d := .regs (regsOfType (f.cn 7 4)), a := .src 1 1 true, c := .lit }
  | .i2f f =>
      let m := regsOfType (f.cn 3 0)
      row 0x102 [.w64] true true false (!f.mb 3 && typeOk (f.cn 3 0) && !f.cb 7) { d := .regs 1, a := .src m m true, c := .lit }
  | .rcp f => some (specSfu 0x110 f)
  | .rsq f => some (specSfu 0x111 f)
  | .sqrt f => some (specSfu 0x112 f)
  | .ex2 f => some (specSfu 0x113 f)
  | .exp f => some (specSfu 0x114 f)
  | .lg2 f => some (specSfu 0x115 f)
  | .log f => some (specSfu 0x116 f)
  | .sin f => some (specSfu 0x117 f)
  | .cos f => some (specSfu 0x118 f)
  | .tanh f => some (specSfu 0x119 f)
  | .sigm f => some (specSfu 0x11A f)
  -- group 0x5 (R103 to R107)
  | .xlane _ => row 0x140 both true false false true { d := .regs 1, a := .vecOrInd 1 1, b := .src 1 1 true, imm := .both }
  | .pgath f => row 0x141 [.w64] true false false (!f.mb 3 && (f.mn 1 0 != 0 || (f.b == 0 && f.c == 0)))
      { d := .reg .uni 2 2, a := .fld .pred, b := .fld .pred, c := .pred }
  | .bcast f => row 0x142 [.w64] true false false (f.mn 3 1 == 0)
      { d := .reg .uni (n0 f) (n0 f), a := .vecOrInd (n0 f) (n0 f), b := .uniOnly 1 1, imm := .i16 }
  | .redi f => row 0x143 [.w64] true false false (wideType (t f) && f.ctl.toNat < 6)
      { d := .reg .uni (n f) (n f), a := .src (n f) (n f) true, c := .lit }
  | .match_ f => row 0x144 [.w64] true false false (f.mn 3 1 == 0) { d := .regs 2, a := .src (n0 f) (n0 f) true }
  -- group 0x6 (R26)
  | .lea f =>
      let m := if f.mn 1 0 == 2 then 2 else 1
      addr 0x180 f both (.regs 2) (.src m m true) (!f.mb 2 && f.mn 1 0 != 3)
  | .aligndn f => addr 0x181 f [.w64] (.regs 2) .zero (f.mn 2 0 == 0)
  | .alignup f => addr 0x182 f [.w64] (.regs 2) .zero (f.mn 2 0 == 0)
  | .alcls f => addr 0x183 f [.w64] .pred .zero (!f.mb 2 && f.mn 1 0 != 3)
  | .bitofs f => addr 0x184 f [.w64] (.regs 1) .zero (f.mn 2 0 == 0 && !(f.mb 3 && 32 < f.c.toNat))
  | .b2bit f => row 0x185 [.w64] true true false (f.mod == 0) { d := .regs 2, a := .src 2 2 true }
  | .bit2b f => row 0x186 [.w64] true true false (f.mod == 0) { d := .regs 2, a := .src 2 2 true }
  | .pdiff f => addr 0x187 f [.w64] (.regs 2) (.src 2 2 true) (f.mn 2 0 == 0)
  -- group 0x7 (R241)
  | .ld f => mem 0x1C0 f [.w64, .w96I, .w128] true false (memD f) (memModOk f false)
  | .st f => mem 0x1C1 f [.w64, .w96I, .w128] true false (memD f) (memModOk f true)
  | .ldk f => mem 0x1C2 f both false true (memD f) (memModOk f false)
  | .stk f => mem 0x1C3 f both false true (memD f) (memModOk f true)
  | .ldx f => mem 0x1C4 f [.w96E, .w128] true false (.reg .byK (f.xn 3 0 + 1) 1)
      (typeOk (t f) && t f != 2 && t f != 3 && f.xn 15 4 == 0)
  | .stx f => mem 0x1C5 f [.w96E, .w128] true false (.reg .byK (f.xn 3 0 + 1) 1)
      (typeOk (t f) && t f != 2 && t f != 3 && f.xn 15 5 == 0)
  | .pref f => mem 0x1C6 f both true true .zero (f.mn 3 2 == 0 && f.mn 1 0 != 3)
  | .cctl f =>
      if f.mod == 1 then row 0x1C7 [.w64] true true true true {}
      else mem 0x1C7 f [.w64] true true .zero (f.mod.toNat ≤ 4)
  | .fence f => row 0x1C8 [.w64] true true false (!f.mb 3 && f.mn 2 0 != 7 && f.c.toNat < 4) { c := .lit }
  | .fenceEng f => bare 0x1C9 f true
  | .migr f => row 0x1CA [.w64] true true true (f.mod == 0) { a := .src 2 2 true, b := .src 1 1 false, imm := .i16 }
  -- group 0x8 (R212, R218, R224)
  | .lds f => spad 0x200 f false (.src 1 1 true)
  | .sts f => spad 0x201 f true (.src 1 1 true)
  | .ldsc f => spad 0x202 f false (.src 2 2 false)
  | .stsc f => spad 0x203 f true (.src 2 2 false)
  | .atoms f =>
      let m := if f.mod == 1 || f.mod == 10 || f.mod == 12 then 2 else 1
      let cas := f.mod == 11 || f.mod == 12
      row 0x204 both true false false (f.mod != 15)
        { d := .regs m, a := .src 1 1 true, b := .src m m false, imm := if cas then .i32 else .both, c := if cas then .regs m else .zero }
  | .syncset f => sync 0x210 f both .zero .both
  | .syncadd f => sync 0x211 f both .zero .both
  | .syncwait f => sync 0x212 f [.w64] (.regs 1) .i16
  | .synctest f => sync 0x213 f [.w64] .pred .i16
  | .barArrive f => bar 0x220 f (.regs 1) true
  | .barWait f => bar 0x221 f .zero false
  | .barSync f => bar 0x222 f .zero true
  | .cbarArrive f => bar 0x223 f (.regs 1) true
  | .cbarWait f => bar 0x224 f .zero false
  -- group 0x9 (R272)
  | .atom f => atomic 0x240 f [.w64, .w96I, .w128] true false (.regs (atomR f))
      (if f.form == .w128 then .regs (atomR f) else .zero)
      (f.mod == 0 && (aSlot f != 12 || f.form == .w128) && f.xn 15 11 == 0 && ordScopeOk f)
  | .red f => atomic 0x241 f both true false .zero .zero (f.mod == 0 && aSlot f != 12)
  | .atomk f => atomic 0x242 f both false true (.regs (atomR f)) .zero (f.mod == 0 && aSlot f != 12)
  | .atomx f => row 0x243 [.w128] true false true (f.mod == 0 && f.xn 15 5 == 0 && ordScopeOk f)
      { d := .regs 4, a := .src 2 2 true, b := .src 4 4 true, e := .regs 4, disp := true }
  | .msg f => row 0x244 [.w96E] true true true (scopeOk (f.mb 3) (f.mn 2 0) && f.xn 15 8 == 0)
      { a := .src 2 2 true, b := .src 16 1 true, f := .hnd }
  -- group 0xA (R295, R300)
  | .cpy f => row 0x280 [.w128] true true true (f.mod == 0 && f.xn 15 3 == 0 && f.xn 1 0 != 3) (copyShape f (copyRegs (f.xn 1 0)) false)
  | .cpyMm f => row 0x281 [.w128] true true true (f.mod == 0 && f.xn 15 4 == 0 && f.xn 1 0 != 3) (copyShape f (copyRegs (f.xn 1 0)) true)
  | .gather f => row 0x282 [.w128] true true true (f.mod == 0 && f.xn 15 3 == 0 && f.xn 1 0 == 0) (copyShape f 3 true)
  | .scatter f => row 0x283 [.w128] true true true (f.mod == 0 && f.xn 15 3 == 0 && f.xn 1 0 == 0) (copyShape f 3 true)
  | .fwait f => row 0x290 [.w64] true true false (f.mn 3 2 == 0) { d := .regs 1, a := .fld .hnd }
  | .ftest f => row 0x291 [.w64] true true false (f.mn 3 1 == 0) { d := .pred, a := .fld .hnd }
  | .fcancel f => row 0x292 [.w64] true true false (f.mod == 0) { a := .fld .hnd }
  | .fmov f => row 0x293 [.w64] true true false (f.mn 3 1 == 0)
      (if f.mb 0 then { d := .hnd, a := .src 1 1 false } else { d := .regs 1, a := .fld .hnd })
  -- group 0xB (R315)
  | .mma f => row 0x2C0 [.w128] true true true (f.mn 1 0 == 0 && f.xn 15 2 == 0) { a := .uniOnly 2 2, b := .uniOnly 2 2, f := .hnd }
  | .mmaSm f => row 0x2C1 [.w128] true true true (f.mn 2 0 == 0 && f.xn 15 10 == 0 && f.xn 1 0 != f.xn 3 2)
      { a := .uniOnly 2 2, b := .uniOnly 2 2, c := .reg .uni 1 1, e := .reg .uni 2 2, f := .hnd }
  | .accld f => row 0x2C2 [.w96E] true false true (f.mod == 0 && f.xn 15 9 == 0 && f.xn 8 6 == 0)
      { a := .uniOnly 2 2, b := .uniOnly 1 1, c := .reg .uni 1 1, f := .hnd }
  | .accst f => row 0x2C3 [.w96E] true false true (f.mod == 0 && f.xn 15 9 == 0)
      { a := .uniOnly 2 2, b := .uniOnly 1 1, c := .reg .uni 1 1, f := .hnd }
  | .accz f => row 0x2C4 [.w64] true true true (!f.mb 2) {}
  | .accside f => row 0x2C5 both true false true
      ((if f.form == .w64 then f.imm16.toNat else f.imm32.toNat) < 128) { d := .regs 2, imm := .must }
  | .quant f => row 0x2D0 [.w128] true false true (f.mn 2 0 == 0 && f.xn 2 0 ≤ 2 && f.xn 15 11 == 0)
      { a := .uniOnly 2 2, b := .uniOnly 2 2, c := .reg .uni 1 1, e := .reg .uni 1 1, f := .hnd, disp := true }
  | .deq f => row 0x2D1 [.w128] true false true (f.mn 2 0 == 0 && f.xn 2 0 ≤ 2 && f.xn 15 6 == 0)
      { a := .uniOnly 2 2, b := .uniOnly 2 2, c := .reg .uni 1 1, e := .reg .uni 1 1, f := .hnd, disp := true }
  -- group 0xC (R346)
  | .pldef f => row 0x300 [.w96E] true true false (f.mod == 0 && f.xn 15 1 == 0) { d := .regs 1, a := .uniOnly 1 1, b := .uniOnly 2 2 }
  | .plset f => pl 0x301 false (.regs 1) (.uniOnly 1 1) (.reg .uni 1 1) (f.mod == 0)
  | .ldPl f =>
      let m := if f.mb 3 then 2 else 1
      row 0x302 [.w96I, .w128] true false true (f.mn 2 0 == 0 && f.xn 15 4 == 0)
        { d := .reg .byK (f.xn 3 0 + 1) 1, a := .uniOnly 1 1, b := .src m m true, c := .reg .uni 1 1, disp := true }
  | .plconv f => pl 0x303 true .hnd (.uniOnly 1 1) .zero (f.mod == 0)
  | .plwait f => pl 0x304 false (.regs 1) (.uniOnly 1 1) .zero (f.mod == 0)
  | .plqry f => pl 0x305 false (.regs 2) .zero .zero (!f.mb 3)
  | .pldrop f => pl 0x306 false (.regs 1) .zero .zero (f.mod == 0)
  -- group 0xD (R197)
  | .spawn f => row 0x340 [.w64] true true false (f.mod == 0) { d := .pred, a := .uniOnly 8 1, imm := .must }
  | .launch f => row 0x341 [.w64] true true false (f.mod == 0) { d := .regs 1, a := .uniOnly 2 2, b := .src 1 1 false, imm := .i16 }
  | .produce f => bare 0x342 f true
  | .await f => row 0x343 [.w64] true true false (f.mod == 0) { d := .pred }
  | .sleep f => row 0x344 both true true false (f.mod == 0) { b := .src 1 1 false, imm := .both }
  | .setprio f => row 0x345 [.w64] true true false (f.mod == 0) { b := .src 1 1 false, imm := .i16 }
  -- group 0xE (R367, R391, R431, R440)
  | .trap f => sys 0x380 .zero .zero .i16 (f.mod == 0)
  | .rte f => sys 0x381 .zero .zero .no (f.mod == 0)
  | .sysrd f => sys 0x382 (.regs 2) .zero .i16 (f.mod == 0)
  | .syswr f => sys 0x383 .zero (.src 2 2 false) .i16 (f.mod == 0)
  | .halt f => sys 0x384 .zero .zero .no (f.mod == 0)
  | .tlbinvInv f =>
      if f.mb 1 then row 0x388 [.w64] true true false (f.mn 3 2 == 0 && !f.mb 0) { d := .regs 1 }
      else sys 0x388 (.regs 1) (.src 2 2 false) .i16 (f.mn 3 2 == 0 && !f.mb 0)
  | .tlbinvCommit f => sys 0x388 (.regs 1) .zero .i16 (f.mn 3 1 == 0 && f.mb 0)
  | .amsg f => sys 0x38C (.regs 1) (.src 2 2 false) .i16 (f.mn 3 1 == 0)
  | .arecv f => sys 0x38D (.regs 1) (.src 2 2 false) .no (f.mn 3 2 == 0)
  | .bkpt f => row 0x3A0 [.w64] true true false (f.mod == 0) { imm := .must }
  | .pmark f => row 0x3A1 both true true false (f.mod == 0) { b := .src 1 1 false, imm := .both }
  | _ => none

/-- The element indexes of the 96-bit F2F (R141) lie within the register. -/
def f2fIndexOk (f : Fields) : Bool :=
  let w (c : Nat) : Nat := match c with | 0 => 32 | 1 => 16 | 2 => 16 | 3 => 8 | 4 => 8 | 5 => 6 | 6 => 6 | _ => 4
  f.form == .w64 ||
  (f.xn 4 0 * w (f.cn 2 0) + w (f.cn 2 0) ≤ 32 && f.xn 9 5 * w (f.cn 5 3) + w (f.cn 5 3) ≤ 32)

/-! ## LOOPNEST (R147, R148) -/

/-- The operands a nest operation uses besides D and A (R149); `none` for an unassigned xop. -/
def nestUses (xop : Nat) : Option (Bool × Bool × Bool) :=   -- uses B, uses C, reduction
  match xop with
  | 0 | 7 => some (false, false, false)
  | 1 | 2 | 3 | 5 | 6 | 8 => some (true, false, false)
  | 4 => some (true, true, false)
  | 16 | 17 | 18 => some (false, false, true)
  | 19 => some (true, false, true)
  | _ => none

def NestFields.exts (f : NestFields) : List (BitVec 16) := [f.ext0, f.ext1, f.ext2, f.ext3, f.ext4]

def NestFields.levels (f : NestFields) : Nat := f.lv.toNat + 1

/-- The ILLEGAL_OP checks of R43, R147 and R148. -/
def NestFields.ok (f : NestFields) : Bool :=
  match nestUses f.xop.toNat with
  | none => false
  | some (useB, useC, red) =>
      let pairOk (x : BitVec 8) := x.toNat % 2 == 0 && x.toNat < 128
      f.lv.toNat ≤ 4 && (f.exts.drop f.levels).all (· == 0) &&
      (if red then 0 < f.r.toNat && f.r.toNat ≤ f.levels else f.r == 0) &&
      pairOk f.d && pairOk f.a && f.tD.toNat < 128 && f.tA.toNat < 128 &&
      (if useB then pairOk f.b && f.tB.toNat < 128 else f.b == 0 && f.tB == 0) &&
      (if useC then pairOk f.c && f.tC.toNat < 128 else f.c == 0 && f.tC == 0)

/-- The registers a nest names (R148). -/
def NestFields.refs (f : NestFields) : List RegRef :=
  let pair (x : BitVec 8) : List RegRef := [⟨true, x.toNat⟩, ⟨true, x.toNat + 1⟩]
  let strides (x : BitVec 8) : List RegRef := (List.range f.levels).map fun i => ⟨true, x.toNat + i⟩
  match nestUses f.xop.toNat with
  | none => []
  | some (useB, useC, _) =>
      pair f.d ++ pair f.a ++ strides f.tD ++ strides f.tA ++
      (if useB then pair f.b ++ strides f.tB else []) ++ (if useC then pair f.c ++ strides f.tC else [])

/-! ## The checks of R59, item 2, as one test -/

/-- The word of an instruction row passes every ILLEGAL_OP check that its bits decide. -/
def Instr.check (i : Instr) : Bool :=
  match i with
  | .loopnest f => f.ok
  | _ =>
    match i.fields?, i.spec? with
    | some f, some s =>
        s.forms.contains f.form && (if f.k then s.k1 else s.k0) && (s.hints || f.hint == 0) &&
        s.shape.ok f && s.mods && (match i with | .f2f g => f2fIndexOk g | _ => true)
    | _, _ => false

/-- The registers an instruction's fields name directly (R47). -/
def Instr.refs (i : Instr) : List RegRef :=
  match i with
  | .loopnest f => f.refs
  | _ =>
    match i.fields?, i.spec? with
    | some f, some s => s.shape.refs f
    | _, _ => []

/-! ## From opcode and fields to the instruction (R61) -/

def ofOp (op : Nat) (f : Fields) : Option Instr :=
  match op with
  | 0x001 => some (.nop f) | 0x002 => some (.bra f) | 0x003 => some (.brx f) | 0x004 => some (.call f)
  | 0x005 => some (.callx f) | 0x006 => some (.ret f) | 0x007 => some (.exit_ f) | 0x008 => some (.yield_ f)
  | 0x009 => some (.loop f) | 0x00A => some (.enter f) | 0x00B => some (.leave f)
  | 0x040 => some (.iadd f) | 0x041 => some (.isub f) | 0x042 => some (.iadd3 f) | 0x043 => some (.iaddc f)
  | 0x044 => some (.imul f) | 0x045 => some (.imulhi f) | 0x046 => some (.imad f) | 0x047 => some (.imadw f)
  | 0x048 => some (.idiv f) | 0x049 => some (.imin f) | 0x04A => some (.imax f) | 0x04B => some (.iabs f)
  | 0x04C => some (.ineg f) | 0x04D => some (.isad f) | 0x04E => some (.dot4 f)
  | 0x060 => some (.mov f) | 0x061 => some (.movi f) | 0x062 => some (.movx f) | 0x063 => some (.sel f)
  | 0x064 => some (.xset f) | 0x065 => some (.xadd f) | 0x066 => some (.rdspec f) | 0x067 => some (.p2v f)
  | 0x068 => some (.v2p f)
  | 0x080 => some (.and_ f) | 0x081 => some (.or_ f) | 0x082 => some (.xor_ f) | 0x083 => some (.andn f)
  | 0x084 => some (.not_ f) | 0x085 => some (.tern f) | 0x086 => some (.shl f) | 0x087 => some (.shr f)
  | 0x088 => some (.sar f) | 0x089 => some (.rot f) | 0x08A => some (.dsh f) | 0x08B => some (.bfx f)
  | 0x08C => some (.bfi f) | 0x08D => some (.popc f) | 0x08E => some (.clz f) | 0x08F => some (.ctz f)
  | 0x090 => some (.brev f) | 0x091 => some (.pack f) | 0x092 => some (.unpk f)
  | 0x0A0 => some (.ipred f) | 0x0A1 => some (.imask f) | 0x0A2 => some (.pcomb f) | 0x0A3 => some (.icvt f)
  | 0x0C0 => some (.fadd f) | 0x0C1 => some (.fsub f) | 0x0C2 => some (.fmul f) | 0x0C3 => some (.ffma f)
  | 0x0C4 => some (.fmin f) | 0x0C5 => some (.fmax f) | 0x0C6 => some (.fpred f) | 0x0C7 => some (.fmask f)
  | 0x0C8 => some (.fclass f) | 0x0C9 => some (.frnd f) | 0x0CA => some (.fscale f) | 0x0CB => some (.redf f)
  | 0x100 => some (.f2f f) | 0x101 => some (.f2i f) | 0x102 => some (.i2f f)
  | 0x110 => some (.rcp f) | 0x111 => some (.rsq f) | 0x112 => some (.sqrt f) | 0x113 => some (.ex2 f)
  | 0x114 => some (.exp f) | 0x115 => some (.lg2 f) | 0x116 => some (.log f) | 0x117 => some (.sin f)
  | 0x118 => some (.cos f) | 0x119 => some (.tanh f) | 0x11A => some (.sigm f)
  | 0x140 => some (.xlane f) | 0x141 => some (.pgath f) | 0x142 => some (.bcast f) | 0x143 => some (.redi f)
  | 0x144 => some (.match_ f)
  | 0x180 => some (.lea f) | 0x181 => some (.aligndn f) | 0x182 => some (.alignup f) | 0x183 => some (.alcls f)
  | 0x184 => some (.bitofs f) | 0x185 => some (.b2bit f) | 0x186 => some (.bit2b f) | 0x187 => some (.pdiff f)
  | 0x1C0 => some (.ld f) | 0x1C1 => some (.st f) | 0x1C2 => some (.ldk f) | 0x1C3 => some (.stk f)
  | 0x1C4 => some (.ldx f) | 0x1C5 => some (.stx f) | 0x1C6 => some (.pref f) | 0x1C7 => some (.cctl f)
  | 0x1C8 => some (.fence f) | 0x1C9 => some (.fenceEng f) | 0x1CA => some (.migr f)
  | 0x200 => some (.lds f) | 0x201 => some (.sts f) | 0x202 => some (.ldsc f) | 0x203 => some (.stsc f)
  | 0x204 => some (.atoms f)
  | 0x210 => some (.syncset f) | 0x211 => some (.syncadd f) | 0x212 => some (.syncwait f) | 0x213 => some (.synctest f)
  | 0x220 => some (.barArrive f) | 0x221 => some (.barWait f) | 0x222 => some (.barSync f)
  | 0x223 => some (.cbarArrive f) | 0x224 => some (.cbarWait f)
  | 0x240 => some (.atom f) | 0x241 => some (.red f) | 0x242 => some (.atomk f) | 0x243 => some (.atomx f)
  | 0x244 => some (.msg f)
  | 0x280 => some (.cpy f) | 0x281 => some (.cpyMm f) | 0x282 => some (.gather f) | 0x283 => some (.scatter f)
  | 0x290 => some (.fwait f) | 0x291 => some (.ftest f) | 0x292 => some (.fcancel f) | 0x293 => some (.fmov f)
  | 0x2C0 => some (.mma f) | 0x2C1 => some (.mmaSm f) | 0x2C2 => some (.accld f) | 0x2C3 => some (.accst f)
  | 0x2C4 => some (.accz f) | 0x2C5 => some (.accside f) | 0x2D0 => some (.quant f) | 0x2D1 => some (.deq f)
  | 0x300 => some (.pldef f) | 0x301 => some (.plset f) | 0x302 => some (.ldPl f) | 0x303 => some (.plconv f)
  | 0x304 => some (.plwait f) | 0x305 => some (.plqry f) | 0x306 => some (.pldrop f)
  | 0x340 => some (.spawn f) | 0x341 => some (.launch f) | 0x342 => some (.produce f) | 0x343 => some (.await f)
  | 0x344 => some (.sleep f) | 0x345 => some (.setprio f)
  | 0x380 => some (.trap f) | 0x381 => some (.rte f) | 0x382 => some (.sysrd f) | 0x383 => some (.syswr f)
  | 0x384 => some (.halt f) | 0x388 => some (if f.mb 0 then .tlbinvCommit f else .tlbinvInv f)
  | 0x38C => some (.amsg f) | 0x38D => some (.arecv f)
  | 0x3A0 => some (.bkpt f) | 0x3A1 => some (.pmark f)
  | _ => none

/-! ## Words -/

/-- Bits [63:0] of the common layout (R38). -/
def packLow (len : BitVec 2) (op : BitVec 10) (f : Fields) : BitVec 64 :=
  f.asel ++ f.bsel ++ f.c ++ f.b ++ f.a ++ f.d ++ BitVec.ofBool f.k ++ f.hint ++ BitVec.ofBool f.drain ++
  BitVec.ofBool f.guard.gbn ++ f.guard.gb ++ BitVec.ofBool f.guard.gan ++ f.guard.ga ++ f.mod ++ op ++ len

/-- Length code and bits [127:64] (R35, R39); the tail of a 96-bit word is 0. -/
def packExt : Ext → BitVec 2 × BitVec 64
  | .none => (1, 0)
  | .immI imm => (2, (0 : BitVec 32) ++ imm)
  | .extE xmod f e => (2, (0 : BitVec 32) ++ (xmod ++ f ++ e))
  | .full xmod f e imm => (3, xmod ++ f ++ e ++ imm)

/-- The common layout, read; `ext` is what the length code and the opcode's kind give. -/
def unpackLow (w : BitVec 64) (ext : Ext) : Fields where
  guard := { ga := w.extractLsb' 16 3, gan := w.getLsbD 19, gb := w.extractLsb' 20 3, gbn := w.getLsbD 23 }
  drain := w.getLsbD 24
  hint := w.extractLsb' 25 2
  k := w.getLsbD 27
  mod := w.extractLsb' 12 4
  d := w.extractLsb' 28 8
  a := w.extractLsb' 36 8
  b := w.extractLsb' 44 8
  c := w.extractLsb' 52 8
  bsel := w.extractLsb' 60 2
  asel := w.extractLsb' 62 2
  ext := ext

/-- The opcodes whose 96-bit form is of kind E (R61). -/
def kindE (op : Nat) : Bool :=
  [0x085, 0x100, 0x1C4, 0x1C5, 0x244, 0x2C2, 0x2C3, 0x300].contains op

/-- Bits [127:64] read by length code and kind; `none` where the tail is not 0 (R36). -/
def unpackExt (len : BitVec 2) (op : Nat) (hi : BitVec 64) : Option Ext :=
  if len == 1 then some .none
  else if len == 2 then
    if hi.extractLsb' 32 32 != 0 then none
    else if kindE op then some (.extE (hi.extractLsb' 16 16) (hi.extractLsb' 8 8) (hi.extractLsb' 0 8))
    else some (.immI (hi.extractLsb' 0 32))
  else some (.full (hi.extractLsb' 48 16) (hi.extractLsb' 40 8) (hi.extractLsb' 32 8) (hi.extractLsb' 0 32))

/-- The 256-bit LOOPNEST (R147). -/
def packNest (f : NestFields) : BitVec 256 :=
  (0 : BitVec 48) ++ f.ext4 ++ f.ext3 ++ f.ext2 ++ f.ext1 ++ f.ext0 ++ f.tC ++ f.tB ++ f.tA ++ f.tD ++ (0 : BitVec 12) ++
  f.rnd ++ f.fd ++ f.fs ++ f.r ++ f.lv ++ f.xop ++
  (0b01 : BitVec 2) ++ (0b01 : BitVec 2) ++ f.c ++ f.b ++ f.a ++ f.d ++ (0 : BitVec 3) ++ BitVec.ofBool f.drain ++
  (0x77 : BitVec 8) ++ (0 : BitVec 4) ++ (0x0F0 : BitVec 10) ++ (0 : BitVec 2)

def unpackNest (w : BitVec 256) : NestFields where
  drain := w.getLsbD 24
  d := w.extractLsb' 28 8
  a := w.extractLsb' 36 8
  b := w.extractLsb' 44 8
  c := w.extractLsb' 52 8
  xop := w.extractLsb' 64 5
  lv := w.extractLsb' 69 3
  r := w.extractLsb' 72 3
  fs := w.extractLsb' 75 3
  fd := w.extractLsb' 78 3
  rnd := w.extractLsb' 81 3
  tD := w.extractLsb' 96 8
  tA := w.extractLsb' 104 8
  tB := w.extractLsb' 112 8
  tC := w.extractLsb' 120 8
  ext0 := w.extractLsb' 128 16
  ext1 := w.extractLsb' 144 16
  ext2 := w.extractLsb' 160 16
  ext3 := w.extractLsb' 176 16
  ext4 := w.extractLsb' 192 16

/-- Why the decoder refuses a word. All such words raise ILLEGAL_OP (R59, item 2). -/
inductive DecodeError where
  | unassignedOp (op : Nat)      -- R61
  | tailNotZero                  -- R36
  | badForm                      -- a length, K, selector, field, modifier, hint or reserved bit the opcode does not allow
  | truncated                    -- fewer bytes than the slot
  deriving DecidableEq, Repr

/-- The instruction whose slot begins with the given bits (R35 to R61). Bits above the slot are not read. -/
def decode (w : BitVec 256) : Except DecodeError Instr :=
  let len := w.extractLsb' 0 2
  let op := (w.extractLsb' 2 10).toNat
  if len == 0 then
    if op == 0x0F0 then
      let f := unpackNest w
      if packNest f == w && f.ok then .ok (.loopnest f) else .error .badForm
    else .error (.unassignedOp op)
  else
    match unpackExt len op (w.extractLsb' 64 64) with
    | none => .error .tailNotZero
    | some ext =>
      match ofOp op (unpackLow (w.extractLsb' 0 64) ext) with
      | none => .error (.unassignedOp op)
      | some i => if i.check then .ok i else .error .badForm

/-- The slot an instruction occupies, in bits (R35). -/
def Instr.slot (i : Instr) : Nat :=
  match i.fields? with
  | some f => f.slot
  | none => 256

/-- The word of an instruction row (0 for an event, which has no word). -/
def encode (i : Instr) : BitVec 256 :=
  match i with
  | .loopnest f => packNest f
  | _ =>
    match i.fields?, i.spec? with
    | some f, some s =>
        ((packExt f.ext).2 ++ packLow (packExt f.ext).1 (BitVec.ofNat 10 s.op) f).setWidth 256
    | _, _ => 0

/-! ## Bytes -/

/-- The number whose bytes, lowest first, are given (R4). -/
def natOfBytes : List Byte → Nat
  | [] => 0
  | b :: bs => b.toNat + 256 * natOfBytes bs

/-- Bytes of the slot that a length code announces (R35). -/
def slotBytes (len : BitVec 2) : Nat := if len == 1 then 8 else if len == 0 then 32 else 16

/-- Decode the instruction at the head of a byte string; also gives how many bytes it takes. -/
def decodeBytes (bs : List Byte) : Except DecodeError (Instr × Nat) :=
  match bs with
  | [] => .error .truncated
  | b0 :: _ =>
    let n := slotBytes (b0.extractLsb' 0 2)
    if bs.length < n then .error .truncated
    else
      match decode (BitVec.ofNat 256 (natOfBytes (bs.take n))) with
      | .ok i => .ok (i, n)
      | .error e => .error e

/-- The instruction the decoder reads from a word of the table's numbering (bits above `nbits` are 0). -/
def decodeTableWord (nbits w : Nat) : Option Instr :=
  match decode (BitVec.ofNat 256 (w % 2 ^ nbits)) with
  | .ok i => some i
  | .error _ => none

end Sys2Proof
end

