-- ==== Sys2Proof/Machine/Bits.lean ====
section
/-! DEFINITION. Bit fields, sign extension, byte order and the sparse tables of the state. -/

namespace Sys2Proof.Machine

/-! ## Sparse tables -/

/-- The value of a key; `d` is what an unlisted key has. -/
def tget {α : Type} (d : α) : Table α → Nat → α
  | [], _ => d
  | (k', v) :: t, k => if k < k' then d else if k = k' then v else tget d t k

/-- Give a key a value, keeping keys rising and no entry equal to `d`. -/
def tput {α : Type} [DecidableEq α] (d : α) : Table α → Nat → α → Table α
  | [], k, v => if v = d then [] else [(k, v)]
  | (k', v') :: t, k, v =>
      if k < k' then (if v = d then (k', v') :: t else (k, v) :: (k', v') :: t)
      else if k = k' then (if v = d then t else (k, v) :: t)
      else (k', v') :: tput d t k v

/-- Change the value of a key. -/
def tmod {α : Type} [DecidableEq α] (d : α) (t : Table α) (k : Nat) (f : α → α) : Table α :=
  tput d t k (f (tget d t k))

/-- The canonical form: keys rising and no entry equal to `d`. -/
def twf {α : Type} [DecidableEq α] (d : α) : Table α → Bool
  | [] => true
  | [(_, v)] => v != d
  | (k, v) :: (k', v') :: t => v != d && decide (k < k') && twf d ((k', v') :: t)

/-- Give the consecutive keys from `lo` up the listed values. -/
def tputRange {α : Type} [DecidableEq α] (d : α) (t : Table α) (lo : Nat) (vals : List α) : Table α :=
  t.filter (·.1 < lo) ++
  ((vals.zipIdx lo).filterMap fun (v, k) => if v = d then none else some (k, v)) ++
  t.filter (lo + vals.length ≤ ·.1)

/-- The values of `n` consecutive keys from `lo` up. -/
def tgetRange {α : Type} (d : α) (t : Table α) (lo n : Nat) : List α :=
  let u := t.filter fun x => decide (lo ≤ x.1) && decide (x.1 < lo + n)
  (List.range n).map fun i => tget d u (lo + i)

/-! ## Bits of numbers -/

/-- Bits [hi:lo] of a number (R6). -/
def bits (x hi lo : Nat) : Nat := (x >>> lo) % 2 ^ (hi + 1 - lo)

/-- Bit `i` of a number. -/
def bitOf (x i : Nat) : Bool := (x >>> i) % 2 == 1

def b2n (b : Bool) : Nat := if b then 1 else 0

/-- The low `w` bits read as two's complement (SInt of R10). -/
def sintOf (w x : Nat) : Int :=
  let y := x % 2 ^ w
  if y < 2 ^ (w - 1) then (y : Int) else (y : Int) - 2 ^ w

/-- The low `w` bits of an integer, as a number: arithmetic on bits(w) wraps (R8). -/
def wrapInt (w : Nat) (z : Int) : Nat := (z % (2 ^ w : Nat)).toNat

/-- SignExt of R10, from `w` bits to `n`. -/
def signExt (w n x : Nat) : Nat := wrapInt n (sintOf w x)

/-- x with `w` bits from `at_` up replaced by the low bits of `v`. -/
def insertBits (x at_ w v : Nat) : Nat :=
  (x >>> (at_ + w)) <<< (at_ + w) + ((v % 2 ^ w) <<< at_ + x % 2 ^ at_)

/-- Bitwise complement in `w` bits. -/
def notBits (w x : Nat) : Nat := 2 ^ w - 1 - x % 2 ^ w

/-- The number of set bits among the low `w`. -/
def popCount : Nat → Nat → Nat
  | 0, _ => 0
  | w + 1, x => x % 2 + popCount w (x / 2)

/-- The low `w` bits in reverse order. -/
def reverseBits : Nat → Nat → Nat
  | 0, _ => 0
  | w + 1, x => (x % 2) <<< w + reverseBits w (x / 2)

/-- Zero bits below the lowest set bit of the low `w`; `w` when none is set. -/
def trailingZeros : Nat → Nat → Nat
  | 0, _ => 0
  | w + 1, x => if x % 2 = 1 then 0 else 1 + trailingZeros w (x / 2)

/-- Zero bits above the highest set bit of the low `w`. -/
def leadingZeros (w x : Nat) : Nat :=
  let y := x % 2 ^ w
  if y = 0 then w else w - 1 - Nat.log2 y

/-- The numbers of the set bits of a mask, ascending, from `i` up. -/
def setBitsFrom (i : Nat) : Nat → Nat → List Nat
  | 0, _ => []
  | w + 1, x => if x % 2 = 1 then i :: setBitsFrom (i + 1) w (x / 2) else setBitsFrom (i + 1) w (x / 2)

def setBits (w x : Nat) : List Nat := setBitsFrom 0 w x

/-- The mask whose set bits are listed. -/
def maskOf (l : List Nat) : Nat := l.foldl (fun m i => m ||| 1 <<< i) 0

/-! ## Bytes -/

/-- The bytes of a number, lowest first (R4). -/
def bytesOf : Nat → Nat → List Byte
  | 0, _ => []
  | n + 1, x => BitVec.ofNat 8 x :: bytesOf n (x / 256)

/-- The number whose bytes, lowest first, are given. -/
def ofBytes : List Byte → Nat
  | [] => 0
  | b :: bs => b.toNat + 256 * ofBytes bs

/-- The `w` bits at bit address `a`, out of a store of bytes (R4). -/
def readBits (byte : Nat → Nat) (a w : Nat) : Nat :=
  let n := (a % 8 + w + 7) / 8
  (((List.range n).foldr (fun i acc => byte (a / 8 + i) + 256 * acc) 0) >>> (a % 8)) % 2 ^ w

/-- Two runs of bits meet. -/
def overlap (a w b v : Nat) : Bool := decide (a < b + v) && decide (b < a + w)

/-- The bytes, with their addresses, that hold bits a to a + w - 1 after those bits become `v`, given the old bytes. -/
def writeBits (byte : Nat → Nat) (a w v : Nat) : List (Nat × Byte) :=
  let n := (a % 8 + w + 7) / 8
  let old := (List.range n).foldr (fun i acc => byte (a / 8 + i) + 256 * acc) 0
  let new := insertBits old (a % 8) w v
  ((List.range n).zip (bytesOf n new)).map fun (i, b) => (a / 8 + i, b)

end Sys2Proof.Machine
end

