-- ==== Sys2Proof/Machine/Flags.lean ====
section
/-! DEFINITION. Flags and conditions: saturation, carry, integer and float conditions, the sticky flags of fmode. -/

namespace Sys2Proof.Machine

/-! ## Integer types (R73, R74, R77) -/

/-- Elems(T). -/
def elems (t : Nat) : Nat := if typeWidth t < 32 then 32 / typeWidth t else 1

/-- The low bits of x read as T. -/
def readAs (t x : Nat) : Int := if typeSigned t then sintOf (typeWidth t) x else (x % 2 ^ typeWidth t : Nat)

/-- Elt(r, T, i). -/
def elt (x t i : Nat) : Int := readAs t (x >>> (i * typeWidth t))

def typeMin (t : Nat) : Int := if typeSigned t then -(2 ^ (typeWidth t - 1) : Nat) else 0
def typeMax (t : Nat) : Int := if typeSigned t then (2 ^ (typeWidth t - 1) : Nat) - 1 else (2 ^ typeWidth t : Nat) - 1

/-- Clamp(z, T). -/
def clamp (z : Int) (t : Nat) : Int := max (typeMin t) (min z (typeMax t))

/-- The element an exact result leaves: saturated or wrapped (R77). -/
def narrow (t : Nat) (sat : Bool) (z : Int) : Nat := wrapInt (typeWidth t) (if sat then clamp z t else z)

/-- A packed register from its elements, unused high bits 0 (R74). -/
def packElems (t : Nat) (g : Nat → Nat) : Nat :=
  (List.range (elems t)).foldl (fun acc i => acc + g i <<< (i * typeWidth t)) 0

/-! ## Conditions -/

/-- The condition of IPRED and IMASK (R76): eq, ne, lt, le, gt, ge. -/
def intCond (c : Nat) (x y : Int) : Bool :=
  match c with
  | 0 => x == y | 1 => x != y | 2 => decide (x < y) | 3 => decide (x ≤ y) | 4 => decide (x > y) | _ => decide (x ≥ y)

/-- The carry out of IADDC (R87). -/
def carryOut (w z : Nat) : Bool := decide (2 ^ w ≤ z)

/-! ## Sticky flags (R116) -/

def fInvalid : Word := 0x100
def fDivZero : Word := 0x200
def fOverflow : Word := 0x400
def fUnderflow : Word := 0x800
def fInexact : Word := 0x1000

end Sys2Proof.Machine
end

