-- ==== Sys2Proof/Config.lean ====
section
/-! DEFINITION. What an implementation fixes (R494 and "not architected") and the free values: opaque constants
with no body, so that nothing can be proved of their values. -/

namespace Sys2Proof.Config

/-- R54: which of two values a racing read or write within a run leaves. `true` is the older value. The
arguments are the machine's free-value counter, whether the access is a write, and the register's number and lane.
Log entry 3. -/
opaque raceOld : Nat → Bool → Nat → Nat → Bool

/-- R229: the slice and set of a line, as one number: the hash of its physical address is not architected. Log entry 26. -/
opaque l2Set : Nat → Nat

/-- R228, R229: which of several lines that may go a full cache gives up, at a value of the free-value counter. Log entry 26. -/
opaque pick : Nat → Nat

/-- R145: the fixed encoding of a special function that is not one of the exact cases: function number (op - 0x110),
format code of R138 and operand encoding give the result encoding. Log entry 4. -/
opaque specialFunction : Nat → Nat → Nat → Nat

/-- R117: whether an RDSPEC in the run of a flag-setting instruction already sees the flag. Log entry 3. -/
opaque flagEarly : Nat → Bool

/-- R294: which of two elements of one copy that write the same bits supplies them; `true` keeps the later in
the copy's own order. Log entry 5. -/
opaque copyLaterWins : Nat → Nat → Bool

/-- R402: the plane hash H of device and pa[54:11]; fixed for a fabric domain, not architected. Log entry 6. -/
opaque planeHash : Nat → Nat → Nat

/-- R448: which of the three HBM controllers of a die serves a line; not architected. Log entry 6. -/
opaque controllerOf : Nat → Nat

/-- R281: the new value an extension handler (slots 24 to 31) writes, by slot, width, old value, x and y; `none` when the
handler exceeds its budget of 256 steps. Its table of effects is the firmware's. Log entry 7. -/
opaque extensionHandler : Nat → Nat → Nat → Nat → Nat → Option Nat

/-- R454: SHA-256 of a byte string. The spec names the function and does not define it. Log entry 8. -/
opaque sha256 : List Byte → List Byte

/-- R453, R458: whether an ECDSA P-256 signature by the Plovem root verifies over the given bytes. Log entry 8. -/
opaque plovemSignatureOk : List Byte → List Byte → Bool

/-- R449, R450: whether a tenant's request is signed by the tenant. Log entry 8. -/
opaque tenantSignatureOk : List Byte → Bool

/-- R460: the controller's signature, with the identity key, over a report. Log entry 8. -/
opaque identitySign : List Byte → List Byte

/-- R184: the rotation among the four dies, when a cluster has no usable anchor. Log entry 6. -/
opaque dieRotation : Nat → Nat

/-- R25, R494: a free choice the machine makes at a given value of its free-value counter. Log entry 5. -/
opaque choice : Nat → Bool

/-- R331: the code of an element of a member's local tensor on another device, which this device's state does not hold: by
entry, time of the conversion's first join, member and element. Log entry 10. -/
opaque remoteElement : Nat → Nat → Nat → Nat → Nat

/-- R400: how many flits after the hand-back control flit the wavelength returns (S); the spec bounds it by 1 to
4,096 and gives no distance. Log entry 6. -/
opaque handBackDistance : Nat → Nat

/-- R395, R400: the credit field and the payload of a control flit that names a wavelength, and at hand-back the flit S; the
spec gives no layout. Log entry 9. -/
opaque controlFlit : Nat → Nat → Option (BitVec 16) → BitVec 11 × BitVec 512

/-- R405: whether a host link negotiated protocol version 1 at training. Log entry 9. -/
opaque versionOne : Nat → Bool

/-- R406: the link, of a host's four, that a line's requests take; the hash is not architected. Log entry 9. -/
opaque hostLink : Nat → Nat → Nat

/-- R410: the bits that a host writes back of a line that it holds modified, by host ID and line: the device does not see
the host's stores before. Log entry 9. -/
opaque hostLine : Nat → Nat → Nat

/-- R455: floor and ceiling in mV and clock in MHz of each island in an island-limits payload, whose layout the spec does
not give; none where the payload has no such reading. Log entry 13. -/
opaque islandPayload : List Byte → Option (List (Nat × Nat × Nat))

/-- R456: T_lim of each island in a thermal-limits payload, whose layout the spec does not give. Log entry 13. -/
opaque thermalPayload : List Byte → Option (List Nat)

/-- R454, R457: the controller's own firmware, which is measured before any image. Log entry 8. -/
opaque controllerFirmware : List Byte

end Sys2Proof.Config
end

