-- ==== Sys2Proof/Machine/State.lean ====
section
/-! DEFINITION. The state of the machine, as plain data, and the state after reset. -/

namespace Sys2Proof.Machine

/-! ## Stops -/

/-- Why a step stops. -/
inductive Fault where
  /-- Raised by an access to physical region 10 (device registers, R17): no chapter defines a device register that
  lies at a physical address. Safe: the machine stops where the part would do something unknown. -/
  | deviceRegister (pa : Nat)
  deriving DecidableEq, Repr

/-- Why a step has no meaning. -/
inductive Refusal where
  /-- Answered by an arm of `exec` whose instruction has no meaning yet. Safe. -/
  | notModelled (mnemonic : String)
  deriving DecidableEq, Repr

/-! ## Warps (R67, R69, R155, R170, R427) -/

/-- A register of a warp, by file and number (R67). -/
inductive RegName where
  | v (n : Nat) | s (n : Nat) | p (n : Nat) | q (n : Nat) | x (n : Nat) | h (n : Nat)
  deriving DecidableEq, Repr

/-- A value for one register; `lane` is 0 for the files with one copy for each warp. -/
structure RegWrite where
  name  : RegName
  lane  : Nat
  value : Nat
  deriving DecidableEq, Repr

/-- The architected waits, the parks (R427), and the HALT and ARECV of a Vesper core (R393, R435). -/
inductive WaitKind where
  | none | await | syncwait | barWait | barSync | cbarWait | fwait | plwait | sleep | pagePark | placementPark
  | pendingHandle | vesperHalt | arecv
  deriving DecidableEq, Repr

/-- The sequencer of a quad (R155), with its wait and yield mark (R427). The wait operand is the token of kinds 3 to 5
and, for SLEEP, the timer value at which the sleep ends. -/
structure Quad where
  pc      : DWord
  ctr     : BitVec 16
  live    : BitVec 4
  wait    : WaitKind
  operand : Nat
  yielded : Bool
  team    : Nat := 0           -- its sub-gang at the last selection point, by its first quad (R158)
  deriving DecidableEq, Repr

/-- The nest state of R154: valid, the level indices and the accumulator (an FP32 encoding); and the instruction while its
nest runs (R153). `pc` is the counter of the LOOPNEST whose nest it is; `asked` is the place in issue order of its present chunk's
reads. -/
structure Nest where
  valid : Bool
  pc    : DWord
  idx   : List Nat
  acc   : Word
  asked : Nat
  running : Option NestFields
  deriving DecidableEq, Repr

/-- One lane of a load that has not returned: the operand of R428, the parts still out and the value so far. -/
structure LaneWait where
  lane    : Nat
  operand : Nat
  left    : Nat
  value   : Nat
  deriving DecidableEq, Repr

/-- How a returned load value becomes register writes: the file, the first register, the number of elements (1 but for
LDX), the width of an element and its sign. -/
structure LoadDest where
  uniform : Bool
  reg     : Nat
  elems   : Nat
  width   : Nat
  signed  : Bool
  deriving DecidableEq, Repr

/-- What a halt does with an entry (R422): its value is known; it is a load, whose lanes still out are replayed; or it
completes in the background. -/
inductive ResultKind where
  | known | load | wait
  deriving DecidableEq, Repr

/-- A scoreboard entry (R55): the instruction's PC, the registers it covers, the values that have come back and not been
written, the lanes still out, and the sticky flags to set when it is written (R117). -/
structure ScoreEntry where
  id      : Nat
  pc      : DWord
  kind    : ResultKind
  covers  : List RegName
  results : List RegWrite
  lanes   : List LaneWait
  parts   : List LoadPart       -- parts of the lanes that have not been performed
  seq     : Nat                 -- issue order of the load
  dest    : Option LoadDest
  acquire : Option Nat          -- the scope of an acquire that the return completes
  watch   : Option (Nat × Nat × Nat)   -- a watchpoint that the access matches: number, lane, bit (R446)
  fail    : Option (Nat × Nat × Nat × Nat)   -- an atomic's failure at its home: lane, bit address, trap code, info0 (R278)
  gang    : List Nat           -- the quads that issued the instruction
  flags   : Word
  lost    : List (RegName × Nat)   -- registers written earlier in its run, whose older value stands (R54)
  again   : Bool               -- a replay record issued the instruction (R428)
  count   : Nat                -- the warp's issues before it
  deriving DecidableEq, Repr

/-- A register written with a short-latency result in the current run, and its value before (R54). -/
structure RunWrite where
  name : RegName
  lane : Nat
  old  : Nat
  deriving DecidableEq, Repr

/-- A replayable instruction that waits (R363, R428): its PC, the lanes pending with their operands, and whether it is a
parked instruction, at which the quads still stand, or a replay record, which the quads have passed. -/
structure Replay where
  pc    : DWord
  lanes : List (Nat × Nat)
  park  : Bool
  unresolved : Bool            -- the kernel instance declared the address unresolvable
  slot  : Nat                  -- bits of a parked load's slot, which a halt turns into a replay record; 0 for others
  deriving DecidableEq, Repr

/-- The registers of a warp (R67). Keys: vector register n of lane i is n × 64 + i; lane i's predicates p6 to p0 are the
low bits of entry i. -/
structure RegFile where
  v : Table Word
  s : Table Word
  p : Table (BitVec 8)
  q : BitVec 8
  x : Table Word
  h : Table (BitVec 16)
  deriving DecidableEq, Repr

/-- What the kernel header and the launch fix for a warp (R67, R171, R183). -/
structure WarpInfo where
  width    : Nat
  vregs    : Nat          -- vector registers allotted
  kregs    : Nat          -- uniform registers allotted
  process  : Nat
  launch   : Nat          -- launch ID, 0 on a Vesper core
  maxPrio  : Nat          -- the launch's priority
  start    : Nat          -- order of start (R187)
  spawned  : Bool         -- started by SPAWN: takes no part in block barriers (R199)
  deriving DecidableEq, Repr

/-- A warp context. -/
structure Warp where
  id       : WarpId
  live     : Bool              -- holds a context: it has started and not retired
  info     : WarpInfo
  quads    : List Quad
  gang     : List Nat          -- the quads of the chosen sub-gang; empty at a selection point
  regs     : RegFile
  regions  : List (BitVec 16)  -- E0 to E7
  depth    : Nat
  fmode    : Word
  prio     : Nat
  prioNext : Option Nat        -- the priority that SETPRIO gives from the next selection point on (R204)
  nest     : Nest
  score    : List ScoreEntry
  nextId   : Nat               -- the next scoreboard entry's name
  count    : Nat               -- instructions issued
  run      : List RunWrite
  runFlags : Word              -- sticky flags of short-latency results of the run (R117)
  parked   : Option Replay     -- the parked instruction of the sub-gang (stall reason 8)
  resuming : Option Replay     -- the replay that the next issue performs, for its lanes only
  replays  : List Replay       -- replay records still to be issued after a halt or a restore (R428)
  trapCode : Option Nat        -- pending trap code (R417)
  promoted : Option (Nat × Nat)   -- order of promotion, and by how much the priority has risen since (R188)
  waited   : Nat               -- cycles for which it has been ready without issuing (R188)
  issued   : Bool              -- has issued since its last sample (R442)
  stall    : Nat               -- last sampled stall reason (R444)
  blame    : DWord             -- the PC of the scoreboard entry behind reason 2 (R442)
  owed     : Option Nat        -- the scope of an acquire that a halt completed, to take effect before the next issue
  halted   : Bool              -- halted with its core, or saved
  user     : Bool              -- user mode (compute cores always, R430)
  deriving DecidableEq, Repr

/-- A register file as R69 gives it: all 0 and false. -/
def RegFile.zero : RegFile := { v := [], s := [], p := [], q := 0, x := [], h := [] }

/-- No nest under way. -/
def Nest.none : Nest := { valid := false, pc := 0, idx := [], acc := 0, asked := 0, running := .none }

/-- The context of no warp: what stands in a context that nothing has started. -/
def Warp.idle : Warp where
  id := { die := 0, core := 0, block := 0, warp := 0 }
  live := false
  info := { width := 0, vregs := 0, kregs := 0, process := 0, launch := 0, maxPrio := 0, start := 0, spawned := false }
  quads := []
  gang := []
  regs := RegFile.zero
  regions := List.replicate 8 0
  depth := 0
  fmode := 0
  prio := 0
  prioNext := none
  nest := Nest.none
  score := []
  nextId := 0
  count := 0
  run := []
  runFlags := 0
  parked := none
  resuming := none
  replays := []
  trapCode := none
  promoted := none
  waited := 0
  issued := false
  stall := 0
  blame := 0
  owed := none
  halted := false
  user := true

/-! ## Blocks (R180, R183, R221, R226, R285) -/

/-- What the kernel header fixes (R171). -/
structure Header where
  addr     : Nat
  entry    : Int
  norot    : Bool
  ftz      : Bool
  spawnres : Nat
  cluster  : Nat
  barriers : Nat
  kregs    : Nat
  vunits   : Nat
  width    : Nat
  l1min    : Nat
  spad     : Nat
  savearea : Nat
  anchor   : Nat
  deriving DecidableEq, Repr

/-- A barrier of a block (R221): phase and arrival mask. -/
structure Barrier where
  phase : BitVec 8
  mask  : BitVec 64
  deriving DecidableEq, Repr

/-- The states of a handle entry (R286). -/
inductive HandleState where
  | free | pending | doneOk | doneErr | cancelled
  deriving DecidableEq, Repr

/-- An entry of a block's handle table (R285): state, sequence number, status, and the operation it names. -/
structure HandleEntry where
  state  : HandleState
  seq    : BitVec 10
  status : BitVec 16
  op     : Option Nat
  deriving DecidableEq, Repr

/-- Where a block stands (R185, R192, R195, R424). -/
inductive BlockPlace where
  | resident | saved | retired
  deriving DecidableEq, Repr

/-- A block. -/
structure Block where
  place    : BlockPlace
  die      : Nat
  core     : Nat
  process  : Nat
  launch   : Nat
  cluster  : Nat               -- linear cluster index (R183)
  rank     : Nat
  pos      : List Nat          -- bx, by, bz
  header   : Header
  warps    : Nat               -- initial warps
  initial  : BitVec 64         -- initial warps that have not retired
  extra    : BitVec 64         -- spawned warps that have not retired
  args     : Nat
  anchor   : Nat               -- the block's own anchor address (R186)
  reserved : List Nat          -- reserved contexts that no spawned warp holds (R180)
  produced : Bool              -- R190
  clean    : Bool              -- produced by PRODUCE or normal retirement (R202)
  discarded : Bool
  counted  : Bool                 -- its end has been counted in its launch
  barriers : Table Barrier
  handles  : Table HandleEntry
  spad     : Table Byte
  area     : Option Nat        -- its save area, from when one is set aside until the block is restored (R424, R192)
  matArea  : Option Nat        -- the area of its accumulator state (R425)
  held     : Bool              -- restored, but its cluster is not whole yet (R429); or in rotation, or retired and away with its cluster (R192, R205)
  waitSince : Option Nat       -- since when every unfinished warp has waited (R191)
  deriving DecidableEq, Repr

def Header.none : Header where
  addr := 0
  entry := 0
  norot := false
  ftz := false
  spawnres := 0
  cluster := 1
  barriers := 0
  kregs := 0
  vunits := 0
  width := 0
  l1min := 0
  spad := 0
  savearea := 0
  anchor := 255

def Barrier.reset : Barrier := { phase := 0, mask := 0 }

def HandleEntry.reset : HandleEntry := { state := .free, seq := 0, status := 0, op := .none }

/-- No block; also the block that stands for a Vesper core, which runs none (R72). -/
def Block.none : Block where
  place := .retired
  die := 0
  core := 0
  process := 0
  launch := 0
  cluster := 0
  rank := 0
  pos := [0, 0, 0]
  header := Header.none
  warps := 0
  initial := 0
  extra := 0
  args := 0
  anchor := 0
  reserved := []
  produced := false
  clean := false
  discarded := false
  counted := false
  barriers := []
  handles := []
  spad := []
  area := .none
  matArea := .none
  held := false
  waitSince := .none

/-- A cluster barrier (R226): phase, and an arrival mask for each rank, rank 0 first. -/
structure ClusterBarrier where
  phase : BitVec 8
  masks : List (BitVec 64)
  deriving DecidableEq, Repr

def ClusterBarrier.reset : ClusterBarrier := { phase := 0, masks := List.replicate 8 0 }

/-- What the blocks of a cluster share: its four barriers. -/
abbrev Cluster := Table ClusterBarrier

/-! ## Engine operations (R285 to R325) -/

/-- A copy (R295 to R299): source, destination, the shape of R296, the index list of GATHER or SCATTER (its address, and
the indices once read), the sync word, the matrix command that follows (engine and address), and the units performed. -/
structure CopyOp where
  src    : Nat
  dst    : Nat
  len    : Nat
  rows   : Nat
  planes : Nat
  sRow   : Int
  dRow   : Int
  sPlane : Int
  dPlane : Int
  list   : Option Nat
  scatter : Bool
  idx    : Option (List Nat)
  sync   : Option Nat
  syncAt : Option (Option Nat × Nat × Nat)   -- where the sync word lies: a block and offset, or a fabric address and leaf
  mm     : Option (Nat × Nat)
  ready  : Bool                -- the sync word has been checked and the index list read (R294, R298)
  units  : List Nat            -- first bit addresses of the units still to perform
  deriving DecidableEq, Repr

/-- A message on its way (R284): header and the leaf of its page, payload, retry budget, attempts, the place reserved in the
ring. -/
structure MsgOp where
  header   : Nat
  leaf     : Nat
  payload  : Nat
  budget   : Nat
  attempts : Nat
  retryAt  : Nat               -- the timer value before which no further attempt is made
  place    : Option Nat
  written  : Bool
  rel      : Option Nat
  deriving DecidableEq, Repr

inductive MatKind where
  | mma | mmaSm | accld | accst | accz | accside | quant | deq
  deriving DecidableEq, Repr

/-- A matrix command (R315): its operands by role, the descriptors once read, the row it has reached, and the status with
which it is bound to end, if any. -/
structure MatOp where
  kind   : MatKind
  tile   : Nat
  otile  : Nat                 -- the O tile of MMA.SM
  ovr    : Bool
  a      : Nat                 -- first address: A descriptor, source, or ACCLD and ACCST address
  b      : Nat                 -- second address: B or destination descriptor, or DEQ's destination
  sigma  : Nat
  pAddr  : Nat
  fmt    : Nat
  rnd    : Nat
  sat    : Bool
  stride : Nat
  region : Nat
  elems  : Nat
  rows   : Nat
  thresh : Nat
  read   : Bool                -- ACCSIDE.rd
  row0   : Nat
  lanes  : List (Nat × Nat × Nat)   -- ACCSIDE: lane, m, l
  entry  : Option Nat          -- the scoreboard entry of ACCSIDE.rd
  reg    : Nat
  descs  : List Nat
  row    : Nat
  rowVal : Option Nat          -- DEQ: the bits of the row that is being written
  ends   : Option Nat
  deriving DecidableEq, Repr

inductive Work where
  | copy (c : CopyOp)
  | msg (m : MsgOp)
  | matrix (m : MatOp)
  | conv (entry target : Nat)  -- PLCONV
  deriving DecidableEq, Repr

/-- An engine operation that has not ended: its issuer and block, whether it runs with supervisor rights, the handle entry
it will make final, its issue order, its engine (0 CE0, 1 CE1, 2 ME0, 3 ME1, 4 the message path, 5 Meridian), and its
condition. -/
structure EngineOp where
  warp      : WarpId
  gang      : List Nat         -- the quads that issued it
  process   : Nat
  user      : Bool
  handle    : Option Nat
  hseq      : Nat
  seq       : Nat
  engine    : Nat
  hint      : Nat
  started   : Bool
  cancel    : Bool
  suspended : Bool
  unresolved : Bool
  lostAs    : Nat := 5         -- the status of a request to a home that is lost: POISON, or DIE_LOST for one on its way (R387)
  work      : Work
  deriving DecidableEq, Repr

def MatOp.none : MatOp where
  kind := .accz
  tile := 0
  otile := 0
  ovr := false
  a := 0
  b := 0
  sigma := 0
  pAddr := 0
  fmt := 0
  rnd := 0
  sat := false
  stride := 0
  region := 0
  elems := 0
  rows := 0
  thresh := 0
  read := false
  row0 := 0
  lanes := []
  entry := .none
  reg := 0
  descs := []
  row := 0
  rowVal := .none
  ends := .none

/-! ## Launches (R175 to R190) -/

/-- What the device holds of a launch that it has taken. `status` is the outcome of one that has retired; `first` is the
cause that ended it early (R196). -/
structure Launch where
  taken    : Bool
  started  : Bool
  process  : Nat
  ident    : Nat
  header   : Header
  args     : Nat
  grid     : List Nat          -- gx, gy, gz
  cext     : List Nat          -- cx, cy, cz
  warps    : Nat               -- initial warps of a block
  priority : Nat
  prods    : List Nat          -- producers' launch IDs
  sync     : Nat
  astride  : Int
  anchorWord : Option (Option Nat)   -- the argument word of the anchor, once the device has tried to read it (R184)
  order    : Nat               -- order of start (R182)
  next     : Nat               -- the next cluster to dispatch
  swapped  : List (Nat × Nat)  -- clusters swapped out, each with its place in the order (R193)
  ended    : Nat               -- blocks retired or discarded
  produced : Nat               -- blocks produced (R190)
  unclean  : Bool              -- some block became produced by being discarded (R202)
  done     : Option Bool       -- done for its dependents, and whether without failure (R202)
  first    : Option Nat        -- FAULTED or DIE_LOST, whichever cause came first
  status   : Option Nat
  deriving DecidableEq, Repr

def Launch.none : Launch where
  taken := false
  started := false
  process := 0
  ident := 0
  header := Header.none
  args := 0
  grid := [0, 0, 0]
  cext := [1, 1, 1]
  warps := 0
  priority := 0
  prods := []
  sync := 0
  astride := 0
  anchorWord := .none
  order := 0
  next := 0
  swapped := []
  ended := 0
  produced := 0
  unclean := false
  done := .none
  first := .none
  status := .none

/-- A waiting cluster that a rotation makes room for (R192), by the key of its launch, process × 2^32 + launch ID, and the
cluster that was swapped out for it. -/
structure Admit where
  launch     : Nat
  cluster    : Nat
  outLaunch  : Nat
  outCluster : Nat
  deriving DecidableEq, Repr

/-! ## Cores (R416, R421, R430) -/

/-- The pre-emption or debug halt of a core (R421, R439). -/
inductive HaltState where
  | running | halting | halted
  deriving DecidableEq, Repr

/-- The registers a Vesper core takes a trap into (R430), its mode bit and its wake event (R435). `down`: halted by a trap
raised while ECAUSE[15] was set, until a write to WAKE. -/
structure VesperRegs where
  tvec    : DWord
  epc     : DWord
  ecause  : DWord
  eaddr   : DWord
  emode   : DWord
  woken   : Bool
  down    : Bool
  started : Bool
  deriving DecidableEq, Repr

/-- The registers of R430 after reset. -/
def VesperRegs.reset : VesperRegs where
  tvec := 0
  epc := 0
  ecause := 0
  eaddr := 0
  emode := 0
  woken := false
  down := false
  started := false

/-- A fault record (R418), field by field. -/
structure FaultRecord where
  addr    : DWord
  pc      : DWord
  info0   : DWord
  info1   : DWord
  regions : BitVec 48
  process : BitVec 16
  launch  : Word
  warp    : BitVec 6
  lane    : BitVec 6
  slot    : BitVec 4
  core    : BitVec 6
  die     : BitVec 2
  kind    : BitVec 8
  code    : BitVec 8
  status  : BitVec 16
  flags   : BitVec 16
  aux16   : BitVec 16
  time    : DWord
  deriving DecidableEq, Repr

/-- A record that has to enter the fault queue, the core that counts as stopped by trap once it has (R416, R420), and
the warp whose park it reports (R363). -/
structure WaitingRecord where
  body   : FaultRecord
  stops  : Option Nat
  warp   : Option WarpId
  late   : Bool              -- it has found the queue full, and counts in FQFULL (R420)
  deriving DecidableEq, Repr

/-! ## Caches and translation (R228, R230, R361, R372) -/

/-- A cached leaf (R361): process, space (0 user, 1 host, 2 supervisor), first virtual bit address and offset bits of the
page, the leaf, and the physical address of the page-table line it came from. -/
structure TlbEntry where
  process : Nat
  space   : Nat
  va      : Nat
  size    : Nat
  leaf    : DWord
  line    : Nat
  deriving DecidableEq, Repr

/-- A cached table entry of a walk (R361): process, space, the level of the table that it names, the address bits above
what that table covers, the table's address, and the line that the entry was read from. -/
structure WalkEntry where
  process : Nat
  space   : Nat
  level   : Nat
  top     : Nat
  table   : Nat
  line    : Nat
  deriving DecidableEq, Repr

/-- How a die's L2 holds a line of another home (R229): untracked, S or M. -/
inductive LineKind where
  | nc | shared | modified
  deriving DecidableEq, Repr

/-- A remote line in a die's L2: its bits, the bytes that are valid and those the die has written (R230), the replica die
that its translation named (R378), and the replacement marks (R232, R233). -/
structure L2Line where
  kind   : LineKind
  data   : Nat
  valid  : Nat
  dirty  : Nat
  rdie   : Option Nat
  keep   : Bool
  victim : Bool
  deriving DecidableEq, Repr

/-- The directory state of a line (R372): U, S of a mask of dies, O of a die. -/
inductive DirState where
  | u | s (mask : Nat) | o (die : Nat)
  deriving DecidableEq, Repr

/-- A transaction that keeps a line in B (R375): the dies that have not answered, and the request to serve afterwards
(none for a recall of the snoop filter, R376, or of PAGEFLUSH). -/
structure Txn where
  waiting : List Nat
  req     : Option Req
  deriving DecidableEq, Repr

/-- The directory's view of a line. -/
structure DirEntry where
  st    : DirState
  busy  : Option Txn
  queue : List Req
  used  : Nat                  -- last use (R376)
  deriving DecidableEq, Repr

def DirEntry.idle : DirEntry := { st := .u, busy := none, queue := [], used := 0 }

/-- A poisoned 64-byte sector (R237): 1 POISON or 2 DATA_LOST, and the mask of its valid bytes. -/
structure Poison where
  kind  : Nat
  valid : Nat
  deriving DecidableEq, Repr

/-- A home line as the home's own L2 has it (R229): whether it holds the line, the bytes whose writes are not yet in HBM,
and the replacement marks. -/
structure HomeLine where
  held   : Bool
  dirty  : Nat
  keep   : Bool
  victim : Bool
  deriving DecidableEq, Repr

def HomeLine.clean : HomeLine := { held := false, dirty := 0, keep := false, victim := false }

/-! ## Scratchpad slots (R207 to R210) -/

/-- What a scratchpad request does. -/
inductive SpadKind where
  | load | store | atomic (op : Nat)
  | sync (slot : Nat)          -- an update of a sync word by SYNCADD (32) or SYNCSET (33)
  deriving DecidableEq, Repr

/-- One part of a lane's access, within one word (R208, R211): lane, offset, width, its place in the lane's value, the data
and the compare value. -/
structure SpadPart where
  lane  : Nat
  off   : Nat
  width : Nat
  at_   : Nat
  value : Nat
  cmp   : Nat
  deriving DecidableEq, Repr

/-- A request in a slot's queue. -/
structure SpadReq where
  warp  : WarpId
  gang  : List Nat             -- the quads that issued it
  block : Nat                  -- the block whose scratchpad it accesses
  kind  : SpadKind
  seq   : Nat                  -- issue order
  entry : Option Nat           -- the scoreboard entry that a result goes to
  parts : List SpadPart        -- still to be performed
  deriving DecidableEq, Repr

/-! ## Watchpoints (R437, R445, R448) -/

structure Watch where
  lo   : DWord
  hi   : DWord
  mask : DWord
  ctl  : DWord
  deriving DecidableEq, Repr

def Watch.reset : Watch := { lo := 0, hi := 0, mask := 0, ctl := 0 }

/-- What stopped a core, for the sampler (R442): a trap, a pre-emption, or BKPT, WATCH or a stop request. -/
inductive StopCause where
  | none | trap | preempt | debug
  deriving DecidableEq, Repr

/-- One core, compute (0 to 63) or Vesper (64 to 67). -/
structure Core where
  l1Size   : Nat             -- bytes, 0 while the core is empty (R181)
  l1       : Table (Option Nat)   -- 64-byte sectors by fabric address / 512
  tlb      : List TlbEntry   -- most recent first
  walks    : List WalkEntry  -- the walk cache, most recent first (R361)
  icache   : List (Nat × Nat)   -- the instruction cache: 64-byte sectors with their bits, last filled first (R1)
  slots    : Table (List SpadReq)
  dbgctl   : DWord
  watches  : Table Watch
  cause    : StopCause
  halt     : HaltState
  trapped  : Bool            -- a trap has been raised and no RESUME or save has ended it
  byTrap   : Bool            -- its record has entered the queue: the core reads stopped by trap (R420)
  grace    : Nat             -- issues the other warps may still make after a trap (R416)
  haltAt   : Nat             -- the timer at the last halt (R426)
  ves      : VesperRegs
  last     : Table (Option (Nat × Nat × Nat))   -- each scheduler's last issue: block and number of the warp, cycle (R187)
  sampled  : Table Nat       -- the rotation of each scheduler's sampler: slot × 64 + warpid of the next candidate (R442)
  queues   : Table (List Nat)   -- the operations that wait at each engine (R291, R304)
  matrix   : Option Nat      -- the matrix block (R305)
  acc      : Table Word      -- tile elements: ((engine × 4 + tile) × 128 + row) × 128 + column
  sideM    : Table Word      -- side registers m: (engine × 4 + tile) × 128 + row
  sideL    : Table Word
  deriving DecidableEq, Repr

def Core.reset : Core where
  l1Size := 0
  l1 := []
  tlb := []
  walks := []
  icache := []
  slots := []
  dbgctl := 0
  watches := []
  cause := .none
  halt := .running
  trapped := false
  byTrap := false
  grace := 0
  haltAt := 0
  ves := VesperRegs.reset
  last := []
  sampled := []
  queues := []
  matrix := .none
  acc := []
  sideM := []
  sideL := []

/-- The system registers of a die (R436) that hold a value of their own. -/
structure DieRegs where
  procsel   : DWord
  suproot   : DWord
  fqbase    : DWord
  fqctl     : DWord
  fqhead    : DWord
  fqtail    : DWord
  fqsync    : DWord
  fqfull    : DWord
  dmap      : DWord
  dirrecall : DWord
  dirinval  : DWord
  replfwd   : DWord
  angstall  : DWord
  hbmiss    : DWord
  epoch     : DWord
  smpbase   : DWord
  smpctl    : DWord
  smphead   : DWord
  smptail   : DWord
  smplost   : DWord
  fqSet     : Bool           -- FQBASE has been written (R459)
  fqCtlSet  : Bool           -- FQCTL has been written
  deriving DecidableEq, Repr

def DieRegs.reset : DieRegs where
  procsel := 0
  suproot := 0
  fqbase := 0
  fqctl := 4
  fqhead := 0
  fqtail := 0
  fqsync := 0
  fqfull := 0
  dmap := 0
  dirrecall := 0
  dirinval := 0
  replfwd := 0
  angstall := 0
  hbmiss := 0
  epoch := 0
  smpbase := 0
  smpctl := 0
  smphead := 0
  smptail := 0
  smplost := 0
  fqSet := false
  fqCtlSet := false

/-- An entry of the access counters (R369): a 2 MiB physical region and the counts of the four dies. -/
structure AccessCount where
  region : Nat
  counts : List Nat
  deriving DecidableEq, Repr

/-- One die. -/
structure Die where
  regs     : DieRegs
  l2       : Table (Option L2Line)     -- remote lines, by fabric address / 2048
  lineDir  : List (Nat × Nat)          -- line directory: page-table line and sharers' mask, most recent first (R361)
  counters : List AccessCount          -- most recent first
  hints    : List (Nat × Nat)          -- pages with a MIGR hint, and the fault-queue count it was given (R371)
  homeWatches : Table Watch            -- by controller × 4 + watchpoint (R448)
  waiting : List WaitingRecord
  smpClock : Nat               -- cycles counted from the write that enabled the sampler (R442)
  meridian : List TlbEntry     -- the Meridian engine's translation cache (R361)
  dusk     : List Nat          -- context commands, oldest first (R424)
  ckpts    : List (Nat × Nat × Bool)   -- checkpoints, oldest first: descriptor, next granule, a sector was skipped (R389)
  deriving DecidableEq, Repr

def Die.reset : Die where
  regs := DieRegs.reset
  l2 := []
  lineDir := []
  counters := []
  hints := []
  homeWatches := []
  waiting := []
  smpClock := 0
  meridian := []
  dusk := []
  ckpts := []

/-- Whose turn it is in the schedule. -/
inductive Turn where
  | event (n : Nat)          -- the n-th pending event happens
  | input                    -- the next outside event happens
  | issue (die core sched : Nat)   -- a scheduler picks a warp (R187)
  | slot (die core n : Nat)  -- a scratchpad slot serves the head of its queue (R208)
  | time (ns : Nat)          -- nanoseconds pass
  | engineError (op : Nat)   -- an uncorrectable error inside the engine of an operation (R289)
  | tagFailure (sector : Nat)   -- a payload of a host-attached sector fails its tag (R451)
  | cycles (island n : Nat)  -- cycles of an island pass
  deriving DecidableEq, Repr

/-- What the kernel instances set for a process (R436). -/
structure Process where
  userroot  : DWord
  hostroot  : DWord
  rotthresh : DWord
  pltimeout : DWord
  migthresh : DWord
  lqtable   : DWord
  pltable   : DWord
  savepool  : DWord
  dbhost    : DWord
  context   : Bool             -- the process has a context on the device (R413)
  keyHandle : Nat              -- R450
  areas     : List (Nat × Nat) -- areas of the save pool in use: bit address and bits (R192)
  deriving DecidableEq, Repr

def Process.reset : Process where
  userroot := 0
  hostroot := 0
  rotthresh := 100000
  pltimeout := 100000000
  migthresh := 1024
  lqtable := 0
  pltable := 0
  savepool := 0
  dbhost := 0
  context := false
  keyHandle := 0
  areas := []

/-! ## Placement (R326 to R345) -/

/-- An entry of the placement table (R327), with the member list that PLDEF read: device and die of each member. -/
structure PlEntry where
  cur     : Nat
  alt     : Nat
  bstride : Nat
  mlist   : Nat
  ext     : List Nat           -- e0 to e3
  axes    : List Nat           -- n0 to n2
  state   : Nat                -- st2 : st1 : st0
  gen     : Nat
  cause   : Nat
  valid   : Bool
  failed  : Bool
  busy    : Bool
  naxes   : Nat
  rank    : Nat
  fmt     : Nat
  members : List (Nat × Nat)
  failStatus : Nat             -- while `failed` is set: the status with which a PLCONV ends (R342)
  arrived : Bool               -- a conversion on this device has written the current buffers (R349)
  deriving DecidableEq, Repr

def PlEntry.blank : PlEntry where
  cur := 0
  alt := 0
  bstride := 0
  mlist := 0
  ext := []
  axes := []
  state := 0
  gen := 0
  cause := 0
  valid := false
  failed := false
  busy := false
  naxes := 0
  rank := 0
  fmt := 0
  members := []
  failStatus := 0
  arrived := false

/-- A mark of R338: its sector, the entry it belongs to, the member, and the place of the marked part in the member's buffer. -/
structure Mark where
  sector : Nat
  key    : Nat
  member : Nat
  part   : Nat
  deriving DecidableEq, Repr

/-- A conversion under way (R333 to R340): generation and the two states that the first join request fixes, the members
that have joined, the time of the first join, the sectors not yet read and not yet written (member and the sector's place
in its buffer), the bits read so far of each member's local tensor, and the process rights it translates with. -/
structure Conv where
  gen      : Nat
  source   : Nat
  target   : Nat
  joined   : List Nat
  since    : Nat
  unread   : List (Nat × Nat)
  unwritten : List (Nat × Nat)
  marked   : List Nat          -- members of this device whose sectors all bear their marks
  captured : Table Nat         -- by member: the local tensor's bits
  agents   : Table (Option Nat)   -- by member: the operation under which this device's engines act for it
  deriving DecidableEq, Repr

/-! ## The Angelus channel (R381 to R385) -/

/-- A shoot-down or flush that waits for its acknowledgements: its sequence number and kind, the issuing die, the agents or
dies that have not answered, the scoreboard entry of the instruction, and whether the payload was refused. -/
structure AckWait where
  seq     : Nat
  kind    : Nat
  die     : Nat
  waiting : List Nat
  warp    : WarpId
  entry   : Nat
  value   : Nat                -- what d receives at the end
  deriving DecidableEq, Repr

/-- A channel: the next sequence number, messages submitted and not stamped (with the scoreboard entry of the AMSG or
TLBINV that sent them), messages stamped, how many of them each die has delivered, and the receive queues. -/
structure Channel where
  next      : Nat
  backlog   : List (AngelusMsg × Option (WarpId × Nat))
  stamped   : List AngelusMsg
  delivered : List Nat
  queues    : List (List AngelusMsg)
  waits     : List AckWait
  tickets   : List (Nat × Nat)   -- shoot-downs whose phase 1 is complete: die and ticket (R368)
  drops     : Table Nat          -- by ticket × 4 + die: the issue order that stood when the die dropped its entries (R366)
  stalled   : List Nat           -- dies whose full queue holds the channel up (R384)
  deriving DecidableEq, Repr

def Channel.reset : Channel where
  next := 0
  backlog := []
  stamped := []
  delivered := [0, 0, 0, 0]
  queues := [[], [], [], []]
  waits := []
  tickets := []
  drops := []
  stalled := []

/-! ## Links (R394 to R403) -/

/-- A wavelength of a receiving direction (R398 to R400): its counters, their values at the start of the window, the
window's uncorrectable flits, and the failed attempts of the present training. -/
structure Wavelength where
  rxBits   : DWord
  corrBits : DWord
  uncorr   : DWord
  retrain  : DWord
  fail     : DWord
  winBits  : DWord
  winCorr  : DWord
  winUncorr : Nat
  attempts : Nat
  pending  : Bool              -- meets the condition, and waits for another wavelength's training
  retryAt  : Option Nat        -- when the next attempt of a training that has failed begins
  deriving DecidableEq, Repr

def Wavelength.reset : Wavelength where
  rxBits := 0
  corrBits := 0
  uncorr := 0
  retrain := 0
  fail := 0
  winBits := 0
  winCorr := 0
  winUncorr := 0
  attempts := 0
  pending := false
  retryAt := none

/-- A link (R394 to R401): the masks of LNKSTATE, the transmitter's active wavelengths with a hand-back that is due at flit
S, the counters and threshold, the next sequence number expected, flits that came early, flits delivered, the
transmitter's next sequence number and unacknowledged flits. -/
structure Link where
  active   : BitVec 8
  training : BitVec 8
  disabled : BitVec 8
  txActive : BitVec 8
  back     : Option (Nat × BitVec 16)
  replay   : DWord
  thresh   : DWord
  expect   : BitVec 16
  early    : List Flit
  got      : List Flit
  txNext   : BitVec 16
  unacked  : List Flit
  waves    : Table Wavelength
  deriving DecidableEq, Repr

def Link.reset : Link where
  active := 0xFF
  training := 0
  disabled := 0
  txActive := 0xFF
  back := none
  replay := 0
  thresh := 1000000
  expect := 0
  early := []
  got := []
  txNext := 0
  unacked := []
  waves := []

/-- A switch plane as the package sees it (R403). -/
inductive Plane where
  | up | draining | down
  deriving DecidableEq, Repr

/-! ## What leaves the package -/

/-- An answer or message to an agent outside: a host's or another device's response, an acknowledgement or negative
acknowledgement on a link, a control flit, or an answer of the security controller. -/
inductive Sent where
  | hostData (hostId addr value : Nat)
  | hostDone (hostId : Nat)
  | hostRefused (hostId : Nat)
  | response (dev tag value : Nat)
  | poisoned (dev tag kind : Nat)
  | nak (link : Nat) (first : BitVec 16)
  | ack (link : Nat) (upTo : BitVec 16)
  | resend (link : Nat) (f : Flit)
  | removal (link wavelength : Nat)
  | handBack (link wavelength : Nat) (s : BitVec 16)
  | join (device entry member gen cur demanded : Nat)
  | abort (device entry gen : Nat) (cause : AbortCause)
  | report (bytes : List Byte)
  | keyHandle (handle : Nat)
  | rejected (what : Nat)
  deriving DecidableEq, Repr

/-! ## The platform (R449 to R460) -/

/-- A tenant key (R450): the wrapped key as installed, and whether its handle stands. -/
structure TenantKey where
  bytes : List Byte
  valid : Bool
  deriving DecidableEq, Repr

/-- Limits of an island: floor and ceiling in mV and clock in MHz (R455), thermal limit in degrees (R456), and how many
sixteenths of the clock are taken away. -/
structure Island where
  floor   : Nat
  ceiling : Nat
  clock   : Nat
  tlim    : Nat
  drop    : Nat
  deriving DecidableEq, Repr

def Island.reset : Island := { floor := 650, ceiling := 650, clock := 1700, tlim := 100, drop := 0 }

/-- The security controller and the bring-up (R449 to R459). `stage`: the step of R457 that has been reached. -/
structure Platform where
  stage     : Nat
  recovery  : Bool
  stopped   : Bool
  lastSeq   : Nat
  anySeq    : Bool
  configM   : List Byte
  firmM     : List Byte
  features  : List Byte
  islands   : Table Island
  keys      : Table (Option TenantKey)
  slots     : Table (Option (List Byte))   -- extension handlers, slots 24 to 31
  load      : Nat                          -- R458
  entry     : Nat
  tvec      : Nat
  deriving DecidableEq, Repr

def Platform.reset : Platform where
  stage := 1
  recovery := false
  stopped := false
  lastSeq := 0
  anySeq := false
  configM := List.replicate 32 0
  firmM := List.replicate 32 0
  features := []
  islands := []
  keys := []
  slots := []
  load := 0
  entry := 0
  tvec := 0

/-- The machine. -/
structure State where
  warp   : Warp              -- the warp that issues
  others : List Warp         -- every other warp context in use
  blocks : Table Block       -- by block number; number mod 16 is the slot on the core
  clusters : Table Cluster   -- by (process × 2^32 + launch ID) × 2^32 + cluster
  launches : Table Launch    -- by process × 2^32 + launch ID
  admits : List Admit        -- the clusters that rotations make room for, oldest first (R192)
  ops    : Table (Option EngineOp)   -- engine operations that have not ended, by number
  nextOp : Nat
  cores  : Table Core        -- by die × 68 + core
  dies   : Table Die
  procs  : Table Process
  placements : Table PlEntry   -- by process × 4096 + index
  convs  : Table (Option Conv) -- by process × 4096 + index
  srcMarks : List Mark         -- source-pending marks (R338)
  dstMarks : List Mark         -- destination-pending marks
  package : Channel            -- the package channel
  group  : Channel             -- the group channel
  gmembers : List Nat          -- global die IDs of the process group's members (R381)
  heard  : Table Nat           -- by receiver × 4 + sender: when a HEARTBEAT last came (R386)
  links  : Table Link
  planes : List Plane          -- 48 switch planes
  ranges : Table (BitVec 256)  -- the device's copy of the range table (R408)
  tray   : Table (BitVec 256)  -- the tray switch's copy
  holders : List (Nat × Nat × Bool)   -- lines that hosts cache: line, host ID, modified; most recent first (R410)
  leases : Table Nat           -- deadline by host ID, 0 for none (R411)
  hostDrop : DWord
  leaseLost : DWord
  leasePer : DWord
  rung   : Table Nat           -- by process × 64 + queue: the tail that a doorbell has made known (R413)
  mailboxes : List (Nat × Nat)   -- mailbox headers that MSG has reached: process and fabric address (R282)
  saved  : List (Nat × Nat × Nat × Sent)   -- responses kept for 64 µs: device, tag, time, response (R403)
  platform : Platform
  sent   : List Sent
  mem    : Table Byte        -- device memory as its homes hold it, by byte address (R17)
  hostMem : Table Byte       -- host-attached memory, by byte address
  peerMem : Table Byte       -- memory of other devices, by fabric byte address (R18)
  poison : Table (Option Poison)   -- by fabric sector (address / 512)
  homeLines : Table HomeLine -- by line (address / 2048)
  dir    : Table DirEntry    -- by line
  nextSeq : Nat              -- issue order of memory requests
  members : BitVec 4         -- dies of the package that have not been removed (R386)
  device : Nat               -- the device ID (R18)
  timer  : Nat               -- nanoseconds (R72)
  clocks : Table Nat         -- cycles of each island since the reset of its die (R72, R455)
  free   : Nat               -- the free-value counter
  agenda : List Instr        -- events under way inside the part
  inputs : List Instr        -- events that the outside causes
  turns  : List Turn
  deriving DecidableEq, Repr

/-- The machine after reset. -/
def State.reset : State where
  warp := Warp.idle
  others := []
  blocks := []
  clusters := []
  launches := []
  admits := []
  ops := []
  nextOp := 0
  cores := []
  dies := []
  procs := []
  placements := []
  convs := []
  srcMarks := []
  dstMarks := []
  package := Channel.reset
  group := Channel.reset
  gmembers := [0, 1, 2, 3]
  heard := []
  links := []
  planes := List.replicate 48 .up
  ranges := []
  tray := []
  holders := []
  leases := []
  hostDrop := 0
  leaseLost := 0
  leasePer := 100000000
  rung := []
  mailboxes := []
  saved := []
  platform := Platform.reset
  sent := []
  mem := []
  hostMem := []
  peerMem := []
  poison := []
  homeLines := []
  dir := []
  nextSeq := 0
  members := 0b1111
  device := 0
  timer := 0
  clocks := []
  free := 0
  agenda := []
  inputs := []
  turns := []

end Sys2Proof.Machine
end

