-- ==== Sys2Proof/Machine/Ops.lean ====
section
/-! DEFINITION. The named operations over the state: registers, lanes, runs, program counters, traps. -/

namespace Sys2Proof.Machine

/-! ## Warps by name -/

/-- Change the issuing warp. -/
def State.modWarp (s : State) (g : Warp → Warp) : State := { s with warp := g s.warp }

/-- A warp by its name. -/
def State.warpAt? (s : State) (id : WarpId) : Option Warp :=
  if s.warp.id = id ∧ s.warp.live then some s.warp else s.others.find? fun w => w.id == id && w.live

/-- Change the warp of a name. -/
def State.modWarpAt (s : State) (id : WarpId) (g : Warp → Warp) : State :=
  if s.warp.id = id ∧ s.warp.live then { s with warp := g s.warp }
  else { s with others := s.others.map fun w => if w.id == id && w.live then g w else w }

/-- Every live warp. -/
def State.warps (s : State) : List Warp := (s.warp :: s.others).filter (·.live)

/-- Change every live warp of which `p` holds. -/
def State.modWarps (s : State) (p : Warp → Bool) (g : Warp → Warp) : State :=
  let h (w : Warp) := if w.live && p w then g w else w
  { s with warp := h s.warp, others := s.others.map h }

/-! ## Cores and dies -/

def coreKey (die core : Nat) : Nat := die * 68 + core

def State.coreAt (s : State) (die core : Nat) : Core := tget Core.reset s.cores (coreKey die core)

def State.modCore (s : State) (die core : Nat) (g : Core → Core) : State :=
  { s with cores := tmod Core.reset s.cores (coreKey die core) g }

def State.dieAt (s : State) (die : Nat) : Die := tget Die.reset s.dies die

def State.modDie (s : State) (die : Nat) (g : Die → Die) : State :=
  { s with dies := tmod Die.reset s.dies die g }

/-- A block by its number. -/
def State.blockAt (s : State) (b : Nat) : Block := tget Block.none s.blocks b

def State.modBlock (s : State) (b : Nat) (g : Block → Block) : State :=
  { s with blocks := tmod Block.none s.blocks b g }

/-- The issuing warp's block. -/
def State.myBlock (s : State) : Block := s.blockAt s.warp.id.block

def launchKey (process ident : Nat) : Nat := process * 2 ^ 32 + ident

def State.launchAt (s : State) (process ident : Nat) : Launch := tget Launch.none s.launches (launchKey process ident)

def State.modLaunch (s : State) (process ident : Nat) (g : Launch → Launch) : State :=
  { s with launches := tmod Launch.none s.launches (launchKey process ident) g }

/-- The island of a compute core's bay (R1); a Vesper core counts with bay 0 of its die. -/
def islandOf (die core : Nat) : Nat := die * 8 + (if core < 64 then core / 8 else 0)

/-- The core of the issuing warp. -/
def State.myCore (s : State) : Core := s.coreAt s.warp.id.die s.warp.id.core

/-- The issuing warp is the warp of a Vesper core (R60). -/
def Warp.isVesper (w : Warp) : Bool := 64 ≤ w.id.core

/-- Add an event to the pending ones. -/
def State.post (s : State) (e : Instr) : State := { s with agenda := s.agenda ++ [e] }

/-! ## Registers -/

def vkey (n lane : Nat) : Nat := n * 64 + lane

/-- The register's value as it stands; p7 and q7 read true (R67). -/
def RegFile.get (r : RegFile) (n : RegName) (lane : Nat) : Nat :=
  match n with
  | .v k => (tget 0 r.v (vkey k lane)).toNat
  | .s k => (tget 0 r.s k).toNat
  | .p k => if k = 7 then 1 else b2n ((tget 0 r.p lane).getLsbD k)
  | .q k => if k = 7 then 1 else b2n (r.q.getLsbD k)
  | .x k => (tget 0 r.x k).toNat
  | .h k => (tget 0 r.h k).toNat

/-- Bit `i` of eight predicates set to `v`. -/
def setPred (m : BitVec 8) (i : Nat) (v : Nat) : BitVec 8 :=
  if v % 2 = 1 then m ||| (1#8 <<< i) else m &&& ~~~(1#8 <<< i)

/-- The register gets a value; writes to p7 and q7 are discarded (R67). -/
def RegFile.set (r : RegFile) (n : RegName) (lane v : Nat) : RegFile :=
  match n with
  | .v k => { r with v := tput 0 r.v (vkey k lane) (BitVec.ofNat 32 v) }
  | .s k => { r with s := tput 0 r.s k (BitVec.ofNat 32 v) }
  | .p k => if k = 7 then r else { r with p := tmod 0 r.p lane fun m => setPred m k v }
  | .q k => if k = 7 then r else { r with q := setPred r.q k v }
  | .x k => { r with x := tput 0 r.x k (BitVec.ofNat 32 v) }
  | .h k => { r with h := tput 0 r.h k (BitVec.ofNat 16 v) }

/-- A number for the register, for the free choice of R54. -/
def RegName.code : RegName → Nat
  | .v n => n | .s n => 256 + n | .p n => 512 + n | .q n => 520 + n | .x n => 528 + n | .h n => 544 + n

/-- The value an instruction reads (R54): a register that an earlier instruction of the same run wrote gives either its
value before or the value written; which one is free. -/
def State.reg (s : State) (n : RegName) (lane : Nat) : Nat :=
  match s.warp.run.find? fun r => r.name == n && r.lane == lane with
  | some r => if Config.raceOld s.free false n.code lane then r.old else s.warp.regs.get n lane
  | none => s.warp.regs.get n lane

/-- A short-latency write (R53, R54): after a second write in one run the register holds one of the two values. -/
def Warp.writeShort (free : Nat) (w : Warp) (r : RegWrite) : Warp :=
  if w.run.any fun u => u.name == r.name && u.lane == r.lane then
    if Config.raceOld free true r.name.code r.lane then w else { w with regs := w.regs.set r.name r.lane r.value }
  else
    { w with
      regs := w.regs.set r.name r.lane r.value
      run := ⟨r.name, r.lane, w.regs.get r.name r.lane⟩ :: w.run }

/-- Short-latency writes in their order: the later prevails where one instruction writes a register twice (R11), so only
the last write of each register is made. -/
def lastWrites : List RegWrite → List RegWrite
  | [] => []
  | r :: rs => if rs.any fun u => u.name == r.name && u.lane == r.lane then lastWrites rs else r :: lastWrites rs

def State.writeRegs (s : State) (rs : List RegWrite) : State :=
  { s with warp := (lastWrites rs).foldl (Warp.writeShort s.free) s.warp }

/-- Writes that no run tracks: long-latency results when they arrive, registers at entry. -/
def RegFile.setAll (f : RegFile) (rs : List RegWrite) : RegFile :=
  rs.foldl (fun f r => f.set r.name r.lane r.value) f

/-- A register of K's file (R44). -/
def regName (k : Bool) (n : Nat) : RegName := if k then .s n else .v n
def predName (k : Bool) (n : Nat) : RegName := if k then .q n else .p n

/-- The writes that put a value into `n` consecutive registers, low half first (R67). -/
def spread (name : Nat → RegName) (r lane v : Nat) : Nat → List RegWrite
  | 0 => []
  | n + 1 => ⟨name r, lane, v % 2 ^ 32⟩ :: spread name (r + 1) lane (v >>> 32) n

/-- The value of `n` consecutive registers, low half first. -/
def State.regs (s : State) (name : Nat → RegName) (r lane : Nat) : Nat → Nat
  | 0 => 0
  | n + 1 => s.reg (name r) lane + s.regs name (r + 1) lane n <<< 32

/-! ## Lanes (R41, R42, R156) -/

/-- The live lanes of a quad; a warp has at most 16 quads (R155). -/
def Warp.quadLanes (w : Warp) (q : Nat) : List Nat :=
  match w.quads[q]? with
  | some u => if q < 16 then ((List.range 4).filter fun i => u.live.getLsbD i).map (4 * q + ·) else []
  | none => []

/-- The eligible lanes of the issuing sub-gang. -/
def Warp.eligible (w : Warp) : List Nat := w.gang.flatMap w.quadLanes

/-- Both guard terms hold (R41, R42). -/
def State.guardTrue (s : State) (f : Fields) (lane : Nat) : Bool :=
  let p (g : BitVec 3) (neg : Bool) := (s.reg (predName f.k g.toNat) (if f.k then 0 else lane) == 1) != neg
  p f.guard.ga f.guard.gan && p f.guard.gb f.guard.gbn

/-- ActiveLanes() with K = 0 (R10); a replayed instruction acts in its pending lanes only (R428). -/
def State.activeLanes (s : State) (f : Fields) : List Nat :=
  match s.warp.resuming with
  | some r => (r.lanes.map (·.1)).filter fun l => l < 64 ∧ (r.park → s.warp.eligible.contains l)
  | none => s.warp.eligible.filter (s.guardTrue f)

/-- The lanes in which the meaning runs: ActiveLanes(), or the one run of a uniform instruction whose guard is true. -/
def State.actLanes (s : State) (f : Fields) : List Nat :=
  if f.k then (if s.guardTrue f 0 then [0] else []) else s.activeLanes f

/-- Whether an instruction that acts once for the sub-gang acts (R198, R431). -/
def State.acts (s : State) (f : Fields) : Bool := !(s.actLanes f).isEmpty

/-! ## Counters and runs (R35, R53) -/

/-- Change the quads of the issuing sub-gang. -/
def Warp.modGang (w : Warp) (g : Quad → Quad) : Warp :=
  { w with quads := w.quads.mapIdx fun i q => if w.gang.contains i then g q else q }

/-- The program counter of the issuing sub-gang (R157). -/
def Warp.pc (w : Warp) : DWord :=
  match w.resuming with
  | some r => r.pc
  | none =>
    match w.gang with
    | q :: _ => match w.quads[q]? with | some u => u.pc | none => 0
    | [] => 0

/-- The end of a run (R53): its results stand, its flags are visible (R117), the next selection point is reached (R157), from
which a priority of SETPRIO counts (R204), and the yield marks of the other sub-gangs are cleared (R165). -/
def Warp.endRun (w : Warp) : Warp :=
  { w with
    run := [], fmode := w.fmode ||| w.runFlags, runFlags := 0, gang := [], prio := w.prioNext.getD w.prio, prioNext := none
    quads := w.quads.mapIdx fun i q => if w.gang.contains i then q else { q with yielded := false } }

/-- Move on past an instruction of `slot` bits (R35). A replay record's instruction moves no counter, for its quads stand
past it already (R428). -/
def Warp.advance (w : Warp) (slot : Nat) (drain : Bool) : Warp :=
  let past (q : Quad) : Quad := { q with pc := q.pc + BitVec.ofNat 64 slot, wait := .none, operand := 0 }
  let w' := match w.resuming with
    | some r => if r.park then w.modGang past else { w with gang := [] }
    | none => w.modGang past
  let w' := { w' with resuming := none }
  if drain then w'.endRun else w'

/-- Past an instruction of the common layout, with its own drain bit or an implicit drain. -/
def State.advance (s : State) (f : Fields) (implicit : Bool := false) : State :=
  s.modWarp fun w => w.advance f.slot (f.drain || implicit)

/-- Sticky flags of a short-latency result (R117). -/
def State.raiseFlags (s : State) (fl : Word) : State := s.modWarp fun w => { w with runFlags := w.runFlags ||| fl }

/-- The warp waits at issue (R55, R209, R287 and their like): nothing has happened but that its stall reason shows. -/
def State.stallAt (s : State) (reason : Nat) : State := s.modWarp fun w => { w with stall := reason }

/-- The quads of the issuing sub-gang that a wait of a kind has held at this instruction (R159): a sub-gang that is chosen is
blocked no longer. -/
def Warp.ended (w : Warp) (k : WaitKind) : List Nat :=
  w.gang.filter fun i => match w.quads[i]? with | some q => q.wait == k | none => false

/-- Some quads of the issuing sub-gang go on past its instruction; the others are the sub-gang now. -/
def Warp.passQuads (w : Warp) (slot : Nat) (is : List Nat) : Warp :=
  { w with
    gang := w.gang.filter fun i => !is.contains i
    quads := w.quads.mapIdx fun i q =>
      if is.contains i then { q with pc := q.pc + BitVec.ofNat 64 slot, wait := .none, operand := 0 } else q }

/-- The sub-gang blocks (R159): it keeps its counter at the waiting instruction, and its run ends. -/
def State.block (s : State) (kind : WaitKind) (operand stall : Nat) : State :=
  s.modWarp fun w => { (w.modGang fun q => { q with wait := kind, operand }).endRun with stall }

/-- An instruction that blocks once and issues again when its wait has ended (R159, R227): for the quads that have waited it is
complete, with `done`; for the others, which a merge may have brought beside them, it begins with `start`. -/
def State.onceMore (s : State) (f : Fields) (k : WaitKind) (done : State → State) (start : State → Host.Outcome State Fault Refusal) :
    Host.Outcome State Fault Refusal :=
  let is := s.warp.ended k
  if is.isEmpty then start s
  else if s.warp.gang.all is.contains then .next ((done s).advance f true)
  else start ((done s).modWarp fun w => w.passQuads f.slot is)

/-! ## The scoreboard (R55) -/

/-- The registers of a result that an earlier instruction of the run has written and that keep that value: of two writes
within one run either may stand (R54). -/
def Warp.raceLost (w : Warp) (free : Nat) (covers : List RegName) : List (RegName × Nat) :=
  (w.run.filter fun r => covers.contains r.name && Config.raceOld free true r.name.code r.lane).map fun r => (r.name, r.lane)

/-- An instruction's new scoreboard entry. -/
def Warp.newEntry (w : Warp) (free : Nat) (kind : ResultKind) (covers : List RegName) : ScoreEntry :=
  { id := w.nextId, pc := w.pc, kind, covers, results := [], lanes := [], parts := [], seq := 0, dest := none, acquire := none,
    watch := none, fail := none, gang := w.gang, flags := 0, lost := w.raceLost free covers,
    again := (match w.resuming with | some r => !r.park | none => false), count := w.count }

/-- Take an entry for a long-latency result. -/
def Warp.takeEntry (free : Nat) (w : Warp) (covers : List RegName) (results : List RegWrite) (flags : Word) : Warp :=
  { w with score := w.score ++ [{ w.newEntry free .known covers with results, flags }], nextId := w.nextId + 1 }

/-- A long-latency result whose value is known: it is written by a LONG_LATENCY_RESULT event. -/
def State.later (s : State) (covers : List RegName) (results : List RegWrite) (flags : Word) : State :=
  let id := s.warp.nextId
  { s with warp := s.warp.takeEntry s.free covers results flags }.post (.longLatencyResult s.warp.id id)

/-- The register writes of an entry that stand (R54). -/
def ScoreEntry.writes (e : ScoreEntry) : List RegWrite := e.results.filter fun r => !e.lost.contains (r.name, r.lane)

/-- The entry is written and freed. -/
def Warp.settleEntry (w : Warp) (e : ScoreEntry) : Warp :=
  { w with
    regs := w.regs.setAll e.writes, fmode := w.fmode ||| e.flags
    score := w.score.filter fun u => u.id != e.id }

/-! ## The writing of registers by a load -/

/-- The registers that a lane's value goes to (R214, R243, R245). -/
def LoadDest.writes (d : LoadDest) (lane v : Nat) : List RegWrite :=
  let name (n : Nat) : RegName := if d.uniform then .s n else .v n
  let lane := if d.uniform then 0 else lane
  if d.elems = 1 then
    let full := if d.width ≤ 32 then 32 else if d.width ≤ 64 then 64 else 128
    spread name d.reg lane (if d.signed then signExt d.width full v else v % 2 ^ d.width) (full / 32)
  else
    (List.range d.elems).map fun i =>
      ⟨name (d.reg + i), lane, if d.signed then signExt d.width 32 (v >>> (i * d.width)) else (v >>> (i * d.width)) % 2 ^ d.width⟩

/-- The entry with the values of its returned lanes as register writes. -/
def ScoreEntry.collect (e : ScoreEntry) : ScoreEntry :=
  match e.dest with
  | none => e
  | some d =>
    { e with
      results := e.results ++ ((e.lanes.filter (·.left = 0)).flatMap fun l => d.writes l.lane l.value)
      lanes := e.lanes.filter (·.left ≠ 0) }

/-! ## Traps (R58, R415 to R418, R430) -/

/-- The requests of an event. -/
def reqsIn : Instr → List Req
  | .gets r | .getm r | .homeStore r => [r]
  | _ => []

/-- The requests that wait at a directory. -/
def DirEntry.pending (e : DirEntry) : List Req :=
  (match e.busy with | some t => t.req.toList | none => []) ++ e.queue

/-- The requests of a warp that are under way. -/
def State.reqsOut (s : State) (id : WarpId) : List Req :=
  (s.agenda.flatMap reqsIn ++ s.inputs.flatMap reqsIn ++ s.dir.flatMap fun x => x.2.pending).filter fun r => r.warp == some id

/-- The scratchpad requests of a warp that no slot has served. -/
def State.spadOut (s : State) (id : WarpId) : List SpadReq :=
  s.cores.flatMap fun (_, c) => c.slots.flatMap fun (_, q) => q.filter fun r => r.warp == id

/-- A load that is still out has a later write of its warp to the same line, or to a scratchpad, behind it: the load returns
before a halt, for that write is not taken back (R255, R422). -/
def State.lateWrite (s : State) (w : Warp) (e : ScoreEntry) : Bool :=
  let reqs := s.reqsOut w.id
  let lines := e.parts.map (·.pa / 2048) ++ (reqs.filter fun r => r.loads.any fun p => p.entry == e.id).map (·.line)
  (reqs.any fun r => !r.stores.isEmpty && decide (e.seq < r.seq) && lines.contains r.line) ||
  (s.agenda.any fun i => match i with
    | .handlerRun r => r.warp == w.id && decide (e.seq < r.seq) && r.spad.isNone && r.lanes.any fun l => lines.contains (l.addr / 2048)
    | _ => false) ||
  ((s.spadOut w.id).any (·.entry == some e.id) && (s.spadOut w.id).any fun r => r.kind != .load && decide (e.seq < r.seq))

/-- The loads of a warp that return before it halts. -/
def State.lateLoads (s : State) (w : Warp) : List Nat := (w.score.filter (s.lateWrite w)).map (·.id)

/-- The wider of two scopes of acquires. -/
def widerScope : Option Nat → Option Nat → Option Nat
  | some a, some b => some (max a b)
  | some a, none => some a
  | none, b => b

/-- A halt settles the scoreboard (R422): values that have come back are written, lanes of loads still out, parked loads
among them (R192), become replay records, and what completes in the background keeps its entry until then; so do the loads
named by `late`. A load whose lanes have all come back completes as an acquire too (R243, R260). -/
def Warp.settle (late : List Nat) (w : Warp) : Warp :=
  let past (slot : Nat) (q : Quad) : Quad := { q with pc := q.pc + BitVec.ofNat 64 slot, wait := .none, operand := 0 }
  let first := (w.resuming.toList ++ w.parked.toList).filter (!·.park)
  let last := w.parked.toList.filter fun r => r.park && r.slot != 0 && !r.lanes.isEmpty
  let w := last.foldl (fun w r => w.modGang (past r.slot)) w
  let w := { w.endRun with nest := { w.nest with running := none }, parked := none, resuming := none, replays := first ++ w.replays }
  let w := w.score.foldl (fun w e =>
    let out := e.lanes.filter (·.left ≠ 0)
    match e.kind with
    | .known => { w.settleEntry e with owed := widerScope e.acquire w.owed }
    | .load =>
      if late.contains e.id then w
      else if out.isEmpty then { w.settleEntry e.collect with owed := widerScope e.acquire w.owed }
      else { w.settleEntry e.collect with replays := w.replays ++ [⟨e.pc, out.map fun l => (l.lane, l.operand), false, false, 0⟩] }
    | .wait => w) w
  { w with replays := w.replays ++ last.map fun r => { r with park := false, unresolved := false } }

/-- What a trapping instruction reports (R415, R418). -/
structure Trap where
  code  : Nat
  addr  : Nat := 0
  info0 : Nat := 0
  info1 : Nat := 0
  lane  : Nat := 0
  flags : Nat := 0
  aux   : Nat := 0
  deriving DecidableEq, Repr

/-- The first three regions of a warp's stack, as a record holds them (R418). -/
def Warp.regionField (w : Warp) : BitVec 48 :=
  w.regions.getD 2 0 ++ w.regions.getD 1 0 ++ w.regions.getD 0 0

/-- The slot of a block on its core is kept in the low digits of its number (see `blockNumber`). -/
def blockSlot (block : Nat) : Nat := block % 16

/-- A record about a warp. -/
def State.recordFor (s : State) (w : Warp) (kind : Nat) (pc : DWord) (t : Trap) : FaultRecord where
  addr := BitVec.ofNat 64 t.addr
  pc := pc
  info0 := BitVec.ofNat 64 t.info0
  info1 := BitVec.ofNat 64 t.info1
  regions := w.regionField
  process := BitVec.ofNat 16 w.info.process
  launch := BitVec.ofNat 32 w.info.launch
  warp := BitVec.ofNat 6 w.id.warp
  lane := BitVec.ofNat 6 t.lane
  slot := BitVec.ofNat 4 (if w.isVesper then 0 else blockSlot w.id.block)
  core := BitVec.ofNat 6 w.id.core
  die := BitVec.ofNat 2 w.id.die
  kind := BitVec.ofNat 8 kind
  code := BitVec.ofNat 8 t.code
  status := 0
  flags := BitVec.ofNat 16 (t.flags + if w.user then 0 else 256)
  aux16 := BitVec.ofNat 16 t.aux
  time := BitVec.ofNat 64 s.timer

/-- A record waits for its place in a die's fault queue (R420). -/
def State.enqueueRecord (s : State) (die : Nat) (r : WaitingRecord) : State :=
  (s.modDie die fun d => { d with waiting := d.waiting ++ [r] }).post (.faultRecordEnqueue die)

/-- The flags of R418 that a core's condition gives. -/
def flagReplay : Nat := 32
def flagPrimary : Nat := 64
def flagPreempt : Nat := 128

/-- A warp halts at an instruction boundary (R422). -/
def State.halt (s : State) (w : Warp) : Warp := { w.settle (s.lateLoads w) with halted := true }

/-- Every warp of a core halts at an instruction boundary (R416, R421, R422). -/
def State.haltWarps (s : State) (die core : Nat) : State :=
  s.modWarps (fun w => w.id.die == die && w.id.core == core && !w.halted) s.halt

/-- What a trap makes of a core: BKPT, WATCH and stop requests are debug stops (R442). -/
def Core.trapBy (c : Core) (code : Nat) : Core :=
  if c.trapped then c
  else { c with trapped := true, grace := 16, cause := if code = 0x0F ∨ code = 0x10 then .debug else .trap }

/-- The flag of a replayed instruction (R418). -/
def replayFlag (again : Bool) : Nat := if again then flagReplay else 0

/-- A trap of a warp of a compute core stops the core and writes a record (R416): the trapping warp halts at once, the
others at HALT_COMPLETION, before which they may still issue within the 4 cycles of the rule. -/
def State.trapCore (s : State) (pc : DWord) (t : Trap) : State :=
  let id := s.warp.id
  let c := s.coreAt id.die id.core
  let extra := (if c.trapped then 0 else flagPrimary) + (if c.halt = .halting then flagPreempt else 0) +
    replayFlag s.warp.resuming.isSome
  let r := s.recordFor s.warp 1 pc { t with flags := t.flags + extra }
  let s := s.modWarp fun w => w.modGang fun q => { q with wait := .none, operand := 0 }
  let s := s.modCore id.die id.core fun c => c.trapBy t.code
  let s := s.modWarp s.halt
  (s.post (.haltCompletion id.die id.core)).enqueueRecord id.die ⟨r, some id.core, none, false⟩

/-- A trap on a Vesper core (R430). `epc` is the faulting instruction, or the one after a TRAP. -/
def State.trapVesper (s : State) (epc : DWord) (t : Trap) : State :=
  let id := s.warp.id
  let v := (s.coreAt id.die id.core).ves
  if v.ecause.getLsbD 15 then
    let r := s.recordFor s.warp 8 (if t.code = 0x11 then epc - 64 else epc) { t with info0 := v.ecause.toNat, info1 := v.epc.toNat }
    let s := s.modCore id.die id.core fun c => { c with ves := { c.ves with down := true } }
    (s.modWarp s.halt).enqueueRecord id.die ⟨r, none, none, false⟩
  else
    let s := s.modCore id.die id.core fun c =>
      { c with ves :=
        { c.ves with
          epc := epc
          ecause := (c.ves.ecause &&& 0xFFFF_FFFF_FFFF_7F00#64) ||| BitVec.ofNat 64 t.code ||| 0x8000#64
          eaddr := BitVec.ofNat 64 t.addr
          emode := if s.warp.user then 1 else 0 } }
    s.modWarp fun w =>
      let w := w.settle (s.lateLoads w)
      { w with quads := w.quads.map fun q => { q with pc := v.tvec, wait := .none }, user := false, resuming := none }

/-- Taking a trap: the one operation by which every instruction raises one. -/
def State.trap (s : State) (t : Trap) : State :=
  if s.warp.isVesper then s.trapVesper s.warp.pc t else s.trapCore s.warp.pc t

/-- The trap codes of R415. -/
def cIllegalOp : Nat := 0x01
def cIllegalFetch : Nat := 0x02
def cRegBound : Nat := 0x03
def cBarBound : Nat := 0x04
def cSpadBound : Nat := 0x05
def cMisalign : Nat := 0x06
def cPerm : Nat := 0x07
def cNotMapped : Nat := 0x08
def cPoison : Nat := 0x09
def cAtomicPoison : Nat := 0x0A
def cPlMismatch : Nat := 0x0B
def cPlTimeout : Nat := 0x0C
def cHandleInvalid : Nat := 0x0D
def cPriv : Nat := 0x0E
def cWatch : Nat := 0x0F
def cBkpt : Nat := 0x10
def cTrapInsn : Nat := 0x11
def cDieLost : Nat := 0x12
def cRestoreCapacity : Nat := 0x13
def cHandlerFault : Nat := 0x14
def cDataLost : Nat := 0x15
def cEngineFault : Nat := 0x16

/-- The word of an instruction as ILLEGAL_OP reports it: bits [63:0] (R415). -/
def wordInfo (i : Instr) : Nat := (encode i).toNat % 2 ^ 64

/-- ILLEGAL_OP of an execution check. -/
def State.illegal (s : State) (i : Instr) : State := s.trap { code := cIllegalOp, info0 := wordInfo i }

end Sys2Proof.Machine
end

