-- ==== Sys2Proof/Machine/Operands.lean ====
section
/-! DEFINITION. Operand forms: selectors, indirect registers, immediates, and the shared way in which a register
instruction runs. -/

namespace Sys2Proof.Machine

/-! ## Immediates (R48, R49) -/

/-- The immediate widened to `w` bits. -/
def immInt (f : Fields) (signed : Bool) (w : Nat) : Nat :=
  if f.isImm16 then (if signed then signExt 16 w f.imm16.toNat else f.imm16.toNat % 2 ^ w)
  else (if signed then signExt 32 w f.imm32.toNat else f.imm32.toNat % 2 ^ w)

/-! ## Sources (R44, R45) -/

/-- The register an indirect field names. -/
def State.indirect (s : State) (x : BitVec 8) : Nat := s.reg (.x (x.toNat / 64)) 0 + x.toNat % 64

/-- A source of `n` registers under a selector. -/
def State.source (s : State) (k : Bool) (sel : BitVec 2) (x : BitVec 8) (n lane : Nat) : Nat :=
  if k || sel == 1 then s.regs .s x.toNat 0 n
  else if sel == 3 then s.regs .v (s.indirect x) lane n
  else s.regs .v x.toNat lane n

def State.srcA (s : State) (f : Fields) (n lane : Nat) : Nat := s.source f.k f.asel f.a n lane

/-- Operand b when it is no immediate. -/
def State.srcBReg (s : State) (f : Fields) (n lane : Nat) : Nat := s.source f.k f.bsel f.b n lane

/-- Operand b of an integer or bit operation of `w` bits held in `n` registers (R49). -/
def State.srcB (s : State) (f : Fields) (signed : Bool) (w n lane : Nat) : Nat :=
  if f.isImm then immInt f signed w else s.srcBReg f n lane

/-- A field without a selector: a register of K's file. -/
def State.field (s : State) (f : Fields) (x : BitVec 8) (n lane : Nat) : Nat :=
  if f.k then s.regs .s x.toNat 0 n else s.regs .v x.toNat lane n

def State.srcC (s : State) (f : Fields) (n lane : Nat) : Nat := s.field f f.c n lane

/-- The writes of a result into d. -/
def dest (f : Fields) (n lane v : Nat) : List RegWrite :=
  spread (regName f.k) f.d.toNat (if f.k then 0 else lane) v n

/-- The write of a predicate result (R99). -/
def destPred (f : Fields) (x : BitVec 8) (lane : Nat) (v : Bool) : RegWrite :=
  ⟨predName f.k x.toNat, if f.k then 0 else lane, b2n v⟩

/-- A predicate operand named by a field. -/
def State.predField (s : State) (f : Fields) (x : BitVec 8) (lane : Nat) : Bool :=
  s.reg (predName f.k x.toNat) (if f.k then 0 else lane) == 1

/-- The register of an indirect source that lies beyond the allotment or breaks its alignment (R45), if any. DESIGN CHOICE (log
entry 52): where a and b are both bad it is a's. -/
def State.indirectFault (s : State) (i : Instr) (f : Fields) : Option Nat :=
  let bad (sel : BitVec 2) (x : BitVec 8) (k : SrcKind) : Option Nat :=
    if f.k || sel != 3 then none
    else
      let (n, al) := match k with
        | .src n al _ | .vecOrInd n al => (n, al)
        | _ => (1, 1)
      let r := s.indirect x
      if r % al != 0 || s.warp.info.vregs < r + n then some r else none
  match i.spec? with
  | none => none
  | some o => (bad f.asel f.a o.shape.a).or (bad f.bsel f.b o.shape.b)

/-- The same for an instruction that acts: lanes there are, and a replay does not read the operand again (R428). -/
def State.indirectBreach (s : State) (i : Instr) (f : Fields) : Option Nat :=
  if (s.actLanes f).isEmpty || s.warp.resuming.isSome then none else s.indirectFault i f

/-- REG_BOUND for it (R45). -/
def State.indirectTrap (s : State) (f : Fields) (r : Nat) : State :=
  s.trap { code := cRegBound, info0 := r, lane := (s.actLanes f).headD 0 }

/-! ## Running a register instruction (R11, R41, R52) -/

/-- What one lane of an instruction gives: registers and sticky flags. -/
abbrev LaneEffect := List RegWrite × Word

def noFlags (w : List RegWrite) : LaneEffect := (w, 0)

/-- A short-latency instruction whose effect is one list of writes and flags over its lanes: every source is read before
any register is written, and the counter moves on. -/
def State.runWrites (s : State) (i : Instr) (f : Fields) (effect : List Nat → LaneEffect) : State :=
  let lanes := s.actLanes f
  match s.indirectBreach i f with
  | some r => s.indirectTrap f r
  | none => ((s.writeRegs (effect lanes).1).raiseFlags (effect lanes).2).advance f

/-- The effects of the lanes, in ascending lane order. -/
def joinLanes (body : Nat → LaneEffect) (lanes : List Nat) : LaneEffect :=
  ((lanes.map body).flatMap (·.1), (lanes.map body).foldl (fun a e => a ||| e.2) 0)

/-- A short-latency instruction that acts lane by lane. -/
def State.runRegs (s : State) (i : Instr) (f : Fields) (body : Nat → LaneEffect) : State :=
  s.runWrites i f (joinLanes body)

/-- A short-latency instruction that acts once, when it acts at all; `lane` is the lowest active lane. -/
def State.runOnce (s : State) (i : Instr) (f : Fields) (body : Nat → List RegWrite) : State :=
  s.runWrites i f fun lanes => match lanes with | [] => ([], 0) | l :: _ => (body l, 0)

/-- The registers that d covers on the scoreboard (R55). -/
def coversD (f : Fields) (n : Nat) : List RegName := (List.range n).map fun j => regName f.k (f.d.toNat + j)

/-- A long-latency register instruction: the values are taken at issue (R56) and written by an event. -/
def State.runLater (s : State) (i : Instr) (f : Fields) (n : Nat) (body : Nat → LaneEffect) : State :=
  let lanes := s.actLanes f
  match s.indirectBreach i f with
  | some r => s.indirectTrap f r
  | none =>
    (s.later (coversD f n) (joinLanes body lanes).1 (joinLanes body lanes).2).advance f

/-- An outcome of a step. -/
abbrev Out := Host.Outcome State Fault Refusal

end Sys2Proof.Machine
end

