-- ==== Sys2Proof/Machine/Memory.lean ====
section
/-! DEFINITION. Memory at its homes and in the caches: regions, poison, write-back, replicas and replacement
(R17, R18, R228 to R233, R237, R365, R378). -/

namespace Sys2Proof.Machine

/-! ## Addresses (R17, R18) -/

def deviceOf (fa : Nat) : Nat := (fa >>> 55) % 512
def paOf (fa : Nat) : Nat := fa % 2 ^ 55
def regionOf (fa : Nat) : Nat := bits fa 54 53
def dieOf (fa : Nat) : Nat := bits fa 42 41
def lineOf (fa : Nat) : Nat := fa / 2048
def sectorOf (fa : Nat) : Nat := fa / 512

/-- The same offset on another die (R378). -/
def withDie (fa d : Nat) : Nat := insertBits fa 41 2 d

/-- A register that holds a physical address has bits [63:55] zero, and discards what is written to them (R6, R17). -/
def paReg (v : DWord) : DWord := v &&& 0x007F_FFFF_FFFF_FFFF#64

/-- Bits of device memory of one die (R17). -/
def dieBits : Nat := 1536000000000

/-- Device memory of this device. -/
def State.isLocal (s : State) (fa : Nat) : Bool := deviceOf fa == s.device && regionOf fa == 0

/-- A die that has not been removed (R386). -/
def State.alive (s : State) (d : Nat) : Bool := s.members.getLsbD d

def State.procAt (s : State) (p : Nat) : Process := tget Process.reset s.procs p

/-! ## Bytes at the home -/

/-- A memory in its canonical form: addresses rising, and no byte listed that an unlisted address reads as. -/
def Memory.wf (m : Table Byte) : Bool := twf 0 m

/-- A byte as its home holds it, by fabric byte address. What nothing has written reads 0 (log entry 2). -/
def State.homeByte (s : State) (b : Nat) : Nat :=
  let fa := b * 8
  if deviceOf fa != s.device then (tget 0 s.peerMem b).toNat
  else if regionOf fa = 0 then (tget 0 s.mem (paOf fa / 8)).toNat
  else (tget 0 s.hostMem (paOf fa / 8)).toNat

def State.setHomeByte (s : State) (b : Nat) (v : Byte) : State :=
  let fa := b * 8
  if deviceOf fa != s.device then { s with peerMem := tput 0 s.peerMem b v }
  else if regionOf fa = 0 then { s with mem := tput 0 s.mem (paOf fa / 8) v }
  else { s with hostMem := tput 0 s.hostMem (paOf fa / 8) v }

def State.homeRead (s : State) (fa w : Nat) : Nat := readBits s.homeByte fa w

/-- The line a die's L2 holds of another home. -/
def State.l2At (s : State) (die line : Nat) : Option L2Line := tget none (s.dieAt die).l2 line

def State.setL2 (s : State) (die line : Nat) (l : Option L2Line) : State :=
  s.modDie die fun d => { d with l2 := tput none d.l2 line l }

def State.dirAt (s : State) (line : Nat) : DirEntry := tget DirEntry.idle s.dir line

def State.modDir (s : State) (line : Nat) (g : DirEntry → DirEntry) : State :=
  { s with dir := tmod DirEntry.idle s.dir line g }

/-- The bytes, from byte `i` of the line, that the bits a to a + w - 1 touch. -/
def bytesTouched (fa w : Nat) : List Nat := (List.range ((fa % 8 + w + 7) / 8)).map (fa / 8 + ·)

/-- The bits of a line that a host holds modified (R410): the device does not see the host's stores, so they are a free
value until the host writes back. -/
def State.hostOwner (s : State) (line : Nat) : Option Nat :=
  (s.holders.find? fun (l, _, m) => l == line && m).map fun (_, h, _) => Config.hostLine (h + 64 * s.free) line

/-- A byte at the line's point of coherence (R250, R374): the owner's valid byte, or the home's; a host's where one holds the
line modified. -/
def State.cohByte (s : State) (b : Nat) : Nat :=
  match s.hostOwner (lineOf (b * 8)) with
  | some x => bits x (8 * (b % 256) + 7) (8 * (b % 256))
  | none =>
  match (s.dirAt (lineOf (b * 8))).st with
  | .o d =>
    match s.l2At d (lineOf (b * 8)) with
    | some l => if bitOf l.valid (b % 256) then bits l.data (8 * (b % 256) + 7) (8 * (b % 256)) else s.homeByte b
    | none => s.homeByte b
  | _ => s.homeByte b

def State.cohRead (s : State) (fa w : Nat) : Nat := readBits s.cohByte fa w

/-! ## Poison (R237, R238) -/

/-- The poison state that a read of these bits meets, if any: 1 POISON, 2 DATA_LOST. -/
def State.poisonOf (s : State) (fa w : Nat) : Option Nat :=
  (bytesTouched fa w).findSome? fun b =>
    match tget none s.poison (b / 64) with
    | some p =>
      let owned := match (s.dirAt (lineOf (b * 8))).st with
        | .o d => match s.l2At d (lineOf (b * 8)) with | some l => bitOf l.valid (b % 256) | none => false
        | _ => false
      if bitOf p.valid (b % 64) || owned then none else some p.kind
    | none => none

/-- Bytes written whole become valid; a sector whose bytes are all valid is clean again (R238). -/
def State.healByte (s : State) (b : Nat) : State :=
  match tget none s.poison (b / 64) with
  | none => s
  | some p =>
    let v := p.valid ||| 1 <<< (b % 64)
    { s with poison := tput none s.poison (b / 64) (if v = 2 ^ 64 - 1 then none else some { p with valid := v }) }

/-- A sector becomes poisoned at its home: every cached copy goes (R237). -/
def State.setPoison (s : State) (sector kind : Nat) : State :=
  let line := sector / 4
  let mask := (2 ^ 64 - 1) <<< (64 * (sector % 4))
  let s := { s with poison := tput none s.poison sector (some ⟨kind, 0⟩) }
  let s := (List.range 4).foldl (fun s d =>
    match s.l2At d line with
    | none => s
    | some l => s.setL2 d line (some { l with valid := l.valid - (l.valid &&& mask), dirty := l.dirty - (l.dirty &&& mask) })) s
  { s with cores := s.cores.map fun (k, c) =>
      (k, { c with l1 := tput none c.l1 sector none, icache := c.icache.filter fun x => x.1 != sector }) }

/-! ## Writing at the home -/

/-- A handler run for a source has written the bits of a mask from an address up: its home reports, if a home watchpoint may
match (R448). -/
def State.homeReportOf (s : State) (fa mask kind slot srcDev srcDie pid : Nat) : State :=
  if s.isLocal fa && !(s.dieAt (dieOf fa)).homeWatches.isEmpty then
    s.post (.homeWatchReport (dieOf fa) (paOf fa) mask kind slot srcDev srcDie pid)
  else s

/-- The same for a source on this device. -/
def State.homeReport (s : State) (fa mask kind slot srcDie pid : Nat) : State := s.homeReportOf fa mask kind slot s.device srcDie pid

/-- The primary forwards the bits of a mask within a line, which it has written at once, to the replica (R378). -/
def State.forward (s : State) (line mask v : Nat) (rdie : Option Nat) : State :=
  let home := dieOf (line * 2048)
  match rdie with
  | none => s
  | some r =>
    if s.alive r && r != home && s.alive home && mask != 0 then
      ({ s with nextSeq := s.nextSeq + 1 }.modDie home fun d => { d with regs := { d.regs with replfwd := d.regs.replfwd + 1 } }).post
        (.forwardedWrite line mask v ⟨r, s.nextSeq⟩)
    else s

/-- Bits of memory change at the home. A part of a byte that is not valid leaves it so (R238). -/
def State.homePoke (s : State) (fa w v : Nat) : State :=
  let s' := (writeBits s.homeByte fa w v).foldl (fun s x => s.setHomeByte x.1 x.2) s
  let whole := (bytesTouched fa w).filter fun b => fa ≤ b * 8 && b * 8 + 8 ≤ fa + w
  whole.foldl State.healByte s'

/-- The dirty valid bytes that a die's L2 holds of a line, written at the home. -/
def State.pokeLine (s : State) (die line : Nat) : State :=
  match s.l2At die line with
  | none => s
  | some l => (setBits 256 (l.dirty &&& l.valid)).foldl (fun s i =>
      s.homePoke (line * 2048 + 8 * i) 8 (bits l.data (8 * i + 7) (8 * i))) s

/-- Every copy of a line that other dies share goes (R374). -/
def State.dropSharers (s : State) (line : Nat) : State :=
  match (s.dirAt line).st with
  | .s m => ((setBits 4 m).foldl (fun s d => s.setL2 d line none) s).modDir line fun e => { e with st := .u }
  | _ => s

/-- One bit becomes 1 at its point of coherence, where an owner keeps the line. -/
def State.orBit (s : State) (a : Nat) : State :=
  let s := s.dropSharers (lineOf a)
  let owner := match (s.dirAt (lineOf a)).st with | .o d => (s.l2At d (lineOf a)).map fun l => (d, l) | _ => none
  match owner with
  | some (d, l) =>
    if bitOf l.valid (a / 8 % 256) then
      s.setL2 d (lineOf a) (some { l with data := l.data ||| 1 <<< (a % 2048), dirty := l.dirty ||| 1 <<< (a / 8 % 256) })
    else s.homePoke a 1 1
  | none => s.homePoke a 1 1

/-- Where the dirty map has the bit of a granule (R365); none on a die whose DMAP is 0, which has no map (log entry 12). -/
def State.dirtyBitOf (s : State) (fa : Nat) : Option Nat :=
  let base := (s.dieAt (dieOf fa)).regs.dmap.toNat
  if base = 0 || !s.isLocal fa then none else some (s.device * 2 ^ 55 + (base + bits fa 40 15) % 2 ^ 55)

/-- The granule's bit of the dirty map becomes 1 when a byte of it is written in HBM (R365): a one-bit atomic OR at the
home, for which an owner of the map's line gives it back. -/
def State.setDirtyBit (s : State) (fa : Nat) : State :=
  match s.dirtyBitOf fa with
  | none => s
  | some a =>
    let line := lineOf a
    let s := match (s.dirAt line).st with
      | .o d =>
        let wrote := match s.l2At d line with | some l => l.dirty &&& l.valid != 0 | none => false
        let t := ((s.pokeLine d line).setL2 d line none).modDir line fun e => { e with st := .u }
        if wrote then (match t.dirtyBitOf a with | some b => t.orBit b | none => t) else t
      | _ => s.dropSharers line
    (s.homePoke a 1 1).homeReport a 1 2 9 (dieOf fa) 0

/-- What a write of some bytes of a line leaves at the home: `toHbm`, the dirty bit of its granule (a write-back or an
uncached write); else bytes dirty in the home's L2. -/
def State.homeMark (s : State) (line bytes : Nat) (toHbm : Bool) : State :=
  if !s.isLocal (line * 2048) then s
  else if toHbm then s.setDirtyBit (line * 2048)
  else { s with
    homeLines := tmod HomeLine.clean s.homeLines line fun h => { h with held := true, dirty := h.dirty ||| bytes } }

/-- Bits written at the home. -/
def State.homePut (s : State) (fa w v : Nat) (toHbm : Bool) : State :=
  (s.homePoke fa w v).homeMark (lineOf fa) (maskOf ((bytesTouched fa w).map (· % 256))) toHbm

/-- Bits written at the home, and forwarded to its replica. -/
def State.homeWrite (s : State) (fa w v : Nat) (rdie : Option Nat) (toHbm : Bool) : State :=
  (s.homePut fa w v toHbm).forward (lineOf fa) ((2 ^ w - 1) <<< (fa % 2048)) (v % 2 ^ w <<< (fa % 2048)) rdie

/-- The bits of a mask within a line are written at the home, byte by byte in one event. -/
def State.homeMerge (s : State) (line mask v : Nat) (toHbm : Bool) : State :=
  let bytes := (List.range 256).filter fun i => bits mask (8 * i + 7) (8 * i) != 0
  if bytes.isEmpty then s
  else
    (bytes.foldl (fun s i =>
      let m := bits mask (8 * i + 7) (8 * i)
      let x := bits v (8 * i + 7) (8 * i)
      if m = 255 then s.homePoke (line * 2048 + 8 * i) 8 x
      else (setBits 8 m).foldl (fun s k => s.homePoke (line * 2048 + 8 * i + k) 1 (x >>> k)) s) s).homeMark line (maskOf bytes) toHbm

/-- A device access recalls a line that hosts cache (R410): the host writes back what it holds modified, and for a write no
host keeps the line. -/
def State.recallHosts (s : State) (line : Nat) (write : Bool) : State :=
  if s.holders.all fun x => x.1 != line then s
  else
    let t := match s.hostOwner line with
      | some x => { s with free := s.free + 1 }.homeWrite (line * 2048) 2048 x none false
      | none => s
    { t with
      holders := if write then t.holders.filter fun x => x.1 != line
                 else t.holders.map fun (l, h, m) => if l = line then (l, h, false) else (l, h, m) }

/-- The mask of bits of the bytes of a byte mask. -/
def bitsOfBytes (m : Nat) : Nat := (setBits 256 m).foldl (fun x i => x ||| 255 <<< (8 * i)) 0

/-- A die's dirty valid bytes of a remote line go to the home (R25, R230) as one write; the line stays, clean. -/
def State.writeBack (s : State) (die line : Nat) : State :=
  match s.l2At die line with
  | none => s
  | some l =>
    if l.dirty = 0 then s
    else
      let mask := bitsOfBytes (l.dirty &&& l.valid)
      let s := (if mask = 0 then s else s.recallHosts line true).setL2 die line (some { l with dirty := 0 })
      (s.homeMerge line mask l.data true).forward line mask (l.data &&& mask) l.rdie

/-- The home line's dirty bytes reach HBM (CCTL.wb, an eviction). -/
def State.flushHomeLine (s : State) (line : Nat) : State :=
  let h := tget HomeLine.clean s.homeLines line
  if h.dirty = 0 then s
  else
    { (s.setDirtyBit (line * 2048)) with
      homeLines := tput HomeLine.clean s.homeLines line { h with dirty := 0 } }

def State.dropL2 (s : State) (die line : Nat) : State := s.setL2 die line none

/-- DIRINVAL counts the invalidations a home sends (R388). -/
def State.countInval (s : State) (line n : Nat) : State :=
  s.modDie (dieOf (line * 2048)) fun d => { d with regs := { d.regs with dirinval := d.regs.dirinval + BitVec.ofNat 64 n } }

/-! ## Replacement (R228, R229, R232, R233) -/

/-- The line is a home line of the die. -/
def State.isHomeOf (s : State) (die line : Nat) : Bool := s.isLocal (line * 2048) && dieOf (line * 2048) == die

/-- The lines that a die's L2 holds, each with its keep and victim marks: remote lines and home lines. -/
def State.l2Lines (s : State) (die : Nat) : List (Nat × Bool × Bool) :=
  ((s.dieAt die).l2.filterMap fun (k, l) => l.map fun l => (k, l.keep, l.victim)) ++
  (s.homeLines.filter fun (k, h) => h.held && s.isHomeOf die k).map fun (k, h) => (k, h.keep, h.victim)

/-- The lines of a list that lie in the set of a line; a list of fewer than `n` lines cannot fill it and is left as it is. -/
def sameSet (line n : Nat) (ls : List (Nat × Bool × Bool)) : List (Nat × Bool × Bool) :=
  if ls.length < n then ls else ls.filter fun x => Config.l2Set x.1 % 24576 == Config.l2Set line % 24576

/-- The line leaves a die's L2 with its dirty bytes written back; the directory forgets an owner (R374). -/
def State.evictLine (s : State) (die line : Nat) : State :=
  if s.isHomeOf die line then
    let s := s.flushHomeLine line
    { s with homeLines := tput HomeLine.clean s.homeLines line HomeLine.clean }
  else
    let owner := match (s.dirAt line).st with | .o d => d == die | _ => false
    let s := (s.writeBack die line).dropL2 die line
    if owner then s.modDir line fun e => { e with st := .u } else s

/-- Room in a die's L2 for a line: a full set of 16 ways gives up a line, first one that is marked as the next victim, then
an unmarked one, then a keep line (R232, R233); which of several is free. -/
def State.makeRoom (s : State) (die line : Nat) : State :=
  let all := s.l2Lines die
  if all.any fun x => x.1 == line then s
  else
    let set := sameSet line 16 all
    if set.length < 16 then s
    else
      let plain := set.filter fun x => !x.2.1
      let first := plain.filter fun x => x.2.2
      let class_ := if !first.isEmpty then first else if !plain.isEmpty then plain else set
      match class_[Config.pick s.free % class_.length]? with
      | some x => { s with free := s.free + 1 }.evictLine die x.1
      | none => s

/-- A hint marks a line that the L2 of a die holds (R232): next victim, or keep, of which a set has at most 12 (R233). -/
def State.markLine (s : State) (die line hint : Nat) : State :=
  let full : Bool := 12 ≤ (sameSet line 12 ((s.l2Lines die).filter fun x => x.2.1 && x.1 != line)).length
  if hint = 1 ∨ (hint = 2 ∧ !full) then
    if s.isHomeOf die line then
      { s with homeLines := tmod HomeLine.clean s.homeLines line fun h => { h with keep := h.keep || hint == 2, victim := hint == 1 } }
    else match s.l2At die line with
      | some l => s.setL2 die line (some { l with keep := l.keep || hint == 2, victim := hint == 1 })
      | none => s
  else s

/-- The home's own L2 holds a line of device memory that the die reads or writes. -/
def State.holdHome (s : State) (line hint : Nat) : State :=
  let die := dieOf (line * 2048)
  if !s.isLocal (line * 2048) then s
  else
    let s := s.makeRoom die line
    { s with homeLines := tmod HomeLine.clean s.homeLines line fun h => { h with held := true } }.markLine die line hint

/-- A line in a die's L2, with the marks of a hint. -/
def State.putL2 (s : State) (die line hint : Nat) (l : L2Line) : State :=
  ((s.makeRoom die line).setL2 die line (some l)).markLine die line hint

/-! ## The L1 (R228, R231) -/

/-- Lines of 256 bytes that the L1 has room for; one that no block has sized has its least size (R181). -/
def Core.l1Room (c : Core) : Nat := max 131072 c.l1Size / 256

/-- A sector goes into a core's L1; a full L1 gives up a line, which one is free. -/
def State.fillL1 (s : State) (die core sector x : Nat) : State :=
  let c := s.coreAt die core
  let put (c : Core) : Core := { c with l1 := tput none c.l1 sector (some x) }
  if c.l1.length < c.l1Room then s.modCore die core put
  else
    let lines := (c.l1.map (·.1 / 4)).eraseDups
    if lines.length < c.l1Room || lines.contains (sector / 4) then s.modCore die core put
    else
      let gone := lines.getD (Config.pick s.free % lines.length) 0
      { s with free := s.free + 1 }.modCore die core fun c => put { c with l1 := c.l1.filter fun y => y.1 / 4 != gone }

def State.dropL1 (s : State) (die core sector : Nat) : State :=
  s.modCore die core fun c => { c with l1 := tput none c.l1 sector none }

/-- A 256-byte line leaves a core's L1. -/
def State.dropL1Line (s : State) (die core line : Nat) : State :=
  (List.range 4).foldl (fun s i => s.dropL1 die core (line * 4 + i)) s

def State.clearL1 (s : State) (die core : Nat) : State := s.modCore die core fun c => { c with l1 := [] }

/-- A store updates the bits of a valid line of its own core; with `.bypass` the line goes (R232). -/
def State.storeL1 (s : State) (die core hint : Nat) (p : StorePart) : State :=
  if hint = 3 then s.dropL1Line die core (lineOf p.pa)
  else s.modCore die core fun c =>
    match tget none c.l1 (sectorOf p.pa) with
    | none => c
    | some x => { c with l1 := tput none c.l1 (sectorOf p.pa) (some (insertBits x (p.pa % 512) p.width p.value)) }

/-! ## The L2 of a die -/

def L2Line.empty (k : LineKind) (m : Mode) : L2Line :=
  { kind := k, data := 0, valid := 0, dirty := 0, rdie := m.rdie, keep := false, victim := false }

/-- The home of an access while dies may be lost (R387): the address at which it is served, or none. -/
def State.served (s : State) (fa : Nat) (m : Mode) : Option Nat :=
  if !s.isLocal fa || s.alive (dieOf fa) then some fa
  else match m.rdie with
    | some r => if s.alive r then some (withDie fa r) else none
    | none => none

/-- A byte of a poisoned sector that is not valid is not filled (R230, R238). -/
def State.fillable (s : State) (b : Nat) : Bool :=
  match tget none s.poison (b / 64) with
  | some p => bitOf p.valid (b % 64)
  | none => true

/-- The sector that holds byte `b` of memory is filled from the home into a line; bytes valid already stand. -/
def State.fillSector (s : State) (l : L2Line) (b : Nat) : L2Line :=
  (List.range 64).foldl (fun l i =>
    let x := b / 64 * 64 + i
    if bitOf l.valid (x % 256) || !s.fillable x then l
    else { l with data := insertBits l.data (8 * (x % 256)) 8 (s.homeByte x), valid := l.valid ||| 1 <<< (x % 256) }) l

/-- Store bits merge into a line (R24, R25, R230): a byte written in part is filled first. -/
def State.mergeLine (s : State) (l : L2Line) (fa w v : Nat) : L2Line :=
  let l := (bytesTouched fa w).foldl (fun l b =>
    if fa ≤ b * 8 && b * 8 + 8 ≤ fa + w || bitOf l.valid (b % 256) then l else s.fillSector l b) l
  let whole := (bytesTouched fa w).filter fun b => fa ≤ b * 8 && b * 8 + 8 ≤ fa + w
  { l with
    data := insertBits l.data (fa % 2048) w v
    valid := l.valid ||| maskOf (whole.map (· % 256))
    dirty := l.dirty ||| maskOf ((bytesTouched fa w).map (· % 256)) }

/-- The bits of a line, when all their bytes are valid. -/
def L2Line.read? (l : L2Line) (fa w : Nat) : Option Nat :=
  if (bytesTouched fa w).all fun b => bitOf l.valid (b % 256) then some ((l.data >>> (fa % 2048)) % 2 ^ w) else none

/-- The 64-bit words of a number, lowest first. -/
def words64 : Nat → Nat → List Nat
  | 0, _ => []
  | n + 1, x => x % 2 ^ 64 :: words64 n (x >>> 64)

end Sys2Proof.Machine
end

