-- ==== Sys2Proof/Machine/Directory.lean ====
section
/-! DEFINITION. The home directory: loads that come back, the transactions of a line, and the accesses that the device makes
at a line's point of coherence (R238, R250, R269, R372 to R376). -/

namespace Sys2Proof.Machine

/-! ## Traps of an access that an event performs -/

/-- Bring a warp into focus as the issuing warp. -/
def State.focus (s : State) (id : WarpId) : State :=
  if s.warp.id = id ∧ s.warp.live then s
  else match s.others.find? fun w => w.id == id && w.live with
    | none => s
    | some w => { s with warp := w, others := s.warp :: s.others.erase w }

/-- A trap that an event raises at an instruction of a warp. -/
def State.trapEntry (s : State) (id : WarpId) (pc : DWord) (t : Trap) : State :=
  let s := s.focus id
  if s.warp.id ≠ id then s
  else if s.warp.isVesper then s.trapVesper pc t else s.trapCore pc t

def Warp.modEntry (w : Warp) (id : Nat) (g : ScoreEntry → ScoreEntry) : Warp :=
  { w with score := w.score.map fun e => if e.id = id then g e else e }

/-- The load leaves the scoreboard with nothing written, and its quads stand at it again; one that a replay record issued
goes back into that record with its lanes (R58, R428). -/
def Warp.unissue (e : ScoreEntry) (w : Warp) : Warp :=
  let w := { w with
    score := w.score.filter fun u => u.id != e.id
    parked := w.parked.filter fun r => r.pc != e.pc }
  if e.again then { w with replays := ⟨e.pc, e.lanes.map fun l => (l.lane, l.operand), false, false, 0⟩ :: w.replays }
  else { w with quads := w.quads.mapIdx fun i q => if e.gang.contains i then { q with pc := e.pc } else q }

/-- A trap of a load that is found when one of its parts is performed (R238, R387). It is precise at the load, behind which
its warp has issued nothing. A load of a warp that has issued more since, which only the loss of a die brings about, or of a
warp that has halted, keeps its pending lanes for a replay (log entry 56). -/
def State.trapLoad (s : State) (id : WarpId) (e : ScoreEntry) (t : Trap) : State :=
  let s := s.focus id
  if s.warp.id ≠ id then s
  else if s.warp.halted then s.modWarp (Warp.settle [])
  else
    let t := { t with flags := t.flags + replayFlag e.again }
    if s.warp.isVesper || s.warp.count ≤ e.count + 1 then (s.modWarp (Warp.unissue e)).trapEntry id e.pc t
    else s.trapEntry id e.pc t

/-! ## Loads: parts come back -/

/-- A part's value reaches its lane. -/
def ScoreEntry.deliver (e : ScoreEntry) (p : LoadPart) (v : Nat) : ScoreEntry :=
  { e with lanes := e.lanes.map fun l =>
      if l.lane = p.lane then { l with left := l.left - 1, value := l.value + v <<< p.at_ } else l }

/-- What a part that has been served does to the sector in the core's L1: nothing, for it came from there or is no memory;
drop it; or fill it with what was served. -/
inductive L1Effect where
  | leave | drop | fill (x : Nat)
  deriving DecidableEq, Repr

/-- The sector that serves a part, when all of it is there. -/
def L1Effect.of : Option Nat → L1Effect
  | some x => .fill x
  | none => .drop

/-- A part is performed: the L1 is filled unless the hint keeps it out (R232), and the lane gets its bits. A load that the
L1 has not served leaves no older copy there (R255; for `.stream` and `.bypass`, log entry 57). -/
def State.finishPart (s : State) (id : WarpId) (p : LoadPart) (v : Nat) (effect : L1Effect) : State :=
  let s := match effect with
    | .leave => s
    | .drop => s.dropL1 id.die id.core (sectorOf p.pa)
    | .fill x =>
      if p.mode.hint = 1 ∨ p.mode.hint = 3 then s.dropL1 id.die id.core (sectorOf p.pa) else s.fillL1 id.die id.core (sectorOf p.pa) x
  s.modWarpAt id fun w => w.modEntry p.entry fun e => e.deliver p v

/-- The trap that a part meets in poisoned or lost memory. -/
def State.poisonTrap (s : State) (id : WarpId) (p : LoadPart) (kind : Nat) : State :=
  match s.warpAt? id with
  | none => s
  | some w =>
    match w.score.find? fun e => e.id = p.entry with
    | none => s
    | some e =>
      let addr := match e.lanes.find? fun l => l.lane = p.lane with | some l => l.operand | none => p.va
      s.trapLoad id e { code := if kind = 1 then cPoison else cDataLost, addr, lane := p.lane, flags := 1 }

/-- A part read at its home or point of coherence `fa`. -/
def State.readPart (s : State) (id : WarpId) (p : LoadPart) (fa : Nat) : State :=
  match s.poisonOf fa p.width with
  | some k => s.poisonTrap id p k
  | none =>
    let sector := sectorOf fa * 512
    let whole := if (s.poisonOf sector 512).isNone then some (s.cohRead sector 512) else none
    s.finishPart id p (s.cohRead fa p.width) (L1Effect.of whole)

/-! ## Access counters (R369) -/

/-- A fill of a line at its home, on a page with MIG = 1, counts for the die that asks; when one die's count exceeds the
others' by the process's threshold, the home reports it. -/
def State.countFill (s : State) (line die pid : Nat) (mode : Mode) : State :=
  if !mode.mig || !s.isLocal (line * 2048) then s
  else
    let fa := line * 2048
    let home := dieOf fa
    let region := fa >>> 24
    let old := (s.dieAt home).counters
    let c := (old.find? (·.region == region)).getD ⟨region, [0, 0, 0, 0]⟩
    let counts := c.counts.mapIdx fun i n => if i = die then min 65535 (n + 1) else n
    let rest := (old.filter (·.region != region)).take 4095
    let mine := counts.getD die 0
    if (s.procAt pid).migthresh.toNat < mine - (counts.foldl (· + ·) 0 - mine) then
      let rec0 : FaultRecord :=
        { addr := BitVec.ofNat 64 (region <<< 24), pc := 0, info0 := BitVec.ofNat 64 die,
          info1 := BitVec.ofNat 64 (counts.foldr (fun n a => n + a <<< 16) 0), regions := 0, process := BitVec.ofNat 16 pid,
          launch := 0, warp := 0, lane := 0, slot := 0, core := 0, die := BitVec.ofNat 2 home, kind := 3, code := 0,
          status := 0, flags := 0, aux16 := 0, time := BitVec.ofNat 64 s.timer }
      (s.modDie home fun d => { d with counters := rest }).enqueueRecord home ⟨rec0, none, none, false⟩
    else s.modDie home fun d => { d with counters := ⟨region, counts⟩ :: rest }

/-- The home's own L2 serves a line, filling it from HBM where it does not hold it. -/
def State.readHome (s : State) (line pid : Nat) (mode : Mode) : State :=
  let s := if (tget HomeLine.clean s.homeLines line).held then s else s.countFill line (dieOf (line * 2048)) pid mode
  s.holdHome line mode.hint

/-! ## Serving a request (R374) -/

/-- Register a use of the line's directory entry (R376). -/
def State.touchDir (s : State) (line : Nat) : State := s.modDir line fun e => { e with used := s.nextSeq }

/-- Store parts of a request, performed at the home (R374: no other die holds the line). -/
def State.storeHome (s : State) (r : Req) : State :=
  r.stores.foldl (fun s p =>
    ((s.homeWrite (r.line * 2048 + p.pa % 2048) p.width p.value r.mode.rdie false).storeL1 r.die r.core r.mode.hint p))
    (s.holdHome r.line r.mode.hint)

/-- Store parts of a request, merged in the requesting die's L2. -/
def State.storeL2 (s : State) (r : Req) (k : LineKind) : State :=
  r.stores.foldl (fun s p =>
    let old := (s.l2At r.die (lineOf p.pa)).getD (L2Line.empty k r.mode)
    let l := s.mergeLine { old with kind := k, rdie := r.mode.rdie } p.pa p.width p.value
    (s.putL2 r.die (lineOf p.pa) r.mode.hint l).storeL1 r.die r.core r.mode.hint p) s

/-- The loads of a request come back; a load that has every lane is completed by its event. -/
def State.returnLoads (s : State) (r : Req) : State :=
  match r.warp with
  | none => s
  | some id =>
    r.loads.foldl (fun s p =>
      ((match s.l2At r.die (lineOf p.pa) with
        | some l =>
          match l.read? p.pa p.width with
          | some v => s.finishPart id p v (L1Effect.of (l.read? (sectorOf p.pa * 512) 512))
          | none => s.readPart id p (r.line * 2048 + p.pa % 2048)
        | none => s.readPart id p (r.line * 2048 + p.pa % 2048))).post (.longLatencyResult id p.entry)) s

/-- The valid sectors of a line that a die's L2 holds go into a core's L1 (R246). -/
def State.prefetchL2 (s : State) (die core line : Nat) : State :=
  match s.l2At die line with
  | none => s
  | some l => (List.range 4).foldl (fun s i =>
      match l.read? (line * 2048 + 512 * i) 512 with
      | some x => s.fillL1 die core (line * 4 + i) x
      | none => s) s

/-- Serve a request whose line no other die's copy stands in the way of. -/
def State.serve (s : State) (r : Req) : State :=
  let s := s.touchDir r.line
  let s := s.recallHosts r.line (r.kind == .getM || r.kind == .homeStore)
  match r.kind with
  | .getS | .fill =>
    let s := s.modDir r.line fun e =>
      { e with st := match e.st with
          | .u => .s (1 <<< r.die)
          | .s m => .s (m ||| 1 <<< r.die)
          | .o d => if d = r.die then .o d else .s (1 <<< d ||| 1 <<< r.die) }
    let own : Bool := match (s.dirAt r.line).st with | .o _ => true | _ => false
    let old := (s.l2At r.die r.line).getD (L2Line.empty .shared r.mode)
    let fresh := (List.range 4).foldl (fun l i => s.fillSector l (r.line * 256 + 64 * i))
      { old with kind := if own then .modified else .shared }
    let s := (s.putL2 r.die r.line r.mode.hint fresh).countFill r.line r.die r.pid r.mode
    (if r.fillL1 then s.prefetchL2 r.die r.core r.line else s).returnLoads r
  | .getM =>
    let s := s.modDir r.line fun e => { e with st := .o r.die }
    let l := match s.l2At r.die r.line with
      | some l => { l with kind := .modified }
      | none => L2Line.empty .modified r.mode
    ((s.putL2 r.die r.line r.mode.hint l).countFill r.line r.die r.pid r.mode).storeL2 r .modified
  | .homeLoad => (s.readHome r.line r.pid r.mode).returnLoads r
  | .homeStore => (s.modDir r.line fun e => { e with st := .u }).storeHome r

/-- Begin a transaction (R375): the line is in B until every die in `ds` has answered. -/
def State.beginTxn (s : State) (line : Nat) (ds : List Nat) (req : Option Req) (msg : Nat → Instr) : State :=
  ds.foldl (fun s d => s.post (msg d)) (s.modDir line fun e => { e with busy := some ⟨ds, req⟩ })

/-- The dies of a mask other than one. -/
def othersIn (m d : Nat) : List Nat := (setBits 4 m).filter (· ≠ d)

/-- The snoop filter's capacity (R376). -/
def snoopEntries : Nat := 2097152

/-- A full snoop filter, and the least recently used line to recall. -/
def State.snoopVictim (s : State) (line : Nat) : Option Nat :=
  let home := dieOf (line * 2048)
  let used := s.dir.filter fun x => x.2.st != .u && dieOf (x.1 * 2048) == home
  if used.length < snoopEntries || (s.dirAt line).st != .u then none
  else (used.filter fun x => x.2.busy.isNone).foldl (fun b x =>
    match b with
    | none => some x.1
    | some v => if x.2.used < (s.dirAt v).used then some x.1 else some v) none

/-- The messages that take a line from every other die. -/
def State.recallLine (s : State) (line : Nat) (req : Option Req) : State :=
  match (s.dirAt line).st with
  | .u => s
  | .s m => (s.beginTxn line (setBits 4 m) req fun d => .lineInvalidation d line).countInval line (setBits 4 m).length
  | .o d => s.beginTxn line [d] req fun d => .recall d line false

/-- A request reaches the home (R374). -/
def State.letIn (s : State) (r : Req) : State :=
  let e := s.dirAt r.line
  if e.busy.isSome then s.modDir r.line fun e => { e with queue := e.queue ++ [r] }
  else
    match s.snoopVictim r.line with
    | some v =>
      if r.kind = .homeLoad ∨ r.kind = .homeStore then s.serve r
      else
        let s := s.modDie (dieOf (v * 2048)) fun d => { d with regs := { d.regs with dirrecall := d.regs.dirrecall + 1 } }
        (s.recallLine v none).post (if r.kind = .getM then .getm r else .gets r)
    | none =>
      match r.kind, e.st with
      | .getS, .o d | .fill, .o d =>
        if d = r.die then s.serve r else s.beginTxn r.line [d] (some r) fun d => .recall d r.line true
      | .getM, .s m =>
        let ds := othersIn m r.die
        if ds.isEmpty then s.serve r
        else (s.beginTxn r.line ds (some r) fun d => .lineInvalidation d r.line).countInval r.line ds.length
      | .getM, .o d => if d = r.die then s.serve r else s.beginTxn r.line [d] (some r) fun d => .recall d r.line false
      | .homeLoad, .o d => s.beginTxn r.line [d] (some r) fun d => .recall d r.line true
      | .homeStore, .s m =>
        if m = 0 then s.serve r
        else (s.beginTxn r.line (setBits 4 m) (some r) fun d => .lineInvalidation d r.line).countInval r.line
          (setBits 4 m).length
      | .homeStore, .o d => s.beginTxn r.line [d] (some r) fun d => .recall d r.line false
      | _, _ => s.serve r

/-- Serve waiting requests in arrival order until one begins a transaction (R375). -/
def State.drainQueue (s : State) (line : Nat) : List Req → State
  | [] => s
  | r :: rs =>
    if (s.dirAt line).busy.isSome then s.modDir line fun e => { e with queue := e.queue ++ (r :: rs) }
    else (s.letIn r).drainQueue line rs

/-! ## A transaction's messages (R373 to R375) -/

/-- A recall reaches the owner: it writes back and keeps S or goes to I. -/
def State.recallAt (s : State) (die line : Nat) (keep : Bool) : State :=
  let s := s.writeBack die line
  if keep then
    (match s.l2At die line with
     | some l => s.setL2 die line (some { l with kind := .shared })
     | none => s).modDir line fun e => { e with st := .s (1 <<< die) }
  else (s.dropL2 die line).modDir line fun e => { e with st := .u }

/-- A sharer drops the line. -/
def State.invalidateAt (s : State) (die line : Nat) : State :=
  (s.dropL2 die line).modDir line fun e =>
    { e with st := match e.st with
        | .s m => let m' := m - (m &&& 1 <<< die); if m' = 0 then .u else .s m'
        | x => x }

/-- The line leaves B: the transaction's request is served, then those that waited, in arrival order. -/
def State.completeTxn (s : State) (line : Nat) : State :=
  match (s.dirAt line).busy with
  | none => s
  | some t =>
    let queue := (s.dirAt line).queue
    let s := s.modDir line fun e => { e with busy := none, queue := [] }
    (match t.req with | some r => s.serve r | none => s).drainQueue line queue

/-- The messages of a line's transaction. -/
def txnMessage (line : Nat) : Instr → Bool
  | .recall _ l _ | .lineInvalidation _ l | .transactionComplete l => l == line
  | _ => false

/-- A recall that leaves the owner a shared copy. -/
def Txn.keeps (t : Txn) : Bool :=
  match t.req with
  | some r => r.kind == .getS || r.kind == .fill || r.kind == .homeLoad
  | none => false

/-- A line's transaction runs to its end at once: the answers that are still out come in. -/
def State.finishTxn (s : State) (line : Nat) (t : Txn) : State :=
  let s := { s with agenda := s.agenda.filter fun i => !txnMessage line i }
  (t.waiting.foldl (fun s d => match (s.dirAt line).st with
    | .o _ => s.recallAt d line t.keeps
    | _ => s.invalidateAt d line) s).completeTxn line

def State.settleFuel (line : Nat) : Nat → State → State
  | 0, s => s
  | n + 1, s =>
    match (s.dirAt line).busy with
    | none => s
    | some t => settleFuel line n (s.finishTxn line t)

/-- A request that arrives at a line in B waits for the transaction and for the requests before it (R375): they are served
now, and the request after them. -/
def State.settleLine (s : State) (line : Nat) : State := settleFuel line ((s.dirAt line).queue.length + 2) s

/-! ## Accesses of the device at a line's point of coherence -/

/-- Every other die's copy comes home and goes (R269, R374). -/
def State.pullAll (s : State) (line : Nat) : State :=
  let s := (s.settleLine line).recallHosts line true
  match (s.dirAt line).st with
  | .u => s
  | .s m =>
    let ds := setBits 4 m
    ((ds.foldl (fun s d => s.dropL2 d line) s).countInval line ds.length).modDir line fun e => { e with st := .u }
  | .o d => s.recallAt d line false

/-- One atomic step at the home of a word (R216, R275, R362): old value, and the state after the write. -/
def State.homeUpdate (s : State) (fa w : Nat) (g : Nat → Nat) (rdie : Option Nat := none) : Nat × State :=
  let s := (s.pullAll (lineOf fa)).holdHome (lineOf fa) 0
  let old := s.homeRead fa w
  (old, s.homeWrite fa w (g old) rdie false)

/-- A write that the device makes on its own at a home. -/
def State.deviceWrite (s : State) (fa w v : Nat) (rdie : Option Nat := none) : State :=
  (s.homeUpdate fa w (fun _ => v) rdie).2

/-- A wide value written word by word, ascending. -/
def State.deviceWrites (s : State) (fa : Nat) : List Nat → State
  | [] => s
  | v :: vs => (s.deviceWrite fa 64 v).deviceWrites (fa + 64) vs

/-- A die reads bits of memory through its L2, for an engine, a fetch or a nest (R292, R312, R374): a line of its own is
recalled from an owner, a COH line of another die is filled by GetS, and the sectors of an untracked line by a fill. -/
def State.fillRead (s : State) (die fa w pid : Nat) (mode : Mode) : State :=
  let line := lineOf fa
  let s := s.recallHosts line false
  if regionOf fa = 2 then s
  else if s.isHomeOf die line then
    let s := s.settleLine line
    (match (s.dirAt line).st with
     | .o d => s.recallAt d line true
     | _ => s).readHome line pid mode
  else if ((s.l2At die line).bind fun l => l.read? fa w).isSome then s.markLine die line mode.hint
  else if s.isLocal fa && mode.coh then
    let s := s.settleLine line
    let own : Bool := match (s.dirAt line).st with | .o d => d == die | _ => false
    let s := match (s.dirAt line).st with | .o d => if own then s else s.recallAt d line true | _ => s
    s.serve
      { die, core := 0, kind := if own then .fill else .getS, line, seq := s.nextSeq, base := s.nextSeq, after := [], warp := none,
        gang := [], pid, fillL1 := false, loads := [], stores := [], mode, rel := none }
  else if mode.hint = 3 then s.countFill line die pid mode
  else
    let l := ((bytesTouched fa w).map (· / 64 * 64)).eraseDups.foldl s.fillSector ((s.l2At die line).getD (L2Line.empty .nc mode))
    (s.putL2 die line mode.hint l).countFill line die pid mode

/-- A die's engine stores to a line that a directory tracks (R292, R374): at the home, or in the die's L2, which gets the
line in M. -/
def State.fillWrite (s : State) (r : Req) : State :=
  if s.isHomeOf r.die r.line then (s.pullAll r.line).serve { r with kind := .homeStore }
  else
    let s := s.settleLine r.line
    (match (s.dirAt r.line).st with
     | .u => s
     | .s m =>
       let ds := othersIn m r.die
       (ds.foldl (fun (s : State) d => s.invalidateAt d r.line) s).countInval r.line ds.length
     | .o d => if d = r.die then s else s.recallAt d r.line false).serve { r with kind := .getM }

/-- A byte as a die's L2 gives it. -/
def State.dieByte (s : State) (die b : Nat) : Nat :=
  match s.l2At die (lineOf (b * 8)) with
  | some l => if bitOf l.valid (b % 256) then bits l.data (8 * (b % 256) + 7) (8 * (b % 256)) else s.cohByte b
  | none => s.cohByte b

def State.dieRead (s : State) (die fa w : Nat) : Nat := readBits (s.dieByte die) fa w

/-! ## Acquire (R231) -/

/-- The caches' part of an acquire at a scope, on a core. -/
def State.acquireAt (s : State) (die core scope : Nat) : State :=
  if scope < 2 then s
  else
    let s := s.clearL1 die core
    if scope < 4 then s
    else
      (s.dieAt die).l2.foldl (fun s x =>
        match x.2 with
        | some l => if l.kind = .nc then (s.writeBack die x.1).dropL2 die x.1 else s
        | none => s) s

end Sys2Proof.Machine
end

