-- ==== Sys2Proof/Machine/Translate.lean ====
section
/-! DEFINITION. Page tables, the translation caches, the windows of the address space, and the parts of an access
(R12 to R22, R354 to R364). -/

namespace Sys2Proof.Machine

/-! ## Page tables (R354 to R359) -/

/-- The spaces of translated windows: user, host, supervisor. -/
def spaceOf (va : Nat) : Nat := if va >>> 56 < 8 then 0 else if va >>> 56 = 0x0A then 1 else 2

/-- A physical address that an entry may name (R17): not reserved, and `size` bits from it within the die's memory. -/
def frameOk (pa size : Nat) : Bool :=
  match regionOf pa with
  | 0 => bits pa 52 43 == 0 && bits pa 40 0 + size ≤ dieBits
  | 1 | 2 => true
  | _ => false

/-- A table lies wholly in device memory. -/
def tableOk (pa size : Nat) : Bool := regionOf pa == 0 && frameOk pa size

/-- What an entry is, at its level (R356 to R358). -/
inductive EntryKind where
  | miss | bad | table (next : Nat) | leaf
  deriving DecidableEq, Repr

/-- Offset bits of a leaf's page. -/
def pageBits (level : Nat) : Nat := match level with | 1 => 33 | 2 => 24 | _ => 19

def leafOk (level e : Nat) : Bool :=
  let frame := bits e 54 19 <<< 19
  let fab := bitOf e 10
  let repl := bitOf e 7
  bits e 18 14 == 0 && (fab || bits e 63 55 == 0) && frame % 2 ^ pageBits level == 0 &&
  frameOk frame (2 ^ pageBits level) &&
  !(repl && (bits e 12 11 == dieOf frame || fab || regionOf frame != 0))

def entryKind (level e : Nat) : EntryKind :=
  if !bitOf e 0 then .miss
  else if bitOf e 1 then
    if level = 3 || bits e 63 55 != 0 || bits e 10 2 != 0 then .bad
    else
      let next := bits e 54 11 <<< 11
      if tableOk next (if level = 2 then 2048 else 32768) then .table next else .bad
  else if level = 0 || !leafOk level e then .bad else .leaf

/-- The index of an address at a level. -/
def tableIndex (level va : Nat) : Nat :=
  match level with
  | 0 => if spaceOf va = 1 then bits va 55 42 else bits va 58 42
  | 1 => bits va 41 33
  | 2 => bits va 32 24
  | _ => bits va 23 19

/-- What a walk finds. -/
inductive Walk where
  | miss | bad
  | leaf (e level addr : Nat)
  deriving DecidableEq, Repr

/-- An entry that a walk has read: its page-table line and, for a table entry, the level and address of the table that it
names. -/
structure WalkRead where
  line : Nat
  next : Option (Nat × Nat)
  deriving DecidableEq, Repr

/-- The walk from a table at a level, for at most `fuel` levels, with the entries it reads. -/
def State.walkFrom (s : State) (va : Nat) : Nat → Nat → Nat → List WalkRead → Walk × List WalkRead
  | 0, _, _, ls => (.bad, ls)
  | fuel + 1, level, table, ls =>
    let a := table + 64 * tableIndex level va
    let read : WalkRead := ⟨lineOf a, none⟩
    if (s.poisonOf a 64).isSome then (.bad, read :: ls)
    else
      let e := s.cohRead a 64
      match entryKind level e with
      | .miss => (.miss, read :: ls)
      | .bad => (.bad, read :: ls)
      | .leaf => (.leaf e level a, read :: ls)
      | .table next =>
        let table := next + s.device * 2 ^ 55
        s.walkFrom va fuel (level + 1) table (⟨lineOf a, some (level + 1, table)⟩ :: ls)

/-- The root that a space is indexed through (R355). -/
def State.rootOf (s : State) (die process space : Nat) : Nat :=
  match space with
  | 0 => (s.procAt process).userroot.toNat
  | 1 => (s.procAt process).hostroot.toNat
  | _ => (s.dieAt die).regs.suproot.toNat

/-- The walk from the root. -/
def State.walk (s : State) (die process va : Nat) : Walk × List WalkRead :=
  let root := s.rootOf die process (spaceOf va)
  if tableOk root (if spaceOf va = 1 then 1048576 else 8388608) && root < 2 ^ 55 then
    s.walkFrom va 4 0 (paOf root + s.device * 2 ^ 55) []
  else (.bad, [])

/-! ## The translation cache (R361 to R364) -/

/-- The sharer bit of an agent: a core of the package, or a Meridian engine. -/
def coreAgent (die core : Nat) : Nat := die * 65 + min core 64
def meridianAgent (die : Nat) : Nat := die * 65 + 64

/-- Drop the translations and table entries that every sharer of a line holds (R361, R366). -/
def State.dropLine (s : State) (line : Nat) : State :=
  { s with
    cores := s.cores.map fun (k, c) =>
      (k, { c with tlb := c.tlb.filter fun t => t.line != line, walks := c.walks.filter fun t => t.line != line })
    dies := s.dies.map fun (k, d) => (k, { d with meridian := d.meridian.filter fun t => t.line != line }) }

/-- The home of a page-table line notes a sharer; a full line directory gives up its least recently used line. -/
def State.noteSharer (s : State) (agent line : Nat) : State :=
  let d := dieOf (line * 2048)
  let old := (s.dieAt d).lineDir
  let mask := match old.find? (·.1 == line) with | some x => x.2 | none => 0
  let rest := old.filter (·.1 != line)
  let full := 65536 ≤ rest.length
  let s := if full then (match rest.getLast? with | some x => s.dropLine x.1 | none => s) else s
  s.modDie d fun x => { x with lineDir := (line, mask ||| 1 <<< agent) :: (if full then rest.dropLast else rest) }

/-- An access's outcome in translation. -/
inductive Xlat where
  | ok (fa : Nat) (leaf : Nat)
  | miss | perm | bad
  deriving DecidableEq, Repr

/-- The permissions an access needs (R360). -/
structure Need where
  r : Bool
  w : Bool
  x : Bool
  deriving DecidableEq, Repr

def needR : Need := ⟨true, false, false⟩
def needW : Need := ⟨false, true, false⟩
def needRW : Need := ⟨true, true, false⟩
def needX : Need := ⟨false, false, true⟩

/-- The leaf grants what the access needs. -/
def leafGrants (leaf : Nat) (user : Bool) (n : Need) : Bool :=
  (!n.r || bitOf leaf 2) && (!n.w || bitOf leaf 3) && (!n.x || bitOf leaf 4) && (!user || bitOf leaf 5)

/-- The fabric address that a leaf gives an address (R357). -/
def leafAddr (dev leaf size va : Nat) : Nat :=
  let frame := bits leaf 54 19 <<< 19
  (if bitOf leaf 10 then bits leaf 63 55 else dev) * 2 ^ 55 + frame + va % 2 ^ size

/-- The process whose tables translate the accesses of a warp: its own, or on a Vesper core the one that PROCSEL names
(log entry 11). -/
def State.processOf (s : State) (w : Warp) : Nat :=
  if w.isVesper then bits (s.dieAt w.id.die).regs.procsel.toNat 15 0 else w.info.process

/-- The first address of the boot translation, and the leaf it stands for: V, R, W, X and COH (R459). -/
def bootBase : Nat := 0xF800_0000_0000_0000
def bootLeaf : Nat := 0x5D

/-- The boot translation of a Vesper core, while its die's SUPROOT is 0 (R459). -/
def State.bootXlat (s : State) (va : Nat) : Xlat :=
  if bootBase ≤ va && va < bootBase + 2 ^ 55 && regionOf (va - bootBase) != 3 && frameOk (va - bootBase) 1 then
    .ok (s.device * 2 ^ 55 + (va - bootBase)) bootLeaf
  else .bad

/-- The address bits above what a table of a level covers. -/
def walkTop (level va : Nat) : Nat := va >>> (match level with | 1 => 42 | 2 => 33 | _ => 24)

/-- A walk from the deepest table that the core's walk cache names, or from the root (R361). -/
def State.cachedWalk (s : State) (die core process va : Nat) : Walk × List WalkRead :=
  let sp := spaceOf va
  let known := (s.coreAt die core).walks.filter fun e =>
    (sp == 2 || e.process == process) && e.space == sp && e.top == walkTop e.level va
  match known.foldl (fun b e => match b with
    | some x => if x.level < e.level then some e else some x
    | none => some e) (none : Option WalkEntry) with
  | some e => s.walkFrom va (4 - e.level) e.level e.table []
  | none => s.walk die process va

/-- The walk cache takes the table entries that a walk has read. -/
def State.noteTables (s : State) (die core process va : Nat) (reads : List WalkRead) : State :=
  let new := reads.filterMap fun r => r.next.map fun (level, table) =>
    ({ process, space := spaceOf va, level, top := walkTop level va, table, line := r.line } : WalkEntry)
  s.modCore die core fun c => { c with walks := (new ++ c.walks.filter fun e => !new.contains e).take 256 }

/-- What a walk brings: its reads are noted, the leaf's accessed bit is set (R362), and the core caches the leaf. -/
def State.takeWalk (s : State) (die core process : Nat) (user : Bool) (va : Nat) (n : Need) (found : Walk × List WalkRead) :
    State × Xlat :=
  let s := (found.2.foldl (fun s x => s.noteSharer (coreAgent die core) x.line) s).noteTables die core process va found.2
  match found.1 with
  | .miss => (s, .miss)
  | .bad => (s, .bad)
  | .leaf e level a =>
    let s := if bitOf e 9 then s else (s.homeUpdate (a + 9) 1 fun _ => 1).2.homeReport (a + 9) 1 2 9 die process
    let e := e ||| 512
    let t : TlbEntry :=
      { process, space := spaceOf va, va := va / 2 ^ pageBits level * 2 ^ pageBits level, size := pageBits level,
        leaf := BitVec.ofNat 64 e, line := lineOf a }
    let s := s.modCore die core fun c => { c with tlb := (t :: c.tlb).take 4096 }
    (s, if leafGrants e user n then .ok (leafAddr s.device e (pageBits level) va) e else .perm)

/-- Translate for a core (R361 to R364), past the boot translation. A cached leaf that lacks a permission goes, and the walk
after it begins at the root (R364). -/
def State.translateWalk (s : State) (die core process : Nat) (user : Bool) (va : Nat) (n : Need) : State × Xlat :=
  let sp := spaceOf va
  let hit := (s.coreAt die core).tlb.find? fun t =>
    (sp == 2 || t.process == process) && t.space == sp && t.va == va / 2 ^ t.size * 2 ^ t.size
  match hit with
  | none => s.takeWalk die core process user va n (s.cachedWalk die core process va)
  | some t =>
    if leafGrants t.leaf.toNat user n then (s, .ok (leafAddr s.device t.leaf.toNat t.size va) t.leaf.toNat)
    else
      let s := s.modCore die core fun c => { c with tlb := c.tlb.filter (· != t) }
      s.takeWalk die core process user va n (s.walk die process va)

/-- Translate for a core: by the boot translation, the cache or a walk. -/
def State.translate (s : State) (die core process : Nat) (user : Bool) (va : Nat) (n : Need) : State × Xlat :=
  if 64 ≤ core && (s.dieAt die).regs.suproot == 0 then (s, s.bootXlat va) else s.translateWalk die core process user va n

/-- How a leaf's page is held, for an access with a hint. -/
def leafMode (leaf hint : Nat) : Mode :=
  { coh := bitOf leaf 6, mig := bitOf leaf 13, rdie := if bitOf leaf 7 then some (bits leaf 12 11) else none, hint }

/-- A translation that neither walks nor waits: what the cache or the tables give for reading, for the device's own
accesses that never park (R177, R184). -/
def State.peek (s : State) (die process : Nat) (va : Nat) (n : Need) : Xlat :=
  match (s.walk die process va).1 with
  | .miss => .miss
  | .bad => .bad
  | .leaf e level _ =>
    if leafGrants e true n then .ok (leafAddr s.device e (pageBits level) va) e else .perm

/-! ## Windows (R12 to R16) -/

/-- Where an access goes. -/
inductive Place where
  | spad (off : Nat)
  | peer (rank off : Nat)
  | mem
  deriving DecidableEq, Repr

/-- The window of the top byte of an address: user, own scratchpad, peers', host, supervisor; `none` if unlisted. -/
def windowOf (b : Nat) : Option Nat :=
  if b < 8 then some 0 else if b = 8 then some 1 else if b = 9 then some 2 else if b = 10 then some 3
  else if 0xF8 ≤ b ∧ b < 256 then some 4 else none

/-- The block of a rank of the warp's cluster. -/
def State.peerBlock (s : State) (b : Block) (rank : Nat) : Option (Nat × Block) :=
  s.blocks.find? fun (_, u) =>
    u.process == b.process && u.launch == b.launch && u.cluster == b.cluster && u.rank == rank && !u.discarded

/-- The window checks of R13 to R16: the place, or the trap code. -/
def State.place (s : State) (w : Warp) (a width : Nat) : Except Nat Place :=
  let b := s.blockAt w.id.block
  match windowOf (a >>> 56), windowOf (((a + width - 1) % 2 ^ 64) >>> 56) with
  | some x, some y =>
    if x ≠ y then .error cNotMapped
    else match x with
      | 1 => if a % 2 ^ 56 + width ≤ 8 * b.header.spad then .ok (.spad (a % 2 ^ 56)) else .error cSpadBound
      | 2 =>
        let rank := bits a 35 32
        let off := bits a 31 0
        if bits a 55 36 = 0 ∧ rank < b.header.cluster ∧ off + width ≤ 8 * b.header.spad then .ok (.peer rank off)
        else .error cSpadBound
      | 4 => if w.user then .error cPerm else .ok .mem
      | _ => .ok .mem
  | _, _ => .error cNotMapped

/-- The parts of an access (R21, R22): offset within the access and width; each lies in one aligned 64-bit word. -/
def splitFrom (a w : Nat) : Nat → Nat → List (Nat × Nat)
  | 0, _ => []
  | fuel + 1, at_ =>
    if w ≤ at_ then []
    else
      let n := min (64 - (a + at_) % 64) (w - at_)
      (at_, n) :: splitFrom a w fuel (at_ + n)

def partsOf (a w : Nat) : List (Nat × Nat) := splitFrom a w (w / 64 + 2) 0

end Sys2Proof.Machine
end

