-- ==== Sys2Proof/Machine/Registers.lean ====
section
/-! DEFINITION. The debug registers (R437), the host-identity range tables (R408, R409), and the checks of a translated
address (R17, R405, R451). -/

namespace Sys2Proof.Machine

/-! ## Debug registers (R437) -/

/-- D(d) of R437. -/
def debugBase (d : Nat) : Nat := 0x40_0001_0000_0000 + d * 2 ^ 41

/-- Offsets of a die's block of debug registers (log entry 24). -/
def debugBits : Nat := 2 ^ 32

/-- The die whose block of debug registers holds a physical address. -/
def debugDie (pa : Nat) : Option Nat := (List.range 4).find? fun d => debugBase d ≤ pa ∧ pa < debugBase d + debugBits

/-- The registers of R437 by offset. -/
inductive DebugReg where
  | dbgctl (core : Nat)
  | watch (core k field : Nat)
  | smpBase | smpCtl | smpHead | smpTail | smpLost
  | home (controller k field : Nat)
  | none
  deriving DecidableEq, Repr

/-- The field of a watchpoint at an offset within its 0x100 bits. -/
def watchField (o : Nat) : Option Nat := if o % 64 = 0 then some (o / 64) else Option.none

def debugReg (off : Nat) : DebugReg :=
  if off < 64 * 0x1_0000 then
    let o := off % 0x1_0000
    if o = 0 then .dbgctl (off / 0x1_0000)
    else if 0x400 ≤ o ∧ o < 0x800 then .watch (off / 0x1_0000) ((o - 0x400) / 0x100) (o % 0x100 / 64)
    else .none
  else if off = 0x100_0000 then .smpBase
  else if off = 0x100_0040 then .smpCtl
  else if off = 0x100_0080 then .smpHead
  else if off = 0x100_00C0 then .smpTail
  else if off = 0x100_0100 then .smpLost
  else if 0x200_0000 ≤ off ∧ off < 0x200_0000 + 3 * 0x1_0000 ∧ off % 0x1_0000 < 0x400 then
    .home ((off - 0x200_0000) / 0x1_0000) (off % 0x1_0000 / 0x100) (off % 0x100 / 64)
  else .none

def Watch.get (w : Watch) : Nat → DWord
  | 0 => w.lo
  | 1 => w.hi
  | 2 => w.mask
  | _ => w.ctl

def Watch.put (w : Watch) (ctlMask : DWord) (v : DWord) : Nat → Watch
  | 0 => { w with lo := v }
  | 1 => { w with hi := v }
  | 2 => { w with mask := v }
  | _ => { w with ctl := v &&& ctlMask }

/-- SMPCTL with k and lsize clamped to their ranges (R437). -/
def clampSmpCtl (v : DWord) : DWord :=
  let k := max 10 (min 20 (v.toNat % 32))
  let l := max 4 (min 24 (bits v.toNat 12 8))
  BitVec.ofNat 64 (k + l * 256 + b2n (v.getLsbD 16) * 65536)

/-- A read of a debug register of a die. -/
def State.debugRead (s : State) (die off : Nat) : DWord :=
  let r := (s.dieAt die).regs
  match debugReg off with
  | .dbgctl n => (s.coreAt die n).dbgctl
  | .watch n k i => (tget Watch.reset (s.coreAt die n).watches k).get i
  | .smpBase => r.smpbase
  | .smpCtl => r.smpctl
  | .smpHead => r.smphead
  | .smpTail => r.smptail
  | .smpLost => r.smplost
  | .home c k i => (tget Watch.reset (s.dieAt die).homeWatches (c * 4 + k)).get i
  | .none => 0

/-- A write: reserved fields, read-only registers and unassigned offsets discard what is written. -/
def State.debugWrite (s : State) (die off : Nat) (v : DWord) : State :=
  let reg (g : DieRegs → DieRegs) : State := s.modDie die fun d => { d with regs := g d.regs }
  match debugReg off with
  | .dbgctl n => s.modCore die n fun c => { c with dbgctl := v &&& 0xFFFF_001F#64 }
  | .watch n k i => s.modCore die n fun c => { c with watches := tmod Watch.reset c.watches k fun w => w.put 0xFFFF_000F#64 v i }
  | .smpBase => reg fun r => { r with smpbase := paReg v }
  | .smpCtl => s.modDie die fun d => { d with regs := { d.regs with smpctl := clampSmpCtl v }, smpClock := 0 }
  | .smpHead => reg fun r => { r with smphead := v &&& 0xFFFF_FFFF#64 }
  | .home c k i => s.modDie die fun d => { d with homeWatches := tmod Watch.reset d.homeWatches (c * 4 + k) fun w => w.put 1#64 v i }
  | .smpTail | .smpLost | .none => s

/-- A fabric address lies in this device's device-register region. -/
def State.isRegister (s : State) (fa : Nat) : Bool := deviceOf fa == s.device && regionOf fa == 2

/-- A 64-bit read of this device's registers: a load of SMPTAIL is an acquire, which its caller makes. -/
def State.registerRead (s : State) (fa : Nat) : Nat :=
  match debugDie (paOf fa) with
  | some d => (s.debugRead d (paOf fa - debugBase d)).toNat
  | none => 0

def State.registerWrite (s : State) (fa v : Nat) : State :=
  match debugDie (paOf fa) with
  | some d => s.debugWrite d (paOf fa - debugBase d) (BitVec.ofNat 64 v)
  | none => s

/-- The register is SMPTAIL (R442). -/
def isSmpTail (fa : Nat) : Bool :=
  match debugDie (paOf fa) with
  | some d => debugReg (paOf fa - debugBase d) == .smpTail
  | none => false

/-! ## Range tables (R408) -/

/-- A range entry, field by field. -/
structure Range where
  dbase  : Nat
  hbase  : Nat
  units  : Nat
  hostId : Nat
  kind   : Nat
  valid  : Bool
  r      : Bool
  w      : Bool
  a      : Bool
  c      : Bool
  deriving DecidableEq, Repr

def rangeOf (e : BitVec 256) : Range where
  dbase := bits e.toNat 255 192
  hbase := bits e.toNat 191 128
  units := bits e.toNat 127 96
  hostId := bits e.toNat 95 90
  kind := bits e.toNat 89 88
  valid := e.getLsbD 87
  r := e.getLsbD 86
  w := e.getLsbD 85
  a := e.getLsbD 84
  c := e.getLsbD 83

/-- The entry covers bits a to a + w - 1. -/
def Range.covers (e : Range) (a w : Nat) : Bool := decide (e.dbase ≤ a) && decide (a + w ≤ e.dbase + e.units * 2 ^ 19)

/-- The valid entries of both copies, by index. -/
def State.rangePairs (s : State) : List (Range × Range) :=
  (s.ranges.map fun (k, e) => (rangeOf e, rangeOf (tget 0 s.tray k))).filter fun (x, y) => x.valid && y.valid

/-- The kind-00 entry that covers an access to host-attached memory and grants it in both copies. -/
def State.hostRange (s : State) (fa w : Nat) (grants : Range → Bool) : Option Range :=
  ((s.rangePairs.filter fun (x, y) =>
    x.kind == 0 && y.kind == 0 && x.covers (fa % 2 ^ 53) w && y.covers (fa % 2 ^ 53) w && grants x && grants y).map (·.1)).head?

/-- A fabric address of host-attached memory of this device. -/
def State.isHost (s : State) (fa : Nat) : Bool := deviceOf fa == s.device && regionOf fa == 1

/-! ## Links -/

def State.linkAt (s : State) (l : Nat) : Link := tget Link.reset s.links l

/-- A link without an active wavelength in some direction has failed (R401). -/
def Link.failed (l : Link) : Bool := l.active == 0 || l.txActive == 0

/-- The link of a host's four that a line's requests take (R406): the one that the hash names, or, where that one has failed,
one that the hash names anew among those that are up (R403, log entry 45). -/
def State.hostLinkOf (s : State) (hostId line : Nat) : Nat :=
  let named (i : Nat) : Nat := Config.hostLink hostId (line + 2 ^ 60 * i)
  (((List.range 4).map named).find? fun l => !(s.linkAt l).failed).getD (named 0)

/-! ## Keys (R405, R450, R451) -/

/-- The process's key handle has been revoked. -/
def State.keyRevoked (s : State) (process : Nat) : Bool :=
  let h := (s.procAt process).keyHandle
  h != 0 && (match tget none s.platform.keys h with | some k => !k.valid | none => true)

/-- An ENC access that raises PERM: its key is revoked, or its host link speaks version 1. -/
def State.encBarred (s : State) (process leaf fa w : Nat) : Bool :=
  bitOf leaf 8 &&
  (s.keyRevoked process ||
    (s.isHost fa && (match s.hostRange fa w fun _ => true with
      | some e => Config.versionOne (s.hostLinkOf e.hostId (lineOf fa))
      | none => false)))

/-! ## Checks of a translated part -/

/-- What kind of access a part belongs to. -/
inductive AccessKind where
  | load | store | atomic
  deriving DecidableEq, Repr

/-- Why a part of a lane cannot be performed. -/
inductive Bar where
  | miss
  | trap (code info : Nat)
  | refused
  | device (pa : Nat)
  deriving DecidableEq, Repr

/-- A refusal of the host port counts in HOSTDROP (R409). -/
def State.dropHost (s : State) : State := { s with hostDrop := s.hostDrop + 1 }

/-- The checks of R17, R409, R437 and R451 on a part that has been translated; `whole` is the access's width when the part
is a whole natural access of LD, ST, LDK or STK. -/
def State.barred (s : State) (process : Nat) (user : Bool) (k : AccessKind) (fa leaf w : Nat) (whole : Option Nat) : Option Bar :=
  if regionOf fa = 2 then
    if user then some (.trap cPerm 0)
    else if deviceOf fa != s.device || (debugDie (paOf fa)).isNone then some (.device (paOf fa))
    else if whole == some 64 && fa % 64 == 0 && k != .atomic then none
    else some (.trap cMisalign (whole.getD w))
  else if s.encBarred process leaf fa w then some (.trap cPerm 0)
  else if s.isHost fa && k != .store && (s.hostRange fa w fun e => if k = .load then e.r else e.a).isNone then
    some .refused
  else none

end Sys2Proof.Machine
end

