-- ==== Sys2Proof/Machine/Access.lean ====
section
/-! DEFINITION. Memory requests under way: order, parts performed, releases, and the events of the homes
(R21, R228 to R236, R252, R261, R372 to R379). -/

namespace Sys2Proof.Machine

/-! ## What is under way -/

/-- An access that has not been performed: its die, line, place in issue order and that of its instruction, warp and quads,
and whether it is an acquire or a release; `part`: a release that covers its own sub-gang's accesses only (R252). -/
structure Pend where
  die  : Nat
  line : Nat
  seq  : Nat
  base : Nat
  warp : Option WarpId
  gang : List Nat
  acq  : Bool
  rel  : Bool
  part : Bool
  deriving DecidableEq, Repr

/-- An access of a warp, in issue order, that is neither acquire nor release. -/
def Pend.plain (die line seq : Nat) (warp : WarpId) (gang : List Nat) : Pend :=
  { die, line, seq, base := seq, warp := some warp, gang, acq := false, rel := false, part := false }

/-- What a release covers of the accesses of the quads that issued them. -/
def Pend.covers (p : Pend) (gang : List Nat) : Bool := !p.part || gang.any p.gang.contains

/-- The line of an access that touches no line of memory. -/
def noLine : Nat := 2 ^ 64

/-- A request as a pending access. -/
def pendReq (r : Req) : Pend :=
  { die := r.die, line := r.line, seq := r.seq, base := r.base, warp := r.warp, gang := r.gang, acq := false, rel := r.rel.isSome,
    part := false }

/-- An atomic request, or the update of a sync word, as pending accesses: SYNCSET and SYNCADD release what their sub-gang has
issued (R252). -/
def pendAtomic (r : AtomicReq) : List Pend :=
  r.lanes.map fun l =>
    { die := r.srcDie, line := if r.spad.isSome then noLine else lineOf l.addr, seq := r.seq, base := r.seq, warp := some r.warp,
      gang := r.gang, acq := r.acq.isSome, rel := r.rel.isSome, part := decide (32 ≤ r.slot) }

/-- The pending access of an event, if it is one. -/
def pendOf : Instr → List Pend
  | .gets r | .getm r | .homeStore r => [pendReq r]
  | .handlerRun r | .atomicAcknowledgement r _ => pendAtomic r
  | _ => []

/-- The pending accesses of a warp's loads; an acquire that has not taken effect counts too. -/
def Warp.pendLoads (w : Warp) : List Pend :=
  w.score.flatMap fun e =>
    (e.parts.map fun p => { Pend.plain w.id.die (lineOf p.pa) e.seq w.id e.gang with acq := e.acquire.isSome }) ++
    (if e.acquire.isSome then [{ Pend.plain w.id.die noLine e.seq w.id e.gang with acq := true }] else [])

def State.pendings (s : State) : List Pend :=
  s.agenda.flatMap pendOf ++ s.inputs.flatMap pendOf ++ (s.dir.flatMap fun x => x.2.pending.map pendReq) ++
  s.warps.flatMap Warp.pendLoads

/-- Scratchpad requests of a warp that an access covers and that were issued before it, not served by any slot. -/
def State.spadBefore (s : State) (p : Pend) (id : WarpId) : Bool :=
  (s.spadOut id).any fun r => decide (r.seq < p.base) && p.covers r.gang

/-- Engine operations that a warp issued before a given access and that have not ended (R258). -/
def State.opsBefore (s : State) (p : Pend) (id : WarpId) : Bool :=
  s.ops.any fun (_, o) => match o with | some o => o.warp == id && decide (o.seq < p.base) && p.covers o.gang | none => false

/-- What the release part of an access waits for besides the earlier accesses to memory. -/
def State.releaseHeld (s : State) (p : Pend) : Bool :=
  p.rel && (match p.warp with | some id => s.spadBefore p id || s.opsBefore p id | none => false)

/-- An access has to wait for an earlier one: of its die to its line (R235, R255, R261), behind an acquire of its warp, for a
write behind a release of its warp, and for a release behind everything that it covers (R252, R258). -/
def State.blocked (s : State) (p : Pend) (write : Bool) : Bool :=
  s.releaseHeld p ||
  s.pendings.any fun q =>
    (decide (q.seq < p.seq) && q.die == p.die && q.line == p.line && q.line != noLine) ||
    (decide (q.seq < p.base) && q.warp.isSome && q.warp == p.warp && (q.acq || (q.rel && write) || (p.rel && p.covers q.gang)))

/-- A request of the same instruction that holds an earlier part of one of its lanes has not been performed (R21). -/
def State.afterHeld (s : State) (r : Req) : Bool := s.pendings.any fun q => q.warp == r.warp && r.after.contains q.seq

/-- A request that has to wait before it is performed. -/
def State.waitsReq (s : State) (r : Req) (write : Bool) : Bool := s.blocked (pendReq r) write || s.afterHeld r

/-- The switch plane of a request to another device (R402): the one that the hash names, or while that one is down one of
those that are not. -/
def State.planeOf (s : State) (fa : Nat) : Nat :=
  let h := Config.planeHash (deviceOf fa) (bits fa 54 11) % 48
  if s.planes.getD h .up ≠ .down then h
  else
    let rest := (List.range 48).filter fun p => s.planes.getD p .up != .down
    rest.getD (h % max 1 rest.length) h

/-- A request to another device that has to wait for its plane, or one to a host whose four links have all failed (R403,
R406). -/
def State.planeHeld (s : State) (fa : Nat) : Bool :=
  (deviceOf fa != s.device && regionOf fa == 0 && s.planes.getD (s.planeOf fa) .up != .up) ||
  (s.isHost fa && (match s.hostRange fa 1 fun _ => true with
    | some e => (s.linkAt (s.hostLinkOf e.hostId (lineOf fa))).failed
    | none => false))

/-- A conversion other than those of `own` holds back an access of these bits (R339). -/
def State.convHeld (s : State) (own : Mark → Bool) (fa w : Nat) (write : Bool) : Bool :=
  let on (m : Mark) : Bool := !own m && overlap fa w (m.sector * 512) 512
  s.dstMarks.any on || (write && s.srcMarks.any on)

/-- A placement conversion, or a plane that is not up, holds back an access of these bits (R339, R403). -/
def State.marked (s : State) (fa w : Nat) (write : Bool) : Bool := s.convHeld (fun _ => false) fa w write || s.planeHeld fa

/-- The same for the stores of a request. -/
def State.markedStores (s : State) (r : Req) : Bool := r.stores.any fun p => s.marked p.pa p.width true

/-- Forwarded writes that a replica has not applied (R379). -/
def State.forwarding (s : State) : Bool := s.agenda.any fun e => match e with | .forwardedWrite .. => true | _ => false

/-- The parts of a warp's loads that have not been performed. -/
def State.loadParts (s : State) (w : Warp) : List LoadPart :=
  w.score.flatMap (·.parts) ++ (s.reqsOut w.id).flatMap (·.loads)

/-- The part meets poison, lost data or a lost home where it will be performed (R238, R387). -/
def State.spoiled (s : State) (p : LoadPart) : Bool :=
  match s.served p.pa p.mode with
  | none => true
  | some fa => (s.poisonOf fa p.width).isSome

/-- The warp issues nothing behind an access of its own that will trap: a load that meets poison, an access that a
watchpoint matches, or an atomic that its home refused (R58, R238, R278, R446). -/
def State.mustHold (s : State) (w : Warp) : Bool :=
  (w.score.any fun e => e.watch.isSome || e.fail.isSome) ||
  ((!s.poison.isEmpty || s.members != 0b1111) && (s.loadParts w).any s.spoiled)

/-! ## A part of a load is performed -/

/-- What the L2 of the warp's die does with a part: serves it, or asks the home. -/
def State.performPart (s : State) (id : WarpId) (e : ScoreEntry) (pid : Nat) (p : LoadPart) : State :=
  let c := s.coreAt id.die id.core
  let l1 := if p.mode.hint = 0 ∨ p.mode.hint = 2 then tget none c.l1 (sectorOf p.pa) else none
  match l1 with
  | some x => s.finishPart id p ((x >>> (p.pa % 512)) % 2 ^ p.width) .leave
  | none =>
    match s.served p.pa p.mode with
    | none => s.poisonTrap id p 1
    | some fa =>
      if s.isRegister fa then
        let s := if isSmpTail fa then s.acquireAt id.die id.core 3 else s
        s.finishPart id p (s.registerRead fa) .leave
      else
      let s := s.recallHosts (lineOf fa) false
      let req (k : ReqKind) : Req :=
        { die := id.die, core := id.core, kind := k, line := lineOf fa, seq := e.seq, base := e.seq, after := [], warp := some id,
          gang := e.gang, pid, fillL1 := false, loads := [p], stores := [], mode := p.mode, rel := none }
      if s.isHomeOf id.die (lineOf fa) then
        let d := s.dirAt (lineOf fa)
        let direct := d.busy.isNone && (match d.st with | .o _ => false | _ => true)
        if direct then (s.readHome (lineOf fa) pid p.mode).readPart id p fa
        else match s.poisonOf fa p.width with
          | some k => s.poisonTrap id p k
          | none => s.post (.gets (req .homeLoad))
      else
        let line := lineOf fa
        let cached := match s.l2At id.die line with | some l => (l.read? fa p.width).map fun v => (l, v) | none => none
        match cached with
        | some (l, v) =>
          (s.markLine id.die line p.mode.hint).finishPart id p v (L1Effect.of (l.read? (sectorOf fa * 512) 512))
        | none =>
          match s.poisonOf fa p.width with
          | some k => s.poisonTrap id p k
          | none =>
            if s.isLocal fa && p.mode.coh then
              let own : Bool := match s.l2At id.die line with | some l => l.kind == .modified | none => false
              s.post (.gets (req (if own then .fill else .getS)))
            else
              -- an untracked line: filled from the home unless bypassed
              let l := s.fillSector ((s.l2At id.die line).getD (L2Line.empty .nc p.mode)) (fa / 8)
              let v := (l.data >>> (fa % 2048)) % 2 ^ p.width
              let s := s.countFill line id.die pid p.mode
              let s := if p.mode.hint = 3 then s else s.putL2 id.die line p.mode.hint l
              s.finishPart id p v (L1Effect.of (l.read? (sectorOf fa * 512) 512))

/-! ## Release (R231, R379) -/

/-- The write-backs of a release at a scope: dirty remote NC lines, and dirty lines of REPL pages (R379). -/
def State.releaseLines (s : State) (die scope : Nat) : State :=
  if scope < 4 then s
  else
    (s.dieAt die).l2.foldl (fun s x =>
      match x.2 with
      | some l => if l.kind = .nc || l.rdie.isSome then s.writeBack die x.1 else s
      | none => s) s

/-- Some access of the warp that a release covers has not been performed. -/
def State.warpPending (s : State) (p : Pend) (id : WarpId) : Bool :=
  (s.pendings.any fun q => q.warp == some id && p.covers q.gang) || (s.spadOut id).any fun r => p.covers r.gang

/-- The issuing warp at this point of its issue order, as a release: of the whole warp, or with `own` of its sub-gang. -/
def State.releasePoint (s : State) (own : Bool) : Pend :=
  { Pend.plain s.warp.id.die noLine s.nextSeq s.warp.id s.warp.gang with rel := true, part := own }

/-- A release of the issuing warp at a scope: with its write-backs begun, whether it is complete (R231, R258, R379). A
release that is not complete waits at issue. BAR.ARRIVE and CBAR.ARRIVE cover their own sub-gang's accesses (R252). -/
def State.release (s : State) (scope : Nat) (own : Bool := false) : State × Bool :=
  let p := s.releasePoint own
  if s.warpPending p s.warp.id || s.opsBefore p s.warp.id then (s, false)
  else
    let t := s.releaseLines s.warp.id.die scope
    (t, scope < 4 || !t.forwarding)

/-- The lowest pending trap code is kept (R417). -/
def lowestCode (c : Nat) : Option Nat → Option Nat
  | none => some c
  | some d => some (min c d)

/-- An atomic whose home refused it: d is written in no lane, and the trap is precise at the instruction, at which its quads
stand again; of a warp that has halted it becomes the pending trap code (R278, R279, R417). -/
def State.failEntry (s : State) (w : Warp) (e : ScoreEntry) (lane addr code info0 : Nat) : State :=
  let s := s.modWarpAt w.id fun w => { w with score := w.score.filter fun u => u.id != e.id }
  if w.halted then s.modWarpAt w.id fun w => { w with trapCode := lowestCode code w.trapCode }
  else
    (s.modWarpAt w.id fun w =>
      { w with quads := w.quads.mapIdx fun i q => if e.gang.contains i then { q with pc := e.pc } else q }).trapEntry w.id e.pc
        { code, addr, info0, lane, flags := 11 }

/-- The part may be performed now: nothing of its lane comes before it (R21), no earlier access and no conversion holds it. -/
def State.partReady (s : State) (id : WarpId) (e : ScoreEntry) (p : LoadPart) : Bool :=
  (match e.parts.find? fun q => q.lane == p.lane with | some q => q == p | none => false) &&
  !((s.reqsOut id).any fun r => r.loads.any fun q => q.entry == e.id && q.lane == p.lane) &&
  !s.blocked (Pend.plain id.die (lineOf p.pa) e.seq id e.gang) false && !s.marked p.pa p.width false

/-- LONG_LATENCY_RESULT (R55): one part of a load is performed, or the entry, complete, is written and freed. -/
def execLongLatencyResult (id : WarpId) (entry : Nat) (s : State) : Host.Outcome State Fault Refusal :=
  match s.warpAt? id with
  | none => .next s
  | some w =>
    match w.score.find? fun e => e.id = entry with
    | none => .next s
    | some e =>
      match e.parts with
      | _ :: _ =>
        match e.parts.find? (s.partReady id e) with
        | none => .next (s.post (.longLatencyResult id entry))
        | some p =>
          let s := s.modWarpAt id fun w => w.modEntry entry fun e => { e with parts := e.parts.erase p }
          .next ((s.performPart id e (s.processOf w) p).post (.longLatencyResult id entry))
      | [] =>
        if e.lanes.any fun l => l.left ≠ 0 then .next s
        else match e.fail with
        | some (lane, addr, code, info0) => .next (s.failEntry w e lane addr code info0)
        | none =>
          let s := match e.acquire with | some sc => s.acquireAt id.die id.core sc | none => s
          let s := s.modWarpAt id fun w => w.settleEntry e.collect
          match e.watch with
          | some (k, lane, a) =>
            if w.halted then .next s
            else
              let flags := match e.kind with | .load => 1 | _ => 11
              .next (s.trapEntry id e.pc { code := cWatch, addr := a, info0 := k, lane, flags })
          | none => .next s

/-! ## Requests at the home (R374, R375) -/

abbrev StepOut := Host.Outcome State Fault Refusal

/-- A request whose turn has not come goes back to wait. -/
def State.orWait (s : State) (r : Req) (write : Bool) (again : Instr) (go : State) : StepOut :=
  if s.waitsReq r write then .next (s.post again) else .next go

/-- A load whose home was lost meets POISON (R387). -/
def State.lostLoads (s : State) (r : Req) : State :=
  match r.warp with
  | none => s
  | some id => r.loads.foldl (fun s p => s.poisonTrap id p 1) s

/-- Redirect a request to the line at which it is served now (R387). -/
def State.redirect (s : State) (r : Req) : Option Req := (s.served (r.line * 2048) r.mode).map fun fa => { r with line := lineOf fa }

/-- GETS: a load or a read fill reaches the home (R374). -/
def execGets (r : Req) (s : State) : StepOut :=
  s.orWait r false (.gets r)
    (match s.redirect r with
     | some r => s.letIn r
     | none => s.lostLoads r)

/-- A release's own writes wait for its write-backs and replicas. -/
def State.releaseThen (s : State) (r : Req) (again : Instr) (go : State → State) : StepOut :=
  match r.rel with
  | none => .next (go s)
  | some sc =>
    let s' := s.releaseLines r.die sc
    if sc < 4 || !s'.forwarding then .next (go s') else .next (s'.post again)

/-- GETM: a store, or PREF.l2x, needs the line in M (R374). Stores of a lost home without replica are discarded (R387). -/
def execGetm (r : Req) (s : State) : StepOut :=
  if s.waitsReq r true || s.markedStores r then .next (s.post (.getm r))
  else s.releaseThen r (.getm r) fun s =>
    match s.redirect r with
    | some r => if dieOf (r.line * 2048) = r.die then s.letIn { r with kind := .homeStore } else s.letIn r
    | none => s

/-- The record of a store that the host port refused (R409, R419). -/
def State.storeRefused (s : State) (r : Req) (p : StorePart) : State :=
  let rec0 : FaultRecord :=
    { addr := BitVec.ofNat 64 (paOf p.pa), pc := 0, info0 := match s.hostRange p.pa p.width fun _ => true with
        | some e => BitVec.ofNat 64 e.hostId
        | none => 0
      info1 := 0, regions := 0, process := match r.warp.bind s.warpAt? with | some w => BitVec.ofNat 16 w.info.process | none => 0,
      launch := 0, warp := 0, lane := 0, slot := 0, core := 0, die := BitVec.ofNat 2 r.die, kind := 4, code := 0,
      status := 0, flags := 2, aux16 := 0, time := BitVec.ofNat 64 s.timer }
  s.dropHost.enqueueRecord r.die ⟨rec0, none, none, false⟩

/-- Stores to what no directory tracks: a debug register, host-attached memory that the range tables may refuse, or an
untracked line. -/
def State.storeOut (s : State) (r : Req) : State :=
  if s.isRegister (r.line * 2048) then r.stores.foldl (fun s p => s.registerWrite p.pa p.value) s
  else
    let (go, stop) := r.stores.partition fun p => !s.isHost p.pa || (s.hostRange p.pa p.width (·.w)).isSome
    (stop.foldl (fun s p => s.storeRefused r p) s).storeL2 { r with stores := go } .nc

/-- HOME_STORE: a store of the home's own die, or a store to a line that no directory tracks, is performed (R236, R374). One
without stores is the release of a FENCE, behind which its warp's later writes wait (R264). -/
def execHomeStore (r : Req) (s : State) : StepOut :=
  if s.waitsReq r true || s.markedStores r then .next (s.post (.homeStore r))
  else s.releaseThen r (.homeStore r) fun s =>
    if r.stores.isEmpty then s
    else match s.redirect r with
    | none => s
    | some r =>
      if s.isLocal (r.line * 2048) && dieOf (r.line * 2048) == r.die then s.letIn r else s.storeOut r

/-- The home hears a die's answer; the last one ends the transaction. -/
def State.answered (s : State) (die line : Nat) : State :=
  match (s.dirAt line).busy with
  | none => s
  | some t =>
    let left := t.waiting.filter (· ≠ die)
    let s := s.modDir line fun e => { e with busy := some { t with waiting := left } }
    if left.isEmpty then s.post (.transactionComplete line) else s

/-- RECALL reaches the owner: it writes back and keeps S or goes to I (R374). -/
def execRecall (die line : Nat) (keep : Bool) (s : State) : StepOut := .next ((s.recallAt die line keep).answered die line)

/-- LINE_INVALIDATION: a sharer drops the line and acknowledges (R373). -/
def execLineInvalidation (die line : Nat) (s : State) : StepOut := .next ((s.invalidateAt die line).answered die line)

/-- TRANSACTION_COMPLETE: the line leaves B, and the requests that waited are served in arrival order (R375). -/
def execTransactionComplete (line : Nat) (s : State) : StepOut := .next (s.completeTxn line)

/-- PUTM: a die evicts a line or writes it back whole (R374); a home line's dirty bytes go to HBM. -/
def execPutm (die line : Nat) (s : State) : StepOut := .next (s.evictLine die line)

/-- An older write that the same primary has forwarded of the line waits for the same replica. -/
def State.forwardBefore (s : State) (line : Nat) (dest : ForwardTo) : Bool :=
  s.agenda.any fun e => match e with
    | .forwardedWrite l _ _ x => l == line && x.die == dest.die && decide (x.seq < dest.seq)
    | _ => false

/-- A replica applies a forwarded write to its frame. -/
def State.applyForward (s : State) (line mask v rdie : Nat) : State :=
  if s.alive rdie then s.homeMerge (lineOf (withDie (line * 2048) rdie)) mask v true else s

/-- A forwarded write in a list by its primary's order. -/
def insertForward (x : Nat × Nat × Nat × Nat × Nat) : List (Nat × Nat × Nat × Nat × Nat) → List (Nat × Nat × Nat × Nat × Nat)
  | [] => [x]
  | y :: ys => if x.1 < y.1 then x :: y :: ys else y :: insertForward x ys

/-- The replicas apply, in order, what `p` names of the writes forwarded to them: before a release that the device itself makes
goes on (R379), and when a primary is lost (R387). -/
def State.drainForwards (s : State) (p : Nat → Bool) : State :=
  let named (e : Instr) : Option (Nat × Nat × Nat × Nat × Nat) :=
    match e with
    | .forwardedWrite l m v x => if p l then some (x.seq, l, m, v, x.die) else none
    | _ => none
  ((s.agenda.filterMap named).foldl (fun l x => insertForward x l) []).foldl (fun s (_, l, m, v, r) => s.applyForward l m v r)
    { s with agenda := s.agenda.filter fun e => (named e).isNone }

/-- A release at `.sys` that the device makes for an engine or a launch: the write-backs of a die, and every replica. -/
def State.deviceRelease (s : State) (die : Nat) : State := (s.releaseLines die 6).drainForwards fun _ => true

/-- FORWARDED_WRITE: the replica applies a write of the primary, in the primary's order (R250, R378). -/
def execForwardedWrite (line mask v : Nat) (dest : ForwardTo) (s : State) : StepOut :=
  if s.forwardBefore line dest then .next (s.post (.forwardedWrite line mask v dest))
  else .next (s.applyForward line mask v dest.die)

/-- A load that has been issued and has not returned reads a sector. -/
def State.sectorAwaited (s : State) (sector : Nat) : Bool := s.warps.any fun w => (s.loadParts w).any fun p => sectorOf p.pa == sector

/-- UNCORRECTABLE_ERROR: the sector is poisoned at its home (R237), once the loads of it that are on their way have returned:
a load meets poison only where its trap can be precise (R238). -/
def execUncorrectableError (fa : Nat) (s : State) : StepOut :=
  if s.sectorAwaited (sectorOf fa) then .next (s.post (.uncorrectableError fa)) else .next (s.setPoison (sectorOf fa) 1)

end Sys2Proof.Machine
end

