-- ==== Sys2Proof/Machine/Address.lean ====
section
/-! DEFINITION. Group 0x6: address instructions (R26 to R34) and the alignment classes (R20). -/

namespace Sys2Proof.Machine

/-- The natural class (R20). -/
def naturalClass (a w : Nat) : Bool := [1, 2, 4, 8, 16, 32, 64, 128].contains w && a % w == 0

/-- All bits within one aligned 64-bit word (R23). -/
def withinWord (a w : Nat) : Bool := w ≤ 64 && a % 64 + w ≤ 64

/-- The width operand (R27). -/
def widthOperand (f : Fields) : Nat := if f.mb 3 then 2 ^ f.c.toNat else f.c.toNat + 1

/-- A 64-bit address computation lane by lane. -/
def State.runAddr (s : State) (i : Instr) (f : Fields) (op : Nat → Nat) : State :=
  s.runRegs i f fun l => noFlags (dest f 2 l (op (s.srcA f 2 l)))

/-- LEA (R29). -/
def leaResult (kind base idx w : Nat) (disp : Int) : Nat :=
  let i : Int := match kind with | 0 => sintOf 32 idx | 1 => (idx % 2 ^ 32 : Nat) | _ => sintOf 64 idx
  wrapInt 64 ((base : Int) + i * w + disp)

def execLea (f : Fields) (s : State) : Out :=
  let kind := f.mn 1 0
  .next (s.runRegs (.lea f) f fun l =>
    noFlags (dest f 2 l
      (leaResult kind (s.srcA f 2 l) (s.srcBReg f (if kind = 2 then 2 else 1) l) (widthOperand f)
        (sintOf 32 f.imm32.toNat))))

def alignDown (x w : Nat) : Nat := x - x % w
def alignUp (x w : Nat) : Nat := (x + (w - x % w) % w) % 2 ^ 64

def execAligndn (f : Fields) (s : State) : Out := .next (s.runAddr (.aligndn f) f fun x => alignDown x (widthOperand f))
def execAlignup (f : Fields) (s : State) : Out := .next (s.runAddr (.alignup f) f fun x => alignUp x (widthOperand f))

/-- The tests of ALCLS (R31). -/
def alignTest (t a w : Nat) : Bool :=
  match t with
  | 0 => naturalClass a w
  | 1 => naturalClass a w && w ≤ 64
  | _ => withinWord a w

def execAlcls (f : Fields) (s : State) : Out :=
  .next (s.runRegs (.alcls f) f fun l =>
    noFlags [destPred f f.d l (alignTest (f.mn 1 0) (s.srcA f 2 l) (widthOperand f))])

def execBitofs (f : Fields) (s : State) : Out :=
  .next (s.runRegs (.bitofs f) f fun l => noFlags (dest f 1 l (s.srcA f 2 l % widthOperand f)))

def execB2bit (f : Fields) (s : State) : Out := .next (s.runAddr (.b2bit f) f fun x => (x * 8) % 2 ^ 64)

/-- BIT2B (R33) checks every active lane before it writes any. -/
def execBit2b (f : Fields) (s : State) : Out :=
  match (s.actLanes f).find? fun l => (s.indirectBreach (.bit2b f) f).isNone && s.srcA f 2 l % 8 != 0 with
  | some l => .next (s.trap { code := cMisalign, addr := s.srcA f 2 l, info0 := 8, lane := l })
  | none => .next (s.runAddr (.bit2b f) f fun x => x / 8)

def execPdiff (f : Fields) (s : State) : Out :=
  .next (s.runRegs (.pdiff f) f fun l =>
    noFlags (dest f 2 l
      (wrapInt 64 (sintOf 64 (s.srcA f 2 l + (2 ^ 64 - s.srcBReg f 2 l)) / (widthOperand f : Nat)))))

end Sys2Proof.Machine
end

