-- ==== Sys2Proof/Machine/Barrier.lean ====
section
/-! DEFINITION. The state of block and cluster barriers, and the retirement of a warp (R195, R221 to R226). -/

namespace Sys2Proof.Machine

/-! ## Block barriers (R221, R222) -/

/-- A phase completes when the mask covers every participant. -/
def Barrier.complete (participants : BitVec 64) (b : Barrier) : Barrier :=
  if b.mask &&& participants = participants then { phase := b.phase + 1, mask := 0 } else b

/-- A warp arrives. -/
def Barrier.arrive (participants : BitVec 64) (warp : Nat) (b : Barrier) : Barrier :=
  Barrier.complete participants { b with mask := b.mask ||| 1#64 <<< warp }

/-- A warp that retires clears its bit; `participants` no longer holds it. -/
def Barrier.leave (participants : BitVec 64) (warp : Nat) (b : Barrier) : Barrier :=
  Barrier.complete participants { b with mask := b.mask &&& ~~~(1#64 <<< warp) }

def Block.barrier (b : Block) (id : Nat) : Barrier := tget Barrier.reset b.barriers id

def Block.modBarrier (b : Block) (id : Nat) (g : Barrier → Barrier) : Block :=
  { b with barriers := tmod Barrier.reset b.barriers id g }

/-! ## Cluster barriers (R226) -/

def clusterKey (launch cluster : Nat) : Nat := launch * 2 ^ 32 + cluster

def Block.clusterKey (b : Block) : Nat := Machine.clusterKey (launchKey b.process b.launch) b.cluster

def State.clusterAt (s : State) (key : Nat) : Cluster := tget [] s.clusters key

def State.modCluster (s : State) (key : Nat) (g : Cluster → Cluster) : State :=
  { s with clusters := tmod [] s.clusters key g }

/-- The blocks of a cluster, with their numbers. -/
def State.clusterBlocks (s : State) (process launch cluster : Nat) : List (Nat × Block) :=
  s.blocks.filter fun (_, b) => b.process == process && b.launch == launch && b.cluster == cluster && b.header.width != 0

/-- The unretired initial warps of each rank of the block's cluster. -/
def State.clusterParticipants (s : State) (b : Block) : List (BitVec 64) :=
  (List.range 8).map fun r =>
    match (s.clusterBlocks b.process b.launch b.cluster).find? fun (_, u) => u.rank == r && u.place != .retired with
    | some (_, u) => u.initial
    | none => 0

def ClusterBarrier.complete (participants : List (BitVec 64)) (c : ClusterBarrier) : ClusterBarrier :=
  if (c.masks.zip participants).all fun (m, p) => m &&& p = p then
    { phase := c.phase + 1, masks := List.replicate 8 0 }
  else c

def ClusterBarrier.setBit (rank warp : Nat) (on : Bool) (c : ClusterBarrier) : ClusterBarrier :=
  { c with masks := c.masks.mapIdx fun r m =>
      if r = rank then (if on then m ||| 1#64 <<< warp else m &&& ~~~(1#64 <<< warp)) else m }

def State.clusterBarrier (s : State) (key id : Nat) : ClusterBarrier := tget ClusterBarrier.reset (s.clusterAt key) id

def State.modClusterBarrier (s : State) (key id : Nat) (g : ClusterBarrier → ClusterBarrier) : State :=
  s.modCluster key fun c => tmod ClusterBarrier.reset c id g

/-- A rank of the block's cluster is saved: no cluster barrier completes meanwhile (R227). -/
def State.clusterAway (s : State) (b : Block) : Bool :=
  (s.clusterBlocks b.process b.launch b.cluster).any fun x => x.2.place == .saved

/-- The state of a cluster barrier as rank 0's area holds it (R426). -/
def ClusterBarrier.words (c : ClusterBarrier) : List Nat := c.phase.toNat :: (List.range 8).map fun r => (c.masks.getD r 0).toNat

/-- While rank 0 of the block's cluster is saved, its area follows the cluster barriers. -/
def State.saveCluster (s : State) (b : Block) : State :=
  match (s.clusterBlocks b.process b.launch b.cluster).find? fun x => x.2.rank == 0 && x.2.place == .saved with
  | some (_, u) =>
    match u.area with
    | some a => s.deviceWrites (s.device * 2 ^ 55 + a + 8 * 320)
        ((List.range 4).flatMap fun k => (s.clusterBarrier b.clusterKey k).words)
    | none => s
  | none => s

/-- Phases that are complete end, unless a rank is saved. -/
def State.completeCluster (s : State) (b : Block) : State :=
  if s.clusterAway b then s
  else
    let ps := s.clusterParticipants b
    (List.range 4).foldl (fun s id => s.modClusterBarrier b.clusterKey id fun c => c.complete ps) s

/-! ## Retirement of a warp (R69, R195, R222) -/

/-- The block of a warp that retires: its bit leaves the participants and the masks, and a spawned warp's context returns to
the reserved pool. -/
def Block.retireWarp (b : Block) (warp : Nat) (spawned : Bool) : Block :=
  if spawned then { b with extra := b.extra &&& ~~~(1#64 <<< warp), reserved := warp :: b.reserved }
  else
    let initial := b.initial &&& ~~~(1#64 <<< warp)
    (List.range b.header.barriers).foldl (fun b id => b.modBarrier id fun x => x.leave b.initial warp)
      { b with initial }

/-- The issuing warp retires: its context is free, and with the block's last warp the block's retirement is due. -/
def State.retireWarp (s : State) : State :=
  let w := s.warp
  let s := { s with warp := Warp.idle }
  if w.isVesper then s
  else
    let s := s.modBlock w.id.block fun b => b.retireWarp w.id.warp w.info.spawned
    let b := s.blockAt w.id.block
    let s :=
      if w.info.spawned then s
      else
        (((List.range 4).foldl (fun s id =>
          s.modClusterBarrier b.clusterKey id fun c => c.setBit b.rank w.id.warp false) s).completeCluster b).saveCluster b
    if b.initial = 0 ∧ b.extra = 0 then s.post (.blockRetirement w.id.block) else s

/-- The wait of a quad still holds (R159). Barrier waits end with the phase (R225, R226); SLEEP and HALT end when their
event clears the operand; the other waits end when their event clears the wait. -/
def State.waits (s : State) (w : Warp) (q : Quad) : Bool :=
  let id := q.operand % 16
  let phase := BitVec.ofNat 8 (q.operand / 256)
  let b := s.blockAt w.id.block
  match q.wait with
  | .none => false
  | .barWait | .barSync => (b.barrier id).phase == phase
  | .cbarWait => (s.clusterBarrier b.clusterKey id).phase == phase
  | .sleep | .vesperHalt => q.operand != 0
  | _ => true

/-! ## Sub-gangs (R156 to R160, R165) -/

/-- What makes quads one sub-gang: counter and PC. -/
def Quad.key (q : Quad) : Nat × Nat := (q.ctr.toNat, q.pc.toNat)

/-- The order of R160. -/
def Quad.before (a b : Quad) : Bool :=
  decide (a.ctr.toNat < b.ctr.toNat) || (a.ctr == b.ctr && decide (a.pc.toNat < b.pc.toNat))

/-- The quads that are not finished and not blocked, with their numbers. -/
def State.runnable (s : State) (w : Warp) : List (Nat × Quad) :=
  (w.quads.zipIdx.map fun (q, i) => (i, q)).filter fun (_, q) => q.live != 0 && !s.waits w q

/-- The chosen sub-gang among some quads: those that share the lowest pair. -/
def lowestGang (qs : List (Nat × Quad)) : List Nat :=
  match qs with
  | [] => []
  | x :: xs =>
    let best := xs.foldl (fun b y => if y.2.before b.2 then y else b) x
    (qs.filter fun y => y.2.key == best.2.key).map (·.1)

/-- The marks go when every sub-gang that is not blocked carries one (R165). -/
def State.unmark (s : State) (w : Warp) : Warp :=
  if (s.runnable w).all fun (_, q) => q.yielded then { w with quads := w.quads.map fun q => { q with yielded := false } } else w

/-- The quads that are not set aside (R159). -/
def State.present (s : State) (w : Warp) : List (Nat × Quad) := (s.runnable w).filter fun (_, q) => !q.yielded

/-- The first quad of a quad's sub-gang. -/
def State.teamOf (s : State) (w : Warp) (q : Quad) : Nat :=
  let aside (u : Quad) : Bool := s.waits w u || u.yielded
  (w.quads.findIdx? fun u => u.live != 0 && u.key == q.key && aside u == aside q).getD 16

/-- The warp at a selection point with its sub-gang chosen. -/
def State.select (s : State) (w : Warp) : Warp :=
  let w := s.unmark w
  { w with gang := lowestGang (s.present w), quads := w.quads.map fun q => { q with team := s.teamOf w q } }

/-- At this selection point sub-gangs merge (R158). -/
def State.regangs (s : State) (w : Warp) : Bool :=
  let qs := s.present (s.unmark w)
  qs.any fun x => qs.any fun y => x.2.key == y.2.key && x.2.team != y.2.team

end Sys2Proof.Machine
end

