-- ==== Sys2Proof/Machine/Format.lean ====
section
/-! DEFINITION. Number formats, decoding, rounding and special values (R108 to R124). -/

namespace Sys2Proof.Machine

/-! ## Exact values -/

/-- An exact real number m × 2^e. -/
structure Dyadic where
  m : Int
  e : Int
  deriving DecidableEq, Repr

namespace Dyad

/-- The two mantissas over the lower of the two exponents. -/
def align (x y : Dyadic) : Int × Int × Int :=
  let e := min x.e y.e
  (x.m * (2 : Int) ^ (x.e - e).toNat, y.m * (2 : Int) ^ (y.e - e).toNat, e)

def add (x y : Dyadic) : Dyadic := let (a, b, e) := align x y; ⟨a + b, e⟩
def neg (x : Dyadic) : Dyadic := ⟨-x.m, x.e⟩
def mul (x y : Dyadic) : Dyadic := ⟨x.m * y.m, x.e + y.e⟩
def lt (x y : Dyadic) : Bool := let (a, b, _) := align x y; decide (a < b)
def le (x y : Dyadic) : Bool := let (a, b, _) := align x y; decide (a ≤ b)
def eq (x y : Dyadic) : Bool := let (a, b, _) := align x y; decide (a = b)
def ofInt (z : Int) : Dyadic := ⟨z, 0⟩
def scale (x : Dyadic) (n : Int) : Dyadic := ⟨x.m, x.e + n⟩

end Dyad

/-- A value in the sense of Dec (R129): a NaN with its sign and cause, an infinity, or a number; a zero keeps its sign. -/
inductive FVal where
  | nan (neg : Bool) (cause : Nat)
  | inf (neg : Bool)
  | zero (neg : Bool)
  | num (v : Dyadic)          -- not zero
  deriving DecidableEq, Repr

/-- A number that is exactly `v`; `negZero` is the sign of a zero. -/
def FVal.ofDyadic (v : Dyadic) (negZero : Bool) : FVal := if v.m = 0 then .zero negZero else .num v

/-! ## Layouts (R108) -/

/-- Special codes: as IEEE 754, only the all-ones code is a NaN (E4M3), or none. -/
inductive Specials where
  | ieee | nanOnly | none
  deriving DecidableEq, Repr

structure Format where
  exp : Nat
  man : Nat
  bias : Nat
  specials : Specials
  deriving DecidableEq, Repr

def f32 : Format := ⟨8, 23, 127, .ieee⟩
def f16 : Format := ⟨5, 10, 15, .ieee⟩
def bf16 : Format := ⟨8, 7, 127, .ieee⟩
def e5m2 : Format := ⟨5, 2, 15, .ieee⟩
def e4m3 : Format := ⟨4, 3, 7, .nanOnly⟩
def e3m2 : Format := ⟨3, 2, 3, .none⟩
def e2m3 : Format := ⟨2, 3, 1, .none⟩
def e2m1 : Format := ⟨2, 1, 1, .none⟩

/-- The format codes of R138. -/
def formatOf (code : Nat) : Format :=
  match code with
  | 0 => f32 | 1 => f16 | 2 => bf16 | 3 => e5m2 | 4 => e4m3 | 5 => e3m2 | 6 => e2m3 | _ => e2m1

def Format.width (t : Format) : Nat := 1 + t.exp + t.man

/-- A format whose NaN holds a cause code in its low mantissa bits (R122). -/
def Format.hasCause (t : Format) : Bool := 7 ≤ t.man

/-- The code of the largest finite magnitude. -/
def Format.maxCode (t : Format) : Nat :=
  match t.specials with
  | .ieee => ((2 ^ t.exp - 1) <<< t.man) - 1
  | .nanOnly => 2 ^ (t.exp + t.man) - 2
  | .none => 2 ^ (t.exp + t.man) - 1

/-- The magnitude of a code without its sign. -/
def Format.magnitude (t : Format) (code : Nat) : Dyadic :=
  let e := bits code (t.exp + t.man - 1) t.man
  let m := code % 2 ^ t.man
  if e = 0 then ⟨m, 1 - (t.bias : Int) - t.man⟩ else ⟨m + 2 ^ t.man, (e : Int) - t.bias - t.man⟩

/-- Dec (R108, R110, R129), without flush to zero. -/
def Format.decode (t : Format) (x : Nat) : FVal :=
  let code := x % 2 ^ (t.exp + t.man)
  let neg := bitOf x (t.exp + t.man)
  let m := code % 2 ^ t.man
  let special := code >>> t.man == 2 ^ t.exp - 1
  let value := FVal.ofDyadic (if neg then Dyad.neg (t.magnitude code) else t.magnitude code) neg
  match t.specials with
  | .ieee =>
      if special then (if m = 0 then .inf neg else .nan neg (if t.hasCause then m % 8 else 1)) else value
  | .nanOnly => if code = 2 ^ (t.exp + t.man) - 1 then .nan neg 1 else value
  | .none => value

/-- A subnormal encoding. -/
def Format.isSubnormal (t : Format) (x : Nat) : Bool :=
  bits x (t.exp + t.man - 1) t.man == 0 && x % 2 ^ t.man != 0

/-- The sign bit put on a code; E2M1 has no negative zero as a result (R110). -/
def Format.withSign (t : Format) (neg : Bool) (code : Nat) : Nat :=
  if t = e2m1 ∧ code = 0 then 0 else code + (if neg then 2 ^ (t.exp + t.man) else 0)

/-! ## Rounding (R113, R114) -/

/-- The rounding control: mode 0 RNE, 1 RZ, 2 RU, 3 RD. -/
structure Rounding where
  mode : Nat
  sat  : Bool
  deriving DecidableEq, Repr

def rne : Rounding := ⟨0, false⟩

def roundingOf (c : Nat) : Rounding := ⟨c % 4, bitOf c 2⟩

/-- A natural quotient q with remainder r of divisor d (r < d), rounded as the mode says for a number of the given sign. -/
def roundUnits (mode : Nat) (neg : Bool) (q r d : Nat) : Nat :=
  match mode with
  | 0 => if d < 2 * r ∨ (2 * r = d ∧ q % 2 = 1) then q + 1 else q
  | 1 => q
  | 2 => if neg then q else if r = 0 then q else q + 1
  | _ => if neg then (if r = 0 then q else q + 1) else q

/-- A code and the flags its rounding raises. -/
abbrev Rounded := Nat × Word

/-- The code of ±∞. -/
def Format.infCode (t : Format) : Nat := (2 ^ t.exp - 1) <<< t.man

/-- The NaN a format writes: sign, cause (R122, R123); a format without NaN takes its largest magnitude (R124). -/
def Format.nanCode (t : Format) (neg : Bool) (cause : Nat) : Nat :=
  match t.specials with
  | .ieee => t.withSign neg (t.infCode + 2 ^ (t.man - 1) + (if t.hasCause then cause % 8 else 0))
  | .nanOnly => t.withSign neg (2 ^ (t.exp + t.man) - 1)
  | .none => t.withSign neg t.maxCode

/-- Step 2 of R113: what an overflow leaves. -/
def Format.overflowCode (t : Format) (c : Rounding) (neg : Bool) : Nat :=
  let toInf : Bool := match c.mode with | 0 => true | 1 => false | 2 => !neg | _ => neg
  if t.specials = .ieee ∧ !c.sat ∧ toInf then t.withSign neg t.infCode else t.withSign neg t.maxCode

/-- RoundTo of a number that is not zero (R113, R116). -/
def Format.roundNum (t : Format) (c : Rounding) (v : Dyadic) : Rounded :=
  let neg := decide (v.m < 0)
  let m := v.m.natAbs
  -- the unit of the last place: p significant bits, and never below the subnormals' unit
  let top : Int := (Nat.log2 m : Int) + v.e
  let unit : Int := max (top - t.man) (1 - (t.bias : Int) - t.man)
  let (q, r, d) : Nat × Nat × Nat :=
    if unit ≤ v.e then (m * 2 ^ (v.e - unit).toNat, 0, 1)
    else (m / 2 ^ (unit - v.e).toNat, m % 2 ^ (unit - v.e).toNat, 2 ^ (unit - v.e).toNat)
  let n := roundUnits c.mode neg q r d
  -- the code of n units: a carry into the next binade is the next exponent
  let code : Nat :=
    if n < 2 ^ t.man then n
    else ((unit + t.man + t.bias).toNat <<< t.man) + (n - 2 ^ t.man)
  if t.maxCode < code then (t.overflowCode c neg, fOverflow ||| fInexact)
  else
    let inexact := r != 0
    let tiny := decide (code < 2 ^ t.man)
    (t.withSign neg code, (if inexact then fInexact else 0) ||| (if inexact && tiny then fUnderflow else 0))

/-- RoundTo of any value, as a conversion writes it: NaNs propagate (R123), infinities and NaNs without a code follow
R124. -/
def Format.round (t : Format) (c : Rounding) (v : FVal) : Rounded :=
  match v with
  | .nan neg cause => (t.nanCode neg cause, if t.specials = .none then fInvalid else 0)
  | .inf neg =>
      if t.specials = .ieee then (t.withSign neg t.infCode, 0) else (t.withSign neg t.maxCode, fOverflow ||| fInexact)
  | .zero neg => (t.withSign neg 0, 0)
  | .num d => t.roundNum c d

/-- The canonical NaN an operation generates (R122). -/
def Format.genNan (t : Format) (cause : Nat) : Rounded := (t.nanCode false cause, fInvalid)

/-- PropNaN: the first NaN of the sources, if any (R123). -/
def firstNan : List FVal → Option FVal
  | [] => none
  | .nan n c :: _ => some (.nan n c)
  | _ :: vs => firstNan vs

/-! ## Signs and order -/

def FVal.neg? : FVal → Bool
  | .nan n _ => n | .inf n => n | .zero n => n | .num d => decide (d.m < 0)

def FVal.negate : FVal → FVal
  | .nan n c => .nan n c | .inf n => .inf (!n) | .zero n => .zero (!n) | .num d => .num (Dyad.neg d)

def FVal.isNan : FVal → Bool
  | .nan .. => true | _ => false

/-- x < y for values that are no NaN; the zeros are equal. -/
def FVal.lt (x y : FVal) : Bool :=
  match x, y with
  | .inf a, .inf b => a && !b
  | .inf a, _ => a
  | _, .inf b => !b
  | .zero _, .zero _ => false
  | .zero _, .num d => decide (0 < d.m)
  | .num d, .zero _ => decide (d.m < 0)
  | .num a, .num b => Dyad.lt a b
  | _, _ => false

/-- x = y as numbers. -/
def FVal.eq (x y : FVal) : Bool := !x.isNan && !y.isNan && !x.lt y && !y.lt x

/-- x < y with −0 below +0 (R132). -/
def FVal.below (x y : FVal) : Bool :=
  x.lt y || (match x, y with | .zero a, .zero b => a && !b | _, _ => false)

/-! ## Immediates (R50) -/

/-- The encoding, in format t, of an immediate given in format `src`. -/
def floatImm (t src : Format) (x : Nat) : Nat :=
  match src.decode x with
  | .nan _ _ => t.nanCode false 7
  | .inf neg => (t.round rne (.inf neg)).1
  | .zero neg => t.withSign neg 0
  | .num d => (t.roundNum ⟨0, true⟩ d).1

end Sys2Proof.Machine
end

