-- ==== Sys2Proof/Machine/Float.lean ====
section
/-! DEFINITION. Group 0x3 without LOOPNEST: floating point (R126 to R137). -/

namespace Sys2Proof.Machine

/-! ## Arithmetic on values -/

/-- A rounding that does not change a value which the format holds. -/
def encodeExact (t : Format) (v : FVal) : Nat := (t.round rne v).1

/-- The sum of two values that are no NaN (R130). -/
def addVals (t : Format) (c : Rounding) (x y : FVal) : Rounded :=
  match x, y with
  | .inf a, .inf b => if a = b then (encodeExact t (.inf a), 0) else t.genNan 3
  | .inf a, _ => (encodeExact t (.inf a), 0)
  | _, .inf b => (encodeExact t (.inf b), 0)
  | .zero a, .zero b => (encodeExact t (.zero (if a = b then a else c.mode == 3)), 0)
  | .zero _, .num d | .num d, .zero _ => t.roundNum c d
  | .num a, .num b =>
      let z := Dyad.add a b
      if z.m = 0 then (encodeExact t (.zero (c.mode == 3)), 0) else t.roundNum c z
  | _, _ => t.genNan 5

/-- The exact product of two values that are no NaN; `none` for a zero times an infinity. -/
def mulExact (x y : FVal) : Option FVal :=
  let n := x.neg? != y.neg?
  match x, y with
  | .inf _, .zero _ | .zero _, .inf _ => none
  | .inf _, _ | _, .inf _ => some (.inf n)
  | .zero _, _ | _, .zero _ => some (.zero n)
  | .num a, .num b => some (.num (Dyad.mul a b))
  | _, _ => none

/-- FADD, FSUB, FMUL and FFMA of decoded operands (R130, R131). -/
def fAdd (t : Format) (c : Rounding) (x y : FVal) : Rounded :=
  match firstNan [x, y] with
  | some v => (encodeExact t v, 0)
  | none => addVals t c x y

def fSub (t : Format) (c : Rounding) (x y : FVal) : Rounded :=
  match firstNan [x, y] with
  | some v => (encodeExact t v, 0)
  | none => addVals t c x y.negate

def fMul (t : Format) (c : Rounding) (x y : FVal) : Rounded :=
  match firstNan [x, y] with
  | some v => (encodeExact t v, 0)
  | none => match mulExact x y with
    | none => t.genNan 4
    | some (.num d) => t.roundNum c d
    | some v => (encodeExact t v, 0)

def fFma (t : Format) (c : Rounding) (x y z : FVal) : Rounded :=
  match firstNan [x, y, z] with
  | some v => (encodeExact t v, 0)
  | none => match mulExact x y with
    | none => t.genNan 4
    | some p => addVals t c p z

/-- The operand that FMIN or FMAX takes (R132). -/
def minMaxVal (isMax nanMode : Bool) (x y : FVal) : FVal :=
  let pick (x y : FVal) : FVal := if isMax then (if x.below y then y else x) else (if y.below x then y else x)
  match firstNan [x, y] with
  | none => pick x y
  | some n => if nanMode then n else if !x.isNan then x else if !y.isNan then y else n

/-- FMIN and FMAX (R132). -/
def fMinMax (t : Format) (isMax nanMode : Bool) (x y : FVal) : Rounded := (encodeExact t (minMaxVal isMax nanMode x y), 0)

/-- A number rounded to an integer. -/
def roundInt (mode : Nat) (v : Dyadic) : Int :=
  if 0 ≤ v.e then v.m * 2 ^ v.e.toNat
  else
    let d := 2 ^ (-v.e).toNat
    let q := roundUnits mode (decide (v.m < 0)) (v.m.natAbs / d) (v.m.natAbs % d) d
    if v.m < 0 then -(q : Int) else q

/-- FRND (R133). -/
def fRnd (t : Format) (mode : Nat) (x : FVal) : Rounded :=
  match x with
  | .num d =>
      let z := roundInt mode d
      (encodeExact t (if z = 0 then .zero (decide (d.m < 0)) else .num (Dyad.ofInt z)), 0)
  | v => (encodeExact t v, 0)

/-- FSCALE (R134). A count beyond ±1,000 rounds as ±1,000 does. -/
def fScale (t : Format) (c : Rounding) (n : Int) (x : FVal) : Rounded :=
  match x with
  | .num d => t.roundNum c (Dyad.scale d (max (-1000) (min 1000 n)))
  | v => (encodeExact t v, 0)

/-- The conditions of FPRED and FMASK (R135). -/
def floatCond (c : Nat) (unordered : Bool) (x y : FVal) : Bool :=
  let nan := x.isNan || y.isNan
  match c with
  | 6 => !nan
  | 7 => nan
  | _ =>
    if nan then unordered
    else match c with
      | 0 => x.eq y | 1 => !x.eq y | 2 => x.lt y | 3 => !y.lt x | 4 => y.lt x | _ => !x.lt y

/-- The class word of FCLASS (R136). -/
def classWord (t : Format) (x : Nat) (v : FVal) : Nat :=
  match v with
  | .nan n c => 1 + c <<< 16 + b2n n <<< 19
  | .inf n => if n then 2 else 256
  | .zero n => if n then 16 else 32
  | .num d => if t.isSubnormal x then (if d.m < 0 then 8 else 64) else (if d.m < 0 then 4 else 128)

/-! ## Warp reduction (R137) -/

/-- The exact sum of values of which none is a NaN or an infinity. -/
def exactSum (vs : List FVal) : Dyadic :=
  vs.foldl (fun a v => match v with | .num d => Dyad.add a d | _ => a) ⟨0, 0⟩

def reduceFloat (t : Format) (op : Nat) (c : Rounding) (vs : List FVal) : Rounded :=
  match vs, firstNan vs with
  | [], _ => (encodeExact t (match op with | 0 => .zero false | 1 => .inf false | _ => .inf true), 0)
  | _, some v => (encodeExact t v, 0)
  | v0 :: rest, none =>
    match op with
    | 0 =>
      if vs.contains (.inf false) && vs.contains (.inf true) then t.genNan 3
      else if vs.contains (.inf false) then (encodeExact t (.inf false), 0)
      else if vs.contains (.inf true) then (encodeExact t (.inf true), 0)
      else
        let z := exactSum vs
        if z.m = 0 then (encodeExact t (.zero (vs.all (· == .zero true) || c.mode == 3)), 0) else t.roundNum c z
    | 1 => (encodeExact t (rest.foldl (fun a v => if v.below a then v else a) v0), 0)
    | _ => (encodeExact t (rest.foldl (fun a v => if a.below v then v else a) v0), 0)

/-! ## Group sums (R125) -/

/-- A product of two decoded values, as a group sums it: a NaN operand propagates, and 0 × ∞ is a NaN of cause 4. -/
def productVal (x y : FVal) : FVal :=
  match firstNan [x, y] with
  | some v => v
  | none => (mulExact x y).getD (.nan false 4)

/-- One group added to an FP32 accumulator c: the products summed exactly, then one rounding. -/
def groupAdd (c : Nat) (ps : List FVal) : Nat :=
  let cv := f32.decode c
  match firstNan (cv :: ps) with
  | some v => encodeExact f32 v
  | none =>
    if ps.contains (.inf false) && ps.contains (.inf true) then (f32.genNan 3).1
    else
      let t : FVal :=
        if ps.contains (.inf false) then .inf false
        else if ps.contains (.inf true) then .inf true
        else FVal.ofDyadic (exactSum ps) (!ps.isEmpty && ps.all (· == .zero true))
      (addVals f32 rne cv t).1

/-! ## Operands (R127, R128) and flush to zero (R115) -/

/-- FTZ of the warp (R116). -/
def State.ftz (s : State) : Bool := s.warp.fmode.getLsbD 0

/-- Dec with FTZ: an FP32 subnormal source is a zero of its sign. -/
def decodeFtz (ftz : Bool) (t : Format) (x : Nat) : FVal :=
  if ftz && t == f32 && t.isSubnormal x then .zero (bitOf x (t.exp + t.man)) else t.decode x

/-- An FP32 result that would be subnormal is flushed. -/
def flush (ftz : Bool) (t : Format) (r : Rounded) : Rounded :=
  if ftz && t == f32 && t.isSubnormal r.1 then
    ((r.1 >>> (t.exp + t.man)) <<< (t.exp + t.man), r.2 ||| fUnderflow ||| fInexact)
  else r

/-- The type of mod[1:0] and the number of elements of mod[2]. -/
def floatType (f : Fields) : Format := formatOf (f.mn 1 0)
def floatElems (f : Fields) : Nat := if f.mb 2 then 2 else 1

/-- The rounding control of mod[3] and c[1:0] (R128). -/
def floatRounding (f : Fields) : Rounding := ⟨f.cn 1 0, f.mb 3⟩

/-- The immediate of a float operation, in every element (R49, R50). -/
def floatImmReg (f : Fields) (t : Format) : Nat :=
  let x := if f.isImm16 then floatImm t f16 f.imm16.toNat else floatImm t f32 f.imm32.toNat
  if f.mb 2 then x + x <<< 16 else x

/-- Operand b of a float operation. -/
def State.srcBFloat (s : State) (f : Fields) (lane : Nat) : Nat :=
  if f.isImm then floatImmReg f (floatType f) else s.srcBReg f 1 lane

/-- Element i of a float register. -/
def floatElem (t : Format) (x i : Nat) : Nat := (x >>> (16 * i)) % 2 ^ t.width

/-- The elements' results in one register, with their flags. -/
def joinElems (n : Nat) (g : Nat → Rounded) : Rounded :=
  (List.range n).foldl (fun a i => (a.1 + (g i).1 <<< (16 * i), a.2 ||| (g i).2)) (0, 0)

/-- A float instruction of one register result, element by element. -/
def State.runFloat (s : State) (i : Instr) (f : Fields) (op : Nat → Nat → Rounded) : State :=
  let t := floatType f
  s.runRegs i f fun l =>
    let r := joinElems (floatElems f) fun e => flush s.ftz t (op l e)
    (dest f 1 l r.1, r.2)

/-- The decoded element of a source register. -/
def State.floatVal (s : State) (f : Fields) (x e : Nat) : FVal := decodeFtz s.ftz (floatType f) (floatElem (floatType f) x e)

/-- A float instruction of two sources. -/
def State.runFloat2 (s : State) (i : Instr) (f : Fields) (op : FVal → FVal → Rounded) : State :=
  s.runFloat i f fun l e => op (s.floatVal f (s.srcA f 1 l) e) (s.floatVal f (s.srcBFloat f l) e)

/-! ## The instructions -/

def execFadd (f : Fields) (s : State) : Out := .next (s.runFloat2 (.fadd f) f (fAdd (floatType f) (floatRounding f)))
def execFsub (f : Fields) (s : State) : Out := .next (s.runFloat2 (.fsub f) f (fSub (floatType f) (floatRounding f)))
def execFmul (f : Fields) (s : State) : Out := .next (s.runFloat2 (.fmul f) f (fMul (floatType f) (floatRounding f)))

/-- FFMA has no mode bits: RNE, with .sat in mod[3] (R131). -/
def execFfma (f : Fields) (s : State) : Out :=
  .next (s.runFloat (.ffma f) f fun l e =>
    fFma (floatType f) ⟨0, f.mb 3⟩ (s.floatVal f (s.srcA f 1 l) e) (s.floatVal f (s.srcBFloat f l) e)
      (s.floatVal f (s.srcC f 1 l) e))

/-- FMIN and FMAX set no flag (R132). -/
def execFmin (f : Fields) (s : State) : Out :=
  .next (s.runFloat2 (.fmin f) f (fMinMax (floatType f) false (f.cb 0)))

def execFmax (f : Fields) (s : State) : Out :=
  .next (s.runFloat2 (.fmax f) f (fMinMax (floatType f) true (f.cb 0)))

/-- The comparison of element e in lane l. -/
def State.floatCompare (s : State) (f : Fields) (l e : Nat) : Bool :=
  floatCond (f.cn 2 0) (f.cb 3) (s.floatVal f (s.srcA f 1 l) e) (s.floatVal f (s.srcBFloat f l) e)

def execFpred (f : Fields) (s : State) : Out :=
  .next (s.runRegs (.fpred f) f fun l => noFlags [destPred f f.d l (s.floatCompare f l 0)])

/-- FMASK writes all ones to each element whose condition holds (R135). -/
def execFmask (f : Fields) (s : State) : Out :=
  let ones := 2 ^ (floatType f).width - 1
  .next (s.runRegs (.fmask f) f fun l =>
    noFlags (dest f 1 l (joinElems (floatElems f) fun e => (if s.floatCompare f l e then ones else 0, 0)).1))

def execFclass (f : Fields) (s : State) : Out :=
  .next (s.runRegs (.fclass f) f fun l =>
    noFlags (dest f 1 l (classWord (floatType f) (s.srcA f 1 l) (s.floatVal f (s.srcA f 1 l) 0))))

def execFrnd (f : Fields) (s : State) : Out :=
  .next (s.runFloat (.frnd f) f fun l e => fRnd (floatType f) (f.cn 1 0) (s.floatVal f (s.srcA f 1 l) e))

/-- The scale count is an i32 operand (R134). -/
def execFscale (f : Fields) (s : State) : Out :=
  .next (s.runFloat (.fscale f) f fun l e =>
    fScale (floatType f) (floatRounding f) (sintOf 32 (s.srcB f true 32 1 l)) (s.floatVal f (s.srcA f 1 l) e))

/-- REDF (R137): mode in c[3:2], operation in c[1:0]. -/
def execRedf (f : Fields) (s : State) : Out :=
  let t := floatType f
  .next (s.runWrites (.redf f) f fun lanes =>
    let r := joinElems (floatElems f) fun e =>
      flush s.ftz t (reduceFloat t (f.cn 1 0) ⟨f.cn 3 2, f.mb 3⟩ (lanes.map fun l => s.floatVal f (s.srcA f 1 l) e))
    (spread .s f.d.toNat 0 r.1 1, r.2))

end Sys2Proof.Machine
end

