-- ==== Sys2Proof/Machine/Special.lean ====
section
/-! DEFINITION. The special functions of R145: exact cases, correctly rounded square root, and for the rest a value that is
free within the table's bound of the exact result. -/

namespace Sys2Proof.Machine

/-- The integer square root, by bits from `k` - 1 down; `r` is the root so far. -/
def isqrtFrom (n : Nat) : Nat → Nat → Nat
  | 0, r => r
  | k + 1, r => isqrtFrom n k (if (r + 2 ^ k) * (r + 2 ^ k) ≤ n then r + 2 ^ k else r)

def isqrt (n : Nat) : Nat := isqrtFrom n (Nat.log2 n / 2 + 1) 0

/-- The largest integer that is not above a dyadic. -/
def Dyad.floor (v : Dyadic) : Int := if 0 ≤ v.e then v.m * 2 ^ v.e.toNat else v.m / 2 ^ (-v.e).toNat

def Dyad.isInt (v : Dyadic) : Bool := 0 ≤ v.e || v.m % 2 ^ (-v.e).toNat == 0

/-- The value of a power of two, if it is one, as the exponent. -/
def Dyad.log2? (v : Dyadic) : Option Int :=
  if 0 < v.m ∧ v.m.natAbs = 2 ^ Nat.log2 v.m.natAbs then some ((Nat.log2 v.m.natAbs : Int) + v.e) else none

/-- A power of two, its exponent held within what any format can tell apart. -/
def Dyad.pow2 (n : Int) : Dyadic := ⟨1, max (-1000) (min 1000 n)⟩

/-- The unit in the last place of a format at a positive number. -/
def Format.ulp (t : Format) (v : Dyadic) : Dyadic :=
  ⟨1, max ((Nat.log2 v.m.natAbs : Int) + v.e - t.man) (1 - (t.bias : Int) - t.man)⟩

/-- A free code within `u` ulp of a positive exact value that lies between two close bounds. A result that overflows or
underflows is the one that R113 gives under RNE (log entry 4). -/
def pickWithin (t : Format) (free : Nat) (neg : Bool) (lo hi : Dyadic) (u : Nat) : Rounded :=
  let r := t.roundNum rne lo
  if r.2 &&& fOverflow != 0 then (t.withSign neg t.infCode, fOverflow ||| fInexact)
  else if r.1 < 2 ^ t.man then (t.withSign neg r.1, fInexact ||| fUnderflow)
  else
    let q := (t.roundNum ⟨1, false⟩ lo).1
    let slack := Dyad.mul (Dyad.ofInt u) (t.ulp lo)
    let codes := ((List.range 9).map fun i => q + i - 4).filter fun c =>
      decide (c ≤ t.maxCode) && Dyad.le lo (Dyad.add (t.magnitude c) slack) && Dyad.le (t.magnitude c) (Dyad.add hi slack)
    let c := codes.getD (free % codes.length) q
    (t.withSign neg c, fInexact ||| (if c < 2 ^ t.man then fUnderflow else 0))

/-- The same for a value known to 50 bits. -/
def pickNear (t : Format) (free : Nat) (neg : Bool) (v : Dyadic) (u : Nat) : Rounded :=
  pickWithin t free neg (Dyad.mul v ⟨2 ^ 50 - 1, -50⟩) (Dyad.mul v ⟨2 ^ 50 + 1, -50⟩) u

/-- √x of a positive dyadic, truncated far beyond any format's precision, with a sticky last bit. -/
def Dyad.sqrt (v : Dyadic) : Dyadic :=
  let m := v.m.natAbs
  let odd := v.e % 2
  let n := (m * 2 ^ odd.toNat) <<< 80
  let r := isqrt n
  ⟨2 * r + (if r * r = n then 0 else 1), (v.e - odd - 80) / 2 - 1⟩

/-- 1/x of a positive dyadic, truncated with a sticky last bit. -/
def Dyad.recip (v : Dyadic) : Dyadic :=
  let m := v.m.natAbs
  let k := Nat.log2 m + 60
  ⟨2 * (2 ^ k / m) + (if 2 ^ k % m = 0 then 0 else 1), -(v.e + k) - 1⟩

/-- The names of the special functions, in the order of their opcodes. -/
inductive Sfu where
  | rcp | rsq | sqrt | ex2 | exp | lg2 | log | sin | cos | tanh | sigm
  deriving DecidableEq, Repr

def Sfu.num : Sfu → Nat
  | .rcp => 0 | .rsq => 1 | .sqrt => 2 | .ex2 => 3 | .exp => 4 | .lg2 => 5 | .log => 6 | .sin => 7 | .cos => 8
  | .tanh => 9 | .sigm => 10

/-! ## Exact results, in fixed point

Numbers in units of 2^-192, by their power series; each function's error is a small multiple of the unit, and the unit lies
far below the last place of every format. -/

def fixOne : Int := 2 ^ 192
def fixMul (x y : Int) : Int := x * y / 2 ^ 192

/-- A dyadic in fixed point; exact for every encoding of the formats. -/
def fixOf (v : Dyadic) : Int := Dyad.floor (Dyad.scale v 192)

/-- A fixed-point value as bounds, so many units wide on each side, times a power of two. -/
def fixRange (x err k : Int) : Dyadic × Dyadic := (⟨max 1 (x - err), k - 192⟩, ⟨x + err, k - 192⟩)

/-- Σ term / k!, for e^r, |r| ≤ 1. -/
def expSeries (r : Int) : Nat → Nat → Int → Int
  | 0, _, _ => 0
  | n + 1, k, term => term + expSeries r n (k + 1) (fixMul term r / (k + 1))

def fixExp (r : Int) : Int := expSeries r 64 0 fixOne

/-- Σ z^(2k+1) / (2k+1), with the sign `s` changing from term to term for the arc tangent. -/
def arcSeries (s z2 : Int) : Nat → Nat → Int → Int
  | 0, _, _ => 0
  | n + 1, k, p => p / (2 * k + 1) + arcSeries s z2 n (k + 1) (s * fixMul p z2)

def fixAtanh (z : Int) : Int := arcSeries 1 (fixMul z z) 64 0 z
def fixAtan (z : Int) : Int := arcSeries (-1) (fixMul z z) 64 0 z

/-- ln 2 = 2 artanh 1/3, and π/2 = 8 arctan 1/5 − 2 arctan 1/239. -/
def fixLn2 : Int := 2 * fixAtanh (fixOne / 3)
def fixHalfPi : Int := 8 * fixAtan (fixOne / 5) - 2 * fixAtan (fixOne / 239)

/-- Σ of the sine's (from k = 1) or cosine's (from k = 0) series, two factors of the factorial at a time. -/
def circleSeries (r2 : Int) : Nat → Nat → Int → Int
  | 0, _, _ => 0
  | n + 1, k, term => term + circleSeries r2 n (k + 2) (-(fixMul term r2) / ((k + 1) * (k + 2)))

def fixSin (r : Int) : Int := circleSeries (fixMul r r) 40 1 r
def fixCos (r : Int) : Int := circleSeries (fixMul r r) 40 0 fixOne

/-- e^x as a fixed-point number and a power of two, for |x| < 2^10. -/
def fixExpScaled (x : Int) : Int × Int :=
  let k := x / fixLn2
  (fixExp (x - k * fixLn2), k)

/-- e^-x for x ≥ 0. -/
def fixExpNeg (x : Int) : Int :=
  if 2 ^ 10 * fixOne ≤ x then 0 else let (e, k) := fixExpScaled (-x); e / 2 ^ (-k).toNat

/-- Bounds of b^x, b^x given as a fixed-point number and a power of two; far out every format overflows or is at its least. -/
def powRange (v : Dyadic) (near : Int × Int) : Dyadic × Dyadic :=
  if Dyad.le ⟨1, 10⟩ v then (Dyad.pow2 1000, Dyad.pow2 1000)
  else if Dyad.le v ⟨-1, 10⟩ then (Dyad.pow2 (-1000), Dyad.pow2 (-1000))
  else fixRange near.1 (2 ^ 24) near.2

def expRange (v : Dyadic) : Dyadic × Dyadic := powRange v (fixExpScaled (fixOf v))

def ex2Range (v : Dyadic) : Dyadic × Dyadic :=
  let n := Dyad.floor v
  powRange v (fixExp (fixMul (fixOf v - n * fixOne) fixLn2), n)

/-- ln of a positive number. -/
def fixLog (v : Dyadic) : Int :=
  let top := Nat.log2 v.m.natAbs
  let m := fixOf ⟨v.m, -(top : Int)⟩
  2 * fixAtanh ((m - fixOne) * fixOne / (m + fixOne)) + ((top : Int) + v.e) * fixLn2

/-- A free code near a fixed-point number of either sign. -/
def pickFix (t : Format) (free : Nat) (x err : Int) (u : Nat) : Rounded :=
  let (lo, hi) := fixRange x.natAbs err 0
  pickWithin t free (decide (x < 0)) lo hi u

/-- Sine (`quarter` 0) or cosine (1): the angle is reduced by a multiple of π/2. -/
def fixCircle (quarter : Int) (v : Dyadic) : Int × Int :=
  let x := fixOf v
  let k := (2 * x + fixHalfPi) / (2 * fixHalfPi)
  let r := x - k * fixHalfPi
  let y := match (k + quarter) % 4 with
    | 0 => fixSin r
    | 1 => fixCos r
    | 2 => -(fixSin r)
    | _ => -(fixCos r)
  (y, 2 ^ 12 * (k.natAbs : Int) + 2 ^ 16)

/-- π × 2^15, in units of 2^-45. -/
def piLimit : Dyadic := ⟨3622009729038561421, -45⟩

/-- A special function of a value (R145); `free` stands for the fixed encoding that the table does not state. -/
def specialValue (fn : Sfu) (t : Format) (free : Nat) (x : FVal) : Rounded :=
  let one : Dyadic := ⟨1, 0⟩
  let exact (v : FVal) : Rounded := t.round rne v
  match fn, x with
  | _, .nan n c => (t.nanCode n c, 0)
  | .rcp, .zero n => ((t.round rne (.inf n)).1, fDivZero)
  | .rcp, .inf n => exact (.zero n)
  | .rcp, .num v =>
      let neg := decide (v.m < 0)
      match Dyad.log2? ⟨v.m.natAbs, v.e⟩ with
      | some k => t.roundNum rne ⟨if neg then -1 else 1, -k⟩
      | none => pickNear t free neg (Dyad.recip v) 1
  | .rsq, .zero n => ((t.round rne (.inf n)).1, fDivZero)
  | .rsq, .inf n => if n then t.genNan 5 else exact (.zero false)
  | .rsq, .num v =>
      if v.m < 0 then t.genNan 5
      else
        pickNear t free false (Dyad.recip (Dyad.sqrt v)) 1
  | .sqrt, .zero n => exact (.zero n)
  | .sqrt, .inf n => if n then t.genNan 5 else exact (.inf false)
  | .sqrt, .num v => if v.m < 0 then t.genNan 5 else t.roundNum rne (Dyad.sqrt v)
  | .ex2, .zero _ => exact (.num one)
  | .ex2, .inf n => exact (if n then .zero false else .inf false)
  | .ex2, .num v =>
      if Dyad.isInt v then t.roundNum rne (Dyad.pow2 (Dyad.floor v))
      else
        let (lo, hi) := ex2Range v
        pickWithin t free false lo hi 1
  | .exp, .zero _ => exact (.num one)
  | .exp, .inf n => exact (if n then .zero false else .inf false)
  | .exp, .num v =>
      let (lo, hi) := expRange v
      pickWithin t free false lo hi 2
  | .lg2, .zero _ => ((t.round rne (.inf true)).1, fDivZero)
  | .lg2, .inf n => if n then t.genNan 5 else exact (.inf false)
  | .lg2, .num v =>
      if v.m < 0 then t.genNan 5
      else match Dyad.log2? v with
        | some k => exact (FVal.ofDyadic (Dyad.ofInt k) false)
        | none => pickFix t free (fixLog v * fixOne / fixLn2) (2 ^ 24) 1
  | .log, .zero _ => ((t.round rne (.inf true)).1, fDivZero)
  | .log, .inf n => if n then t.genNan 5 else exact (.inf false)
  | .log, .num v =>
      if v.m < 0 then t.genNan 5
      else if Dyad.eq v one then exact (.zero false)
      else pickFix t free (fixLog v) (2 ^ 24) 2
  | .sin, .zero n => exact (.zero n)
  | .cos, .zero _ => exact (.num one)
  | .sin, .inf _ | .cos, .inf _ => t.genNan 5
  | .sin, .num v =>
      if Dyad.le piLimit ⟨v.m.natAbs, v.e⟩ then t.genNan 6
      else
        let (y, err) := fixCircle 0 v
        pickFix t free y err 2
  | .cos, .num v =>
      if Dyad.le piLimit ⟨v.m.natAbs, v.e⟩ then t.genNan 6
      else
        let (y, err) := fixCircle 1 v
        pickFix t free y err 2
  | .tanh, .zero n => exact (.zero n)
  | .tanh, .inf n => exact (.num ⟨if n then -1 else 1, 0⟩)
  | .tanh, .num v =>
      let s := fixExpNeg (2 * fixOf ⟨v.m.natAbs, v.e⟩)
      let y := (fixOne - s) * fixOne / (fixOne + s)
      pickFix t free (if v.m < 0 then -y else y) (2 ^ 24) 2
  | .sigm, .zero _ => exact (.num ⟨1, -1⟩)
  | .sigm, .inf n => exact (if n then .zero false else .num one)
  | .sigm, .num v =>
      let s := fixExpNeg (fixOf ⟨v.m.natAbs, v.e⟩)
      pickFix t free ((if v.m < 0 then s else fixOne) * fixOne / (fixOne + s)) (2 ^ 24) 2

/-- A special function of an encoding: the same for one function, format and input everywhere (R145). -/
def specialCode (fn : Sfu) (fmt x : Nat) : Rounded :=
  let t := formatOf fmt
  specialValue fn t (Config.specialFunction fn.num fmt (x % 2 ^ t.width)) (t.decode x)

end Sys2Proof.Machine
end

