-- ==== Sys2Proof/Machine/Convert.lean ====
section
/-! DEFINITION. Group 0x4: conversions and special functions (R138 to R146). -/

namespace Sys2Proof.Machine

/-! ## Conversions -/

/-- F2F of an encoding (R139). -/
def convertFloat (ftz : Bool) (td ts : Format) (c : Rounding) (x : Nat) : Rounded :=
  flush ftz td (td.round c (decodeFtz ftz ts x))

/-- F2F: the 64-bit form fills d, the 96-bit form replaces one element of it (R140, R141). -/
def execF2f (f : Fields) (s : State) : Out :=
  let ts := formatOf (f.cn 2 0)
  let td := formatOf (f.cn 5 3)
  .next (s.runRegs (.f2f f) f fun l =>
    let r := convertFloat s.ftz td ts (roundingOf f.mod.toNat) ((s.srcA f 1 l >>> (f.xn 4 0 * ts.width)) % 2 ^ ts.width)
    (dest f 1 l
      (if f.form = .w64 then r.1 else insertBits (s.field f f.d 1 l) (f.xn 9 5 * td.width) td.width r.1), r.2))

/-- F2I of a value (R143). -/
def floatToInt (ti mode : Nat) (x : FVal) : Rounded :=
  let full (z : Int) : Nat := wrapInt (max 32 (typeWidth ti)) z
  match x with
  | .nan .. => (0, fInvalid)
  | .inf n => (full (if n then typeMin ti else typeMax ti), fInvalid)
  | .zero _ => (0, 0)
  | .num d =>
      let q := roundInt mode d
      if q < typeMin ti then (full (typeMin ti), fInvalid)
      else if typeMax ti < q then (full (typeMax ti), fInvalid)
      else (full q, if Dyad.eq (Dyad.ofInt q) d then 0 else fInexact)

def execF2i (f : Fields) (s : State) : Out :=
  let ti := f.cn 7 4
  .next (s.runRegs (.f2i f) f fun l =>
    let r := floatToInt ti (f.mn 1 0) (decodeFtz s.ftz (formatOf (f.cn 2 0)) (s.srcA f 1 l))
    (dest f (regsOfType ti) l r.1, r.2))

/-- I2F of an integer (R144). -/
def intToFloat (t : Format) (c : Rounding) (z : Int) : Rounded := t.round c (FVal.ofDyadic (Dyad.ofInt z) false)

def execI2f (f : Fields) (s : State) : Out :=
  let ti := f.cn 3 0
  .next (s.runRegs (.i2f f) f fun l =>
    let r := intToFloat (formatOf (f.cn 6 4)) (roundingOf f.mod.toNat) (readAs ti (s.srcA f (regsOfType ti) l))
    (dest f 1 l r.1, r.2))

/-! ## Special functions: long-latency (R145, R146) -/

/-- A special function of an encoding, under the warp's FTZ. -/
def specialReg (ftz : Bool) (fn : Sfu) (fmt x : Nat) : Rounded :=
  let t := formatOf fmt
  let x := x % 2 ^ t.width
  let x := if ftz && t == f32 && t.isSubnormal x then encodeExact t (decodeFtz ftz t x) else x
  flush ftz t (specialCode fn fmt x)

def State.runSpecial (s : State) (i : Instr) (f : Fields) (fn : Sfu) : State :=
  s.runLater i f 1 fun l =>
    let r := specialReg s.ftz fn (f.mn 1 0) (s.srcA f 1 l)
    (dest f 1 l r.1, r.2)

def execRcp (f : Fields) (s : State) : Out := .next (s.runSpecial (.rcp f) f .rcp)
def execRsq (f : Fields) (s : State) : Out := .next (s.runSpecial (.rsq f) f .rsq)
def execSqrt (f : Fields) (s : State) : Out := .next (s.runSpecial (.sqrt f) f .sqrt)
def execEx2 (f : Fields) (s : State) : Out := .next (s.runSpecial (.ex2 f) f .ex2)
def execExp (f : Fields) (s : State) : Out := .next (s.runSpecial (.exp f) f .exp)
def execLg2 (f : Fields) (s : State) : Out := .next (s.runSpecial (.lg2 f) f .lg2)
def execLog (f : Fields) (s : State) : Out := .next (s.runSpecial (.log f) f .log)
def execSin (f : Fields) (s : State) : Out := .next (s.runSpecial (.sin f) f .sin)
def execCos (f : Fields) (s : State) : Out := .next (s.runSpecial (.cos f) f .cos)
def execTanh (f : Fields) (s : State) : Out := .next (s.runSpecial (.tanh f) f .tanh)
def execSigm (f : Fields) (s : State) : Out := .next (s.runSpecial (.sigm f) f .sigm)

end Sys2Proof.Machine
end

