-- ==== Sys2Proof/Machine/Handler.lean ====
section
/-! DEFINITION. The new values of atomic operations: the fixed handler slots (R267) and the operations of ATOMS (R215), and
the arithmetic of sync words (R217). -/

namespace Sys2Proof.Machine

/-- A float sum of encodings, RNE, with old as the first operand. -/
def floatSum (t : Format) (old x : Nat) : Nat := (fAdd t rne (t.decode old) (t.decode x)).1

/-- The float maximum with c[0] = 0 (R132). -/
def floatMaximum (t : Format) (old x : Nat) : Nat := (fMinMax t true false (t.decode old) (t.decode x)).1

/-- INC: 0 at the bound, otherwise one more. -/
def incTo (w old x : Nat) : Nat := if x ≤ old then 0 else (old + 1) % 2 ^ w

/-- DEC: x at 0 or above the bound, otherwise one less. -/
def decFrom (old x : Nat) : Nat := if old = 0 ∨ x < old then x else old - 1

/-- NewValue of R267 for the fixed slots; operands are w bits wide. -/
def slotValue (slot w old x y : Nat) : Nat :=
  match slot with
  | 0 => (old + x) % 2 ^ w
  | 1 => (old + 2 ^ w - x) % 2 ^ w
  | 2 => incTo w old x
  | 3 => decFrom old x
  | 4 => if sintOf w old ≤ sintOf w x then old else x
  | 5 => if sintOf w old ≤ sintOf w x then x else old
  | 6 => min old x
  | 7 => max old x
  | 8 => old &&& x
  | 9 => old ||| x
  | 10 => old ^^^ x
  | 11 | 13 => x
  | 12 | 22 => if old = y then x else old
  | 14 => floatSum f32 old x
  | 15 => floatSum bf16 old x
  | 16 => floatSum f16 old x
  | 17 => floatSum e4m3 old x
  | 18 => floatMaximum f32 old x
  | 19 => floatMaximum bf16 old x
  | 20 => floatMaximum f16 old x
  | 21 => floatMaximum e4m3 old x
  | _ => floatSum f32 (old % 2 ^ 32) (x % 2 ^ 32) + ((old / 2 ^ 32 + 1) % 2 ^ 32) * 2 ^ 32

/-- The new value of ATOMS (R215) by mod. -/
def atomsValue (op old b c : Nat) : Nat :=
  match op with
  | 0 => (old + b) % 2 ^ 32
  | 1 => (old + b) % 2 ^ 64
  | 2 => slotValue 4 32 old b c
  | 3 => slotValue 5 32 old b c
  | 4 => min old b
  | 5 => max old b
  | 6 => old &&& b
  | 7 => old ||| b
  | 8 => old ^^^ b
  | 9 | 10 => b
  | 11 | 12 => if old = c then b else old
  | 13 => floatSum f32 old b
  | _ => incTo 32 old b

/-- The width of an ATOMS operation. -/
def atomsWidth (op : Nat) : Nat := if op = 1 ∨ op = 10 ∨ op = 12 then 64 else 32

/-! ## Sync words (R216, R217, R219) -/

def syncGen (w : Nat) : Nat := bits w 63 56
def syncCount (w : Nat) : Nat := bits w 55 28
def syncTarget (w : Nat) : Nat := bits w 27 0

/-- The step of R217. -/
def syncAdd (n w : Nat) : Nat :=
  let t := syncTarget w
  let c := syncCount w + n
  if t = 0 then syncGen w * 2 ^ 56 + min c (2 ^ 28 - 1) * 2 ^ 28
  else (syncGen w + c / t) % 256 * 2 ^ 56 + c % t * 2 ^ 28 + t

/-- SYNCSET: the target replaced, the count cleared, the generation kept. -/
def syncSet (b w : Nat) : Nat := syncGen w * 2 ^ 56 + b % 2 ^ 28

end Sys2Proof.Machine
end

