-- ==== Sys2Proof/Machine/Watch.lean ====
section
/-! DEFINITION. Watchpoints of the cores and of the homes (R445 to R448). -/

namespace Sys2Proof.Machine

/-! ## Core watchpoints (R445, R446) -/

/-- The lowest bit of `width` bits from `a` that a watchpoint watches for a process. -/
def Watch.lowBit (w : Watch) (process a width : Nat) : Option Nat :=
  if w.ctl.getLsbD 0 && bits w.ctl.toNat 31 16 == process then
    ((List.range width).map fun i => (a + i) % 2 ^ 64).find? fun x =>
      decide (w.lo.toNat ≤ x) && decide (x < w.hi.toNat) && w.mask.getLsbD (x % 64)
  else none

/-- One past the highest such bit. -/
def Watch.highBit (w : Watch) (process a width : Nat) : Option Nat :=
  if w.ctl.getLsbD 0 && bits w.ctl.toNat 31 16 == process then
    (((List.range width).reverse.map fun i => (a + i) % 2 ^ 64).find? fun x =>
      decide (w.lo.toNat ≤ x) && decide (x < w.hi.toNat) && w.mask.getLsbD (x % 64)).map (· + 1)
  else none

/-- An access as a watchpoint sees it: lane, virtual bit address, width. -/
abbrev Seen := Nat × Nat × Nat

/-- The matches of the accesses of an instruction with the watchpoints of a core: watchpoint, lane, bit. -/
def Core.watchHits (c : Core) (process : Nat) (load write : Bool) (acc : List Seen) : List (Nat × Nat × Nat) :=
  c.watches.flatMap fun (k, w) =>
    if (load && w.ctl.getLsbD 1) || (write && w.ctl.getLsbD 2) then
      acc.filterMap fun (l, a, n) => (w.lowBit process a n).map fun b => (k, l, b)
    else []

def least (d : Nat) (l : List Nat) : Nat := l.foldl min d

/-- What a WATCH trap names: the lowest watchpoint that matched, the lowest matching lane, and that lane's lowest watched
bit. -/
def watchReport : List (Nat × Nat × Nat) → Option (Nat × Nat × Nat)
  | [] => none
  | h :: t =>
    let hits := h :: t
    let lane := least h.2.1 (hits.map (·.2.1))
    let own := hits.filter (·.2.1 == lane)
    some (least h.1 (hits.map (·.1)), lane, least ((own.headD h).2.2) (own.map (·.2.2)))

/-- The WATCH of the issuing warp's accesses, if any. -/
def State.watchOf (s : State) (load write : Bool) (acc : List Seen) : Option (Nat × Nat × Nat) :=
  if s.warp.isVesper then none
  else watchReport (s.myCore.watchHits s.warp.info.process load write acc)

/-- Past an instruction whose accesses have issued: a match stops the core, the quads standing after it (R446). -/
def State.advanceWatch (s : State) (f : Fields) (hit : Option (Nat × Nat × Nat)) (flags : Nat) : State :=
  let pc := s.warp.pc
  let s := s.advance f
  match hit with
  | none => s
  | some (k, lane, a) => s.trapCore pc { code := cWatch, addr := a, info0 := k, lane, flags }

/-! ## Home watchpoints (R448) -/

/-- A home watchpoint watches a physical bit of a mask that lies from an address up. -/
def Watch.homeBit (w : Watch) (pa mask : Nat) (high : Bool) : Option Nat :=
  let bitsUp := (setBits 128 mask).map (pa + ·)
  if w.ctl.getLsbD 0 then
    (if high then bitsUp.reverse else bitsUp).find? fun x =>
      decide (w.lo.toNat ≤ x) && decide (x < w.hi.toNat) && w.mask.getLsbD (x % 64)
  else none

/-- HOME_WATCH_REPORT: one record for each watchpoint, of the controller that serves the line, that the run's write
matches. -/
def execHomeWatchReport (die pa mask kind slot srcDev srcDie pid : Nat) (s : State) : StepOut :=
  let c := Config.controllerOf (lineOf pa) % 3
  let mine := (s.dieAt die).homeWatches.filter fun (k, _) => k / 4 == c
  .next (mine.foldl (fun s (k, w) =>
    match w.homeBit pa mask false, w.homeBit pa mask true with
    | some lo, some hi =>
      let r : FaultRecord :=
        { addr := BitVec.ofNat 64 lo, pc := 0,
          info0 := BitVec.ofNat 64 (k % 4 + 16 + c * 256 + kind * 1024 + slot * 65536 + srcDev * 2 ^ 21 + srcDie * 2 ^ 30),
          info1 := BitVec.ofNat 64 (hi + 1), regions := 0, process := BitVec.ofNat 16 pid, launch := 0, warp := 0, lane := 0,
          slot := 0, core := 0, die := BitVec.ofNat 2 die, kind := 7, code := 0, status := 0, flags := 0, aux16 := 0,
          time := BitVec.ofNat 64 s.timer }
      s.enqueueRecord die ⟨r, none, none, false⟩
    | _, _ => s) s)

end Sys2Proof.Machine
end

