-- ==== Sys2Proof/Machine/Scratch.lean ====
section
/-! DEFINITION. Group 0x8: scratchpad accesses (R205 to R215), sync words (R216 to R220) and barriers (R221 to R227). -/

namespace Sys2Proof.Machine

/-! ## Scratchpad bits -/

def Block.spadRead (b : Block) (off w : Nat) : Nat := readBits (fun i => (tget 0 b.spad i).toNat) off w

def Block.spadWrite (b : Block) (off w v : Nat) : Block :=
  { b with spad := (writeBits (fun i => (tget 0 b.spad i).toNat) off w v).foldl (fun t x => tput 0 t x.1 x.2) b.spad }

/-! ## Requests and their turns (R207 to R211) -/

/-- The queue through which a core's peer reaches a block's core: one for each core of the bay, in order (R210). -/
def peerQueue (sender : Nat) : Nat := 8 + sender % 8

def State.slotQueue (s : State) (die core n : Nat) : List SpadReq := tget [] (s.coreAt die core).slots n

def State.setSlotQueue (s : State) (die core n : Nat) (q : List SpadReq) : State :=
  s.modCore die core fun c => { c with slots := tput [] c.slots n q }

/-- The slot of the issuing warp's scheduler. -/
def State.mySlot (s : State) : Nat := s.warp.id.warp % 4

/-- The scheduler's queue takes no further request (R209). -/
def State.slotFull (s : State) : Bool := 8 ≤ (s.slotQueue s.warp.id.die s.warp.id.core s.mySlot).length

def State.pushSlot (s : State) (die core n : Nat) (r : SpadReq) : State :=
  if r.parts.isEmpty then s else s.setSlotQueue die core n (s.slotQueue die core n ++ [r])

/-- A request takes its place in a queue by issue order. -/
def State.insertSlot (s : State) (die core n : Nat) (r : SpadReq) : State :=
  let q := s.slotQueue die core n
  s.setSlotQueue die core n ((q.takeWhile fun u => decide (u.seq < r.seq)) ++ r :: q.dropWhile fun u => decide (u.seq < r.seq))

/-- A part's value reaches its lane of an entry. -/
def ScoreEntry.deliverSpad (e : ScoreEntry) (lane at_ v : Nat) : ScoreEntry :=
  { e with lanes := e.lanes.map fun l => if l.lane = lane then { l with left := l.left - 1, value := l.value + v <<< at_ } else l }

/-- One part is performed in its word. -/
def State.spadPart (s : State) (r : SpadReq) (p : SpadPart) : State :=
  let old := (s.blockAt r.block).spadRead p.off p.width
  let put (v : Nat) : State := s.modBlock r.block fun b => b.spadWrite p.off p.width v
  let s := match r.kind with
    | .load => s
    | .store => put p.value
    | .atomic op => put (atomsValue op old p.value p.cmp)
    | .sync slot => put (if slot = 32 then syncAdd p.value old else syncSet p.value old)
  match r.entry with
  | some e => s.modWarpAt r.warp fun w => w.modEntry e fun x => x.deliverSpad p.lane p.at_ old
  | none => s

/-- A sync-word update in scratchpad that the warp issued earlier and that is not yet in its queue: a release, or one of the
bits that the request touches (R252). -/
def State.syncBefore (s : State) (r : SpadReq) : Bool :=
  s.agenda.any fun e => match e with
    | .handlerRun u =>
      u.spad.isSome && u.warp == r.warp && decide (u.seq < r.seq) &&
      ((u.rel.isSome && r.kind != .load) ||
       (u.spad == some r.block && u.lanes.any fun l => r.parts.any fun p => overlap l.addr 64 p.off p.width))
    | _ => false

/-- Another queue holds an access of the same warp to bits of this part that comes before it: one issued earlier, or one of the
same instruction in a lower lane (R11, R252). -/
def State.spadClash (s : State) (r : SpadReq) (p : SpadPart) : Bool :=
  (s.spadOut r.warp).any fun u =>
    u != r && u.block == r.block && u.parts.any fun q =>
      overlap q.off q.width p.off p.width && (decide (u.seq < r.seq) || (u.seq == r.seq && decide (q.lane < p.lane)))

/-- A part may have its turn: the parts of a packed-class access go in ascending order (R21), the halves of a 128-bit access of
the natural class in any. -/
def State.spadReady (s : State) (r : SpadReq) (p : SpadPart) : Bool :=
  let mine := r.parts.filter (·.lane == p.lane)
  let half := p.at_ = 64 ∧ p.width = 64 ∧ p.off % 128 = 64 ∧ mine.all (·.at_ ≤ 64)
  (mine.head? == some p || decide half) && !s.spadClash r p

/-- The slot of R207 that serves a queue: its scheduler's, or the inbound or outbound port for the bay network. -/
def slotOf (n : Nat) (kind : SpadKind) : Nat := if n < 8 then n else if kind = .load then 7 else 6

/-- Cycles until the bank of a word serves a slot (R207, R208). -/
def bankDelay (slot clock word : Nat) : Nat := (slot + 8 - (word + clock) % 8) % 8

/-- The part whose word's bank serves the slot first. -/
def firstTurn (slot clock : Nat) : List SpadPart → Option SpadPart
  | [] => none
  | p :: ps => some (ps.foldl (fun b q => if bankDelay slot clock (q.off / 64) < bankDelay slot clock (b.off / 64) then q else b) p)

/-- The request cannot have a turn yet. -/
def State.spadHold (s : State) (r : SpadReq) : Bool :=
  s.syncBefore r || s.blocked (Pend.plain r.warp.die noLine r.seq r.warp r.gang) (r.kind != .load) ||
  (s.blockAt r.block).place == .saved

/-- A turn of a slot (R208): of the head request, the parts of the word whose bank comes first, in lane order. -/
def State.serveSlot (s : State) (die core n : Nat) : State :=
  match s.slotQueue die core n with
  | [] => s
  | r :: rs =>
    if s.spadHold r then s
    else
      let ready := r.parts.filter (s.spadReady r)
      match firstTurn (slotOf n r.kind) (tget 0 s.clocks (islandOf die core)) ready with
      | none => if r.parts.isEmpty then s.setSlotQueue die core n rs else s
      | some p =>
        let now := ready.filter fun q => q.off / 64 == p.off / 64
        let rest := r.parts.filter fun q => !now.contains q
        let s := now.foldl (fun s q => s.spadPart r q) s
        if rest.isEmpty then
          let s := s.setSlotQueue die core n rs
          match r.entry with | some e => s.post (.longLatencyResult r.warp e) | none => s
        else s.setSlotQueue die core n ({ r with parts := rest } :: rs)

/-- The parts of a lane's access (R21). -/
def spadParts (lane off w value cmp : Nat) : List SpadPart :=
  (partsOf off w).map fun (at_, n) => ⟨lane, off + at_, n, at_, (value >>> at_) % 2 ^ n, cmp⟩

/-! ## Operands -/

/-- Lanes with an operand each: computed at issue, or the record's when a replay issues the instruction (R428). -/
def State.laneOperands (s : State) (f : Fields) (operand : Nat → Int) : List (Nat × Int) :=
  match s.warp.resuming with
  | some r => (s.activeLanes f).map fun l => (l, ((r.lanes.lookup l).getD 0 : Nat))
  | none => (s.activeLanes f).map fun l => (l, operand l)

/-- The offset of R214. -/
def State.spadOffset (s : State) (f : Fields) (lane : Nat) : Int := s.srcA f 1 lane + sintOf 64 (immInt f true 64)

/-- The address in the own-scratchpad window that an offset names. -/
def ownAddr (o : Int) : Nat := wrapInt 64 (2 ^ 59 + o)

/-- The first lane whose access leaves the block's scratchpad. -/
def State.spadBreach (s : State) (w : Nat) (lanes : List (Nat × Int)) : Option (Nat × Int) :=
  lanes.find? fun (_, o) => decide (o < 0) || decide ((8 * s.myBlock.header.spad : Nat) < o + w)

/-- SPAD_BOUND at a lane. -/
def State.spadTrap (s : State) (l : Nat × Int) (flags : Nat) : State :=
  s.trap { code := cSpadBound, addr := ownAddr l.2, lane := l.1, flags }

/-- Take an issue-order number. -/
def State.bumpSeq (s : State) : State := { s with nextSeq := s.nextSeq + 1 }

/-- The entry of a result that comes lane by lane, from parts in memory, scratchpad or a handler. -/
def State.loadEntry (s : State) (kind : ResultKind) (covers : List RegName) (lanes : List LaneWait) (parts : List LoadPart)
    (dest : LoadDest) (acquire : Option Nat) (watch : Option (Nat × Nat × Nat)) : State :=
  let id := s.warp.nextId
  let s := s.modWarp fun w =>
    { w with
      score := w.score ++ [{ w.newEntry s.free kind covers with lanes, parts, seq := s.nextSeq, dest := some dest, acquire, watch }]
      nextId := id + 1 }
  if lanes.isEmpty || !parts.isEmpty then s.post (.longLatencyResult s.warp.id id) else s

/-- The data that a store takes from d at issue (R56, R214). -/
def State.storeData (s : State) (f : Fields) (w lane : Nat) : Nat := s.field f f.d (regsFor w) lane % 2 ^ w

/-! ## LDS, STS, LDSC, STSC (R214) -/

def spadDest (f : Fields) : LoadDest :=
  { uniform := false, reg := f.d.toNat, elems := 1, width := accessWidth f.mod.toNat, signed := 10 ≤ f.mod.toNat }

def execLds (f : Fields) (s : State) : Out :=
  let w := accessWidth f.mod.toNat
  let lanes := s.laneOperands f (s.spadOffset f)
  match s.indirectBreach (.lds f) f, s.spadBreach w lanes with
  | some r, _ => .next (s.indirectTrap f r)
  | none, some l => .next (s.spadTrap l 1)
  | none, none =>
    if s.slotFull then .next (s.stallAt 12)
    else
      let hit := s.watchOf true false (lanes.map fun (l, o) => (l, ownAddr o, w))
      let waits := lanes.map fun (l, o) => (⟨l, o.toNat, (partsOf o.toNat w).length, 0⟩ : LaneWait)
      let req : SpadReq :=
        { warp := s.warp.id, gang := s.warp.gang, block := s.warp.id.block, kind := .load, seq := s.nextSeq, entry := some s.warp.nextId,
          parts := lanes.flatMap fun (l, o) => spadParts l o.toNat w 0 0 }
      let s := s.loadEntry .load (coversD f (regsFor w)) waits [] (spadDest f) none hit
      .next ((s.pushSlot s.warp.id.die s.warp.id.core s.mySlot req).bumpSeq.advance f)

def execSts (f : Fields) (s : State) : Out :=
  let w := accessWidth f.mod.toNat
  let lanes := (s.activeLanes f).map fun l => (l, s.spadOffset f l)
  match s.indirectBreach (.sts f) f, s.spadBreach w lanes with
  | some r, _ => .next (s.indirectTrap f r)
  | none, some l => .next (s.spadTrap l 2)
  | none, none =>
    if s.slotFull then .next (s.stallAt 12)
    else
      let hit := s.watchOf false true (lanes.map fun (l, o) => (l, ownAddr o, w))
      let req : SpadReq :=
        { warp := s.warp.id, gang := s.warp.gang, block := s.warp.id.block, kind := .store, seq := s.nextSeq, entry := none,
          parts := lanes.flatMap fun (l, o) => spadParts l o.toNat w (s.storeData f w l) 0 }
      .next ((s.pushSlot s.warp.id.die s.warp.id.core s.mySlot req).bumpSeq.advanceWatch f hit 2)

/-- The address of LDSC and STSC. -/
def State.peerAddr (s : State) (f : Fields) (lane : Nat) : Int := (s.srcA f 2 lane + immInt f true 64) % 2 ^ 64

/-- Where a peer address lies: rank and offset, or the trap code. -/
def State.peerPlace (s : State) (a w : Nat) : Except Nat (Nat × Nat) :=
  if a >>> 56 ≠ 9 then .error cNotMapped
  else match s.place s.warp a w with
    | .ok (.peer rank off) => .ok (rank, off)
    | .ok _ => .error cNotMapped
    | .error c => .error c

/-- The first lane whose peer address fails, with the code. -/
def State.peerBreach (s : State) (w : Nat) (lanes : List (Nat × Int)) : Option (Nat × Nat × Nat) :=
  lanes.findSome? fun (l, a) => match s.peerPlace a.toNat w with
    | .error c => some (l, a.toNat, c)
    | .ok _ => none

/-- The block that a rank names, and its core. -/
def State.rankBlock (s : State) (rank : Nat) : Nat × Block :=
  (s.peerBlock s.myBlock rank).getD (s.warp.id.block, s.myBlock)

/-- Requests over the bay network: one for each target block. -/
def State.pushPeers (s : State) (kind : SpadKind) (entry : Option Nat) (w : Nat) (lanes : List (Nat × Int))
    (value : Nat → Nat) : State :=
  (List.range 8).foldl (fun s rank =>
    let parts := lanes.flatMap fun (l, a) => match s.peerPlace a.toNat w with
      | .ok (r, off) => if r = rank then spadParts l off w (value l) 0 else []
      | .error _ => []
    let (num, b) := s.rankBlock rank
    s.pushSlot b.die b.core (peerQueue s.warp.id.core)
      { warp := s.warp.id, gang := s.warp.gang, block := num, kind, seq := s.nextSeq, entry, parts }) s

def execLdsc (f : Fields) (s : State) : Out :=
  let w := accessWidth f.mod.toNat
  let lanes := s.laneOperands f (s.peerAddr f)
  match s.peerBreach w lanes with
  | some (l, a, c) => .next (s.trap { code := c, addr := a, lane := l, flags := 1 })
  | none =>
    let waits := lanes.map fun (l, a) => (⟨l, a.toNat, (partsOf a.toNat w).length, 0⟩ : LaneWait)
    let entry := s.warp.nextId
    let s := s.loadEntry .load (coversD f (regsFor w)) waits [] (spadDest f) none none
    .next ((s.pushPeers .load (some entry) w lanes fun _ => 0).bumpSeq.advance f)

def execStsc (f : Fields) (s : State) : Out :=
  let w := accessWidth f.mod.toNat
  let lanes := (s.activeLanes f).map fun l => (l, s.peerAddr f l)
  match s.peerBreach w lanes with
  | some (l, a, c) => .next (s.trap { code := c, addr := a, lane := l, flags := 2 })
  | none => .next ((s.pushPeers .store none w lanes fun l => s.storeData f w l).bumpSeq.advance f)

/-! ## ATOMS (R215) -/

/-- The data operand of ATOMS. -/
def State.atomsData (s : State) (f : Fields) (w lane : Nat) : Nat :=
  if !f.isImm then s.srcBReg f (w / 32) lane
  else if f.mod = 13 then floatImmReg f f32
  else immInt f (f.mod == 2 || f.mod == 3) w

def execAtoms (f : Fields) (s : State) : Out :=
  let op := f.mod.toNat
  let w := atomsWidth op
  let lanes := (s.activeLanes f).map fun l => (l, ((s.srcA f 1 l : Nat) : Int))
  match s.indirectBreach (.atoms f) f, s.spadBreach w lanes,
      lanes.find? (fun (_, o) => o % w != 0) with
  | some r, _, _ => .next (s.indirectTrap f r)
  | none, some l, _ => .next (s.spadTrap l 11)
  | none, none, some (l, o) => .next (s.trap { code := cMisalign, addr := ownAddr o, info0 := w, lane := l, flags := 11 })
  | none, none, none =>
    if s.slotFull then .next (s.stallAt 12)
    else
      let hit := s.watchOf true true (lanes.map fun (l, o) => (l, ownAddr o, w))
      let req : SpadReq :=
        { warp := s.warp.id, gang := s.warp.gang, block := s.warp.id.block, kind := .atomic op, seq := s.nextSeq, entry := some s.warp.nextId,
          parts := lanes.map fun (l, o) =>
            ⟨l, o.toNat, w, 0, s.atomsData f w l, if op = 11 ∨ op = 12 then s.srcC f (w / 32) l else 0⟩ }
      let waits := lanes.map fun (l, o) => (⟨l, o.toNat, 1, 0⟩ : LaneWait)
      let dest : LoadDest := { uniform := false, reg := f.d.toNat, elems := 1, width := w, signed := false }
      let s := s.loadEntry .wait (coversD f (w / 32)) waits [] dest none hit
      .next ((s.pushSlot s.warp.id.die s.warp.id.core s.mySlot req).bumpSeq.advance f)

end Sys2Proof.Machine
end

