-- ==== Sys2Proof/Machine/Sync.lean ====
section
/-! DEFINITION. Sync words (R216 to R220) and the barrier instructions (R221 to R227). -/

namespace Sys2Proof.Machine

/-! ## Where a sync word lies (R216) -/

inductive WordPlace where
  | spad (block off : Nat)
  | mem (fa leaf : Nat)
  deriving DecidableEq, Repr

/-- What the checks of an access to one word give. -/
inductive WordCheck where
  | ok (p : WordPlace)
  | trap (code info : Nat)
  | miss
  deriving DecidableEq, Repr

/-- The window checks of R216, then the alignment. -/
def State.syncWindow (s : State) (w : Warp) (a : Nat) : Except (Nat × Nat) (Option WordPlace) :=
  let aligned (p : Option WordPlace) : Except (Nat × Nat) (Option WordPlace) :=
    if a % 64 = 0 then .ok p else .error (cMisalign, 64)
  match s.place w a 64 with
  | .error c => .error (c, 0)
  | .ok (.spad off) => aligned (some (.spad w.id.block off))
  | .ok (.peer rank off) =>
    aligned (some (.spad ((s.peerBlock (s.blockAt w.id.block) rank).getD (w.id.block, Block.none)).1 off))
  | .ok .mem => if a >>> 56 = 10 then .error (cNotMapped, 0) else aligned none

/-- The checks of a sync word, with its translation. -/
def State.syncCheck (s : State) (w : Warp) (a : Nat) (n : Need) : State × WordCheck :=
  match s.syncWindow w a with
  | .error (c, i) => (s, .trap c i)
  | .ok (some p) => (s, .ok p)
  | .ok none =>
    match s.translate w.id.die w.id.core (s.processOf w) w.user a n with
    | (s, .miss) => (s, .miss)
    | (s, .perm) => (s, .trap cPerm 0)
    | (s, .bad) => (s, .trap cNotMapped 0)
    | (s, .ok fa leaf) => (s, .ok (.mem fa leaf))

/-- The miss record of the issuing warp: it names the process whose tables missed (R363). -/
def State.missRecord (s : State) (pc : DWord) (t : Trap) : FaultRecord :=
  { s.recordFor s.warp 2 pc t with process := BitVec.ofNat 16 (s.processOf s.warp) }

/-- A page miss of a memory instruction parks it with its pending lanes, and the miss record goes out (R363): `lane` is the
lowest that misses and `addr` its address; flags are those of R418. -/
def State.parkMiss (s : State) (lanes : List (Nat × Nat)) (lane addr flags : Nat) (slot : Nat := 0) : State :=
  let again := match s.warp.resuming with | some r => !r.park | none => false
  let extra := if s.warp.resuming.isSome then flagReplay else 0
  let r := s.missRecord s.warp.pc
    { code := 0, addr, lane, info0 := maskOf (lanes.map (·.1)), flags := flags + extra }
  (s.modWarp fun w =>
    let record : Replay := { pc := w.pc, lanes, park := !again, unresolved := false, slot }
    { (if again then w else w.modGang fun q => { q with wait := .pagePark, operand := 0 }) with
      stall := 8, parked := some record, resuming := none }).enqueueRecord s.warp.id.die ⟨r, none, some s.warp.id, false⟩

/-- The kernel instance has declared the instruction's address unresolvable (R363). -/
def State.unresolved (s : State) : Bool := match s.warp.resuming with | some r => r.unresolved | none => false

/-- A miss of an instruction that acts once: it parks with all its lanes, or raises NOT_MAPPED. -/
def State.missOnce (s : State) (f : Fields) (a flags : Nat) : State :=
  let lanes := s.actLanes f
  if s.unresolved then s.trap { code := cNotMapped, addr := a, lane := lanes.headD 0, flags }
  else s.parkMiss (lanes.map fun l => (l, a)) (lanes.headD 0) a flags

/-- The sync word as its home or bank holds it. -/
def State.syncRead (s : State) : WordPlace → Nat
  | .spad b off => (s.blockAt b).spadRead off 64
  | .mem fa _ => s.cohRead fa 64

/-- The trap that a read of the word meets: poison, or a lost home (R238, R387). -/
def State.syncPoison (s : State) : WordPlace → Option Nat
  | .spad _ _ => none
  | .mem fa leaf =>
    match s.served fa (leafMode leaf 0) with
    | none => some 3
    | some fa => s.poisonOf fa 64

/-- The issuing warp's next access, of its sub-gang. -/
def State.pendHere (s : State) (line : Nat) : Pend := Pend.plain s.warp.id.die line s.nextSeq s.warp.id s.warp.gang

/-- An access of the warp to the word has not been performed (R255). -/
def State.wordBusy (s : State) : WordPlace → Bool
  | .spad b off =>
    ((s.spadOut s.warp.id).any fun r => r.block == b && r.parts.any fun p => overlap off 64 p.off p.width) ||
    (s.agenda.any fun e => match e with
      | .handlerRun u => u.spad == some b && u.warp == s.warp.id && u.lanes.any fun l => overlap off 64 l.addr 64
      | _ => false)
  | .mem fa _ => s.blocked (s.pendHere (lineOf fa)) false

/-! ## SYNCSET and SYNCADD (R219) -/

/-- The scope of mod[2:0], none with `.rlx`. -/
def syncScope (f : Fields) : Option Nat := if f.mb 3 then none else some (f.mn 2 0)

/-- The update of a word by SYNCADD (slot 32) or SYNCSET (slot 33), as a handler run. -/
def State.syncRequest (s : State) (f : Fields) (slot lane a x : Nat) (p : WordPlace) : AtomicReq :=
  let (fa, leaf, spad) := match p with | .spad b off => (off, 0, some b) | .mem fa leaf => (fa, leaf, none)
  { warp := s.warp.id, gang := s.warp.gang, pid := s.processOf s.warp, srcDie := s.warp.id.die, slot, width := 64, seq := s.nextSeq
    entry := none, spad, mode := leafMode leaf 0, acq := none, rel := syncScope f
    lanes := [{ lane, addr := fa, va := a, x, y := 0 }] }

/-- The update of a scratchpad word goes to the queue of its issuer's scheduler or, for another block, of the bay network
(R206, R210). -/
def State.pushSync (s : State) (r : AtomicReq) (block : Nat) : State :=
  let own : Bool := block == r.warp.block
  let b := s.blockAt block
  let q : SpadReq :=
    { warp := r.warp, gang := r.gang, block, kind := .sync r.slot, seq := r.seq, entry := none,
      parts := r.lanes.map fun l => { lane := l.lane, off := l.addr, width := 64, at_ := 0, value := l.x, cmp := 0 } }
  if own then s.insertSlot r.warp.die r.warp.core (r.warp.warp % 4) q else s.insertSlot b.die b.core (peerQueue r.warp.core) q

/-- The update is on its way: to its home or, once its release is complete, to its queue; a relaxed one to its queue at once. -/
def State.syncUpdate (s : State) (f : Fields) (slot lane a x : Nat) (p : WordPlace) : State :=
  let r := s.syncRequest f slot lane a x p
  let hit := s.watchOf false true [(lane, a, 64)]
  let own : Bool := match r.spad with | some b => b == r.warp.block | none => false
  if own && s.slotFull then s.stallAt 12
  else
    let s := match r.spad, r.rel with
      | some b, none => s.pushSync r b
      | _, _ => s.post (.handlerRun r)
    s.bumpSeq.advanceWatch f hit 2

/-- SYNCSET and SYNCADD: checks, then the update. -/
def State.syncWrite (s : State) (f : Fields) (slot : Nat) : State :=
  if !s.acts f then s.advance f
  else
    let lane := (s.actLanes f).headD 0
    let a := s.srcA f 2 lane
    let x := s.srcB f false 32 1 lane
    match s.syncCheck s.warp a needRW with
    | (s, .miss) => s.missOnce f a 3
    | (s, .trap c info) => s.trap { code := c, addr := a, info0 := info, lane, flags := 3 }
    | (s, .ok p) =>
      match s.syncPoison p with
      | some k => s.trap { code := cAtomicPoison, addr := a, info0 := k, lane, flags := 3 }
      | none => s.syncUpdate f slot lane a x p

def execSyncset (f : Fields) (s : State) : Out := .next (s.syncWrite f 33)
def execSyncadd (f : Fields) (s : State) : Out := .next (s.syncWrite f 32)

/-! ## SYNCWAIT and SYNCTEST (R220) -/

/-- The acquire at a scope on the issuing warp's core. -/
def State.acquire (s : State) (scope : Option Nat) : State :=
  match scope with
  | some sc => s.acquireAt s.warp.id.die s.warp.id.core sc
  | none => s

/-- The checks of SYNCWAIT and SYNCTEST: the word's value, or the state in which the instruction does not read it. -/
def State.syncLoad (s : State) (f : Fields) (lane a : Nat) : State × Option Nat :=
  match s.syncCheck s.warp a needR with
  | (s, .miss) => (s.missOnce f a 1, none)
  | (s, .trap c info) => (s.trap { code := c, addr := a, info0 := info, lane, flags := 1 }, none)
  | (s, .ok p) =>
    match s.syncPoison p with
    | some k => (s.trap { code := if k = 2 then cDataLost else cPoison, addr := a, lane, flags := 1 }, none)
    | none =>
      if s.wordBusy p then (s.stallAt 2, none)
      else
        let s := match p with
          | .mem fa _ => s.dropL1 s.warp.id.die s.warp.id.core (sectorOf fa)
          | .spad _ _ => s
        (s, some (s.syncRead p))

/-- A result of an instruction that acts once: every active lane of d, or the uniform register (R198, R218). -/
def State.onceResult (s : State) (f : Fields) (n v : Nat) : List RegWrite :=
  (s.actLanes f).flatMap fun l => dest f n l v

def execSyncwait (f : Fields) (s : State) : Out :=
  if !s.acts f then .next (s.advance f true)
  else
    let lane := (s.actLanes f).headD 0
    let a := s.srcA f 2 lane
    let b := s.srcB f false 32 1 lane % 256
    match s.syncLoad f lane a with
    | (s, none) => .next s
    | (s, some w) =>
      if syncGen w = b then .next (s.block .syncwait (a * 256 + b) 6)
      else
        let s := s.acquire (syncScope f)
        .next ((s.later (coversD f 1) (s.onceResult f 1 (syncGen w)) 0).advance f true)

def execSynctest (f : Fields) (s : State) : Out :=
  if !s.acts f then .next (s.advance f)
  else
    let lane := (s.actLanes f).headD 0
    let a := s.srcA f 2 lane
    let b := s.srcB f false 32 1 lane % 256
    match s.syncLoad f lane a with
    | (s, none) => .next s
    | (s, some w) =>
      let t := syncGen w != b
      let s := if t then s.acquire (syncScope f) else s
      .next ((s.later [predName f.k f.d.toNat] ((s.actLanes f).map fun l => destPred f f.d l t) 0).advance f)

/-- The generation that a waiting quad compares, seen from outside: none when the word cannot be read any more. -/
def State.syncPeek (s : State) (w : Warp) (a : Nat) : Option Nat :=
  match s.syncCheck w a needR with
  | (s, .ok p) => if (s.syncPoison p).isSome then none else some (syncGen (s.syncRead p))
  | _ => none

/-- SYNCWAIT_WAKE: a waiting sub-gang whose word shows another generation, or can no longer be read, issues again. -/
def execSyncwaitWake (id : WarpId) (s : State) : Out :=
  .next (s.modWarpAt id fun w =>
    { w with quads := w.quads.map fun q =>
        if q.wait == .syncwait && s.syncPeek w (q.operand / 256) != some (q.operand % 256) then
          { q with wait := .none, operand := 0 }
        else q })

/-! ## Block barriers (R221 to R225) -/

/-- A phase token (R223). -/
def phaseToken (phase kind id : Nat) : Nat := phase * 256 + kind * 16 + id

/-- A token that a wait of the kind accepts. -/
def tokenOk (kind count t : Nat) : Bool := t >>> 16 == 0 && bits t 7 4 == kind && t % 16 < count

/-- The barrier operand of BAR.ARRIVE, BAR.SYNC and CBAR.ARRIVE, and whether the warp may arrive at it. -/
def State.mayArrive (s : State) (count id : Nat) : Bool := decide (id < count) && !s.warp.info.spawned && !s.warp.isVesper

/-- The warp arrives at a block barrier of its block. -/
def State.arriveBar (s : State) (id : Nat) : State :=
  s.modBlock s.warp.id.block fun b => b.modBarrier id fun x => x.arrive b.initial s.warp.id.warp

/-- BAR_BOUND for a barrier number or token. -/
def State.barTrap (s : State) (v lane : Nat) : State := s.trap { code := cBarBound, info0 := v, lane }

def execBarArrive (f : Fields) (s : State) : Out :=
  if !s.acts f then .next (s.advance f)
  else
    let lane := (s.actLanes f).headD 0
    let id := s.srcB f false 32 1 lane
    if !s.mayArrive s.myBlock.header.barriers id then .next (s.barTrap id lane)
    else match s.release 1 true with
      | (s, false) => .next (s.stallAt 28)
      | (s, true) =>
        let t := phaseToken (s.myBlock.barrier id).phase.toNat 0 id
        .next (((s.arriveBar id).later (coversD f 1) (s.onceResult f 1 t) 0).advance f)

def execBarWait (f : Fields) (s : State) : Out :=
  if !s.acts f then .next (s.advance f true)
  else
    let lane := (s.actLanes f).headD 0
    let t := s.srcA f 1 lane
    if !tokenOk 0 s.myBlock.header.barriers t then .next (s.barTrap t lane)
    else if (s.myBlock.barrier (t % 16)).phase = BitVec.ofNat 8 (t / 256) then .next (s.block .barWait t 4)
    else .next ((s.acquire (some 1)).advance f true)

/-- BAR.SYNC arrives once, and issues again when its wait has ended (R227). -/
def State.barSync (s : State) (f : Fields) : Out :=
  if !s.acts f then .next (s.advance f true)
  else
    let lane := (s.actLanes f).headD 0
    let id := s.srcB f false 32 1 lane
    if !s.mayArrive s.myBlock.header.barriers id then .next (s.barTrap id lane)
    else match s.release 1 with
      | (s, false) => .next (s.stallAt 28)
      | (s, true) =>
        let phase := (s.myBlock.barrier id).phase
        let s := s.arriveBar id
        if (s.myBlock.barrier id).phase = phase then .next (s.block .barSync (phaseToken phase.toNat 0 id) 4)
        else .next ((s.acquire (some 1)).advance f true)

def execBarSync (f : Fields) (s : State) : Out := s.onceMore f .barSync (State.acquire · (some 1)) fun s => s.barSync f

/-! ## Cluster barriers (R226) -/

/-- CBAR.ARRIVE sets the warp's bit; the arrival's news travels as CLUSTER_BARRIER_ARRIVAL. -/
def execCbarArrive (f : Fields) (s : State) : Out :=
  if !s.acts f then .next (s.advance f)
  else
    let lane := (s.actLanes f).headD 0
    let id := s.srcB f false 32 1 lane
    if !s.mayArrive 4 id then .next (s.barTrap id lane)
    else match s.release 2 true with
      | (s, false) => .next (s.stallAt 28)
      | (s, true) =>
        let b := s.myBlock
        let t := phaseToken (s.clusterBarrier b.clusterKey id).phase.toNat 1 id
        let s := (s.modClusterBarrier b.clusterKey id fun c => c.setBit b.rank s.warp.id.warp true).saveCluster b
        let s := s.post (.clusterBarrierArrival (launchKey b.process b.launch) b.cluster id b.rank s.warp.id.warp)
        .next ((s.later (coversD f 1) (s.onceResult f 1 t) 0).advance f)

/-- CLUSTER_BARRIER_ARRIVAL: the phase completes once the masks cover every participant; it waits while a rank is saved (R227).
`launch` is the launch's key. -/
def execClusterBarrierArrival (launch cluster barrier rank warp : Nat) (s : State) : Out :=
  match s.blocks.find? fun (_, b) =>
      launchKey b.process b.launch == launch && b.cluster == cluster && b.rank == rank && b.header.width != 0 with
  | none => .next s
  | some (_, b) =>
    if s.clusterAway b then .next (s.post (.clusterBarrierArrival launch cluster barrier rank warp))
    else if bitOf ((s.clusterBarrier (clusterKey launch cluster) barrier).masks.getD rank 0).toNat warp then
      .next (s.modClusterBarrier (clusterKey launch cluster) barrier fun c => c.complete (s.clusterParticipants b))
    else .next s

def execCbarWait (f : Fields) (s : State) : Out :=
  if !s.acts f then .next (s.advance f true)
  else
    let lane := (s.actLanes f).headD 0
    let t := s.srcA f 1 lane
    if s.warp.isVesper || !tokenOk 1 4 t then .next (s.barTrap t lane)
    else if (s.clusterBarrier s.myBlock.clusterKey (t % 16)).phase = BitVec.ofNat 8 (t / 256) then
      .next (s.block .cbarWait t 5)
    else .next ((s.acquire (some 2)).advance f true)

end Sys2Proof.Machine
end

