-- ==== Sys2Proof/Machine/Reach.lean ====
section
/-! DEFINITION. From an instruction's lanes to the parts of its accesses: addresses (R239), checks and translation (R240),
loads and stores under way (R234 to R236, R243). -/

namespace Sys2Proof.Machine

/-! ## Addresses (R239) -/

/-- i of R239. -/
def State.memIndex (s : State) (f : Fields) (lane : Nat) : Int :=
  match f.cn 7 6 with
  | 0 => 0
  | 1 => sintOf 32 (s.srcBReg f 1 lane)
  | 2 => (s.srcBReg f 1 lane % 2 ^ 32 : Nat)
  | _ => sintOf 64 (s.srcBReg f 2 lane)

/-- disp of R239. -/
def memDisp (f : Fields) : Int := if f.isImm16 then sintOf 16 f.imm16.toNat else sintOf 32 f.imm32.toNat

/-- A(lane) of R239. -/
def State.memAddr (s : State) (f : Fields) (lane : Nat) : Nat :=
  wrapInt 64 ((s.srcA f 2 lane : Nat) + s.memIndex f lane * (f.cn 5 0 + 1 : Nat) + memDisp f)

/-- The lanes that act with their addresses; a replay has them from its record (R428). -/
def State.memLanes (s : State) (f : Fields) (addr : Nat → Nat) : List (Nat × Nat) :=
  match s.warp.resuming with
  | some r => if f.k then r.lanes else (s.activeLanes f).map fun l => (l, (r.lanes.lookup l).getD 0)
  | none => (s.actLanes f).map fun l => (l, addr l)

/-! ## Checks (R240) -/

/-- Where one part of an access lies. -/
inductive Spot where
  | own (off : Nat)
  | peer (rank off : Nat)
  | mem (fa leaf : Nat)
  deriving DecidableEq, Repr

/-- A part of a lane's access: its place in the lane's value, its width, virtual address and spot, and whether the access is of
the packed class. -/
structure PartAt where
  lane  : Nat
  at_   : Nat
  width : Nat
  va    : Nat
  spot  : Spot
  packed : Bool
  deriving DecidableEq, Repr

/-- A lane that fails: its address, which traps and miss records name (R363, R415), and why. -/
structure BadLane where
  lane : Nat
  addr : Nat
  bar  : Bar
  deriving DecidableEq, Repr

/-- The lanes that pass, with their parts, and those that fail. -/
structure Reach where
  good : List (Nat × Nat × List PartAt)
  bad  : List BadLane
  deriving DecidableEq, Repr

/-- What the checks compare with: the kind of access, the permissions, its width, and the width of the access as R437 sees
it. -/
structure Probe where
  kind  : AccessKind
  need  : Need
  width : Nat
  whole : Option Nat
  deriving DecidableEq, Repr

/-- One part is translated. -/
def State.reachPart (s : State) (w : Warp) (p : Probe) (va width : Nat) : State × Except Bar Spot :=
  match s.translate w.id.die w.id.core (s.processOf w) w.user va p.need with
  | (s, .miss) => (s, .error .miss)
  | (s, .perm) => (s, .error (.trap cPerm 0))
  | (s, .bad) => (s, .error (.trap cNotMapped 0))
  | (s, .ok fa leaf) =>
    match s.barred (s.processOf w) w.user p.kind fa leaf width p.whole with
    | some b => (s, .error b)
    | none => (s, .ok (.mem fa leaf))

/-- The access counts as packed for the coalescer: packed class, or LDX and STX, whose width R437 does not see (R234, R245). -/
def Probe.packed (p : Probe) (a : Nat) : Bool := p.whole.isNone || !naturalClass a p.width

/-- The parts of a lane in ascending order; the first that fails decides. -/
def State.reachParts (s : State) (w : Warp) (p : Probe) (lane a : Nat) :
    List (Nat × Nat) → State × Except Bar (List PartAt)
  | [] => (s, .ok [])
  | (at_, n) :: rest =>
    let va := (a + at_) % 2 ^ 64
    match s.reachPart w p va n with
    | (s, .error b) => (s, .error b)
    | (s, .ok spot) =>
      match s.reachParts w p lane a rest with
      | (s, .error e) => (s, .error e)
      | (s, .ok ps) => (s, .ok (⟨lane, at_, n, va, spot, p.packed a⟩ :: ps))

/-- One lane, its window checks passed. -/
def State.reachLane (s : State) (w : Warp) (p : Probe) (lane a : Nat) : State × Except Bar (List PartAt) :=
  let parts := partsOf a p.width
  match s.place w a p.width with
  | .error c => (s, .error (.trap c 0))
  | .ok (.spad off) => (s, .ok (parts.map fun (at_, n) => ⟨lane, at_, n, a + at_, .own (off + at_), p.packed a⟩))
  | .ok (.peer rank off) => (s, .ok (parts.map fun (at_, n) => ⟨lane, at_, n, a + at_, .peer rank (off + at_), p.packed a⟩))
  | .ok .mem => s.reachParts w p lane a parts

/-- Every lane, ascending. -/
def State.reachAll (s : State) (w : Warp) (p : Probe) : List (Nat × Nat) → State × Reach
  | [] => (s, ⟨[], []⟩)
  | (l, a) :: rest =>
    let (s, r) := s.reachLane w p l a
    let (s, t) := s.reachAll w p rest
    match r with
    | .ok ps => (s, { t with good := (l, a, ps) :: t.good })
    | .error b => (s, { t with bad := ⟨l, a, b⟩ :: t.bad })

/-- The window checks over every lane: the lowest that fails, its address and the trap (R13 to R16). -/
def State.windowBreach (s : State) (w : Warp) (width : Nat) (lanes : List (Nat × Nat)) : Option (Nat × Nat × Nat) :=
  lanes.findSome? fun (l, a) => match s.place w a width with
    | .error c => some (l, a, c)
    | .ok _ => none

/-- What the lowest failing lane makes of the instruction, if it does not park it. -/
def State.reachStop (s : State) (r : Reach) (flags : Nat) : Option Out :=
  match r.bad with
  | [] => none
  | b :: _ =>
    match b.bar with
    | .device pa => some (.fault (.deviceRegister pa))
    | .trap c info => some (.next (s.trap { code := c, addr := b.addr, info0 := info, lane := b.lane, flags }))
    | .refused => some (.next (s.dropHost.trap { code := cNotMapped, addr := b.addr, lane := b.lane, flags }))
    | .miss =>
      if s.unresolved then some (.next (s.trap { code := cNotMapped, addr := b.addr, lane := b.lane, flags })) else none

/-- The instruction parks with its pending lanes at the lowest failing lane. -/
def State.parkReach (s : State) (r : Reach) (pending : List (Nat × Nat)) (flags : Nat) (slot : Nat := 0) : State :=
  match r.bad with
  | [] => s
  | b :: _ => s.parkMiss pending b.lane b.addr flags slot

/-! ## Requests -/

/-- Scratchpad parts of an access go to the warp's slot and, over the bay network, to its peers (R206). -/
def State.pushSpots (s : State) (kind : SpadKind) (entry : Option Nat) (parts : List PartAt) (value cmp : Nat → Nat) : State :=
  let spad (p : PartAt) (off : Nat) : SpadPart := ⟨p.lane, off, p.width, p.at_, (value p.lane >>> p.at_) % 2 ^ p.width, cmp p.lane⟩
  let own := parts.filterMap fun p => match p.spot with | .own off => some (spad p off) | _ => none
  let s := s.pushSlot s.warp.id.die s.warp.id.core s.mySlot
    { warp := s.warp.id, gang := s.warp.gang, block := s.warp.id.block, kind, seq := s.nextSeq, entry, parts := own }
  (List.range 8).foldl (fun s rank =>
    let ps := parts.filterMap fun p => match p.spot with | .peer r off => if r = rank then some (spad p off) else none | _ => none
    let (num, b) := s.rankBlock rank
    s.pushSlot b.die b.core (peerQueue s.warp.id.core)
      { warp := s.warp.id, gang := s.warp.gang, block := num, kind, seq := s.nextSeq, entry, parts := ps }) s

/-- Some part goes through the warp's own slot, whose queue is full (R209). -/
def State.slotBlocks (s : State) (parts : List PartAt) : Bool :=
  s.slotFull && parts.any fun p => match p.spot with | .own _ => true | _ => false

def Reach.parts (r : Reach) : List PartAt := r.good.flatMap fun x => x.2.2

/-- A load of the lanes that pass: its entry and its requests. -/
def State.startLoad (s : State) (hint : Nat) (r : Reach) (covers : List RegName) (dest : LoadDest) (acq : Option Nat)
    (hit : Option (Nat × Nat × Nat)) : State :=
  let id := s.warp.nextId
  let waits := r.good.map fun (l, a, ps) => (⟨l, a, ps.length, 0⟩ : LaneWait)
  let mem := r.parts.filterMap fun p => match p.spot with
    | .mem fa leaf => some { entry := id, lane := p.lane, pa := fa, width := p.width, at_ := p.at_, mode := leafMode leaf hint, va := p.va, packed := p.packed }
    | _ => none
  ((s.loadEntry .load covers waits mem dest acq hit).pushSpots .load (some id) r.parts (fun _ => 0) fun _ => 0).bumpSeq

/-- The stores of an instruction to one line that are performed together, with how the line's page is held and the lanes
they belong to. -/
structure StoreGroup where
  line   : Nat
  mode   : Mode
  stores : List StorePart
  lanes  : List Nat
  deriving DecidableEq, Repr

/-- The place of the last of some groups of which `q` holds. -/
def lastGroup (gs : List StoreGroup) (q : StoreGroup → Bool) : Option Nat := ((gs.zipIdx.filter fun x => q x.1).getLast?).map (·.2)

/-- One more part: it joins the last group of its line unless a later group holds an earlier part of its lane (R21). So a
later lane's bits stand in the same group as an earlier lane's or in a later one (R11). -/
def addStore (hint : Nat) (value : Nat → Nat) (gs : List StoreGroup) (p : PartAt) : List StoreGroup :=
  match p.spot with
  | .mem fa leaf =>
    let sp : StorePart := ⟨fa, p.width, (value p.lane >>> p.at_) % 2 ^ p.width, p.packed⟩
    let new : List StoreGroup := gs ++ [⟨lineOf fa, leafMode leaf hint, [sp], [p.lane]⟩]
    let own := (lastGroup gs fun g => g.lanes.contains p.lane).getD 0
    match lastGroup gs fun g => g.line == lineOf fa with
    | some i =>
      if own ≤ i then
        gs.mapIdx fun k g => if k = i then { g with stores := g.stores ++ [sp], lanes := g.lanes ++ [p.lane] } else g
      else new
    | none => new
  | _ => gs

/-- The stores of an instruction by line, in the order in which one lane's parts are performed. -/
def storeGroups (hint : Nat) (value : Nat → Nat) (parts : List PartAt) : List StoreGroup := parts.foldl (addStore hint value) []

/-- The groups before the `k`-th that hold earlier parts of its lanes, by their places from `base`. -/
def groupsBefore (base : Nat) (gs : List StoreGroup) (k : Nat) (g : StoreGroup) : List Nat :=
  ((gs.zipIdx.filter fun x => decide (x.2 < k) && x.1.lanes.any g.lanes.contains)).map fun x => base + x.2

/-- The event by which stores of a die to a line reach their L2: GETM for a COH line of another die, else HOME_STORE. -/
def State.storeEvent (s : State) (r : Req) : Instr :=
  if s.isLocal (r.line * 2048) && r.mode.coh && dieOf (r.line * 2048) != r.die then .getm { r with kind := .getM }
  else .homeStore { r with kind := .homeStore }

/-- A store of every lane: its requests are on their way. -/
def State.startStore (s : State) (hint : Nat) (parts : List PartAt) (value : Nat → Nat) (rel : Option Nat) : State :=
  let gs := storeGroups hint value parts
  let base := s.nextSeq
  let pid := s.processOf s.warp
  let t := gs.zipIdx.foldl (fun s (g, k) =>
    s.post (s.storeEvent
      { die := s.warp.id.die, core := s.warp.id.core, kind := .homeStore, line := g.line, seq := base + k, base,
        after := groupsBefore base gs k g, warp := some s.warp.id, gang := s.warp.gang, pid, fillL1 := false, loads := [],
        stores := g.stores, mode := g.mode, rel })) s
  { t.pushSpots .store none parts value fun _ => 0 with nextSeq := base + max 1 gs.length }

/-! ## Room for requests (R234, R404, R406) -/

/-- What makes one request of the coalescer: the sector of a natural-class access, the word of a packed one. -/
def requestKey (pa : Nat) (packed : Bool) : Nat := if packed then 2 * (pa / 64) + 1 else 2 * (pa / 512)

/-- The requests of some accesses. -/
def countRequests (l : List (Nat × Bool)) : Nat := ((l.map fun x => requestKey x.1 x.2).eraseDups).length

/-- The memory accesses of some parts. -/
def memParts (parts : List PartAt) : List (Nat × Bool) :=
  parts.filterMap fun p => match p.spot with | .mem fa _ => some (fa, p.packed) | _ => none

/-- The requests of a scheduler's warps that have not gone past its L1 queue; one that an order holds back waits outside it
(log entry 51). -/
def State.l1Queue (s : State) (die core sched : Nat) : Nat :=
  let mine (id : WarpId) : Bool := id.die == die && id.core == core && id.warp % 4 == sched
  let loads := (s.warps.filter fun w => mine w.id).flatMap fun w => w.score.map fun e =>
    countRequests ((e.parts.filter (s.partReady w.id e)).map fun p => (p.pa, p.packed))
  let stores := ((s.agenda.flatMap reqsIn).filter fun r =>
    (match r.warp with | some id => mine id | none => false) && !r.stores.isEmpty && !s.waitsReq r true && !s.markedStores r).map fun r =>
    countRequests (r.stores.map fun p => (p.pa, p.packed))
  (loads ++ stores).foldl (· + ·) 0

/-- The scheduler's L1 queue of 32 requests has no room for an instruction's (R234). -/
def State.l1Full (s : State) (parts : List PartAt) : Bool :=
  let new := countRequests (memParts parts)
  let out := s.l1Queue s.warp.id.die s.warp.id.core s.mySlot
  new != 0 && (if new ≤ 32 then decide (32 < out + new) else out != 0)

/-- Atomic requests that no home has acknowledged. -/
def atomOf : Instr → Option AtomicReq
  | .handlerRun r | .atomicAcknowledgement r _ => if r.slot < 32 then some r else none
  | _ => none

def State.atomsOut (s : State) : List AtomicReq := s.agenda.filterMap atomOf ++ s.inputs.filterMap atomOf

/-- The warp waits for its atomics to be acknowledged (R277). -/
def State.ackWait (s : State) (id : WarpId) : Bool := s.atomsOut.any fun r => r.warp == id

/-- Where the requests of a core's windows go: those of its atomics, by their first lane, and its messages' (R277, R284). -/
def State.windowOut (s : State) (die core : Nat) : List Nat :=
  (s.atomsOut.filter fun r => r.warp.die == die && r.warp.core == core).map (fun r => (r.lanes.headD ⟨0, 0, 0, 0, 0⟩).addr) ++
  s.ops.filterMap fun (_, o) => match o with
    | some o => (match o.work with | .msg m => if o.warp.die = die ∧ o.warp.core = core then some m.header else none | _ => none)
    | none => none

/-- The stall reason of requests that do not fit the windows of R277: 17 for the atomic window of 256, 18 for the remote window
of 64. -/
def State.windowFull (s : State) (new : List Nat) : Option Nat :=
  let out := s.windowOut s.warp.id.die s.warp.id.core
  let far (l : List Nat) : Nat := (l.filter fun a => deviceOf a != s.device).length
  if 256 < out.length + new.length then some 17
  else if far new ≠ 0 ∧ 64 < far out + far new then some 18
  else none

/-- The accesses that are under way, each with its die. -/
def State.accessesOut (s : State) : List (Nat × Nat) :=
  (s.warps.flatMap fun w => w.score.flatMap fun e => e.parts.map fun p => (w.id.die, p.pa)) ++
  (s.atomsOut.map fun r => (r.srcDie, (r.lanes.headD ⟨0, 0, 0, 0, 0⟩).addr)) ++
  ((s.agenda.flatMap reqsIn ++ s.inputs.flatMap reqsIn).flatMap fun r =>
    (r.loads.map fun p => (r.die, p.pa)) ++ (r.stores.head?.toList.map fun p => (r.die, p.pa)))

/-- The host whose links an access to host-attached memory takes (R406). -/
def State.hostOf (s : State) (fa : Nat) : Option Nat := if s.isHost fa then (s.hostRange fa 1 fun _ => true).map (·.hostId) else none

/-- The die's 4,096 requests to other devices (R404), or the four windows of 1,024 tags to a host (R406), have no room for
some accesses. -/
def State.farFull (s : State) (die : Nat) (new : List Nat) : Bool :=
  let far := (new.filter fun a => deviceOf a != s.device).length
  let out := s.accessesOut
  (far != 0 && decide (4096 < far + (out.filter fun x => x.1 == die && deviceOf x.2 != s.device).length)) ||
  ((new.filterMap s.hostOf).any fun h =>
    decide (4096 < (new.filter fun a => s.hostOf a == some h).length + (out.filter fun x => s.hostOf x.2 == some h).length))

/-- The stall reason of an access that has no room: 12 in its slot's queue, 13 in the L1 queue, 18 towards another device or a
host. -/
def State.noRoom (s : State) (parts : List PartAt) : Option Nat :=
  if s.slotBlocks parts then some 12
  else if s.l1Full parts then some 13
  else if s.farFull s.warp.id.die ((memParts parts).map (·.1)) then some 18
  else none

/-- What an access shows to the watchpoints. -/
def seenOf (width : Nat) (lanes : List (Nat × Nat)) : List Seen := lanes.map fun (l, a) => (l, a, width)

/-- A load instruction (R243 to R245). -/
def State.runLoad (s : State) (i : Instr) (f : Fields) (whole : Option Nat) (width : Nat) (covers : List RegName)
    (dest : LoadDest) (acq : Option Nat) : Out :=
  let lanes := s.memLanes f (s.memAddr f)
  if lanes.isEmpty then .next (s.advance f)
  else match s.indirectBreach i f, s.windowBreach s.warp width lanes with
    | some r, _ => .next (s.indirectTrap f r)
    | none, some (l, a, c) => .next (s.trap { code := c, addr := a, lane := l, flags := 1 })
    | none, none =>
      let (s, r) := s.reachAll s.warp ⟨.load, needR, width, whole⟩ lanes
      match s.reachStop r 1 with
      | some o => o
      | none =>
        match s.noRoom r.parts with
        | some n => .next (s.stallAt n)
        | none =>
        if r.bad.isEmpty then
          .next ((s.startLoad f.hint.toNat r covers dest acq (s.watchOf true false (seenOf width lanes))).advance f)
        else
          let s := if r.good.isEmpty then s else s.startLoad f.hint.toNat r covers dest none none
          .next (s.parkReach r (r.bad.map fun b => (b.lane, b.addr)) 1 f.slot)

/-- A store instruction: every lane is translated before any is written. -/
def State.runStore (s : State) (i : Instr) (f : Fields) (whole : Option Nat) (width : Nat) (value : Nat → Nat)
    (rel : Option Nat) : Out :=
  let lanes := s.memLanes f (s.memAddr f)
  if lanes.isEmpty then .next (s.advance f)
  else match s.indirectBreach i f, s.windowBreach s.warp width lanes with
    | some r, _ => .next (s.indirectTrap f r)
    | none, some (l, a, c) => .next (s.trap { code := c, addr := a, lane := l, flags := 2 })
    | none, none =>
      let (s, r) := s.reachAll s.warp ⟨.store, needW, width, whole⟩ lanes
      match s.reachStop r 2 with
      | some o => o
      | none =>
        if !r.bad.isEmpty then .next (s.parkReach r lanes 2)
        else match s.noRoom r.parts with
        | some n => .next (s.stallAt n)
        | none =>
          let inSpad := r.parts.any fun p => match p.spot with | .mem _ _ => false | _ => true
          match (if inSpad then rel else none) with
          | some sc =>
            match s.release sc with
            | (s, false) => .next (s.stallAt 28)
            | (s, true) =>
              .next ((s.startStore f.hint.toNat r.parts value rel).advanceWatch f (s.watchOf false true (seenOf width lanes)) 2)
          | none =>
            .next ((s.startStore f.hint.toNat r.parts value rel).advanceWatch f (s.watchOf false true (seenOf width lanes)) 2)

end Sys2Proof.Machine
end

