-- ==== Sys2Proof/Machine/Lsu.lean ====
section
/-! DEFINITION. Group 0x7: loads and stores (R241 to R247), fences (R263 to R265) and MIGR (R371). -/

namespace Sys2Proof.Machine

/-! ## LD, ST, LDK, STK, LDX, STX -/

/-- The codes that sign-extend (R213, R242). -/
def loadSigned (f : Fields) : Bool := if f.mod = 15 then f.xb 11 else 10 ≤ f.mod.toNat

def loadDest (f : Fields) : LoadDest :=
  { uniform := f.k, reg := f.d.toNat, elems := 1, width := memWidth f, signed := loadSigned f }

/-- The scope of `.acq` or `.rel`; every form but the 128-bit one is relaxed (R242). -/
def memScope (f : Fields) : Option Nat := if f.xn 4 3 = 0 then none else some (f.xn 2 0)

def execLd (f : Fields) (s : State) : Out :=
  s.runLoad (.ld f) f (some (memWidth f)) (memWidth f) (coversD f (regsFor (memWidth f))) (loadDest f) (memScope f)

def execLdk (f : Fields) (s : State) : Out :=
  s.runLoad (.ldk f) f (some (memWidth f)) (memWidth f) (coversD f (regsFor (memWidth f))) (loadDest f) none

def execSt (f : Fields) (s : State) : Out :=
  s.runStore (.st f) f (some (memWidth f)) (memWidth f) (s.storeData f (memWidth f)) (memScope f)

def execStk (f : Fields) (s : State) : Out :=
  s.runStore (.stk f) f (some (memWidth f)) (memWidth f) (s.storeData f (memWidth f)) none

/-- The elements of LDX and STX (R245). -/
def elemCount (f : Fields) : Nat := f.xn 3 0 + 1

def execLdx (f : Fields) (s : State) : Out :=
  let t := f.mod.toNat
  let n := elemCount f
  s.runLoad (.ldx f) f none (n * typeWidth t) (coversD f n)
    { uniform := false, reg := f.d.toNat, elems := n, width := typeWidth t, signed := typeSigned t } none

/-- The run of bits that a lane of STX stores. -/
def State.stxData (s : State) (f : Fields) (lane : Nat) : Nat :=
  let t := f.mod.toNat
  (List.range (elemCount f)).foldr (fun i acc =>
    let x := s.reg (.v (f.d.toNat + i)) lane
    let y : Int := if typeSigned t then sintOf 32 x else (x : Nat)
    narrow t (f.xb 4) y + acc <<< typeWidth t) 0

def execStx (f : Fields) (s : State) : Out :=
  s.runStore (.stx f) f none (elemCount f * typeWidth f.mod.toNat) (s.stxData f) none

/-! ## PREF (R246) -/

/-- The sectors of a home line that can be read now, into the L1. -/
def State.prefetchL1 (s : State) (die core fa : Nat) : State :=
  (List.range 4).foldl (fun s i =>
    let x := lineOf fa * 4 + i
    if (s.poisonOf (x * 512) 512).isSome then s else s.fillL1 die core x (s.cohRead (x * 512) 512)) s

/-- A prefetch of the line at which an address is served: filled as far as the level asks and the line and the hint allow. -/
def State.prefetchAt (s : State) (level fa : Nat) (mode : Mode) : State :=
  let id := s.warp.id
  let line := lineOf fa
  let pid := s.processOf s.warp
  let toL1 : Bool := level == 1 && (mode.hint == 0 || mode.hint == 2)
  let req (k : ReqKind) : Req :=
    { die := id.die, core := id.core, kind := k, line, seq := s.nextSeq, base := s.nextSeq, after := [], warp := none, gang := [], pid,
      fillL1 := toL1, loads := [], stores := [], mode, rel := none }
  let l1 (s : State) : State := if toL1 then s.prefetchL2 id.die id.core line else s
  if s.isHomeOf id.die line then
    let free := (s.dirAt line).busy.isNone && (match (s.dirAt line).st with | .o _ => false | _ => true)
    if free then
      let s := s.readHome line pid mode
      if toL1 then s.prefetchL1 id.die id.core fa else s
    else s
  else if s.isLocal fa && mode.coh then
    let kind := (s.l2At id.die line).map L2Line.kind
    if kind = some .modified ∨ (level ≠ 2 ∧ kind = some .shared) then l1 (s.markLine id.die line mode.hint)
    else (s.post (if level = 2 then .getm (req .getM) else .gets (req .getS))).bumpSeq
  else if (s.isHost fa && (s.hostRange (line * 2048) 2048 (·.r)).isNone) || (mode.hint == 3 && (s.l2At id.die line).isNone) then s
  else
    let l := (List.range 4).foldl (fun l i => s.fillSector l (line * 256 + 64 * i)) ((s.l2At id.die line).getD (L2Line.empty .nc mode))
    l1 ((s.countFill line id.die pid mode).putL2 id.die line mode.hint l)

/-- PREF of one lane's address; one that no die serves is dropped. -/
def State.prefetch (s : State) (level hint fa leaf : Nat) : State :=
  let mode := leafMode leaf hint
  match if regionOf fa = 2 then none else s.served fa mode with
  | none => s
  | some x => s.prefetchAt level x mode

/-- A lane's address as PREF and CCTL take it: where it is mapped, if it is. -/
def State.softReach (s : State) (a : Nat) (n : Need) : State × Option (Nat × Nat) :=
  match s.place s.warp a 1 with
  | .ok .mem =>
    match s.translate s.warp.id.die s.warp.id.core (s.processOf s.warp) s.warp.user a n with
    | (s, .ok fa leaf) => (s, some (fa, leaf))
    | (s, _) => (s, none)
  | _ => (s, none)

def execPref (f : Fields) (s : State) : Out :=
  match s.indirectBreach (.pref f) f with
  | some _ => .next (s.advance f)
  | none =>
    let t := (s.actLanes f).foldl (fun t l =>
      match t.softReach (s.memAddr f l) needR with
      | (t, some (fa, leaf)) => t.prefetch (f.mn 1 0) f.hint.toNat fa leaf
      | (t, none) => t) s
    .next (t.advance f)

/-! ## CCTL (R247) -/

/-- The line's dirty bytes go to the home, or to HBM for a home line. -/
def State.cleanLine (s : State) (die line : Nat) : State :=
  if s.isHomeOf die line then s.flushHomeLine line else s.writeBack die line

def State.unkeepLine (s : State) (die line : Nat) : State :=
  if s.isHomeOf die line then
    { s with homeLines := tmod HomeLine.clean s.homeLines line fun h => { h with keep := false } }
  else match s.l2At die line with
    | some l => s.setL2 die line (some { l with keep := false })
    | none => s

/-- An operation of CCTL on a line. -/
def State.cctlLine (s : State) (op line : Nat) : State :=
  let id := s.warp.id
  match op with
  | 0 => s.dropL1Line id.die id.core line
  | 2 => s.cleanLine id.die line
  | 3 => s.evictLine id.die line
  | _ => s.unkeepLine id.die line

/-- The mapped lines of some lanes. -/
def State.cctlLines (s : State) (f : Fields) : List Nat → State × List Nat
  | [] => (s, [])
  | l :: ls =>
    let (t, r) := s.softReach (s.memAddr f l) ⟨false, false, false⟩
    let (t, rest) := t.cctlLines f ls
    (t, match r with | some (fa, _) => if regionOf fa = 2 then rest else lineOf fa :: rest | none => rest)

/-- CCTL counts as a store to each line: it waits for the warp's earlier accesses to it. -/
def execCctl (f : Fields) (s : State) : Out :=
  if f.mod = 1 then .next ((if s.acts f then s.clearL1 s.warp.id.die s.warp.id.core else s).advance f)
  else match s.indirectBreach (.cctl f) f with
    | some r => .next (s.indirectTrap f r)
    | none =>
      let (s, lines) := s.cctlLines f (s.actLanes f)
      if lines.any fun line => s.blocked (s.pendHere line) true then
        .next (s.stallAt 13)
      else .next ((lines.foldl (fun s line => s.cctlLine f.mod.toNat line) s).advance f)

/-! ## FENCE and FENCE.ENG (R263 to R265) -/

/-- A read of the warp that has not been performed: of a load or an atomic, or of an update of a sync word (R250). -/
def State.readsPending (s : State) : Bool :=
  (s.warp.score.any fun e => !e.parts.isEmpty || e.acquire.isSome || e.lanes.any fun l => l.left ≠ 0) ||
  (s.agenda.any fun e => match e with | .handlerRun r | .atomicAcknowledgement r _ => r.warp == s.warp.id | _ => false) ||
  ((s.spadOut s.warp.id).any fun r => match r.kind with | .sync _ => true | _ => false)

/-- The release of a FENCE on its way: the warp's later writes wait behind it. -/
def State.postRelease (s : State) (scope : Nat) : State :=
  (s.post (.homeStore
    { die := s.warp.id.die, core := s.warp.id.core, kind := .homeStore, line := noLine, seq := s.nextSeq, base := s.nextSeq,
      after := [], warp := some s.warp.id, gang := s.warp.gang, pid := s.processOf s.warp, fillL1 := false, loads := [], stores := [], mode := ⟨false, false, none, 0⟩, rel := some scope })).bumpSeq

def execFence (f : Fields) (s : State) : Out :=
  if !s.acts f then .next (s.advance f)
  else
    let scope := f.mn 2 0
    match f.cn 1 0 with
    | 0 => if s.readsPending then .next (s.stallAt 28) else .next (((s.acquire (some scope)).postRelease scope).advance f)
    | 1 => if s.readsPending then .next (s.stallAt 28) else .next ((s.acquire (some scope)).advance f)
    | 2 => .next ((s.postRelease scope).advance f)
    | _ =>
      match s.release scope with
      | (s, false) => .next (s.stallAt 28)
      | (s, true) => .next ((s.acquire (some scope)).advance f)

def execFenceEng (f : Fields) (s : State) : Out :=
  if !s.acts f then .next (s.advance f)
  else if s.opsBefore (s.releasePoint false) s.warp.id then .next (s.stallAt 28)
  else .next (s.advance f)

/-! ## MIGR (R371) -/

/-- A hint about a page is outstanding until FQHEAD has passed its record. -/
def Die.hintOut (d : Die) (page : Nat) : Bool :=
  d.hints.any fun (p, n) => p == page && decide (2 ^ 31 ≤ (d.regs.fqhead.toNat + 2 ^ 33 - 1 - n) % 2 ^ 32)

/-- The cached leaf of an address, without a walk. -/
def State.cachedLeaf (s : State) (va : Nat) : Option TlbEntry :=
  let w := s.warp
  (s.myCore.tlb.find? fun t =>
    t.process == s.processOf w && t.space == spaceOf va && t.va == va / 2 ^ t.size * 2 ^ t.size).filter fun t =>
      !w.user || bitOf t.leaf.toNat 5

/-- A migration record for the page goes to its home. -/
def State.migrate (s : State) (t : TlbEntry) (target : Nat) : State :=
  let page := bits t.leaf.toNat 54 19 <<< 19
  let home := dieOf page
  if (s.dieAt home).hintOut page then s
  else
    let counts := match (s.dieAt home).counters.find? fun c => c.region == (page + s.device * 2 ^ 55) >>> 24 with
      | some c => c.counts.foldr (fun n a => n + a <<< 16) 0
      | none => 0
    let r : FaultRecord :=
      { s.recordFor s.warp 3 s.warp.pc { code := 0, addr := page, info0 := target, info1 := counts } with flags := 0 }
    let place := ((s.dieAt home).regs.fqtail.toNat + (s.dieAt home).waiting.length) % 2 ^ 32
    (s.modDie home fun d => { d with hints := (page, place) :: (d.hints.filter fun h => d.hintOut h.1) }).enqueueRecord home ⟨r, none, none, false⟩

/-- MIGR never faults, parks or waits: a request that meets no condition is dropped. -/
def execMigr (f : Fields) (s : State) : Out :=
  match s.indirectBreach (.migr f) f, s.actLanes f with
  | some _, _ | none, [] => .next (s.advance f)
  | none, l :: _ =>
    let va := s.srcA f 2 l
    let t := s.srcB f false 32 1 l
    let target := if t = 4 then s.warp.id.die else t
    let go := match windowOf (va >>> 56) with | some 0 | some 3 => true | _ => false
    match s.cachedLeaf va with
    | some e =>
      let leaf := e.leaf.toNat
      let pa := bits leaf 54 19 <<< 19
      if go && bitOf leaf 13 && !bitOf leaf 10 && regionOf pa == 0 && decide (t ≤ 4) && target != dieOf pa then
        .next ((s.migrate e target).advance f)
      else .next (s.advance f)
    | none => .next (s.advance f)

end Sys2Proof.Machine
end

