-- ==== Sys2Proof/Machine/Fetch.lean ====
section
/-! DEFINITION. Fetching and decoding an instruction, and the checks before its meaning (R19, R35 to R37, R47, R55, R59,
R60). -/

namespace Sys2Proof.Machine

/-! ## Fetch (R19, R37) -/

/-- What a fetch gives: bits, a trap, a page miss, or a fill of the instruction cache that is under way. -/
inductive Fetched where
  | bits (w : Nat)
  | trap (code : Nat)
  | miss
  | fill
  deriving DecidableEq, Repr

/-- The window checks of R19. -/
def fetchWindow (user : Bool) (pc : Nat) : Option Nat :=
  if pc % 64 ≠ 0 then some cIllegalFetch
  else match windowOf (pc >>> 56) with
    | some 0 => none
    | some 4 => if user then some cPerm else none
    | _ => some cIllegalFetch

/-- What the instruction cache of a core holds of a 64-byte sector. -/
def Core.code (c : Core) (sector : Nat) : Option Nat := c.icache.lookup sector

/-- Sectors of the 64 KiB instruction cache (R1). -/
def codeSectors : Nat := 1024

/-- A sector of code comes into a core's instruction cache through its die's L2. -/
def State.fillCode (s : State) (die core sector pid : Nat) (mode : Mode) : State :=
  let s := s.fillRead die (sector * 512) 512 pid mode
  s.modCore die core fun c => { c with icache := ((sector, s.dieRead die (sector * 512) 512) :: c.icache).take codeSectors }

/-- `n` bits of code at a fabric address, whose home serves it: poisoned code traps (R387). Where the cache's copy and memory
differ, which of them a fetch gives is free: no rule keeps the cache coherent (log entry 58). -/
def State.codeBits (s : State) (die core fa n : Nat) : Fetched :=
  match s.poisonOf fa n with
  | some k => .trap (if k = 1 then cPoison else cDataLost)
  | none =>
    let now := s.dieRead die fa n
    match (s.coreAt die core).code (sectorOf fa) with
    | some d =>
      let kept := (d >>> (fa % 512)) % 2 ^ n
      .bits (if kept = now ∨ Config.choice s.free then now else kept)
    | none => if (s.poisonOf (sectorOf fa * 512) 512).isSome then .bits now else .fill

/-- The slot at a fabric address: its first 64 bits give its length, and it lies within its 32 bytes. -/
def State.codeSlot (s : State) (die core pc fa : Nat) : Fetched :=
  match s.codeBits die core fa 64 with
  | .bits lo =>
    let n := 8 * slotBytes (BitVec.ofNat 2 lo)
    if 256 < pc % 256 + n then .trap cIllegalFetch else s.codeBits die core fa n
  | x => x

/-- Fetch at a counter: window checks, translation, the checks of R409 and R451, and the core's instruction cache. -/
def State.fetch (s : State) (w : Warp) (pc : Nat) : State × Fetched :=
  match fetchWindow w.user pc with
  | some c => (s, .trap c)
  | none =>
    let pid := s.processOf w
    match s.translate w.id.die w.id.core pid w.user pc needX with
    | (s, .miss) => (s, .miss)
    | (s, .perm) => (s, .trap cPerm)
    | (s, .bad) => (s, .trap cNotMapped)
    | (s, .ok fa leaf) =>
      match s.barred pid w.user .load fa leaf 64 none, s.served fa (leafMode leaf 0) with
      | some (.trap c _), _ => (s, .trap c)
      | some .refused, _ => (s.dropHost, .trap cNotMapped)
      | some _, _ => (s, .trap cNotMapped)
      | none, none => (s, .trap cPoison)
      | none, some fa =>
        match s.codeSlot w.id.die w.id.core pc fa with
        | .fill => (s.fillCode w.id.die w.id.core (sectorOf fa) pid (leafMode leaf 0), .fill)
        | x => (s, x)

/-! ## Checks before the meaning (R59, R60) -/

/-- The privileged opcodes (R367, R391, R431). -/
def Instr.privileged : Instr → Bool
  | .rte _ | .sysrd _ | .syswr _ | .halt _ | .tlbinvInv _ | .tlbinvCommit _ | .amsg _ | .arecv _ => true
  | _ => false

/-- The opcodes that a Vesper core lacks (R60). -/
def Instr.noVesper : Instr → Bool
  | .mma _ | .mmaSm _ | .accld _ | .accst _ | .accz _ | .accside _ | .quant _ | .deq _ | .cpyMm _ => true
  | _ => false

/-- The first register beyond the allotment (R47, R70). DESIGN CHOICE (log entry 52): of several it is the first in the order d,
a, b, c, e. -/
def Warp.boundBreach (w : Warp) (i : Instr) : Option Nat :=
  (i.refs.find? fun r => if r.uniform then w.info.kregs ≤ r.number else w.info.vregs ≤ r.number).map (·.number)

/-- The decode trap of an instruction (R59, items 2 to 4), if any. -/
def Warp.decodeTrap (w : Warp) (i : Instr) : Option Trap :=
  if w.isVesper && Instr.noVesper i then some { code := cIllegalOp, info0 := wordInfo i }
  else if Instr.privileged i && w.user then some { code := cPriv }
  else (w.boundBreach i).map fun n => { code := cRegBound, info0 := n }

/-! ## The scoreboard at issue (R55) -/

def kindNames (k : Bool) : FieldKind → BitVec 8 → List RegName
  | .reg cls n _, x => (List.range n).map fun j => regName (FieldKind.isUniform k cls) (x.toNat + j)
  | .pred, x => [predName k x.toNat]
  | .idx, x => [.x x.toNat]
  | .hnd, x => [.h x.toNat]
  | _, _ => []

def State.sourceNames (s : State) (k : Bool) (sel x : BitVec 8) (n : Nat) : List RegName :=
  if sel == 3 then .x (x.toNat / 64) :: (List.range n).map fun j => .v (s.indirect x + j)
  else (List.range n).map fun j => regName (k || sel == 1) (x.toNat + j)

def State.srcNames (s : State) (k : Bool) (sel : BitVec 2) (x : BitVec 8) : SrcKind → List RegName
  | .zero => []
  | .fld fk => kindNames k fk x
  | .src n _ _ | .vecOrInd n _ | .uniOnly n _ => s.sourceNames k (sel.setWidth 8) x n

/-- Registers that an instruction picks by value: MOVX's source, and the predicates of P2V and V2P. -/
def State.pickedNames (s : State) : Instr → List RegName
  | .movx f => (s.actLanes f).flatMap fun l =>
      (List.range (if f.mb 0 then 2 else 1)).map fun j => regName f.k (f.a.toNat + s.srcBReg f 1 l + j)
  | .p2v f | .v2p f => (List.range 7).map (predName f.k)
  | _ => []

/-- Every register that an instruction reads or writes. -/
def State.touched (s : State) (i : Instr) : List RegName :=
  match i.fields?, i.spec? with
  | some f, some o =>
    let sh := o.shape
    [predName f.k f.guard.ga.toNat, predName f.k f.guard.gb.toNat] ++ kindNames f.k sh.d f.d ++
    s.srcNames f.k f.asel f.a sh.a ++ (if f.isImm then [] else s.srcNames f.k f.bsel f.b sh.b) ++
    (if f.isImm16 then [] else kindNames f.k sh.c f.c) ++ kindNames f.k sh.e f.e ++ kindNames f.k sh.f f.fh ++
    s.pickedNames i
  | _, _ => i.refs.map fun r => regName r.uniform r.number

/-- An entry covers a register of the instruction. -/
def State.scoreWait (s : State) (i : Instr) : Bool :=
  let t := s.touched i
  s.warp.score.any fun e => e.covers.any t.contains

end Sys2Proof.Machine
end

