-- ==== Sys2Proof/Machine/Futures.lean ====
section
/-! DEFINITION. Future handles and the handle table (R285 to R290), what every engine operation shares, and FWAIT, FTEST,
FCANCEL and FMOV (R300 to R303). -/

namespace Sys2Proof.Machine

/-! ## The handle table (R285 to R288) -/

/-- The status codes of R289. -/
def stOk : Nat := 0x0000
def stNotMapped : Nat := 0x0001
def stPerm : Nat := 0x0002
def stSpadBound : Nat := 0x0003
def stMisalign : Nat := 0x0004
def stPoison : Nat := 0x0005
def stDataLost : Nat := 0x0006
def stDieLost : Nat := 0x0007
def stEngineError : Nat := 0x0008
def stMailboxFull : Nat := 0x0010
def stDeadContext : Nat := 0x0011
def stBadMailbox : Nat := 0x0012

/-- The status that stands for a trap code (R289). -/
def statusOf (code : Nat) : Nat :=
  if code = cNotMapped then stNotMapped else if code = cPerm then stPerm else if code = cSpadBound then stSpadBound
  else if code = cMisalign then stMisalign else if code = cDataLost then stDataLost else stPoison

def Block.handle (b : Block) (i : Nat) : HandleEntry := tget HandleEntry.reset b.handles i

def Block.modHandle (b : Block) (i : Nat) (g : HandleEntry → HandleEntry) : Block :=
  { b with handles := tmod HandleEntry.reset b.handles i g }

/-- The FREE entry with the lowest index (R287). -/
def Block.freeHandle (b : Block) : Option Nat := (List.range 64).find? fun i => (b.handle i).state == .free

def nextHandleSeq (x : BitVec 10) : BitVec 10 := if x = 1023 then 1 else x + 1

/-- A handle value: sequence and index. -/
def handleValue (i : Nat) (seq : BitVec 10) : Nat := seq.toNat * 64 + i

def HandleState.final : HandleState → Bool
  | .doneOk | .doneErr | .cancelled => true
  | _ => false

/-- The entry that a handle value names in a block, if the value is valid (R288). -/
def Block.handleOf (b : Block) (h : Nat) : Option HandleEntry :=
  let e := b.handle (h % 64)
  if h / 64 % 1024 ≠ 0 ∧ e.state ≠ .free ∧ e.seq.toNat = h / 64 % 1024 then some e else .none

/-! ## Operations -/

def State.opAt (s : State) (n : Nat) : Option EngineOp := tget none s.ops n

def State.setOp (s : State) (n : Nat) (o : Option EngineOp) : State := { s with ops := tput none s.ops n o }

def State.modOp (s : State) (n : Nat) (g : EngineOp → EngineOp) : State :=
  { s with ops := tmod none s.ops n (Option.map g) }

/-- The issuing warp's operation with an entry of the handle table, which it makes PENDING; H[f] gets the handle as a
long-latency result. -/
def State.startOp (s : State) (hreg engine hint idx : Nat) (work : Work) : State :=
  let id := s.warp.id
  let seq := nextHandleSeq (s.myBlock.handle idx).seq
  let o : EngineOp :=
    { warp := id, gang := s.warp.gang, process := s.processOf s.warp, user := s.warp.user, handle := some idx, hseq := seq.toNat, seq := s.nextSeq,
      engine, hint, started := false, cancel := false, suspended := false, unresolved := false, work }
  let n := s.nextOp
  let s := s.setOp n (some o)
  let s := s.modBlock id.block fun b => b.modHandle idx fun e => { e with state := .pending, seq, status := 0, op := some n }
  ({ s with nextOp := n + 1 }.bumpSeq).later [.h hreg] [⟨.h hreg, 0, handleValue idx seq⟩] 0

/-- The accesses that its warp issued before an operation have been performed: its fork edge (R257). -/
def State.opReady (s : State) (o : EngineOp) : Bool :=
  !(s.pendings.any fun p => p.warp == some o.warp && decide (p.seq < o.seq)) &&
  !s.spadBefore (Pend.plain o.warp.die noLine o.seq o.warp o.gang) o.warp

/-- The bits of a handle entry in a save area (R426). -/
def HandleEntry.word (e : HandleEntry) : Nat :=
  let st := match e.state with | .free => 0 | .pending => 1 | .doneOk => 2 | .doneErr => 3 | .cancelled => 4
  e.status.toNat + e.seq.toNat * 2 ^ 16 + st * 2 ^ 26 + (match e.op with | some n => n % 2 ^ 35 * 2 ^ 29 | none => 0)

/-- The saved table of a block that has left its core gets the entry too (R290). -/
def State.writeSavedHandle (s : State) (block idx : Nat) : State :=
  let b := s.blockAt block
  match b.area with
  | some a => if b.place = .saved then s.deviceWrite (s.device * 2 ^ 55 + a + 8 * (1024 + 8 * idx)) 64 (b.handle idx).word else s
  | none => s

/-- A place of an engine has become free: the next command may start (R291, R304). -/
def State.kick (s : State) (o : EngineOp) : State :=
  let waiting := !(tget [] (s.coreAt o.warp.die o.warp.core).queues o.engine).isEmpty
  if !waiting then s
  else if o.engine ≤ 1 then s.post (.copyCommandStart o.warp.die o.warp.core o.engine)
  else if o.engine ≤ 3 then s.post (.matrixCommandStart o.warp.die o.warp.core o.engine)
  else s

/-- Quads that wait for an entry to become final issue again (R301). -/
def State.wakeHandle (s : State) (block h : Nat) : State :=
  s.modWarps (fun w => w.id.block == block) fun w =>
    { w with quads := w.quads.map fun q =>
        if (q.wait == .fwait || q.wait == .pendingHandle) && q.operand == h then { q with wait := .none, operand := 0 } else q }

/-- An operation leaves the queues of its core. -/
def State.unqueue (s : State) (o : EngineOp) (n : Nat) : State :=
  s.modCore o.warp.die o.warp.core fun c => { c with queues := c.queues.map fun (k, q) => (k, q.filter (· != n)) }

/-- The matrix engines are free once their block is (R305). -/
def State.freeMatrix (s : State) (die core num : Nat) : State :=
  s.modCore die core fun c => if c.matrix = some num then { c with matrix := none } else c

/-- Matrix commands of a block have not ended. -/
def State.matrixBusy (s : State) (num : Nat) : Bool :=
  s.ops.any fun (_, o) => match o with
    | some o => o.warp.block == num && (o.engine == 2 || o.engine == 3 || (match o.work with | .copy c => c.mm.isSome | _ => false))
    | none => false

/-- A block that is gone gives the matrix engines up once its commands have ended. -/
def State.passMatrix (s : State) (die core num : Nat) : State :=
  if (s.blockAt num).place = .retired ∧ !s.matrixBusy num then s.freeMatrix die core num else s

/-- An operation ends: its entry becomes final (R286). -/
def State.finishOp (s : State) (n : Nat) (st : HandleState) (status : Nat) : State :=
  match s.opAt n with
  | none => s
  | some o =>
    let s := (((s.setOp n none).unqueue o n).kick o).passMatrix o.warp.die o.warp.core o.warp.block
    match o.handle with
    | none => s
    | some i =>
      let e := (s.blockAt o.warp.block).handle i
      if e.seq.toNat = o.hseq ∧ e.state = .pending then
        ((s.modBlock o.warp.block fun b => b.modHandle i fun e => { e with state := st, status := BitVec.ofNat 16 status, op := none }).writeSavedHandle
          o.warp.block i).wakeHandle o.warp.block (handleValue i e.seq)
      else s

def State.opOk (s : State) (n : Nat) : State := s.finishOp n .doneOk 0
def State.opErr (s : State) (n status : Nat) : State := s.finishOp n .doneErr status

/-- A translation miss suspends the operation, and its record goes out (R292, R312, R363). -/
def State.suspendOp (s : State) (n : Nat) (o : EngineOp) (va flags : Nat) : State :=
  let w := (s.warpAt? o.warp).getD { Warp.idle with id := o.warp, user := o.user }
  let r : FaultRecord := s.recordFor { w with info := { w.info with process := o.process } } 2 0 { code := 0, addr := va, flags }
  (s.modOp n fun o => { o with suspended := true }).enqueueRecord o.warp.die ⟨r, none, none, false⟩

/-- An operation's warp as the window checks see it: its block and its mode. -/
def EngineOp.asWarp (o : EngineOp) : Warp := { Warp.idle with id := o.warp, user := o.user }

/-- Why an engine's access cannot be made: a miss, a line or sector that it has to wait for, or a status that ends the
operation. -/
inductive EngineBar where
  | miss (va : Nat)
  | held
  | status (n : Nat)
  deriving DecidableEq, Repr

/-- One access of an engine within one aligned 64-bit word or sector: window checks, translation with the operation's rights,
the checks of R17 and R409, and room for a request (R404, R406). -/
def State.engineReach (s : State) (o : EngineOp) (k : AccessKind) (n : Need) (va width : Nat) : State × Except EngineBar Spot :=
  match s.place o.asWarp va width with
  | .error c => (s, .error (.status (statusOf c)))
  | .ok (.spad off) => (s, .ok (.own off))
  | .ok (.peer rank off) =>
    match s.peerBlock (s.blockAt o.warp.block) rank with
    | some (_, b) => if b.place = .saved then (s, .error .held) else (s, .ok (.peer rank off))
    | none => (s, .ok (.peer rank off))
  | .ok .mem =>
    match s.translate o.warp.die o.warp.core o.process o.user va n with
    | (s, .miss) => if o.unresolved then (s, .error (.status stNotMapped)) else (s, .error (.miss va))
    | (s, .perm) => (s, .error (.status stPerm))
    | (s, .bad) => (s, .error (.status stNotMapped))
    | (s, .ok fa leaf) =>
      match s.barred o.process o.user k fa leaf width none with
      | some (.trap c _) => (s, .error (.status (statusOf c)))
      | some .refused => (s.dropHost, .error (.status stNotMapped))
      | some _ => (s, .error (.status stNotMapped))
      | none =>
        if s.isHost fa && k != .load && (s.hostRange fa width (·.w)).isNone then (s.dropHost, .error (.status stNotMapped))
        else if s.farFull o.warp.die [fa] then (s, .error .held)
        else (s, .ok (.mem fa leaf))

/-- The block whose scratchpad a spot lies in, and the offset. -/
def State.spotSpad (s : State) (o : EngineOp) : Spot → Option (Nat × Nat)
  | .own off => some (o.warp.block, off)
  | .peer rank off => some (((s.peerBlock (s.blockAt o.warp.block) rank).getD (o.warp.block, Block.none)).1, off)
  | .mem _ _ => none

/-- The poison that a read of a spot meets, as a status; a home that is lost reads as poison, or for an operation's request that
was on its way ends with `lost` (R387). -/
def State.spotStatus (s : State) (sp : Spot) (width : Nat) (lost : Nat := stPoison) : Option Nat :=
  match sp with
  | .mem fa leaf =>
    match s.served fa (leafMode leaf 0) with
    | none => some lost
    | some x => (s.poisonOf x width).map fun k => if k = 1 then stPoison else stDataLost
  | _ => none

/-- An engine's read goes through its die's L2, which takes the line as a load's would (R292). -/
def State.engineFill (s : State) (o : EngineOp) (sp : Spot) (width : Nat) : State :=
  match sp with
  | .mem fa leaf =>
    match s.served fa (leafMode leaf o.hint) with
    | some x => s.fillRead o.warp.die x width o.process (leafMode leaf o.hint)
    | none => s
  | _ => s

/-- An engine reads a spot: the bank, or its die's L2 and the home behind it (R292). -/
def State.engineRead (s : State) (o : EngineOp) (sp : Spot) (width : Nat) : Nat :=
  match s.spotSpad o sp, sp with
  | some (b, off), _ => (s.blockAt b).spadRead off width
  | none, .mem fa leaf => match s.served fa (leafMode leaf 0) with | some x => s.dieRead o.warp.die x width | none => 0
  | none, _ => 0

/-- An engine's store of some bits at a fabric address. -/
def EngineOp.storeReq (o : EngineOp) (seq fa w v : Nat) (mode : Mode) : Req :=
  { die := o.warp.die, core := o.warp.core, kind := .homeStore, line := lineOf fa, seq, base := seq, after := [], warp := none, gang := [],
    pid := o.process, fillL1 := false, loads := [], stores := [⟨fa, w, v, false⟩], mode, rel := none }

/-- An engine writes a spot at its point of coherence (R293); the issuing core's L1 gives up the sector. A write whose home
is lost is discarded (R387). -/
def State.engineWrite (s : State) (o : EngineOp) (sp : Spot) (width v : Nat) : State :=
  match s.spotSpad o sp, sp with
  | some (b, off), _ => s.modBlock b fun x => x.spadWrite off width v
  | none, .mem fa leaf =>
    let m := leafMode leaf o.hint
    let s := s.dropL1 o.warp.die o.warp.core (sectorOf fa)
    match s.served fa m with
    | none => s
    | some x =>
      let r := o.storeReq s.nextSeq x width v m
      if s.isLocal x && (m.coh || dieOf x == o.warp.die) then s.fillWrite r else s.storeOut r
  | none, _ => s

/-- An access to the spot has to wait: a conversion or the fabric holds it (R339, R403). -/
def State.spotHeld (s : State) (sp : Spot) (width : Nat) (write : Bool) : Bool :=
  match sp with
  | .mem fa _ => s.marked fa width write
  | _ => false

/-- The parts of a run of bits, each within one aligned 64-bit word, are reached. -/
def State.spanReach (s : State) (o : EngineOp) (k : AccessKind) (n : Need) (a : Nat) :
    List (Nat × Nat) → State × Except EngineBar (List (Nat × Nat × Spot))
  | [] => (s, .ok [])
  | (at_, w) :: rest =>
    match s.engineReach o k n ((a + at_) % 2 ^ 64) w with
    | (s, .error b) => (s, .error b)
    | (s, .ok sp) =>
      if s.spotHeld sp w (k != .load) then (s, .error .held)
      else match s.spanReach o k n a rest with
        | (s, .error b) => (s, .error b)
        | (s, .ok sps) => (s, .ok ((at_, w, sp) :: sps))

/-- An engine reads a run of bits: the first part that fails decides. -/
def State.spanLoad (s : State) (o : EngineOp) (a w : Nat) : State × Except EngineBar Nat :=
  match s.spanReach o .load needR a (partsOf a w) with
  | (s, .error b) => (s, .error b)
  | (s, .ok ps) =>
    match ps.findSome? fun (_, n, sp) => s.spotStatus sp n o.lostAs with
    | some st => (s, .error (.status st))
    | none =>
      let s := ps.foldl (fun s (_, n, sp) => s.engineFill o sp n) s
      (s, .ok (ps.foldl (fun x (at_, n, sp) => x + s.engineRead o sp n <<< at_) 0))

/-- An engine writes a run of bits, all of whose parts have been reached. -/
def State.spanWrite (s : State) (o : EngineOp) (v : Nat) (ps : List (Nat × Nat × Spot)) : State :=
  ps.foldl (fun s (at_, n, sp) => s.engineWrite o sp n ((v >>> at_) % 2 ^ n)) s

/-- What becomes of an operation whose access cannot be made; its event waits or the operation ends. -/
def State.engineStop (s : State) (n : Nat) (o : EngineOp) (b : EngineBar) (flags : Nat) (again : Instr) : State :=
  match b with
  | .miss va => (s.suspendOp n o va flags).post again
  | .held => s.post again
  | .status st => s.opErr n st

/-! ## FWAIT, FTEST, FCANCEL, FMOV -/

/-- The handle that field a names. -/
def State.handleReg (s : State) (f : Fields) : Nat := s.reg (.h f.a.toNat) 0

/-- HANDLE_INVALID. -/
def State.handleTrap (s : State) (f : Fields) (h : Nat) : State :=
  s.trap { code := cHandleInvalid, info0 := h, lane := (s.actLanes f).headD 0 }

/-- The number of a final state in FWAIT's result. -/
def HandleState.num : HandleState → Nat
  | .free => 0 | .pending => 1 | .doneOk => 2 | .doneErr => 3 | .cancelled => 4

def State.freeEntry (s : State) (h : Nat) : State :=
  s.modBlock s.warp.id.block fun b => b.modHandle (h % 64) fun e => { e with state := .free, op := none }

def execFwait (f : Fields) (s : State) : Out :=
  if !s.acts f then .next (s.advance f true)
  else
    let h := s.handleReg f
    match s.myBlock.handleOf h with
    | none => .next (s.handleTrap f h)
    | some e =>
      if e.state = .pending then .next (s.block .fwait h 3)
      else if f.mb 0 && e.state == .doneErr then
        .next (s.trap { code := cEngineFault, info0 := e.status.toNat * 2 ^ 16 + h, lane := (s.actLanes f).headD 0 })
      else
        let t := if f.mb 1 then s else s.freeEntry h
        .next ((t.later (coversD f 1) (s.onceResult f 1 (e.status.toNat * 2 ^ 16 + e.state.num)) 0).advance f true)

def execFtest (f : Fields) (s : State) : Out :=
  if !s.acts f then .next (s.advance f true)
  else
    let h := s.handleReg f
    match s.myBlock.handleOf h with
    | none => .next (s.handleTrap f h)
    | some e =>
      let t := if e.state.final && f.mb 0 then s.freeEntry h else s
      .next ((t.later [predName f.k f.d.toNat] ((s.actLanes f).map fun l => destPred f f.d l e.state.final) 0).advance f true)

/-- FCANCEL asks the engine to cancel; it never waits. -/
def execFcancel (f : Fields) (s : State) : Out :=
  if !s.acts f then .next (s.advance f true)
  else
    let h := s.handleReg f
    match s.myBlock.handleOf h with
    | none => .next (s.handleTrap f h)
    | some e =>
      match e.state, e.op with
      | .pending, some n => .next (((s.modOp n fun o => { o with cancel := true }).post (.cancelHonoured n)).advance f true)
      | _, _ => .next (s.advance f true)

def execFmov (f : Fields) (s : State) : Out :=
  match s.actLanes f with
  | [] => .next (s.advance f true)
  | l :: _ =>
    if f.mb 0 then
      .next ((s.later [.h f.d.toNat] [⟨.h f.d.toNat, 0, s.srcA f 1 l % 2 ^ 16⟩] 0).advance f true)
    else .next ((s.later (coversD f 1) (s.onceResult f 1 (s.handleReg f)) 0).advance f true)

end Sys2Proof.Machine
end

