-- ==== Sys2Proof/Machine/Engines.lean ====
section
/-! DEFINITION. The copy engines (R291 to R299) and the imprecise watchpoints of the engines (R447). -/

namespace Sys2Proof.Machine

/-! ## The shape of a copy (R296 to R298) -/

/-- The elements of a copy: source and destination address of each run of `len` bits. -/
def CopyOp.elems (c : CopyOp) : List (Nat × Nat) :=
  match c.list with
  | .none =>
    (List.range c.planes).flatMap fun (p : Nat) => (List.range c.rows).map fun (j : Nat) =>
      (wrapInt 64 ((c.src : Int) + p * c.sPlane + j * c.sRow), wrapInt 64 ((c.dst : Int) + p * c.dPlane + j * c.dRow))
  | some _ =>
    (c.idx.getD []).zipIdx.map fun (x, i) =>
      if c.scatter then ((c.src + i * c.len) % 2 ^ 64, wrapInt 64 ((c.dst : Int) + x * c.sRow))
      else (wrapInt 64 ((c.src : Int) + x * c.sRow), (c.dst + i * c.len) % 2 ^ 64)

/-- The size of an arrival unit at an address (R293). -/
def unitSize (va : Nat) : Nat := if va >>> 56 = 8 ∨ va >>> 56 = 9 then 64 else 512

/-- Equal neighbours once. -/
def dedupNext : List Nat → List Nat
  | a :: b :: l => if a = b then dedupNext (b :: l) else a :: dedupNext (b :: l)
  | l => l

/-- The unit in which an address lies, by its first address. -/
def unitOf (va : Nat) : Nat := va / unitSize va * unitSize va

/-- The units that a run of bits meets. -/
def runUnits (t len : Nat) : List Nat := dedupNext ((partsOf t len).map fun x => unitOf ((t + x.1) % 2 ^ 64))

/-- The units of a whole copy, each once. -/
def CopyOp.allUnits (c : CopyOp) : List Nat :=
  match c.elems with
  | [] => []
  | [(_, t)] => runUnits t c.len
  | es => (es.flatMap fun e => runUnits e.2 c.len).eraseDups

/-- There are bits to copy. -/
def CopyOp.hasBits (c : CopyOp) : Bool := c.len != 0 && c.rows != 0 && c.planes != 0

/-! ## Issue (R291, R295) -/

/-- A pair, and a signed word, of the uniform registers. -/
def State.upair (s : State) (r : BitVec 8) : Nat := s.regs .s r.toNat 0 2
def State.uword (s : State) (r : Nat) : Nat := s.reg (.s r) 0

/-- What a copy instruction asks for; `indexed`: GATHER or SCATTER. -/
def State.copyWork (s : State) (f : Fields) (indexed scatter : Bool) (mm : Option (Nat × Nat)) : CopyOp :=
  let r (i : Nat) : Nat := s.uword (f.c.toNat + i)
  let dims := f.xn 1 0
  { src := s.upair f.a, dst := s.upair f.b, len := r 0
    rows := if indexed then r 1 else if dims = 0 then 1 else r 1
    planes := if dims = 2 then r 4 else 1
    sRow := if indexed then (r 2 : Nat) else if dims = 0 then 0 else sintOf 32 (r 2)
    dRow := if indexed || dims == 0 then 0 else sintOf 32 (r 3)
    sPlane := if dims = 2 then sintOf 32 (r 5) else 0
    dPlane := if dims = 2 then sintOf 32 (r 6) else 0
    list := if indexed then some (s.upair f.e) else none
    scatter, idx := none
    sync := if f.xb 2 then some (s.upair f.d) else none
    syncAt := none, mm, ready := false, units := [] }

def State.engineQueue (s : State) (die core engine : Nat) : List Nat := tget [] (s.coreAt die core).queues engine

def State.setEngineQueue (s : State) (die core engine : Nat) (q : List Nat) : State :=
  s.modCore die core fun c => { c with queues := tput [] c.queues engine q }

/-- A command takes a place in an engine's queue. -/
def State.enqueueOp (s : State) (die core engine n : Nat) : State :=
  s.setEngineQueue die core engine (s.engineQueue die core engine ++ [n])

/-- A copy instruction: a place in its engine's queue, then an entry, then the command (R287, R291). -/
def State.issueCopy (s : State) (f : Fields) (c : CopyOp) : State :=
  let id := s.warp.id
  let engine := if c.dst >>> 56 = 8 then 0 else 1
  if 16 ≤ (s.engineQueue id.die id.core engine).length then s.stallAt 14
  else match s.myBlock.freeHandle with
    | none => s.stallAt 27
    | some idx =>
      let n := s.nextOp
      (((s.startOp f.fh.toNat engine f.hint.toNat idx (.copy c)).enqueueOp id.die id.core engine n).post
        (.copyCommandStart id.die id.core engine)).advance f

def execCpy (f : Fields) (s : State) : Out :=
  .next (if s.acts f then s.issueCopy f (s.copyWork f false false none) else s.advance f)

def execGather (f : Fields) (s : State) : Out :=
  .next (if s.acts f then s.issueCopy f (s.copyWork f true false none) else s.advance f)

def execScatter (f : Fields) (s : State) : Out :=
  .next (if s.acts f then s.issueCopy f (s.copyWork f true true none) else s.advance f)

/-! ## The matrix block of a core (R305) -/

/-- The accumulator state of a new matrix block: tiles +0, side registers −∞ and +0. -/
def Core.claimMatrix (c : Core) (block : Nat) : Core :=
  if c.matrix = some block then c else { c with matrix := some block, acc := [], sideM := [], sideL := [] }

/-- Another block of the core owns the engines. -/
def State.matrixTaken (s : State) (id : WarpId) : Bool :=
  match (s.coreAt id.die id.core).matrix with
  | some b => b != id.block
  | none => false

def execCpyMm (f : Fields) (s : State) : Out :=
  if !s.acts f then .next (s.advance f)
  else if s.matrixTaken s.warp.id then .next (s.stallAt 15)
  else
    let t := s.issueCopy f (s.copyWork f false false (some (b2n (f.xb 3), s.upair f.e)))
    .next (if t.nextOp = s.nextOp then t
      else t.modCore s.warp.id.die s.warp.id.core fun c => c.claimMatrix s.warp.id.block)

/-! ## Start (R291, R294, R298) -/

/-- Where an operation's sync word lies, by the checks of R216; its poison ends the operation too. -/
def State.syncSpot (s : State) (o : EngineOp) (va : Nat) : State × Except EngineBar (Option Nat × Nat × Nat) :=
  let fin (s : State) (sp : Spot) : State × Except EngineBar (Option Nat × Nat × Nat) :=
    if va % 64 ≠ 0 then (s, .error (.status stMisalign))
    else match s.spotSpad o sp, sp with
      | some (b, off), _ => (s, .ok (some b, off, 0))
      | none, .mem fa leaf =>
        match s.spotStatus sp 64 o.lostAs with
        | some st => (s, .error (.status st))
        | none => (s, .ok (none, fa, leaf))
      | none, _ => (s, .error (.status stNotMapped))
  match s.place o.asWarp va 64 with
  | .error c => (s, .error (.status (statusOf c)))
  | .ok .mem =>
    if va >>> 56 = 10 then (s, .error (.status stNotMapped))
    else if va % 64 ≠ 0 then (s, .error (.status stMisalign))
    else match s.engineReach o .store needW va 64 with
      | (s, .error b) => (s, .error b)
      | (s, .ok sp) => fin s sp
  | .ok (.spad off) => fin s (.own off)
  | .ok (.peer rank off) => fin s (.peer rank off)

/-- The indices of GATHER and SCATTER, read one by one from position `i`. -/
def State.readIndices (s : State) (o : EngineOp) (list : Nat) : Nat → Nat → State × Except EngineBar (List Nat)
  | 0, _ => (s, .ok [])
  | n + 1, i =>
    match s.spanLoad o ((list + 32 * i) % 2 ^ 64) 32 with
    | (s, .error b) => (s, .error b)
    | (s, .ok x) =>
      match s.readIndices o list n (i + 1) with
      | (s, .error b) => (s, .error b)
      | (s, .ok xs) => (s, .ok (x :: xs))

/-- The copy is ready: its units are on their way, or it has none. -/
def State.launchUnits (s : State) (n : Nat) (o : EngineOp) (c : CopyOp) : State :=
  let units := if c.hasBits then c.allUnits else []
  let s := s.modOp n fun _ => { o with work := .copy { c with ready := true, units } }
  if units.isEmpty then s.post (.copyOperationEnd n) else units.foldl (fun s u => s.post (.arrivalUnit n u)) s

/-- A started copy checks its sync word and reads its index list; none while an access of that is held. -/
def State.prepareCopy (s : State) (n : Nat) (o : EngineOp) (c : CopyOp) : Option State :=
  let stop (s : State) (b : EngineBar) (flags : Nat) : Option State :=
    match b with
    | .held => none
    | b => some (s.engineStop n o b flags (.copyCommandStart o.warp.die o.warp.core o.engine))
  let withSync := match c.sync with
    | none => (s, Except.ok none)
    | some va => (match s.syncSpot o va with | (s, .ok x) => (s, .ok (some x)) | (s, .error b) => (s, .error b))
  match withSync with
  | (s, .error b) => stop s b 2
  | (s, .ok syncAt) =>
    match c.list with
    | none => some (s.launchUnits n o { c with syncAt })
    | some a =>
      match if c.hasBits then s.readIndices o a c.rows 0 else (s, .ok []) with
      | (s, .error b) => stop s b 1
      | (s, .ok xs) => some (s.launchUnits n o { c with syncAt, idx := some xs })

/-- The first of some started copies that can go on with its checks does. -/
def State.prepareFirst (s : State) : List (Nat × EngineOp) → Option State
  | [] => none
  | (n, o) :: rest =>
    match if o.suspended || !s.opReady o then none else (match o.work with | .copy c => s.prepareCopy n o c | _ => none) with
    | some t => some t
    | none => s.prepareFirst rest

/-- The copies that an engine of a core runs. -/
def State.runningCopies (s : State) (die core engine : Nat) : List (Nat × EngineOp) :=
  s.ops.filterMap fun (n, o) => match o with
    | some o => if o.started && o.engine == engine && o.warp.die == die && o.warp.core == core then some (n, o) else none
    | none => none

/-- COPY_COMMAND_START: the first of the queue starts, eight running at once, or a started command goes on with its
checks. -/
def execCopyCommandStart (die core engine : Nat) (s : State) : Out :=
  let running := s.runningCopies die core engine
  let waiting := running.filter fun (_, o) => match o.work with | .copy c => !c.ready | _ => false
  let again := Instr.copyCommandStart die core engine
  match s.engineQueue die core engine with
  | n :: rest =>
    if running.length < 8 then
      .next (((s.setEngineQueue die core engine rest).modOp n fun o => { o with started := true }).post again)
    else if waiting.isEmpty then .next s
    else .next ((s.prepareFirst waiting).getD (s.post again))
  | [] => if waiting.isEmpty then .next s else .next ((s.prepareFirst waiting).getD (s.post again))

/-! ## Arrival units (R293, R294) -/

/-- The bits of one element within a span of `z` bits from `u`: their place in the span, their source address, their
number. The run wraps modulo 2^64. -/
def pieceOf (len u z : Nat) (e : Nat × Nat) : List (Nat × Nat × Nat) :=
  let starts : List Int := [(e.2 : Int), (e.2 : Int) - 2 ^ 64]
  starts.filterMap fun t =>
    let lo : Int := max t (u : Int)
    let hi : Int := min (t + (len : Int)) ((u : Int) + (z : Int))
    if lo < hi then some ((lo - u).toNat, (e.1 + (lo - t).toNat) % 2 ^ 64, (hi - lo).toNat) else none

/-- The sources of some pieces, read in order. -/
def State.readPieces (s : State) (o : EngineOp) : List (Nat × Nat × Nat) → State × Except EngineBar (List (Nat × Nat × Nat))
  | [] => (s, .ok [])
  | (off, src, w) :: rest =>
    match s.spanLoad o src w with
    | (s, .error b) => (s, .error b)
    | (s, .ok v) =>
      match s.readPieces o rest with
      | (s, .error b) => (s, .error b)
      | (s, .ok vs) => (s, .ok ((off, w, v) :: vs))

/-- The bits of one 64-bit part from the pieces that cover it: where pieces collide, each later one supplies all of the
bits that it shares, or none of them (R294). -/
def mergePieces (free : Nat) (pieces : List (Nat × Nat × Nat)) : Nat × Nat :=
  pieces.zipIdx.foldl (fun (mask, val) ((off, w, v), i) =>
    let m := (2 ^ w - 1) <<< off
    let x := (v % 2 ^ w) <<< off
    if Config.copyLaterWins free i then (mask ||| m, (val - (val &&& m)) ||| x)
    else (mask ||| m, val ||| (x - (x &&& mask)))) (0, 0)

/-- The runs of set bits of a mask: place and length. -/
def maskRuns (mask : Nat) : Nat → Nat → List (Nat × Nat)
  | 0, _ => []
  | fuel + 1, i =>
    if mask >>> i = 0 then []
    else if bitOf mask i then
      let n := trailingZeros 1024 (notBits 1024 (mask >>> i))
      (i, n) :: maskRuns mask fuel (i + n)
    else maskRuns mask fuel (i + trailingZeros 1024 (mask >>> i))

/-- The words of a unit: mask and value of each, from its pieces. -/
def State.unitWords (s : State) (o : EngineOp) (c : CopyOp) (u : Nat) : List Nat → State × Except EngineBar (List (Nat × Nat × Nat))
  | [] => (s, .ok [])
  | i :: rest =>
    let a := (u + 64 * i) % 2 ^ 64
    match s.readPieces o (c.elems.flatMap (pieceOf c.len a 64)) with
    | (s, .error b) => (s, .error b)
    | (s, .ok ps) =>
      match s.unitWords o c u rest with
      | (s, .error b) => (s, .error b)
      | (s, .ok ws) =>
        let (mask, val) := mergePieces s.free ps
        (s, .ok (if mask = 0 then ws else (a, mask, val) :: ws))

/-- The runs of a unit's words, reached for writing. -/
def State.reachRuns (s : State) (o : EngineOp) : List (Nat × Nat × Nat) → State × Except EngineBar (List (Nat × Nat × Spot))
  | [] => (s, .ok [])
  | (a, w, v) :: rest =>
    match s.spanReach o .store needW a [(0, w)] with
    | (s, .error b) => (s, .error b)
    | (s, .ok ps) =>
      match s.reachRuns o rest with
      | (s, .error b) => (s, .error b)
      | (s, .ok qs) => (s, .ok (ps.map (fun (_, n, sp) => (v, n, sp)) ++ qs))

/-- A watched core hears of a unit that one of its engines has performed (R447). -/
def State.engineWatch (s : State) (o : EngineOp) (va mask : Nat) : State :=
  if (s.coreAt o.warp.die o.warp.core).watches.isEmpty then s
  else
    s.post (.engineWatchReport o.warp o.engine (match o.handle with | some i => handleValue i (BitVec.ofNat 10 o.hseq) | none => 0)
      o.process va mask s.timer)

/-- The addition of a unit's bits to the sync word: an engine arrival, a release at `.sys` (R253, R293). The issuing core's L1
gives up the word's sector, as it does for every write of the operation (R257). -/
def State.syncArrive (s : State) (n : Nat) (o : EngineOp) (at_ : Option Nat × Nat × Nat) (bits : Nat) : State :=
  let s := s.deviceRelease o.warp.die
  match at_ with
  | (some b, off, _) => s.modBlock b fun x => x.spadWrite off 64 (syncAdd bits (x.spadRead off 64))
  | (none, fa, leaf) =>
    match s.spotStatus (.mem fa leaf) 64 o.lostAs with
    | some st => s.opErr n st
    | none =>
      let x := (s.served fa (leafMode leaf 0)).getD fa
      (((s.dropL1 o.warp.die o.warp.core (sectorOf fa)).homeUpdate x 64 (syncAdd bits) (leafMode leaf 0).rdie).2).homeReport x
        (2 ^ 64 - 1) 1 0 o.warp.die o.process

/-- A unit whose checks have passed is written, then counted. -/
def State.performUnit (s : State) (n : Nat) (o : EngineOp) (c : CopyOp) (u : Nat) (words : List (Nat × Nat × Nat))
    (runs : List (Nat × Nat × Spot)) : State :=
  let s := runs.foldl (fun s (v, w, sp) => s.engineWrite o sp w v) { s with free := s.free + 1 }
  let mask := words.foldl (fun m (a, k, _) => m ||| k <<< ((a + 2 ^ 64 - u) % 2 ^ 64)) 0
  let units := c.units.filter (· ≠ u)
  let s := (s.modOp n fun _ => { o with work := .copy { c with units } }).engineWatch o u mask
  let s := match c.syncAt with | some x => s.syncArrive n o x (popCount 512 mask) | none => s
  if units.isEmpty then s.post (.copyOperationEnd n) else s

/-- A sync word whose translation a shoot-down has taken (R366) is translated and checked anew. -/
def State.findSync (s : State) (o : EngineOp) (c : CopyOp) : State × Except EngineBar CopyOp :=
  match c.sync, c.syncAt with
  | some va, none =>
    match s.syncSpot o va with
    | (s, .ok x) => (s, .ok { c with syncAt := some x })
    | (s, .error b) => (s, .error b)
  | _, _ => (s, .ok c)

/-- ARRIVAL_UNIT: one unit of a copy, with all its checks before its write; the first unit that fails ends the operation. -/
def execArrivalUnit (n u : Nat) (s : State) : Out :=
  match s.opAt n with
  | none => .next s
  | some o =>
    match o.work with
    | .copy c =>
      if !c.units.contains u then .next s
      else if o.suspended then .next (s.post (.arrivalUnit n u))
      else match s.unitWords o c u (List.range (unitSize u / 64)) with
        | (s, .error b) => .next (s.engineStop n o b 1 (.arrivalUnit n u))
        | (s, .ok words) =>
          let runs := words.flatMap fun (a, mask, val) => (maskRuns mask 64 0).map fun (i, w) => ((a + i) % 2 ^ 64, w, (val >>> i) % 2 ^ w)
          match s.reachRuns o runs with
          | (s, .error b) => .next (s.engineStop n o b 2 (.arrivalUnit n u))
          | (s, .ok rs) =>
            match s.findSync o c with
            | (s, .error b) => .next (s.engineStop n o b 2 (.arrivalUnit n u))
            | (s, .ok c) => .next (s.performUnit n o c u words rs)
    | _ => .next s

/-! ## Watchpoints of the engines (R447) -/

/-- A core watchpoint on the bits of a mask. -/
def Watch.maskBits (w : Watch) (process va mask : Nat) : List Nat :=
  if w.ctl.getLsbD 0 && w.ctl.getLsbD 2 && bits w.ctl.toNat 31 16 == process then
    ((setBits 512 mask).map fun i => (va + i) % 2 ^ 64).filter fun x =>
      decide (w.lo.toNat ≤ x) && decide (x < w.hi.toNat) && w.mask.getLsbD (x % 64)
  else []

/-- ENGINE_WATCH_REPORT: a record for each watchpoint that the unit matched, and a stop when one of them asks for it. -/
def execEngineWatchReport (id : WarpId) (engine handle pid va mask time : Nat) (s : State) : Out :=
  let hits := ((s.coreAt id.die id.core).watches.map fun (k, w) => (k, w, w.maskBits pid va mask)).filter fun h => !h.2.2.isEmpty
  let base (kind : Nat) : FaultRecord :=
    { addr := 0, pc := 0, info0 := 0, info1 := 0, regions := 0, process := BitVec.ofNat 16 pid
      launch := BitVec.ofNat 32 (s.blockAt id.block).launch, warp := BitVec.ofNat 6 id.warp, lane := 0
      slot := BitVec.ofNat 4 (blockSlot id.block), core := BitVec.ofNat 6 id.core, die := BitVec.ofNat 2 id.die
      kind := BitVec.ofNat 8 kind, code := 0, status := 0, flags := 0, aux16 := 0, time := BitVec.ofNat 64 time }
  let s := hits.foldl (fun s (k, _, bs) =>
    let r : FaultRecord :=
      { base 7 with
        addr := BitVec.ofNat 64 (bs.headD 0), info1 := BitVec.ofNat 64 (bs.getLastD 0 + 1)
        info0 := BitVec.ofNat 64 (k + engine * 256 + handle * 2 ^ 32) }
    s.enqueueRecord id.die ⟨r, none, none, false⟩) s
  match (hits.filter fun h => h.2.1.ctl.getLsbD 3).map (·.1) with
  | [] => .next s
  | k :: ks =>
    let c := s.coreAt id.die id.core
    let flags := (if c.trapped then 0 else flagPrimary) + (if c.halt = .halting then flagPreempt else 0)
    let r : FaultRecord :=
      { base 1 with
        code := BitVec.ofNat 8 cWatch, info0 := BitVec.ofNat 64 (ks.foldl min k), flags := BitVec.ofNat 16 flags
        time := BitVec.ofNat 64 s.timer }
    let s := s.modCore id.die id.core fun c => c.trapBy cWatch
    .next ((s.post (.haltCompletion id.die id.core)).enqueueRecord id.die ⟨r, some id.core, none, false⟩)

end Sys2Proof.Machine
end

