-- ==== Sys2Proof/Machine/Matrix.lean ====
section
/-! DEFINITION. The matrix engines, the accumulator store and the quantiser (R304 to R325), and the end of a copy (R294,
R299, R318). -/

namespace Sys2Proof.Machine

/-! ## Formats (R307) -/

def matWidth (fmt : Nat) : Nat :=
  match fmt with
  | 0 => 32 | 1 | 2 => 16 | 3 | 4 | 8 => 8 | 5 | 6 | 9 => 6 | 7 | 10 => 4 | _ => 3

/-- The K class: elements of a row of an operand. -/
def matK (fmt : Nat) : Nat :=
  match fmt with
  | 0 => 32 | 1 | 2 => 64 | 7 | 10 | 11 => 256 | _ => 128

/-- The group size of R125. -/
def matG (fmt : Nat) : Nat := match fmt with | 0 => 4 | 1 | 2 => 16 | _ => 64

def matScaled (fmt : Nat) : Bool := decide (3 ≤ fmt) && decide (fmt ≤ 11)

/-- An element outside scaled blocks (R310). -/
def matDecode (fmt x : Nat) : FVal :=
  if fmt ≤ 7 then (formatOf fmt).decode x else .ofDyadic (Dyad.ofInt (sintOf (matWidth fmt) x)) false

/-- An element of a scaled block, from the block's metadata word (R119, R120). -/
def matDecodeScaled (fmt : Nat) (spec : Bool) (word x : Nat) : FVal :=
  let e := bits word 7 0
  let scaled (v : FVal) : FVal :=
    match v with
    | .nan n _ => .nan n 1
    | .num d => .num (Dyad.scale d ((e : Int) - 127))
    | v => v
  if e = 255 then .nan false 2
  else if fmt = 7 ∧ spec ∧ x = 8 then scaled (e4m3.decode (bits word 15 8))
  else scaled (matDecode fmt x)

/-! ## Descriptors (R309, R311) -/

structure Desc where
  base    : Nat
  meta_   : Nat
  bmap    : Nat
  rstride : Nat
  mstride : Nat
  fmt     : Nat
  bmode   : Nat
  flen    : Nat
  spec    : Bool
  deriving DecidableEq, Repr

def descOf (x : Nat) : Desc where
  base := bits x 255 192
  meta_ := bits x 191 128
  bmap := bits x 127 64
  rstride := bits x 63 32
  mstride := bits x 31 20
  fmt := bits x 19 16
  bmode := bits x 15 14
  flen := bits x 13 12
  spec := bitOf x 11

/-- The statuses of R314. -/
def stBadDesc : Nat := 0x20
def stKMismatch : Nat := 0x21
def stBadWindow : Nat := 0x22
def stBadCmd : Nat := 0x23
def stMetaOverflow : Nat := 0x24
def stBadShape : Nat := 0x25

/-- The contents pass R311. -/
def descOk (x : Nat) : Bool :=
  let d := descOf x
  bits x 10 0 == 0 && decide (d.fmt ≤ 11) && d.bmode != 3 && (d.bmode == 0 || matScaled d.fmt)

/-! ## Accesses of a matrix engine (R312) -/

/-- Some part of a run of bits lies in the peers' window. -/
def inPeers (a w : Nat) : Bool := (partsOf a w).any fun (at_, _) => ((a + at_) % 2 ^ 64) >>> 56 == 9

def State.matLoad (s : State) (o : EngineOp) (a w : Nat) : State × Except EngineBar Nat :=
  if inPeers a w then (s, .error (.status stBadWindow)) else s.spanLoad o a w

def State.matReach (s : State) (o : EngineOp) (a w : Nat) (parts : List (Nat × Nat)) :
    State × Except EngineBar (List (Nat × Nat × Spot)) :=
  if inPeers a w then (s, .error (.status stBadWindow)) else s.spanReach o .store needW a parts

/-- The values at some addresses, in order. -/
def State.matLoads (s : State) (o : EngineOp) : List (Nat × Nat) → State × Except EngineBar (List Nat)
  | [] => (s, .ok [])
  | (a, w) :: rest =>
    match s.matLoad o a w with
    | (s, .error b) => (s, .error b)
    | (s, .ok v) =>
      match s.matLoads o rest with
      | (s, .error b) => (s, .error b)
      | (s, .ok vs) => (s, .ok (v :: vs))

/-- One descriptor, in the order of R311. -/
def State.readDesc (s : State) (o : EngineOp) (a : Nat) : State × Except EngineBar Nat :=
  if a >>> 56 = 9 then (s, .error (.status stBadWindow))
  else if a % 256 ≠ 0 then (s, .error (.status stBadDesc))
  else match s.matLoad o a 256 with
    | (s, .error b) => (s, .error b)
    | (s, .ok x) => if descOk x then (s, .ok x) else (s, .error (.status stBadDesc))

/-- Descriptors in order: those that can be read, and what stops the next. -/
def State.readDescs (s : State) (o : EngineOp) : List Nat → State × List Nat × Option EngineBar
  | [] => (s, [], none)
  | a :: rest =>
    match s.readDesc o a with
    | (s, .error b) => (s, [], some b)
    | (s, .ok x) => let (s, xs, b) := s.readDescs o rest; (s, x :: xs, b)

/-- The descriptors of a command, A first. -/
def MatOp.descAddrs (m : MatOp) : List Nat :=
  match m.kind with
  | .mma | .mmaSm => [m.a, m.b]
  | .quant => [m.b]
  | .deq => [m.a]
  | .accld | .accst | .accz | .accside => []

/-- The descriptors of a command that have still to be read. -/
def MatOp.toRead (m : MatOp) : List Nat := if m.ends.isSome then [] else m.descAddrs.drop m.descs.length

def State.setMat (s : State) (n : Nat) (m : MatOp) : State := s.modOp n fun o => { o with work := .matrix m }

/-- A command in its engine's queue has each descriptor read once, or keeps the status of the first that fails for its end
(R311). A descriptor that a miss or a conversion holds back is read when that ends. -/
def State.enterMatrix (s : State) (n : Nat) : State :=
  match s.opAt n with
  | none => s
  | some o =>
    match o.work with
    | .matrix m =>
      if o.suspended || m.toRead.isEmpty then s
      else
        let (s, ds, b) := s.readDescs o m.toRead
        let s := s.setMat n { m with descs := m.descs ++ ds, ends := match b with | some (.status st) => some st | _ => none }
        match b with
        | some (.miss va) => s.suspendOp n o va 1
        | _ => s
    | _ => s

/-! ## Issue (R304, R305, R315) -/

/-- The engine of a command by its bit. -/
def matEngine (me : Bool) : Nat := 2 + b2n me

/-- The checks before a matrix instruction takes its place: ownership, a place, and for a command that reads descriptors the
warp's earlier accesses. -/
def State.matrixFree (s : State) (engine : Nat) (descs : Bool) : Bool :=
  let id := s.warp.id
  !s.matrixTaken id && decide ((s.engineQueue id.die id.core engine).length < 4) && !(descs && s.warpPending (s.releasePoint false) id)

/-- The command that has just been made takes its place. -/
def State.queueMatrix (s : State) (engine n : Nat) : State :=
  let id := s.warp.id
  let s := (s.modCore id.die id.core fun c => c.claimMatrix id.block).enqueueOp id.die id.core engine n
  (s.enterMatrix n).post (.matrixCommandStart id.die id.core engine)

/-- An instruction with a handle. -/
def State.issueMatrix (s : State) (f : Fields) (me : Bool) (m : MatOp) : State :=
  let engine := matEngine me
  if !s.acts f then s.advance f
  else if !s.matrixFree engine (!m.descAddrs.isEmpty) then s.stallAt 15
  else match s.myBlock.freeHandle with
    | none => s.stallAt 27
    | some idx => ((s.startOp f.fh.toNat engine f.hint.toNat idx (.matrix m)).queueMatrix engine s.nextOp).advance f

/-- A command without a handle (R320, R321). -/
def State.issueSilent (s : State) (f : Fields) (me : Bool) (m : MatOp) : State :=
  let engine := matEngine me
  if !s.acts f then s.advance f
  else if !s.matrixFree engine false then s.stallAt 15
  else
    let o : EngineOp :=
      { warp := s.warp.id, gang := s.warp.gang, process := s.processOf s.warp, user := s.warp.user, handle := none, hseq := 0, seq := s.nextSeq, engine,
        hint := f.hint.toNat, started := false, cancel := false, suspended := false, unresolved := false, work := .matrix m }
    let n := s.nextOp
    (({ s.setOp n (some o) with nextOp := n + 1 }.bumpSeq).queueMatrix engine n).advance f

def execMma (f : Fields) (s : State) : Out :=
  .next (s.issueMatrix f (f.mb 3)
    { MatOp.none with kind := .mma, tile := f.xn 1 0, ovr := f.mb 2, a := s.upair f.a, b := s.upair f.b })

def execMmaSm (f : Fields) (s : State) : Out :=
  .next (s.issueMatrix f (f.mb 3)
    { MatOp.none with
      kind := .mmaSm, tile := f.xn 1 0, otile := f.xn 3 2, ovr := true, a := s.upair f.a, b := s.upair f.b
      sigma := s.uword f.c.toNat, pAddr := s.upair f.e, fmt := f.xn 6 4, rnd := f.xn 8 7, sat := f.xb 9 })

/-- ACCLD and ACCST. -/
def State.accWork (s : State) (f : Fields) (kind : MatKind) : MatOp :=
  { MatOp.none with
    kind, tile := f.xn 1 0, fmt := f.xn 5 3, rnd := f.xn 7 6, sat := f.xb 8, a := s.upair f.a, stride := s.uword f.b.toNat
    region := s.uword f.c.toNat }

def execAccld (f : Fields) (s : State) : Out := .next (s.issueMatrix f (f.xb 2) (s.accWork f .accld))
def execAccst (f : Fields) (s : State) : Out := .next (s.issueMatrix f (f.xb 2) (s.accWork f .accst))
def execAccz (f : Fields) (s : State) : Out :=
  .next (s.issueSilent f (f.mb 3) { MatOp.none with kind := .accz, tile := f.mn 1 0 })

/-- ACCSIDE: the lanes with their values to write, or an entry for the values to come. -/
def execAccside (f : Fields) (s : State) : Out :=
  let lanes := (s.actLanes f).map fun l => (l, s.reg (.v f.d.toNat) l, s.reg (.v (f.d.toNat + 1)) l)
  let m : MatOp :=
    { MatOp.none with
      kind := .accside, tile := f.mn 1 0, read := !f.mb 2, lanes, reg := f.d.toNat
      row0 := if f.isImm16 then f.imm16.toNat % 128 else f.imm32.toNat % 128 }
  if f.mb 2 || !s.acts f || !s.matrixFree (matEngine (f.mb 3)) false then .next (s.issueSilent f (f.mb 3) m)
  else
    let id := s.warp.nextId
    let t := s.modWarp fun w =>
      (w.takeEntry s.free [.v f.d.toNat, .v (f.d.toNat + 1)] [] 0).modEntry id fun e => { e with kind := .wait }
    .next (t.issueSilent f (f.mb 3) { m with entry := some id })

/-- QUANT: a is the source, b the destination descriptor. -/
def execQuant (f : Fields) (s : State) : Out :=
  .next (s.issueMatrix f (f.mb 3)
    { MatOp.none with
      kind := .quant, a := s.upair f.a, b := s.upair f.b, elems := s.uword f.c.toNat, rows := s.uword f.e.toNat, fmt := f.xn 2 0
      thresh := f.xn 10 3, stride := f.imm32.toNat })

/-- DEQ: a is the source descriptor, b the destination. -/
def execDeq (f : Fields) (s : State) : Out :=
  .next (s.issueMatrix f (f.mb 3)
    { MatOp.none with
      kind := .deq, a := s.upair f.a, b := s.upair f.b, elems := s.uword f.c.toNat, rows := s.uword f.e.toNat, fmt := f.xn 2 0
      rnd := f.xn 4 3, sat := f.xb 5, stride := f.imm32.toNat })

/-! ## The accumulator store (R304 to R306) -/

def sideKey (me tile row : Nat) : Nat := (me * 4 + tile) * 128 + row

/-- The encoding of −∞, which a side register m holds at first. -/
def minusInf : Word := 0xFF80_0000

def Core.tileRow (c : Core) (me tile row : Nat) : List Nat :=
  (tgetRange 0 c.acc (sideKey me tile row * 128) 128).map (·.toNat)

def Core.tileRows (c : Core) (me tile : Nat) : List (List Nat) := (List.range 128).map (c.tileRow me tile)

/-- Elements of a row, from a column on. -/
def Core.putRow (c : Core) (me tile row col : Nat) (vs : List Nat) : Core :=
  { c with acc := tputRange 0 c.acc (sideKey me tile row * 128 + col) (vs.map (BitVec.ofNat 32)) }

def Core.putTile (c : Core) (me tile : Nat) (rows : List (List Nat)) : Core :=
  { c with acc := tputRange 0 c.acc (sideKey me tile 0 * 128) (rows.flatten.map (BitVec.ofNat 32)) }

def Core.sideOf (c : Core) (me tile row : Nat) : Nat × Nat :=
  ((tget minusInf c.sideM (sideKey me tile row)).toNat, (tget 0 c.sideL (sideKey me tile row)).toNat)

def Core.putSide (c : Core) (me tile row m l : Nat) : Core :=
  { c with
    sideM := tput minusInf c.sideM (sideKey me tile row) (BitVec.ofNat 32 m)
    sideL := tput 0 c.sideL (sideKey me tile row) (BitVec.ofNat 32 l) }

/-- ACCZ (R320), which is also the state of a tile that a new matrix block finds. -/
def Core.clearTile (c : Core) (me tile : Nat) : Core :=
  { c.putTile me tile (List.replicate 128 (List.replicate 128 0)) with
    sideM := tputRange minusInf c.sideM (sideKey me tile 0) (List.replicate 128 minusInf)
    sideL := tputRange 0 c.sideL (sideKey me tile 0) (List.replicate 128 0) }

/-! ## Operands (R310) -/

/-- The index of each element's block, from the starts that a rule marks: element 0 starts a block, and so does the element
after 64 of one. -/
def blockIndexes (n : Nat) (start : Nat → Bool) : List Nat :=
  ((List.range n).foldl (fun (acc, idx, len) k =>
    if k = 0 then ([0], 0, 1)
    else if start k || len == 64 then ((idx + 1) :: acc, idx + 1, 1)
    else (idx :: acc, idx, len + 1)) (([] : List Nat), 0, 0)).1.reverse

/-- A row of an operand, decoded: its boundary bits, its metadata and its elements are read. -/
def State.readOperandRow (s : State) (o : EngineOp) (d : Desc) (n r : Nat) : State × Except EngineBar (List FVal) :=
  let w := matWidth d.fmt
  let elem (x k : Nat) : Nat := (x >>> (k * w)) % 2 ^ w
  let data := (d.base + r * d.rstride) % 2 ^ 64
  let scaledRow (s : State) (idx : List Nat) : State × Except EngineBar (List FVal) :=
    match s.matLoads o [((d.meta_ + 16 * (r * d.mstride)) % 2 ^ 64, 16 * (idx.getLastD 0 + 1)), (data, n * w)] with
    | (s, .error b) => (s, .error b)
    | (s, .ok vs) =>
      (s, .ok (idx.zipIdx.map fun (j, k) =>
        matDecodeScaled d.fmt d.spec ((vs.getD 0 0 >>> (16 * j)) % 2 ^ 16) (elem (vs.getD 1 0) k)))
  if n = 0 then (s, .ok [])
  else match d.bmode with
    | 0 =>
      match s.matLoad o data (n * w) with
      | (s, .error b) => (s, .error b)
      | (s, .ok x) => (s, .ok ((List.range n).map fun k => matDecode d.fmt (elem x k)))
    | 1 => scaledRow s (blockIndexes n fun k => k % (8 <<< d.flen) == 0)
    | _ =>
      match s.matLoad o ((d.bmap + r * n) % 2 ^ 64) n with
      | (s, .error b) => (s, .error b)
      | (s, .ok bm) => scaledRow s (blockIndexes n (bitOf bm))

/-- Rows of an operand from row `r` on. -/
def State.readOperand (s : State) (o : EngineOp) (d : Desc) (n : Nat) : Nat → Nat → State × Except EngineBar (List (List FVal))
  | 0, _ => (s, .ok [])
  | fuel + 1, r =>
    match s.readOperandRow o d n r with
    | (s, .error b) => (s, .error b)
    | (s, .ok x) =>
      match s.readOperand o d n fuel (r + 1) with
      | (s, .error b) => (s, .error b)
      | (s, .ok xs) => (s, .ok (x :: xs))

/-- The two operands of MMA and MMA.SM, with their group size. -/
def State.mmaOperands (s : State) (o : EngineOp) (m : MatOp) :
    State × Except EngineBar (List (List FVal) × List (List FVal) × Nat) :=
  let d (i : Nat) : Desc := descOf (m.descs.getD i 0)
  let n := matK (d 0).fmt
  match s.readOperand o (d 0) n 128 0 with
  | (s, .error b) => (s, .error b)
  | (s, .ok a) =>
    match s.readOperand o (d 1) n 128 0 with
    | (s, .error b) => (s, .error b)
    | (s, .ok b) => (s, .ok (a, b, matG (d 0).fmt))

/-- The K classes of A and B differ (R316). -/
def MatOp.mismatched (m : MatOp) : Bool :=
  matK (descOf (m.descs.getD 0 0)).fmt != matK (descOf (m.descs.getD 1 0)).fmt

/-! ## The product (R125, R316) -/

/-- A list in pieces of `g` elements. -/
def chunks {α : Type} (g : Nat) : Nat → List α → List (List α)
  | 0, _ => []
  | fuel + 1, l => if l.isEmpty then [] else l.take g :: chunks g fuel (l.drop g)

/-- One element: the groups of its products are added in order to c. -/
def dotFrom (g c : Nat) (xs ys : List FVal) : Nat :=
  (chunks g xs.length (List.zipWith productVal xs ys)).foldl groupAdd c

def matProduct (g : Nat) (a b : List (List FVal)) (c : List (List Nat)) : List (List Nat) :=
  List.zipWith (fun ra rc => List.zipWith (fun rb x => dotFrom g x ra rb) b rc) a c

def zeroTile : List (List Nat) := List.replicate 128 (List.replicate 128 0)

/-! ## MMA.SM (R317) -/

/-- FP32 operations on encodings, without FTZ and flags. -/
def mul32 (x y : Nat) : Nat := (fMul f32 rne (f32.decode x) (f32.decode y)).1
def sub32 (x y : Nat) : Nat := (fSub f32 rne (f32.decode x) (f32.decode y)).1
def max32 (x y : Nat) : Nat := encodeExact f32 (minMaxVal true true (f32.decode x) (f32.decode y))
def ex2 (x : Nat) : Nat := (specialCode .ex2 0 x).1

/-- What the softmax step makes of one row: the new m and l, α and the p values. -/
structure SoftRow where
  m : Nat
  l : Nat
  alpha : Nat
  p : List Nat
  deriving DecidableEq, Repr

def softRow (m l : Nat) (row : List Nat) : SoftRow :=
  let r := row.foldl max32 (row.headD 0)
  let m' := max32 m r
  if (f32.decode m').isNan then
    let x := encodeExact f32 (f32.decode m')
    ⟨m', x, x, row.map fun _ => x⟩
  else if m' = minusInf.toNat then ⟨m', l, 0x3F80_0000, row.map fun _ => 0⟩
  else
    let alpha := ex2 (sub32 m m')
    let p := row.map fun x => ex2 (sub32 x m')
    ⟨m', groupAdd 0 (productVal (f32.decode l) (f32.decode alpha) :: p.map f32.decode), alpha, p⟩

/-! ## Regions and rows of memory -/

/-- The region register of ACCLD and ACCST: first row, rows, first column, columns (R322). -/
def regionFields (x : Nat) : Nat × Nat × Nat × Nat := (bits x 6 0, bits x 14 8 + 1, bits x 22 16, bits x 30 24 + 1)

def regionStatus (x : Nat) : Option Nat :=
  let (r0, nr, c0, nc) := regionFields x
  if bitOf x 7 || bitOf x 15 || bitOf x 23 || bitOf x 31 then some stBadCmd
  else if 128 < r0 + nr ∨ 128 < c0 + nc then some stBadShape
  else none

/-- The elements of a row as one number of `w` bits each. -/
def packRow (w : Nat) (xs : List Nat) : Nat := xs.foldr (fun x acc => x % 2 ^ w + acc <<< w) 0

/-- Units of a run of bits, written one after another; how many of them, and what stopped the next. -/
def State.writeUnits (s : State) (o : EngineOp) (a w v : Nat) : List Nat → Nat → State × Nat × Option EngineBar
  | [], k => (s, k, none)
  | u :: us, k =>
    let z := unitSize u
    let parts := (partsOf a w).filter fun (at_, _) => ((a + at_) % 2 ^ 64) / z * z == u
    match s.matReach o a w parts with
    | (s, .error b) => (s, k, some b)
    | (s, .ok ps) =>
      let mask := parts.foldl (fun m (at_, n) => m ||| (2 ^ n - 1) <<< ((a + at_ + 2 ^ 64 - u) % 2 ^ 64)) 0
      ((s.spanWrite o v ps).engineWatch o u mask).writeUnits o a w v us (k + 1)

/-- A row is written from its unit `row0` on; then the next row, or the end. -/
def State.writeRow (s : State) (n : Nat) (o : EngineOp) (m : MatOp) (rows a w v : Nat) (again : Instr) : State :=
  match s.writeUnits o a w v ((runUnits a w).drop m.row0) m.row0 with
  | (s, k, some b) => (s.setMat n { m with row0 := k }).engineStop n o b 2 again
  | (s, _, none) =>
    if rows ≤ m.row + 1 then s.opOk n else (s.setMat n { m with row := m.row + 1, row0 := 0, rowVal := none }).post again

/-! ## The quantiser (R323, R324) -/

/-- ⌊log₂ |x|⌋ of a number. -/
def expOf (d : Dyadic) : Int := (Nat.log2 d.m.natAbs : Int) + d.e

def FVal.expo? : FVal → Option Int
  | .num d => some (expOf d)
  | _ => none

/-- The starts of variable blocks. -/
def variableStarts (t : Nat) (xs : List FVal) : List Nat :=
  ((xs.zip (xs.drop 1)).zipIdx.foldl (fun (starts, len, e) ((y, x), i) =>
    let e : Option Int := match y.expo?, e with
      | some a, some b => some (max a b)
      | some a, none => some a
      | none, e => e
    let jump : Bool := match e, x.expo? with | some a, some b => decide ((t : Int) < (b - a).natAbs) | _, _ => false
    if len = 64 ∨ (8 ≤ len ∧ jump) then ((i + 1) :: starts, 1, none) else (starts, len + 1, e)) ([0], 1, none)).1.reverse

/-- A list cut at some ascending places, of which the first is 0. -/
def cutAt {α : Type} (l : List α) : List Nat → List (List α)
  | [] => []
  | [a] => [l.drop a]
  | a :: b :: rest => (l.drop a).take (b - a) :: cutAt l (b :: rest)

/-- |x − y|. -/
def Dyad.dist (x y : Dyadic) : Dyadic := let z := Dyad.add x (Dyad.neg y); ⟨z.m.natAbs, z.e⟩

def FVal.dyad : FVal → Dyadic
  | .num d => d
  | _ => ⟨0, 0⟩

def FVal.finite : FVal → Bool
  | .num _ | .zero _ => true
  | _ => false

def matIntMax (fmt : Nat) : Nat := 2 ^ (matWidth fmt - 1) - 1

/-- M of R324. -/
def matMax (fmt : Nat) : Dyadic := if fmt ≤ 7 then (formatOf fmt).magnitude (formatOf fmt).maxCode else ⟨matIntMax fmt, 0⟩

/-- RoundTo(x, fmt, RNE.sat), the integer formats included. -/
def matEncode (fmt : Nat) (x : FVal) : Nat :=
  if fmt ≤ 7 then ((formatOf fmt).round ⟨0, true⟩ x).1
  else
    let w := matWidth fmt
    wrapInt w (match x with
      | .num d => max (-(2 ^ (w - 1) : Nat) : Int) (min (matIntMax fmt) (roundInt 0 d))
      | .inf n => if n then -(2 ^ (w - 1) : Nat) else matIntMax fmt
      | _ => 0)

/-- The scale code of a block whose largest finite magnitude is a. -/
def scaleCode (fmt : Nat) (xs : List FVal) : Nat :=
  match xs.filterMap fun x => match x with | .num d => some (⟨d.m.natAbs, d.e⟩ : Dyadic) | _ => none with
  | [] => 127
  | d :: ds =>
    let a := ds.foldl (fun a x => if Dyad.lt a x then x else a) d
    let e0 := expOf a - expOf (matMax fmt)
    let e := if Dyad.le (Dyad.scale a (-e0)) (matMax fmt) then e0 else e0 + 1
    (max 0 (min 254 (e + 127))).toNat

/-- Division by the scale. -/
def unscale (code : Nat) (x : FVal) : FVal :=
  match x with
  | .num d => .num (Dyad.scale d (127 - (code : Int)))
  | v => v

/-- The value of an E2M1 code, in units of the scale. -/
def e2m1Value (c : Nat) : Dyadic := (e2m1.decode c).dyad

/-- The element with the largest error of its plain code, the lowest index on a tie. -/
def worstElement (ys : List FVal) : Option FVal :=
  let err (y : FVal) : Dyadic := Dyad.dist y.dyad (e2m1Value (matEncode 7 y))
  match ys.filter FVal.finite with
  | [] => none
  | y :: rest => some (rest.foldl (fun b y => if Dyad.lt (err b) (err y) then y else b) y)

/-- A code of E2M1, which may be the special value's; y is the element divided by the scale. -/
def specialCodeOf (special : Dyadic) (y : FVal) : Nat :=
  let near (v : Dyadic) : Bool := Dyad.lt (Dyad.dist special y.dyad) (Dyad.dist v y.dyad)
  if y.finite && ((List.range 16).filter (· ≠ 8)).all (fun c => near (e2m1Value c)) then 8 else matEncode 7 y

/-- A block: its metadata word and its codes. -/
def quantBlock (fmt : Nat) (spec : Bool) (xs : List FVal) : Nat × List Nat :=
  if xs.any FVal.isNan then (0x00FF, xs.map fun _ => 0)
  else
    let code := scaleCode fmt xs
    let ys := xs.map (unscale code)
    if fmt = 7 ∧ spec then
      match worstElement ys with
      | none => (code, ys.map (matEncode fmt))
      | some y =>
        let byte := (e4m3.round ⟨0, true⟩ y).1
        (byte * 256 + code, ys.map (specialCodeOf (e4m3.decode byte).dyad))
    else (code, ys.map (matEncode fmt))

/-- A row: block starts, metadata words and codes. -/
def quantRow (d : Desc) (t : Nat) (xs : List FVal) : List Nat × List Nat × List Nat :=
  match d.bmode with
  | 0 => ([], [], xs.map (matEncode d.fmt))
  | _ =>
    let starts := if d.bmode = 1 then (List.range xs.length).filter fun k => k % (8 <<< d.flen) == 0 else variableStarts t xs
    let blocks := (cutAt xs starts).map (quantBlock d.fmt d.spec)
    (starts, blocks.map (·.1), blocks.flatMap (·.2))

/-- The runs of bits that QUANT writes for a row: address, width, value. -/
def quantSpans (d : Desc) (n r : Nat) (q : List Nat × List Nat × List Nat) : List (Nat × Nat × Nat) :=
  let w := matWidth d.fmt
  [((d.base + r * d.rstride) % 2 ^ 64, n * w, packRow w q.2.2)] ++
  (if d.bmode = 0 then [] else [((d.meta_ + 16 * (r * d.mstride)) % 2 ^ 64, 16 * q.2.1.length, packRow 16 q.2.1)]) ++
  (if d.bmode = 2 then [((d.bmap + r * n) % 2 ^ 64, n, maskOf q.1)] else [])

/-- All runs of a row are reached before one of them is written. -/
def State.reachSpans (s : State) (o : EngineOp) : List (Nat × Nat × Nat) →
    State × Except EngineBar (List (Nat × Nat × Nat × List (Nat × Nat × Spot)))
  | [] => (s, .ok [])
  | (a, w, v) :: rest =>
    match s.matReach o a w (partsOf a w) with
    | (s, .error b) => (s, .error b)
    | (s, .ok ps) =>
      match s.reachSpans o rest with
      | (s, .error b) => (s, .error b)
      | (s, .ok qs) => (s, .ok ((a, w, v, ps) :: qs))

/-- The watchpoints hear of the units of a run. -/
def State.watchRun (s : State) (o : EngineOp) (a w : Nat) : State :=
  (runUnits a w).foldl (fun s u =>
    let z := unitSize u
    let mask := (partsOf a w).foldl (fun m (at_, n) =>
      let x := (a + at_) % 2 ^ 64
      if x / z * z = u then m ||| (2 ^ n - 1) <<< (x - u) else m) 0
    s.engineWatch o u mask) s

/-- One row of QUANT. -/
def State.quantStep (s : State) (n : Nat) (o : EngineOp) (m : MatOp) (again : Instr) : State :=
  let d := descOf (m.descs.getD 0 0)
  let w := (formatOf m.fmt).width
  if d.fmt ≤ 2 then s.opErr n stBadShape
  else if m.rows = 0 ∨ m.elems = 0 then s.opOk n
  else match s.matLoad o ((m.a + m.row * m.stride) % 2 ^ 64) (m.elems * w) with
    | (s, .error b) => s.engineStop n o b 1 again
    | (s, .ok x) =>
      let q := quantRow d m.thresh ((List.range m.elems).map fun k => (formatOf m.fmt).decode ((x >>> (k * w)) % 2 ^ w))
      if d.mstride < q.2.1.length then s.opErr n stMetaOverflow
      else match s.reachSpans o (quantSpans d m.elems m.row q) with
        | (s, .error b) => s.engineStop n o b 2 again
        | (s, .ok runs) =>
          let s := runs.foldl (fun s (a, w, v, ps) => (s.spanWrite o v ps).watchRun o a w) s
          if m.rows ≤ m.row + 1 then s.opOk n else (s.setMat n { m with row := m.row + 1 }).post again

/-! ## The effects of the commands -/

/-- MMA (R316). -/
def State.runMma (s : State) (n : Nat) (o : EngineOp) (m : MatOp) (again : Instr) : State :=
  let me := o.engine - 2
  if m.mismatched then s.opErr n stKMismatch
  else match s.mmaOperands o m with
    | (s, .error b) => s.engineStop n o b 1 again
    | (s, .ok (a, b, g)) =>
      let c := if m.ovr then zeroTile else (s.coreAt o.warp.die o.warp.core).tileRows me m.tile
      (s.modCore o.warp.die o.warp.core fun k => k.putTile me m.tile (matProduct g a b c)).opOk n

/-- Where P goes: in the block's own scratchpad (R317). -/
def State.pPlace (s : State) (o : EngineOp) (m : MatOp) : Except Nat Nat :=
  if m.pAddr >>> 56 ≠ 8 then .error stBadWindow
  else if m.pAddr % 2 ^ 56 + 16384 * (formatOf m.fmt).width ≤ 8 * (s.blockAt o.warp.block).header.spad then .ok (m.pAddr % 2 ^ 56)
  else .error stSpadBound

/-- MMA.SM (R317): tile S, then tile O and the side registers, then P. -/
def State.runMmaSm (s : State) (n : Nat) (o : EngineOp) (m : MatOp) (again : Instr) : State :=
  let me := o.engine - 2
  if m.mismatched then s.opErr n stKMismatch
  else match s.pPlace o m with
    | .error st => s.opErr n st
    | .ok off =>
      match s.mmaOperands o m with
      | (s, .error b) => s.engineStop n o b 1 again
      | (s, .ok (a, b, g)) =>
        let c := s.coreAt o.warp.die o.warp.core
        let t := (matProduct g a b zeroTile).map fun r => r.map (mul32 m.sigma)
        let rows := t.zipIdx.map fun (row, i) => softRow (c.sideOf me m.otile i).1 (c.sideOf me m.otile i).2 row
        let out := List.zipWith (fun r (x : SoftRow) => r.map fun v => mul32 v x.alpha) (c.tileRows me m.otile) rows
        let w := (formatOf m.fmt).width
        let p := packRow w ((rows.flatMap (·.p)).map fun x => ((formatOf m.fmt).round ⟨m.rnd, m.sat⟩ (f32.decode x)).1)
        let s := s.modCore o.warp.die o.warp.core fun k =>
          rows.zipIdx.foldl (fun k (x, i) => k.putSide me m.otile i x.m x.l) ((k.putTile me m.tile t).putTile me m.otile out)
        let s := s.modBlock o.warp.block fun k => k.spadWrite off (16384 * w) p
        (s.watchRun o m.pAddr (16384 * w)).opOk n

/-- ACCLD (R322): the rows of its region, read before the tile is written. -/
def State.runAccld (s : State) (n : Nat) (o : EngineOp) (m : MatOp) (again : Instr) : State :=
  let me := o.engine - 2
  let (r0, nr, c0, nc) := regionFields m.region
  let t := formatOf m.fmt
  match regionStatus m.region with
  | some st => s.opErr n st
  | none =>
    match s.matLoads o ((List.range nr).map fun i => ((m.a + i * m.stride) % 2 ^ 64, nc * t.width)) with
    | (s, .error b) => s.engineStop n o b 1 again
    | (s, .ok vs) =>
      let row (v : Nat) : List Nat := (List.range nc).map fun j => encodeExact f32 (t.decode ((v >>> (j * t.width)) % 2 ^ t.width))
      (s.modCore o.warp.die o.warp.core fun k =>
        vs.zipIdx.foldl (fun k (v, i) => k.putRow me m.tile (r0 + i) c0 (row v)) k).opOk n

/-- One row of ACCST (R322). -/
def State.accstStep (s : State) (n : Nat) (o : EngineOp) (m : MatOp) (again : Instr) : State :=
  let (r0, nr, c0, nc) := regionFields m.region
  let t := formatOf m.fmt
  match regionStatus m.region with
  | some st => s.opErr n st
  | none =>
    let row := (((s.coreAt o.warp.die o.warp.core).tileRow (o.engine - 2) m.tile (r0 + m.row)).drop c0).take nc
    let v := packRow t.width (row.map fun x => (t.round ⟨m.rnd, m.sat⟩ (f32.decode x)).1)
    s.writeRow n o m nr ((m.a + m.row * m.stride) % 2 ^ 64) (nc * t.width) v again

/-- One row of DEQ (R325): read and converted once, then written unit by unit. -/
def State.deqStep (s : State) (n : Nat) (o : EngineOp) (m : MatOp) (again : Instr) : State :=
  let t := formatOf m.fmt
  if m.rows = 0 ∨ m.elems = 0 then s.opOk n
  else
    let put (s : State) (v : Nat) : State :=
      s.writeRow n o { m with rowVal := some v } m.rows ((m.b + m.row * m.stride) % 2 ^ 64) (m.elems * t.width) v again
    match m.rowVal with
    | some v => put s v
    | none =>
      match s.readOperandRow o (descOf (m.descs.getD 0 0)) m.elems m.row with
      | (s, .error b) => s.engineStop n o b 1 again
      | (s, .ok xs) => put s (packRow t.width (xs.map fun x => (t.round ⟨m.rnd, m.sat⟩ x).1))

/-- ACCSIDE (R321): lane i acts on row (row0 + i) mod 128. -/
def State.runAccside (s : State) (n : Nat) (o : EngineOp) (m : MatOp) : State :=
  let me := o.engine - 2
  let row (l : Nat) : Nat := (m.row0 + l) % 128
  if m.read then
    let c := s.coreAt o.warp.die o.warp.core
    let writes := m.lanes.flatMap fun (l, _, _) =>
      [⟨.v m.reg, l, (c.sideOf me m.tile (row l)).1⟩, ⟨.v (m.reg + 1), l, (c.sideOf me m.tile (row l)).2⟩]
    let id := m.entry.getD 0
    let s := s.modWarpAt o.warp fun w => w.modEntry id fun e => { e with results := writes }
    (s.opOk n).post (.longLatencyResult o.warp id)
  else
    (s.modCore o.warp.die o.warp.core fun k => m.lanes.foldl (fun k (l, a, b) => k.putSide me m.tile (row l) a b) k).opOk n

def State.runAccz (s : State) (n : Nat) (o : EngineOp) (m : MatOp) : State :=
  (s.modCore o.warp.die o.warp.core fun k => k.clearTile (o.engine - 2) m.tile).opOk n

/-- A command at work: the next row of those that go by rows, the whole of the others. -/
def State.runMatrix (s : State) (n : Nat) (o : EngineOp) (m : MatOp) (again : Instr) : State :=
  match m.kind with
  | .mma => s.runMma n o m again
  | .mmaSm => s.runMmaSm n o m again
  | .accld => s.runAccld n o m again
  | .accst => s.accstStep n o m again
  | .accz => s.runAccz n o m
  | .accside => s.runAccside n o m
  | .quant => s.quantStep n o m again
  | .deq => s.deqStep n o m again

/-- The command that an engine runs. -/
def State.runningMatrix (s : State) (die core engine : Nat) : Option (Nat × EngineOp) := (s.runningCopies die core engine).head?

/-- A command of the queue has a descriptor to read that only a conversion or a plane holds back. -/
def State.descHeld (s : State) (n : Nat) : Bool :=
  match s.opAt n with
  | some o => (match o.work with | .matrix m => !o.suspended && !m.toRead.isEmpty | _ => false)
  | none => false

/-- MATRIX_COMMAND_START: an idle engine takes the command at the head of its queue; the commands that wait go on reading
their descriptors. -/
def execMatrixCommandStart (die core engine : Nat) (s : State) : Out :=
  let s := (s.engineQueue die core engine).foldl State.enterMatrix s
  let again := Instr.matrixCommandStart die core engine
  match s.runningMatrix die core engine, s.engineQueue die core engine with
  | none, n :: rest =>
    let s := (s.setEngineQueue die core engine rest).modOp n fun o => { o with started := true }
    let s := s.post (.matrixCommandEnd die core engine)
    .next (if rest.any s.descHeld then s.post again else s)
  | _, q => .next (if q.any s.descHeld then s.post again else s)

/-- MATRIX_COMMAND_END: the command's effect, once its issuer's earlier accesses are done (R257) and no miss suspends it. -/
def execMatrixCommandEnd (die core engine : Nat) (s : State) : Out :=
  let again := Instr.matrixCommandEnd die core engine
  match s.runningMatrix die core engine with
  | none => .next s
  | some (n, o) =>
    match o.work with
    | .matrix m =>
      if o.suspended || !s.opReady o then .next (s.post again)
      else if !m.toRead.isEmpty then .next ((s.enterMatrix n).post again)
      else match m.ends with
        | some st => .next (s.opErr n st)
        | none => .next (s.runMatrix n o m again)
    | _ => .next s

/-! ## The end of a copy (R294, R299, R318) -/

/-- The command block of CPY.MM, if it passes R318. -/
def commandOf (x : Nat) : Option MatOp :=
  let kind := bits x 203 200
  let mod := bits x 207 204
  let xmod := bits x 223 208
  let a := bits x 63 0
  let b := bits x 127 64
  if bits x 199 192 ≠ 0 ∨ bitOf mod 3 then none
  else if kind = 0 then
    if bits x 255 224 ≠ 0 ∨ bits x 191 128 ≠ 0 ∨ bits mod 1 0 ≠ 0 ∨ bits xmod 15 2 ≠ 0 then none
    else some { MatOp.none with kind := .mma, tile := bits xmod 1 0, ovr := bitOf mod 2, a, b }
  else if kind = 1 then
    if mod ≠ 0 ∨ bits xmod 15 10 ≠ 0 ∨ bits xmod 1 0 = bits xmod 3 2 then none
    else some
      { MatOp.none with
        kind := .mmaSm, tile := bits xmod 1 0, otile := bits xmod 3 2, ovr := true, a, b, sigma := bits x 255 224
        pAddr := bits x 191 128, fmt := bits xmod 6 4, rnd := bits xmod 8 7, sat := bitOf xmod 9 }
  else none

/-- The command block goes to its matrix engine, under the copy's handle. -/
def State.followOn (s : State) (n : Nat) (o : EngineOp) (me a : Nat) : State :=
  let engine := 2 + me
  let again := Instr.copyOperationEnd n
  if a % 256 ≠ 0 then s.opErr n stMisalign
  else match s.matLoad o a 256 with
    | (s, .error b) => s.engineStop n o b 1 again
    | (s, .ok x) =>
      match commandOf x with
      | none => s.opErr n stBadCmd
      | some m =>
        if 4 ≤ (s.engineQueue o.warp.die o.warp.core engine).length then s.post again
        else
          let s := (s.modOp n fun o => { o with engine, started := false, work := .matrix m }).kick o
          ((s.enqueueOp o.warp.die o.warp.core engine n).enterMatrix n).post (.matrixCommandStart o.warp.die o.warp.core engine)

/-- ENGINE_MISS_RESUME: the kernel instance has mapped the page, or declared the address unresolvable (R292). -/
def execEngineMissResume (n : Nat) (resolved : Bool) (s : State) : Out :=
  .next ((s.modOp n fun o => { o with suspended := false, unresolved := !resolved }).enterMatrix n)

/-- COPY_OPERATION_END. A copy that had no bits to move issues no command (R296). -/
def execCopyOperationEnd (n : Nat) (s : State) : Out :=
  match s.opAt n with
  | none => .next s
  | some o =>
    match o.work with
    | .copy c =>
      if !c.ready || !c.units.isEmpty then .next s
      else match c.mm with
        | none => .next (s.opOk n)
        | some (me, a) => if !c.hasBits then .next (s.opOk n) else if o.suspended then .next (s.post (.copyOperationEnd n)) else .next (s.followOn n o me a)
    | _ => .next s

/-- CANCEL_HONOURED (R294, R302, R319): a copy ends between units, a matrix command before it starts or between rows; the
other engines go on to the end. -/
def execCancelHonoured (n : Nat) (s : State) : Out :=
  match s.opAt n with
  | none => .next s
  | some o =>
    let end_ := s.finishOp n .cancelled 0
    if !o.cancel then .next s
    else match o.work with
      | .copy _ => .next end_
      | .matrix m =>
        match m.kind with
        | .quant | .deq | .accst => .next (if !o.started || m.row0 == 0 then end_ else s.post (.cancelHonoured n))
        | _ => .next (if o.started then s else end_)
      | .msg _ | .conv _ _ => .next s

end Sys2Proof.Machine
end

