-- ==== Sys2Proof/Machine/Placement.lean ====
section
/-! DEFINITION. Placement tables and conversions (R326 to R353). -/

namespace Sys2Proof.Machine

/-! ## Placement states (R327 to R330) -/

def PlEntry.width (e : PlEntry) : Nat := (formatOf e.fmt).width

/-- The size of an axis; an unused axis counts as 1. -/
def PlEntry.axis (e : PlEntry) (k : Nat) : Nat := max 1 (e.axes.getD k 0)

/-- The extent of a dimension; an unused dimension counts as 1. -/
def PlEntry.extent (e : PlEntry) (d : Nat) : Nat := max 1 (e.ext.getD d 0)

def PlEntry.count (e : PlEntry) : Nat := e.axis 0 * e.axis 1 * e.axis 2

def axisState (st k : Nat) : Nat := bits st (4 * k + 3) (4 * k)

/-- The dimension that a code shards. -/
def shardDim (c : Nat) : Option Nat := if 4 ≤ c ∧ c ≤ 7 then some (c - 4) else none

def isPartial (c : Nat) : Bool := decide (1 ≤ c) && decide (c ≤ 3)

/-- The axis that holds SHD(d), if any. -/
def shardAxis (st d : Nat) : Option Nat := (List.range 3).find? fun k => shardDim (axisState st k) = some d

/-- A valid state vector (R329). -/
def PlEntry.validState (e : PlEntry) (st : Nat) : Bool :=
  decide (st < 2 ^ 12) &&
  (List.range 3).all fun k =>
    let c := axisState st k
    if k < e.naxes then
      decide (c ≤ 7) &&
      (match shardDim c with
       | some d => decide (d ≤ e.rank) && e.extent d % e.axis k == 0 && shardAxis st d == some k
       | none => true)
    else c == 0

/-- The local extent of a dimension (R330). -/
def PlEntry.localExtent (e : PlEntry) (st d : Nat) : Nat :=
  match shardAxis st d with
  | some k => e.extent d / e.axis k
  | none => e.extent d

def PlEntry.localCount (e : PlEntry) (st : Nat) : Nat := ((List.range 4).map (e.localExtent st)).foldl (· * ·) 1

/-- The local tensors of the state fit their buffers (R330). -/
def PlEntry.reachable (e : PlEntry) (st : Nat) : Bool := decide (e.localCount st * e.width ≤ e.bstride)

/-- Some axis would go from one partial kind to another (R331). -/
def crosses (a b : Nat) : Bool :=
  (List.range 3).any fun k => isPartial (axisState a k) && isPartial (axisState b k) && axisState a k != axisState b k

/-! ## Entries and their images (R326 to R328) -/

def plKey (pid idx : Nat) : Nat := pid * 4096 + idx

def State.plAt (s : State) (pid idx : Nat) : PlEntry := tget PlEntry.blank s.placements (plKey pid idx)

/-- Word 7 of an entry. -/
def PlEntry.word7 (e : PlEntry) : Nat :=
  e.fmt + e.rank * 2 ^ 6 + e.naxes * 2 ^ 8 + b2n e.busy * 2 ^ 13 + b2n e.failed * 2 ^ 14 + b2n e.valid * 2 ^ 15 + e.cause * 2 ^ 16 +
    e.gen * 2 ^ 32

def PlEntry.words (e : PlEntry) : List Nat :=
  let x (l : List Nat) (i : Nat) : Nat := l.getD i 0
  [e.cur, e.alt, e.bstride, e.mlist, x e.ext 0 + x e.ext 1 * 2 ^ 32, x e.ext 2 + x e.ext 3 * 2 ^ 32,
   e.state + x e.axes 0 * 2 ^ 12 + x e.axes 1 * 2 ^ 24 + x e.axes 2 * 2 ^ 36, e.word7]

/-- An entry changes, in the engines and in the process's table in memory. -/
def State.setPl (s : State) (pid idx : Nat) (e : PlEntry) : State :=
  let s := { s with placements := tput PlEntry.blank s.placements (plKey pid idx) e }
  s.deviceWrites (s.device * 2 ^ 55 + (s.procAt pid).pltable.toNat + 512 * idx) e.words

/-- The fields of an image. -/
def entryOf (x : Nat) : PlEntry :=
  let w (n hi lo : Nat) : Nat := bits x (64 * n + hi) (64 * n + lo)
  { cur := w 0 63 0, alt := w 1 63 0, bstride := w 2 63 0, mlist := w 3 63 0
    ext := [w 4 31 0, w 4 63 32, w 5 31 0, w 5 63 32], axes := [w 6 23 12, w 6 35 24, w 6 47 36], state := w 6 11 0
    gen := w 7 63 32, cause := w 7 23 16, valid := bitOf x (448 + 15), failed := bitOf x (448 + 14), busy := bitOf x (448 + 13)
    naxes := w 7 9 8, rank := w 7 7 6, fmt := w 7 3 0, members := [], failStatus := 0, arrived := false }

/-- The image follows R327 and defines an entry at rest (R347). -/
def imageOk (x : Nat) : Bool :=
  let e := entryOf x
  let w (n hi lo : Nat) : Nat := bits x (64 * n + hi) (64 * n + lo)
  w 6 63 48 == 0 && w 7 31 24 == 0 && w 7 12 10 == 0 && w 7 5 4 == 0 &&
  e.valid && !e.failed && !e.busy && e.cause == 0 &&
  decide (1 ≤ e.naxes) && decide (e.fmt ≤ 7) && e.mlist % 16 == 0 &&
  ((List.range 4).all fun d => if d ≤ e.rank then e.ext.getD d 0 != 0 else e.ext.getD d 0 == 0) &&
  ((List.range 3).all fun k =>
    let n := e.axes.getD k 0
    if k < e.naxes then decide (1 ≤ n) && decide (n ≤ 2048) else n == 0 && axisState e.state k == 0) &&
  decide (e.count ≤ 2048)

/-- The words of a member list. -/
def listWords (n x : Nat) : List Nat := (List.range n).map fun i => (x >>> (16 * i)) % 2 ^ 16

/-- R328. -/
def membersOk (ws : List Nat) : Bool := ws.all (fun w => decide (w < 2 ^ 11)) && ws.eraseDups.length == ws.length

def membersOf (ws : List Nat) : List (Nat × Nat) := ws.map fun w => (bits w 10 2, w % 4)

/-- The linear index of a die. -/
def PlEntry.memberOf (e : PlEntry) (device die : Nat) : Option Nat := e.members.findIdx? (· == (device, die))

/-- A member of this device. -/
def State.localMember (s : State) (e : PlEntry) (m : Nat) : Bool := (e.members.getD m (512, 0)).1 == s.device

def PlEntry.buffer (e : PlEntry) (base m : Nat) : Nat := (base + m * e.bstride) % 2 ^ 64

/-! ## The arithmetic of a conversion (R331, R332) -/

/-- The axis coordinates of a member. -/
def PlEntry.coord (e : PlEntry) (m k : Nat) : Nat :=
  match k with
  | 0 => m % e.axis 0
  | 1 => m / e.axis 0 % e.axis 1
  | _ => m / (e.axis 0 * e.axis 1)

/-- The member with another coordinate on one axis. -/
def PlEntry.withCoord (e : PlEntry) (m k c : Nat) : Nat :=
  let x (j : Nat) : Nat := if j = k then c else e.coord m j
  x 0 + e.axis 0 * (x 1 + e.axis 1 * x 2)

/-- The coordinate, on an axis that holds SHD(d), of the members that hold index `i` of dimension d. -/
def PlEntry.ownerCoord (e : PlEntry) (k d i : Nat) : Nat := i / (e.extent d / e.axis k)

/-- The first index that a member holds in a dimension. -/
def PlEntry.sliceStart (e : PlEntry) (st m d : Nat) : Nat :=
  match shardAxis st d with
  | some k => e.coord m k * (e.extent d / e.axis k)
  | none => 0

/-- The place of an element within a member's local tensor. -/
def PlEntry.flat (e : PlEntry) (st m : Nat) (g : List Nat) : Nat :=
  let i (d : Nat) : Nat := g.getD d 0 - e.sliceStart st m d
  i 0 + e.localExtent st 0 * (i 1 + e.localExtent st 1 * (i 2 + e.localExtent st 2 * i 3))

/-- The element at a place of a member's local tensor. -/
def PlEntry.unflat (e : PlEntry) (st m x : Nat) : List Nat :=
  let l (d : Nat) : Nat := max 1 (e.localExtent st d)
  let at_ (d i : Nat) : Nat := e.sliceStart st m d + i
  [at_ 0 (x % l 0), at_ 1 (x / l 0 % l 1), at_ 2 (x / (l 0 * l 1) % l 2), at_ 3 (x / (l 0 * l 1 * l 2))]

/-- The members that hold an element in a state: the coordinates on sharded axes are the owners'. -/
def PlEntry.owner (e : PlEntry) (st m : Nat) (g : List Nat) : Nat :=
  (List.range 3).foldl (fun m k =>
    match shardDim (axisState st k) with
    | some d => e.withCoord m k (e.ownerCoord k d (g.getD d 0))
    | none => m) m

/-- What a member that holds no share of a partial value writes (R331): +0; for PMAX and PMIN minus infinity or, in a format
without infinity, the finite value that the table gives each. -/
def fillCode (fmt c : Nat) : Nat :=
  let t := formatOf fmt
  if c = 2 ∨ c = 3 then (if t.specials = .ieee then t.withSign true t.infCode else t.withSign (c == 2) t.maxCode) else 0

/-- A reduction over a group, in ascending coordinate (R332). -/
def reduceCodes (fmt c : Nat) (xs : List Nat) : Nat :=
  let t := formatOf fmt
  match xs.map t.decode with
  | [] => 0
  | v :: vs =>
    let step (a x : FVal) : FVal := if c = 1 then f32.decode (fAdd f32 rne a x).1 else minMaxVal (c == 2) true a x
    (t.round rne (vs.foldl step v)).1

/-- The code of an element after the first `k` axes have been converted, as the member sees it. -/
def PlEntry.converted (e : PlEntry) (source target : Nat) (read : Nat → List Nat → Nat) (g : List Nat) : Nat → Nat → Nat
  | 0, m => read (e.owner source m g) g
  | k + 1, m =>
    let x := axisState source k
    let y := axisState target k
    let before := e.converted source target read g k
    if x = y then before m
    else if isPartial x then reduceCodes e.fmt x ((List.range (e.axis k)).map fun c => before (e.withCoord m k c))
    else if isPartial y then
      let holder := match shardDim x with | some d => e.ownerCoord k d (g.getD d 0) | none => 0
      if e.coord m k = holder then before m else fillCode e.fmt y
    else before m

/-- An element of a member's source: captured by this device's engines, or another device's. -/
def State.sourceElem (s : State) (key : Nat) (e : PlEntry) (c : Conv) (m : Nat) (g : List Nat) : Nat :=
  let i := e.flat c.source m g
  if s.localMember e m then (tget 0 c.captured m >>> (i * e.width)) % 2 ^ e.width
  else Config.remoteElement key c.since m i % 2 ^ e.width

/-- The local tensor of a member after the conversion. -/
def State.targetBits (s : State) (key : Nat) (e : PlEntry) (c : Conv) (m : Nat) : Nat :=
  packRow e.width ((List.range (e.localCount c.target)).map fun x =>
    e.converted c.source c.target (s.sourceElem key e c) (e.unflat c.target m x) 3 m)

/-! ## Buffers, sectors and marks (R338) -/

/-- The sectors of a buffer: number, first bit within the buffer and width. -/
def bufferSectors (base len : Nat) : List (Nat × Nat × Nat) :=
  (List.range ((base % 512 + len + 511) / 512)).map fun i =>
    let lo := if i = 0 then 0 else 512 * i - base % 512
    (i, lo, min len (512 * (i + 1) - base % 512) - lo)

def PlEntry.sourceSectors (e : PlEntry) (st m : Nat) : List (Nat × Nat × Nat) :=
  bufferSectors (e.buffer e.cur m) (e.localCount st * e.width)

def PlEntry.destSectors (e : PlEntry) (st m : Nat) : List (Nat × Nat × Nat) :=
  bufferSectors (e.buffer e.alt m) (e.localCount st * e.width)

/-- A translation by a die's Meridian engine (R361): of the supervisor window for supervisor mode alone (R16), and with a walk
anew where a cached leaf lacks a permission, which then goes (R364). -/
def State.meridianXlat (s : State) (die process va : Nat) (user : Bool) (n : Need) : State × Xlat :=
  let sp := spaceOf va
  match windowOf (va >>> 56) with
  | some 0 | some 3 | some 4 =>
    if sp = 2 ∧ user then (s, .perm)
    else
    let hit := (s.dieAt die).meridian.find? fun t =>
      (sp == 2 || t.process == process) && t.space == sp && t.va == va / 2 ^ t.size * 2 ^ t.size
    match hit.filter fun t => leafGrants t.leaf.toNat user n with
    | some t => (s, .ok (leafAddr s.device t.leaf.toNat t.size va) t.leaf.toNat)
    | none =>
      let s := match hit with
        | some t => s.modDie die fun d => { d with meridian := d.meridian.filter (· != t) }
        | none => s
      let (r, reads) := s.walk die process va
      let s := reads.foldl (fun s x => s.noteSharer (meridianAgent die) x.line) s
      match r with
      | .miss => (s, .miss)
      | .bad => (s, .bad)
      | .leaf e level a =>
        let s := if bitOf e 9 then s else (s.homeUpdate (a + 9) 1 fun _ => 1).2.homeReport (a + 9) 1 2 9 die process
        let e := e ||| 512
        let t : TlbEntry :=
          { process, space := sp, va := va / 2 ^ pageBits level * 2 ^ pageBits level, size := pageBits level, leaf := BitVec.ofNat 64 e,
            line := lineOf a }
        let s := s.modDie die fun d => { d with meridian := (t :: d.meridian).take 4096 }
        if leafGrants e user n then (s, .ok (leafAddr s.device e (pageBits level) va) e) else (s, .perm)
  | _ => (s, .bad)

/-- An access of a Meridian engine. -/
def State.meridianReach (s : State) (o : EngineOp) (k : AccessKind) (n : Need) (va width : Nat) : State × Except EngineBar (Nat × Nat) :=
  match s.meridianXlat o.warp.die o.process va o.user n with
  | (s, .miss) => if o.unresolved then (s, .error (.status stNotMapped)) else (s, .error (.miss va))
  | (s, .perm) => (s, .error (.status stPerm))
  | (s, .bad) => (s, .error (.status stNotMapped))
  | (s, .ok fa leaf) =>
    match s.barred o.process o.user k fa leaf width none with
    | some (.trap c _) => (s, .error (.status (statusOf c)))
    | some .refused => (s.dropHost, .error (.status stNotMapped))
    | some _ => (s, .error (.status stNotMapped))
    | none =>
      if s.isHost fa && k == .store && (s.hostRange fa width (·.w)).isNone then (s.dropHost, .error (.status stNotMapped))
      else match s.served fa (leafMode leaf o.hint) with
        | none => (s, .error (.status stPoison))
        | some fa => (s, .ok (fa, leaf))

/-- Mark the sectors of a member's buffer; the address of the first that misses, in place of what follows it. A sector that no
access can reach takes no mark: the conversion ends when its engine gets there. -/
def State.markSectors (s : State) (o : EngineOp) (key m base : Nat) (source : Bool) :
    List (Nat × Nat × Nat) → State × Option Nat
  | [] => (s, none)
  | (i, lo, w) :: rest =>
    match s.meridianReach o (if source then .load else .store) (if source then needR else needW) ((base + lo) % 2 ^ 64) w with
    | (s, .error (.miss va)) => (s, some va)
    | (s, .error _) => s.markSectors o key m base source rest
    | (s, .ok (fa, _)) =>
      let mark : Mark := ⟨sectorOf fa, key, m, i⟩
      let add (l : List Mark) : List Mark := if l.contains mark then l else mark :: l
      (if source then { s with srcMarks := add s.srcMarks } else { s with dstMarks := add s.dstMarks }).markSectors o key m base source rest

/-- The marks of an entry go. -/
def dropMarks (key : Nat) (l : List Mark) : List Mark := l.filter fun x => x.key != key

/-- The mark of one part of a member's buffer goes. -/
def dropMark (key m i : Nat) (l : List Mark) : List Mark := l.filter fun x => !(x.key == key && x.member == m && x.part == i)

/-- Sub-gangs that wait for a conversion, or for a generation, look again (R339, R351). -/
def Warp.wakePlacement (w : Warp) : Warp :=
  let clear (q : Quad) : Quad :=
    if q.wait == .plwait || q.wait == .placementPark then { q with wait := .none, operand := 0 } else q
  let w : Warp := { w with quads := w.quads.map clear }
  match w.parked with
  | some r => if !r.park && w.stall = 9 then { w with parked := none, replays := r :: w.replays } else w
  | none => w

/-- Those of a process, and of the dies in whose engines there is room again (R344). -/
def State.wakePlacement (s : State) (pid : Nat) (dies : List Nat := []) : State :=
  s.modWarps (fun w => s.processOf w == pid || dies.contains w.id.die) Warp.wakePlacement

/-! ## Joining (R333 to R335, R344) -/

def State.convAt (s : State) (pid idx : Nat) : Option Conv := tget none s.convs (plKey pid idx)

def State.setConv (s : State) (pid idx : Nat) (c : Option Conv) : State := { s with convs := tput none s.convs (plKey pid idx) c }

/-- The conversions that a die's engine runs. -/
def State.convsOfDie (s : State) (die : Nat) : Nat :=
  (s.ops.filter fun (_, o) => match o with
    | some o => o.engine == 5 && o.handle.isNone && o.warp.die == die
    | none => false).length

/-- The operation under which an engine acts for a member; no warp has number 64. -/
def agentOp (die pid idx target hint : Nat) (user : Bool) (seq : Nat) : EngineOp :=
  { warp := { die, core := 0, block := 0, warp := 64 }, gang := [], process := pid, user, handle := none, hseq := 0, seq, engine := 5,
    hint, started := true, cancel := false, suspended := false, unresolved := false, work := .conv idx target }

def Conv.start (gen source target since : Nat) : Conv :=
  { gen, source, target, joined := [], since, unread := [], unwritten := [], marked := [], captured := [], agents := [] }

/-- A member's sectors take their marks (R338). A sector that misses suspends the engine until the page is mapped, and the
marking goes on then. -/
def State.markMember (s : State) (pid idx m n : Nat) (o : EngineOp) (c : Conv) (source target : Nat) : State :=
  let e := s.plAt pid idx
  let key := plKey pid idx
  match s.markSectors o key m (e.buffer e.cur m) true (e.sourceSectors source m) with
  | (s, some va) => (s.suspendOp n o va 1).setConv pid idx (some c)
  | (s, none) =>
    match s.markSectors o key m (e.buffer e.alt m) false (e.destSectors target m) with
    | (s, some va) => (s.suspendOp n o va 2).setConv pid idx (some c)
    | (s, none) => s.setConv pid idx (some { c with marked := m :: c.marked })

/-- A member of this device joins: its sectors are marked, the entry is busy, and its request is on its way. -/
def State.joinLocal (s : State) (pid idx die m target hint : Nat) (user : Bool) : State :=
  let e := s.plAt pid idx
  let c := (s.convAt pid idx).getD (Conv.start e.gen e.state target s.timer)
  let n := s.nextOp
  let o := agentOp die pid idx target hint user s.nextSeq
  let s := { s.setOp n (some o) with nextOp := n + 1, nextSeq := s.nextSeq + 1 }
  let s := s.markMember pid idx m n o { c with agents := tput none c.agents m (some n) } e.state target
  (s.setPl pid idx { e with busy := true }).post (.joinRequest pid idx m e.gen e.state target)

/-- The member's sectors all bear their marks. -/
def State.marksSet (s : State) (pid idx m : Nat) : Bool :=
  match s.convAt pid idx with | some c => c.marked.contains m | none => false

/-- What a demand meets. -/
inductive Demand where
  | current          -- the entry stands in the demanded state
  | joined           -- the member takes part in the conversion to it
  | join             -- the member may join now
  | wait             -- another conversion comes first, or the engine is full
  deriving DecidableEq, Repr

def State.demandOf (s : State) (pid idx die m target : Nat) : Demand :=
  if (s.plAt pid idx).state = target then .current
  else match s.convAt pid idx with
    | some c =>
      if (tget none c.agents m).isSome then (if c.target = target then .joined else .wait)
      else if 16 ≤ s.convsOfDie die then .wait else .join
    | none => if 16 ≤ s.convsOfDie die then .wait else .join

/-- The member's conversion to another state is in flight, after which the demand is for the next generation (R335). -/
def State.thirdState (s : State) (pid idx die target : Nat) : Bool :=
  match s.convAt pid idx, (s.plAt pid idx).memberOf s.device die with
  | some c, some m => (tget none c.agents m).isSome && c.target != target
  | _, _ => false

/-- The first check of R349 that an entry fails, as a trap code and as a status of PLCONV. -/
def State.plCheck (s : State) (pid idx die target : Nat) : Option (Nat × Nat) :=
  let e := s.plAt pid idx
  if 4096 ≤ idx ∨ !e.valid then some (cNotMapped, 0x32)
  else if (e.memberOf s.device die).isNone then some (cNotMapped, 0x35)
  else if !e.validState target || !e.reachable target then some (cNotMapped, 0x30)
  else if crosses e.state target && !s.thirdState pid idx die target then some (cPlMismatch, 0x30)
  else if e.failed then some (e.cause, e.failStatus)
  else none

/-! ## PLDEF, PLSET, PLDROP, PLQRY, PLWAIT -/

/-- The accesses of a placement instruction in the name of its warp. -/
def State.warpOp (s : State) : EngineOp :=
  { warp := s.warp.id, gang := s.warp.gang, process := s.processOf s.warp, user := s.warp.user, handle := none, hseq := 0, seq := s.nextSeq, engine := 5,
    hint := 0, started := false, cancel := false, suspended := false, unresolved := false, work := .conv 0 0 }

/-- A precise read of `w` bits by an instruction that acts once, as LD reads them; an outcome in place of a value when it
does not succeed. -/
def State.readOnce (s : State) (f : Fields) (a w : Nat) : State × Except Out Nat :=
  let lane := (s.actLanes f).headD 0
  match s.place s.warp a w with
  | .error c => (s, .error (.next (s.trap { code := c, addr := a, lane, flags := 1 })))
  | .ok _ =>
    let (s, r) := s.reachAll s.warp ⟨.load, needR, w, none⟩ [(lane, a)]
    match s.reachStop r 1 with
    | some o => (s, .error o)
    | none =>
      if !r.bad.isEmpty then (s, .error (.next (s.parkReach r ((s.actLanes f).map fun l => (l, a)) 1)))
      else match r.parts.find? fun p => (s.spotStatus p.spot p.width).isSome with
        | some p =>
          let code := if s.spotStatus p.spot p.width = some stDataLost then cDataLost else cPoison
          (s, .error (.next (s.trap { code, addr := p.va, lane, flags := 1 })))
        | none =>
          if r.parts.any fun p => s.spotHeld p.spot p.width false then (s, .error (.next (s.stallAt 28)))
          else
            let s := r.parts.foldl (fun s p => s.engineFill s.warpOp p.spot p.width) s
            (s, .ok (r.parts.foldl (fun x p => x + s.engineRead s.warpOp p.spot p.width <<< p.at_) 0))

/-- The status goes to d and the instruction is over. -/
def State.plStatus (s : State) (f : Fields) (status : Nat) : State :=
  (s.later (coversD f 1) (s.onceResult f 1 status) 0).advance f

/-- The checks of R347 on an image, in order, up to its member list. -/
def State.pldefFirst (s : State) (f : Fields) (pid idx x : Nat) : Option Nat :=
  let old := s.plAt pid idx
  if 4096 ≤ idx then some 0x32
  else if old.busy then some 0x34
  else if old.valid && !f.xb 0 then some 0x38
  else if !imageOk x then some 0x32
  else none

/-- The rest of them. -/
def State.pldefLast (s : State) (e : PlEntry) (ws : List Nat) : Option Nat :=
  if !membersOk ws then some 0x32
  else if (e.memberOf s.device s.warp.id.die).isNone then some 0x35
  else if !e.validState e.state || !e.reachable e.state then some 0x33
  else none

def execPldef (f : Fields) (s : State) : Out :=
  if !s.acts f then .next (s.advance f)
  else match s.release 4 with
    | (s, false) => .next (s.stallAt 28)
    | (s, true) =>
      let pid := s.processOf s.warp
      let idx := s.uword f.a.toNat
      match s.readOnce f (s.upair f.b) 512 with
      | (_, .error o) => o
      | (s, .ok x) =>
        match s.pldefFirst f pid idx x with
        | some st => .next (s.plStatus f st)
        | none =>
          let e := entryOf x
          match s.readOnce f e.mlist (16 * e.count) with
          | (_, .error o) => o
          | (s, .ok l) =>
            let ws := listWords e.count l
            let e := { e with members := membersOf ws }
            match s.pldefLast e ws with
            | some st => .next (s.plStatus f st)
            | none =>
              let key := plKey pid idx
              let s := { s.setPl pid idx e with srcMarks := dropMarks key s.srcMarks, dstMarks := dropMarks key s.dstMarks }
              .next ((s.wakePlacement pid).plStatus f 0)

/-- PLSET's status and, where it changes the entry, the entry (R348). -/
def State.plsetResult (s : State) (idx st v : Nat) : Nat × Option PlEntry :=
  let e := s.plAt (s.processOf s.warp) idx
  if 4096 ≤ idx ∨ !e.valid then (0x32, none)
  else if (e.memberOf s.device s.warp.id.die).isNone then (0x35, none)
  else if e.busy then (0x34, none)
  else if !e.validState st || !e.reachable st then (0x33, none)
  else if v = e.gen ∧ e.state = st then (0, none)
  else if v = (e.gen + 1) % 2 ^ 32 then (0, some { e with state := st, gen := v, failed := false, cause := 0, failStatus := 0 })
  else (0x36, none)

def execPlset (f : Fields) (s : State) : Out :=
  if !s.acts f then .next (s.advance f)
  else match s.release 5 with
    | (s, false) => .next (s.stallAt 28)
    | (s, true) =>
      let pid := s.processOf s.warp
      let idx := s.uword f.a.toNat
      match s.plsetResult idx (s.uword f.b.toNat) (s.uword f.c.toNat) with
      | (st, none) => .next (s.plStatus f st)
      | (st, some e) =>
        let s := { s.setPl pid idx e with dstMarks := dropMarks (plKey pid idx) s.dstMarks }
        .next ((s.wakePlacement pid).plStatus f st)

/-- PLDROP (R353). -/
def execPldrop (f : Fields) (s : State) : Out :=
  if !s.acts f then .next (s.advance f)
  else
    let pid := s.processOf s.warp
    let idx := s.uword f.a.toNat
    let e := s.plAt pid idx
    let key := plKey pid idx
    let pending := (s.srcMarks ++ s.dstMarks).any fun x => x.key == key
    if 4096 ≤ idx ∨ !e.valid then .next (s.plStatus f 0x32)
    else if (e.memberOf s.device s.warp.id.die).isNone then .next (s.plStatus f 0x35)
    else if e.busy || pending then .next (s.plStatus f 0x34)
    else .next (((s.setPl pid idx { e with valid := false }).wakePlacement pid).plStatus f 0)

/-- The value of PLQRY (R352). -/
def State.plQuery (s : State) (idx sel : Nat) : Nat :=
  let e := s.plAt (s.processOf s.warp) idx
  let m := e.memberOf s.device s.warp.id.die
  let ones := 2 ^ 64 - 1
  if 4096 ≤ idx ∨ !e.valid then ones
  else match sel with
    | 0 => e.cur
    | 1 => e.alt
    | 2 => e.state
    | 3 => e.gen
    | 4 => e.word7 % 2 ^ 32
    | 5 => e.localCount e.state
    | 6 => m.getD ones
    | _ => (m.map (e.buffer e.cur)).getD ones

def execPlqry (f : Fields) (s : State) : Out :=
  if !s.acts f then .next (s.advance f)
  else .next ((s.later (coversD f 2) (s.onceResult f 2 (s.plQuery (s.uword f.a.toNat) (f.mn 2 0))) 0).advance f)

def execPlwait (f : Fields) (s : State) : Out :=
  if !s.acts f then .next (s.advance f true)
  else
    let idx := s.uword f.a.toNat
    let e := s.plAt (s.processOf s.warp) idx
    let lane := (s.actLanes f).headD 0
    if 4096 ≤ idx ∨ !e.valid then .next (s.trap { code := cNotMapped, lane })
    else if e.failed then .next (s.trap { code := e.cause, info0 := idx, lane })
    else if e.gen = s.uword f.b.toNat then .next (s.block .plwait 0 9)
    else .next (((s.acquire (some 5)).later (coversD f 1) (s.onceResult f 1 e.gen) 0).advance f true)

/-! ## LD.PL (R349) -/

/-- The issuing sub-gang parks its pending lanes on the conversion. -/
def State.parkPlacement (s : State) (pending : List (Nat × Nat)) (slot : Nat) : State :=
  s.modWarp fun w =>
    let again := match w.resuming with | some r => !r.park | none => false
    let record : Replay := { pc := w.pc, lanes := pending, park := !again, unresolved := false, slot }
    { (if again then w else w.modGang fun q => { q with wait := .placementPark, operand := 0 }) with
      stall := 9, parked := some record, resuming := none }

/-- The element index of a lane. -/
def State.plIndex (s : State) (f : Fields) (lane : Nat) : Int :=
  (if f.mb 3 then sintOf 64 (s.srcBReg f 2 lane) else (s.srcBReg f 1 lane : Nat)) + sintOf 32 f.imm32.toNat

/-- Some part of a lane lies in a sector that a conversion has not written. -/
def State.laneHeld (s : State) (ps : List PartAt) : Bool :=
  ps.any fun p => match p.spot with | .mem fa _ => s.marked fa p.width false | _ => false

/-- The loads from a buffer: lanes whose sectors are written load, the others park, as all do until the member's sectors bear
their marks. A lane keeps its element index, with which a replay goes on (R343). What a conversion has written is read as an
acquire at `.fab` (R349). -/
def State.plLoad (s : State) (f : Fields) (buf w n : Nat) (lanes : List (Nat × Nat)) (converting marked arrived : Bool) : Out :=
  let addrs := lanes.map fun (l, i) => (l, (buf + i * w) % 2 ^ 64)
  match s.windowBreach s.warp (n * w) addrs with
  | some (l, a, c) => .next (s.trap { code := c, addr := a, lane := l, flags := 1 })
  | none =>
    let (s, r) := s.reachAll s.warp ⟨.load, needR, n * w, none⟩ addrs
    match s.reachStop r 1 with
    | some o => o
    | none =>
      match s.noRoom r.parts with
      | some n => .next (s.stallAt n)
      | none =>
        let index (l : Nat) : Nat := (lanes.lookup l).getD 0
        let ready := (r.good.filter fun x => !(converting && (!marked || s.laneHeld x.2.2))).map fun (l, _, ps) => (l, index l, ps)
        let acq : Option Nat := if converting || arrived then some 5 else none
        let pending := lanes.filter fun x => !(ready.map (·.1)).contains x.1
        let dest : LoadDest := { uniform := false, reg := f.d.toNat, elems := n, width := w, signed := false }
        let covers := (List.range n).map fun j => RegName.v (f.d.toNat + j)
        if pending.isEmpty then
          .next ((s.startLoad f.hint.toNat ⟨ready, []⟩ covers dest acq (s.watchOf true false (seenOf (n * w) addrs))).advance f true)
        else
          let t := if ready.isEmpty then s else s.startLoad f.hint.toNat ⟨ready, []⟩ covers dest acq none
          .next (if r.bad.isEmpty then t.parkPlacement pending f.slot else t.parkReach r pending 1 f.slot)

def execLdPl (f : Fields) (s : State) : Out :=
  let lanes := s.laneOperands f (s.plIndex f)
  let pid := s.processOf s.warp
  let die := s.warp.id.die
  let idx := s.uword f.a.toNat
  let target := s.uword f.c.toNat
  let n := if f.form = .w128 then f.xn 3 0 + 1 else 1
  let e := s.plAt pid idx
  match lanes with
  | [] => .next (s.advance f true)
  | (l0, _) :: _ =>
    match s.indirectBreach (.ldPl f) f, s.plCheck pid idx die target with
    | some r, _ => .next (s.indirectTrap f r)
    | none, some (c, _) => .next (s.trap { code := c, info0 := if c = cNotMapped then 0 else idx, lane := l0, flags := 1 })
    | none, none =>
      match lanes.find? fun (_, i) => decide (i < 0) || decide ((e.localCount target : Nat) < i + n) with
      | some (l, _) => .next (s.trap { code := cNotMapped, lane := l, flags := 1 })
      | none =>
        let m := (e.memberOf s.device die).getD 0
        let elems := lanes.map fun (l, i) => (l, i.toNat)
        match s.demandOf pid idx die m target with
        | .current => s.plLoad f (e.buffer e.cur m) e.width n elems false true e.arrived
        | .joined => s.plLoad f (e.buffer e.alt m) e.width n elems true (s.marksSet pid idx m) true
        | .wait => .next (s.parkPlacement elems f.slot)
        | .join =>
          match s.release 5 with
          | (s, false) => .next (s.stallAt 28)
          | (s, true) =>
            let s := s.joinLocal pid idx die m target f.hint.toNat s.warp.user
            s.plLoad f (e.buffer e.alt m) e.width n elems true (s.marksSet pid idx m) true

/-! ## PLCONV (R350) -/

/-- PLCONV with a handle: its operation ends at once with a status, or with the conversion that its member has joined. -/
def State.convOp (s : State) (f : Fields) (h idx target : Nat) (status : Option Nat) : State :=
  let n := s.nextOp
  let s := (s.startOp f.d.toNat 5 f.hint.toNat h (.conv idx target)).modOp n fun o => { o with started := true }
  (match status with
   | some 0 => s.opOk n
   | some st => s.opErr n st
   | none => s).advance f true

/-- A demand that has to wait, for another generation or for room in the engine, holds the warp with stall reason 9 (R335,
R344), and so do marks that wait for a page (R489). -/
def execPlconv (f : Fields) (s : State) : Out :=
  if !s.acts f then .next (s.advance f true)
  else
    let idx := s.uword f.a.toNat
    let target := s.uword f.b.toNat
    let pid := s.processOf s.warp
    let die := s.warp.id.die
    let m := ((s.plAt pid idx).memberOf s.device die).getD 0
    match s.myBlock.freeHandle with
    | none => .next (s.stallAt 27)
    | some h =>
      let joined (s : State) : State := if s.marksSet pid idx m then s.convOp f h idx target none else s.stallAt 9
      match s.plCheck pid idx die target with
      | some (_, st) => .next (s.convOp f h idx target (some st))
      | none =>
        match s.demandOf pid idx die m target with
        | .current => .next (s.convOp f h idx target (some 0))
        | .joined => .next (joined s)
        | .wait => .next (s.stallAt 9)
        | .join =>
          match s.release 5 with
          | (s, false) => .next (s.stallAt 28)
          | (s, true) => .next (joined (s.joinLocal pid idx die m target f.hint.toNat s.warp.user))

/-! ## The coordinator and the engines (R334 to R344) -/

/-- Every member has joined; the members of other devices join at their own coordinator's device. -/
def State.allJoined (s : State) (e : PlEntry) (c : Conv) : Bool :=
  let elsewhere := !s.localMember e 0
  (List.range e.members.length).all fun m => c.joined.contains m || (elsewhere && !s.localMember e m)

/-- Once every member has joined and every source sector of this device is read, the destinations are written. -/
def State.beginWrites (s : State) (pid idx : Nat) : State :=
  let e := s.plAt pid idx
  match s.convAt pid idx with
  | none => s
  | some c =>
    if !c.unread.isEmpty || !s.allJoined e c || !c.unwritten.isEmpty then s
    else
      let mine := ((List.range e.members.length).filter fun m => s.localMember e m).flatMap fun m =>
        (e.destSectors c.target m).map fun x => (m, x.1)
      let s := s.setConv pid idx (some { c with unwritten := mine })
      mine.foldl (fun s (m, i) => s.post (.destinationSectorWritten pid idx m i)) s

/-- A member of this device is lost (R341). -/
def State.memberLost (s : State) (e : PlEntry) : Bool := e.members.any fun (d, die) => d == s.device && !s.alive die

/-- A join is accepted: this device's engines read the member's source. -/
def State.acceptJoin (s : State) (pid idx m : Nat) (c : Conv) : State :=
  let e := s.plAt pid idx
  let sectors := if s.localMember e m then (e.sourceSectors c.source m).map fun x => (m, x.1) else []
  let s := s.setConv pid idx (some { c with joined := m :: c.joined, unread := c.unread ++ sectors })
  (sectors.foldl (fun s (m, i) => s.post (.sourceSectorRead pid idx m i)) s).beginWrites pid idx

/-- The operation under which a member's engine acts. -/
def State.agentOf (s : State) (c : Conv) (m : Nat) : Option (Nat × EngineOp) :=
  match tget none c.agents m with
  | some n => (s.opAt n).map fun o => (n, o)
  | none => none

/-- A request reaches the coordinator, or on its way there its own device's engines, which follow it. -/
def State.joinAt (s : State) (pid idx m gen cur demanded : Nat) : State :=
    let e := s.plAt pid idx
    let s := if s.localMember e 0 then s
      else { s with sent := s.sent ++ [.join (e.members.getD 0 (0, 0)).1 idx m gen cur demanded] }
    let c := (s.convAt pid idx).getD (Conv.start gen cur demanded s.timer)
    if e.gen ≠ gen ∨ c.gen ≠ gen ∨ c.source ≠ cur ∨ c.target ≠ demanded then s.post (.conversionAbort pid idx .mismatch)
    else if s.memberLost e then (s.setConv pid idx (some c)).post (.conversionAbort pid idx .lostDie)
    else if c.joined.contains m then s
    else
      let s := if c.joined.isEmpty then s.post (.placementTimeout pid idx) else s
      s.acceptJoin pid idx m c

/-- JOIN_REQUEST: the first request of a generation fixes the conversion, and one that differs aborts it (R334). A request
whose coordinator is another device's goes there. The request of a member of this device follows its marks. -/
def execJoinRequest (pid idx m gen cur demanded : Nat) (s : State) : Out :=
  let e := s.plAt pid idx
  let again := Instr.joinRequest pid idx m gen cur demanded
  if e.members.length ≤ m then .next s
  else match (if s.localMember e m then s.convAt pid idx else none) with
    | some c =>
      if c.marked.contains m then .next (s.joinAt pid idx m gen cur demanded)
      else match s.agentOf c m with
        | none => .next s
        | some (n, o) =>
          if o.suspended then .next (s.post again) else .next ((s.markMember pid idx m n o c cur demanded).post again)
    | none => if s.localMember e m then .next s else .next (s.joinAt pid idx m gen cur demanded)

/-- What an access of an engine that fails makes of the conversion. -/
def State.engineBlocked (s : State) (pid idx n : Nat) (o : EngineOp) (b : EngineBar) (flags : Nat) (again : Instr) : State :=
  match b with
  | .miss va => (s.suspendOp n o va flags).post again
  | .held => s.post again
  | .status st => s.post (.conversionAbort pid idx (.engine st))

/-- An access of a conversion's engine: marks of other entries hold it back as they hold any other (R339). -/
def State.convReach (s : State) (key : Nat) (o : EngineOp) (k : AccessKind) (n : Need) (va w : Nat) :
    State × Except EngineBar (Nat × Nat) :=
  match s.meridianReach o k n va w with
  | (s, .ok (fa, leaf)) =>
    if s.convHeld (·.key == key) fa w (k == .store) || s.planeHeld fa then (s, .error .held) else (s, .ok (fa, leaf))
  | r => r

/-- The write-back, at a release, of what a die's L2 holds of a line, and the line's replica (R231, R379). -/
def State.releaseLine (s : State) (die line : Nat) : State :=
  (match s.l2At die line with
   | some l => if l.kind == LineKind.nc || l.rdie.isSome then s.writeBack die line else s
   | none => s).drainForwards (· == line)

/-- A write of a conversion: an engine arrival, and so a release of it at `.fab` (R338). The cores' copies of the sector go. -/
def State.convStore (s : State) (o : EngineOp) (fa w v : Nat) (mode : Mode) : State :=
  let fresh (x : Core) : Core := { x with l1 := tput none x.l1 (sectorOf fa) none }
  let r := o.storeReq s.nextSeq fa w v mode
  let s := if s.isLocal fa && (mode.coh || dieOf fa == o.warp.die) then s.fillWrite r else s.storeOut r
  { s with cores := s.cores.map fun (k, x) => (k, fresh x) }.releaseLine o.warp.die (lineOf fa)

/-- SOURCE_SECTOR_READ (R338, R340). -/
def execSourceSectorRead (pid idx m i : Nat) (s : State) : Out :=
  let e := s.plAt pid idx
  let again := Instr.sourceSectorRead pid idx m i
  match s.convAt pid idx with
  | none => .next s
  | some c =>
    if !c.unread.contains (m, i) then .next s
    else match s.agentOf c m, (e.sourceSectors c.source m).find? fun x => x.1 == i with
      | some (n, o), some (_, lo, w) =>
        if o.suspended then .next (s.post again)
        else match s.convReach (plKey pid idx) o .load needR ((e.buffer e.cur m + lo) % 2 ^ 64) w with
          | (s, .error b) => .next (s.engineBlocked pid idx n o b 1 again)
          | (s, .ok (fa, leaf)) =>
            match s.poisonOf fa w with
            | some k => .next (s.post (.conversionAbort pid idx (.engine (if k = 1 then stPoison else stDataLost))))
            | none =>
              let s := s.fillRead o.warp.die fa w pid (leafMode leaf o.hint)
              let x := s.dieRead o.warp.die fa w
              let c := { c with
                unread := c.unread.filter (· != (m, i))
                captured := tmod 0 c.captured m fun y => insertBits y lo w x }
              .next (({ s with srcMarks := dropMark (plKey pid idx) m i s.srcMarks }.setConv pid idx (some c)).beginWrites pid idx)
      | _, _ => .next s

/-- DESTINATION_SECTOR_WRITTEN (R338): the write is a release at `.fab` that each access which waited for it follows. -/
def execDestinationSectorWritten (pid idx m i : Nat) (s : State) : Out :=
  let e := s.plAt pid idx
  let again := Instr.destinationSectorWritten pid idx m i
  match s.convAt pid idx with
  | none => .next s
  | some c =>
    if !c.unwritten.contains (m, i) then .next s
    else match s.agentOf c m, (e.destSectors c.target m).find? fun x => x.1 == i with
      | some (n, o), some (_, lo, w) =>
        if o.suspended then .next (s.post again)
        else match s.convReach (plKey pid idx) o .store needW ((e.buffer e.alt m + lo) % 2 ^ 64) w with
          | (s, .error b) => .next (s.engineBlocked pid idx n o b 2 again)
          | (s, .ok (fa, leaf)) =>
            let s := s.convStore o fa w ((s.targetBits (plKey pid idx) e c m >>> lo) % 2 ^ w) (leafMode leaf o.hint)
            let s : State := { s with dstMarks := dropMark (plKey pid idx) m i s.dstMarks }
            let c := { c with unwritten := c.unwritten.filter (· != (m, i)) }
            let s := (s.setConv pid idx (some c)).wakePlacement pid
            .next (if c.unwritten.isEmpty then s.post (.conversionComplete pid idx) else s)
      | _, _ => .next s

/-- The conversion is over on this device: its engines are free, its handles end, and the waiting demands are made. -/
def State.endConv (s : State) (pid idx : Nat) (c : Conv) (fin : Nat → State → State) : State :=
  let full := (List.range 4).filter fun d => 16 ≤ s.convsOfDie d
  let s := c.agents.foldl (fun s (_, n) => match n with | some n => s.setOp n none | none => s) s
  let s := s.setConv pid idx none
  let s := s.ops.foldl (fun s (n, _) => match s.opAt n with
    | some o => (match o.work with
      | .conv j _ => if j == idx && o.process == pid && o.handle.isSome then fin n s else s
      | _ => s)
    | none => s) s
  s.wakePlacement pid full

/-- CONVERSION_COMPLETE (R336). -/
def execConversionComplete (pid idx : Nat) (s : State) : Out :=
  match s.convAt pid idx with
  | none => .next s
  | some c =>
    if !c.unwritten.isEmpty || !c.unread.isEmpty || !s.allJoined (s.plAt pid idx) c then .next s
    else
      let e := s.plAt pid idx
      let s := s.setPl pid idx
        { e with cur := e.alt, alt := e.cur, state := c.target, gen := (e.gen + 1) % 2 ^ 32, busy := false, arrived := true }
      .next (s.endConv pid idx c fun n s => s.opOk n)

/-- The trap code that an abort records, and the status of its PLCONV handles (R342). -/
def abortCodes : AbortCause → Nat × Nat
  | .mismatch => (cPlMismatch, 0x30)
  | .timeout => (cPlTimeout, 0x31)
  | .lostDie => (cDieLost, stDieLost)
  | .engine st => (cPlTimeout, st)

/-- What an abort tells other devices (R341): the coordinator's goes to every member that has joined; an error that another
device's engine meets goes to the coordinator. -/
def State.sendAborts (s : State) (e : PlEntry) (idx : Nat) (c : Conv) (cause : AbortCause) : State :=
  let device (m : Nat) : Nat := (e.members.getD m (0, 0)).1
  let local0 := s.localMember e 0
  let far := if local0 then (c.joined.map device).eraseDups.filter (· ≠ s.device) else
    match cause with | .engine _ => [device 0] | _ => []
  { s with sent := s.sent ++ far.map fun d => .abort d idx c.gen cause }

/-- CONVERSION_ABORT (R342). The marks on destinations stay. -/
def execConversionAbort (pid idx : Nat) (cause : AbortCause) (s : State) : Out :=
  match s.convAt pid idx with
  | none => .next s
  | some c =>
    let e := s.plAt pid idx
    let s := { s.sendAborts e idx c cause with srcMarks := dropMarks (plKey pid idx) s.srcMarks }
    let (code, status) := abortCodes cause
    let s := if c.agents.isEmpty then s else s.setPl pid idx { e with failed := true, busy := false, cause := code, failStatus := status }
    .next (s.endConv pid idx c fun n s => s.opErr n status)

/-- PLACEMENT_TIMEOUT (R341): the coordinator's limit has passed and some member has not joined. -/
def execPlacementTimeout (pid idx : Nat) (s : State) : Out :=
  match s.convAt pid idx with
  | none => .next s
  | some c =>
    if s.allJoined (s.plAt pid idx) c then .next s
    else if s.timer < c.since + (s.procAt pid).pltimeout.toNat then .next (s.post (.placementTimeout pid idx))
    else .next (s.post (.conversionAbort pid idx .timeout))

end Sys2Proof.Machine
end

