-- ==== Sys2Proof/Machine/System.lean ====
section
/-! DEFINITION. The system instructions and the system registers (R430 to R436). -/

namespace Sys2Proof.Machine

/-! ## TRAP and RTE -/

/-- The immediate of a system instruction, or its register in the lowest active lane. -/
def State.sysB (s : State) (f : Fields) : Nat := s.srcB f false 32 1 ((s.actLanes f).headD 0)

/-- TRAP: the quads stand after it, and the record names it (R432). -/
def execTrap (f : Fields) (s : State) : Out :=
  let code := s.sysB f
  if !s.acts f then .next (s.advance f true)
  else if 2 ^ 16 ≤ code then .next (s.illegal (.trap f))
  else
    let pc := s.warp.pc
    let t : Trap := { code := cTrapInsn, info0 := code, lane := (s.actLanes f).headD 0 }
    let s := s.advance f true
    .next (if s.warp.isVesper then s.trapVesper (pc + 64) t else s.trapCore pc t)

/-- The trap registers of the issuing Vesper core. -/
def State.ves (s : State) : VesperRegs := s.myCore.ves

def State.modVes (s : State) (g : VesperRegs → VesperRegs) : State :=
  s.modCore s.warp.id.die s.warp.id.core fun c => { c with ves := g c.ves }

/-- RTE (R433). -/
def execRte (f : Fields) (s : State) : Out :=
  if !s.acts f then .next (s.advance f true)
  else
    let v := s.ves
    let s := s.modVes fun v => { v with ecause := v.ecause &&& ~~~(0x8000#64) }
    .next (s.modWarp fun w =>
      { (w.modGang fun q => { q with pc := v.epc, wait := .none, operand := 0 }).endRun with
        user := v.emode.getLsbD 0, resuming := none })

/-! ## System registers (R436) -/

def State.modLink (s : State) (l : Nat) (g : Link → Link) : State := { s with links := tmod Link.reset s.links l g }

def Link.wave (l : Link) (n : Nat) : Wavelength := tget Wavelength.reset l.waves n

/-- The slots of a core that hold a block. -/
def State.slotMask (s : State) (die core : Nat) : Nat :=
  maskOf ((s.blocks.filter fun (_, b) => b.place == .resident && b.die == die && b.core == core).map fun (n, _) => blockSlot n)

/-- CORECTL as it reads (R423). -/
def State.corectl (s : State) (die core : Nat) : Nat :=
  let c := s.coreAt die core
  b2n (c.halt == .halted) + b2n c.byTrap * 2 + b2n (c.halt == .halting) * 4 + s.slotMask die core * 2 ^ 16

/-- The kinds of system register by number. -/
inductive SysReg where
  | procsel | userroot | hostroot | rotthresh | pltimeout | migthresh | lqtable | pltable | savepool | dbhost
  | suproot | fqbase | fqctl | fqhead | fqtail | fqsync | fqfull | dmap | duskctx | duskckpt
  | tvec | epc | ecause | eaddr | emode | wake
  | dirrecall | dirinval | replfwd | angstall | hbmiss | epoch | hostdrop | leaselost | leaseper
  | corectl (n : Nat) | wave (kind link wavelength : Nat) | lnkreplay (link : Nat) | lnkstate (link : Nat) | wlthresh (link : Nat)
  deriving DecidableEq, Repr

def sysReg (n : Nat) : Option SysReg :=
  match n with
  | 0x01 => some .procsel | 0x10 => some .userroot | 0x11 => some .hostroot | 0x12 => some .rotthresh
  | 0x13 => some .pltimeout | 0x14 => some .migthresh | 0x15 => some .lqtable | 0x16 => some .pltable
  | 0x17 => some .savepool | 0x18 => some .dbhost | 0x20 => some .suproot | 0x21 => some .fqbase
  | 0x22 => some .fqctl | 0x23 => some .fqhead | 0x24 => some .fqtail | 0x25 => some .fqsync
  | 0x26 => some .fqfull | 0x27 => some .dmap | 0x28 => some .duskctx | 0x29 => some .duskckpt
  | 0x30 => some .tvec | 0x31 => some .epc | 0x32 => some .ecause | 0x33 => some .eaddr
  | 0x34 => some .emode | 0x35 => some .wake | 0x40 => some .dirrecall | 0x41 => some .dirinval
  | 0x42 => some .replfwd | 0x43 => some .angstall | 0x44 => some .hbmiss | 0x45 => some .epoch
  | 0x48 => some .hostdrop | 0x49 => some .leaselost | 0x4A => some .leaseper
  | n =>
    if 0x100 ≤ n ∧ n < 0x140 then some (.corectl (n - 0x100))
    else if 0x1000 ≤ n ∧ n < 0x1A00 then some (.wave ((n - 0x1000) / 0x200) (n % 0x200 / 8) (n % 8))
    else if 0x1A00 ≤ n ∧ n < 0x1A40 then some (.lnkreplay (n - 0x1A00))
    else if 0x1A40 ≤ n ∧ n < 0x1A80 then some (.lnkstate (n - 0x1A40))
    else if 0x1A80 ≤ n ∧ n < 0x1AC0 then some (.wlthresh (n - 0x1A80))
    else none

/-- The value of a register that can be read. -/
def State.sysRead (s : State) (r : SysReg) : Option DWord :=
  let die := s.warp.id.die
  let d := (s.dieAt die).regs
  let p := s.procAt (bits d.procsel.toNat 15 0)
  let v := s.ves
  match r with
  | .procsel => some d.procsel
  | .userroot => some p.userroot
  | .hostroot => some p.hostroot
  | .rotthresh => some p.rotthresh
  | .pltimeout => some p.pltimeout
  | .migthresh => some p.migthresh
  | .lqtable => some p.lqtable
  | .pltable => some p.pltable
  | .savepool => some p.savepool
  | .dbhost => some p.dbhost
  | .suproot => some d.suproot
  | .fqbase => some d.fqbase
  | .fqctl => some d.fqctl
  | .fqhead => some d.fqhead
  | .fqtail => some d.fqtail
  | .fqsync => some d.fqsync
  | .fqfull => some d.fqfull
  | .dmap => some d.dmap
  | .duskctx | .duskckpt | .wake => none
  | .tvec => some v.tvec
  | .epc => some v.epc
  | .ecause => some v.ecause
  | .eaddr => some v.eaddr
  | .emode => some v.emode
  | .dirrecall => some d.dirrecall
  | .dirinval => some d.dirinval
  | .replfwd => some d.replfwd
  | .angstall => some d.angstall
  | .hbmiss => some d.hbmiss
  | .epoch => some d.epoch
  | .hostdrop => some s.hostDrop
  | .leaselost => some s.leaseLost
  | .leaseper => some s.leasePer
  | .corectl n => some (BitVec.ofNat 64 (s.corectl die n))
  | .wave kind link w =>
    let x := (s.linkAt link).wave w
    some (match kind with | 0 => x.rxBits | 1 => x.corrBits | 2 => x.uncorr | 3 => x.retrain | _ => x.fail)
  | .lnkreplay link => some (s.linkAt link).replay
  | .lnkstate link =>
    let l := s.linkAt link
    some (BitVec.ofNat 64 (l.active.toNat + l.training.toNat * 2 ^ 8 + l.disabled.toNat * 2 ^ 16))
  | .wlthresh link => some (s.linkAt link).thresh

/-- A value limited to a range (R434). -/
def limit (lo hi : Nat) (v : DWord) : DWord := BitVec.ofNat 64 (max lo (min hi v.toNat))

/-- A command to CORECTL (R423); `none` for the reserved codes. -/
def State.corectlWrite (s : State) (die core : Nat) (v : DWord) : Option State :=
  match bits v.toNat 2 0 with
  | 0 => some s
  | 1 => some (s.post (.corectlHalt die core))
  | 2 => some (s.post (.corectlResume die core))
  | 3 => some (s.post (.corectlDiscard die core (bits v.toNat 7 4) (v.getLsbD 8)))
  | _ => none

/-- A command to the Dusk engine: op 2 of a context command is a restore, and every other a save, which checks its op. -/
def State.duskWrite (s : State) (die addr : Nat) : State :=
  let op := bits (s.cohRead (s.device * 2 ^ 55 + addr % 2 ^ 55) 256) 27 24
  let s := s.modDie die fun d => { d with dusk := d.dusk ++ [addr] }
  s.post (if op = 2 then .contextRestore die addr else .contextSave die addr)

/-- A checkpoint command, by its descriptor's mode. -/
def State.checkpointWrite (s : State) (die addr : Nat) : State :=
  let mode := bits (s.cohRead (s.device * 2 ^ 55 + addr % 2 ^ 55) 256) 95 94
  let s := s.modDie die fun d => { d with ckpts := d.ckpts ++ [(addr, 0, false)] }
  s.post (if mode = 1 then .incrementalCheckpoint die addr else .fullCheckpoint die addr)

/-- A write to a register; `none` where R434 makes it illegal. Reserved fields discard what is written (R6), among them bits
[63:55] of a register that holds a physical address (R17), and the bit of the writing core in WAKE wakes nothing (R435). -/
def State.sysWrite (s : State) (r : SysReg) (v : DWord) : Option State :=
  let die := s.warp.id.die
  let reg (g : DieRegs → DieRegs) : Option State := some (s.modDie die fun d => { d with regs := g d.regs })
  let pid := bits (s.dieAt die).regs.procsel.toNat 15 0
  let proc (g : Process → Process) : Option State := some { s with procs := tmod Process.reset s.procs pid g }
  match r with
  | .procsel => reg fun d => { d with procsel := v &&& 0xFFFF#64 }
  | .userroot => proc fun p => { p with userroot := paReg v, context := true }
  | .hostroot => proc fun p => { p with hostroot := paReg v }
  | .rotthresh => proc fun p => { p with rotthresh := limit (10 ^ 4) (10 ^ 10) v }
  | .pltimeout => proc fun p => { p with pltimeout := limit (10 ^ 6) (10 ^ 11) v }
  | .migthresh => proc fun p => { p with migthresh := limit 64 65535 v }
  | .lqtable => proc fun p => { p with lqtable := paReg v }
  | .pltable => proc fun p => { p with pltable := paReg v }
  | .savepool => proc fun p => { p with savepool := paReg v }
  | .dbhost => proc fun p => { p with dbhost := v }
  | .suproot => some (s.post (.suproot die v))
  | .fqbase => reg fun d => { d with fqbase := paReg v, fqSet := true }
  | .fqctl => reg fun d => { d with fqctl := limit 4 16 (v &&& 0x1F#64), fqCtlSet := true }
  | .fqhead => reg fun d => { d with fqhead := v &&& 0xFFFF_FFFF#64 }
  | .fqsync => reg fun d => { d with fqsync := paReg v }
  | .dmap => reg fun d => { d with dmap := paReg v }
  | .duskctx => some (s.duskWrite die v.toNat)
  | .duskckpt => some (s.checkpointWrite die v.toNat)
  | .tvec => some (s.modVes fun x => { x with tvec := v })
  | .epc => some (s.modVes fun x => { x with epc := v })
  | .ecause => some (s.modVes fun x => { x with ecause := v &&& 0x80FF#64 })
  | .eaddr => some (s.modVes fun x => { x with eaddr := v })
  | .emode => some (s.modVes fun x => { x with emode := v &&& 1#64 })
  | .wake => some (s.post (.wake die (BitVec.ofNat 4 v.toNat &&& ~~~(1#4 <<< (s.warp.id.core - 64)))))
  | .leaseper => some { s with leasePer := limit (10 ^ 7) (10 ^ 10) v }
  | .corectl n => s.corectlWrite die n v
  | .wlthresh link => some (s.modLink link fun l => { l with thresh := limit 1000 (10 ^ 9) v })
  | .fqtail | .fqfull | .dirrecall | .dirinval | .replfwd | .angstall | .hbmiss | .epoch | .hostdrop | .leaselost
  | .wave _ _ _ | .lnkreplay _ | .lnkstate _ => none

/-- The order of SYSRD and SYSWR: a FENCE.sc.die on both sides (R434). -/
def State.sysFence (s : State) : State × Bool :=
  match s.release 3 with
  | (s, true) => (s.acquire (some 3), true)
  | r => r

def execSysrd (f : Fields) (s : State) : Out :=
  let n := s.sysB f
  if !s.acts f then .next (s.advance f)
  else match (if n < 2 ^ 16 then sysReg n else none).bind s.sysRead with
    | none => .next (s.illegal (.sysrd f))
    | some _ =>
      match s.sysFence with
      | (s, false) => .next (s.stallAt 28)
      | (s, true) =>
        let v := (((sysReg n).bind s.sysRead).getD 0).toNat
        .next ((s.later (coversD f 2) (s.onceResult f 2 v) 0).advance f)

def execSyswr (f : Fields) (s : State) : Out :=
  let n := s.sysB f
  let v := BitVec.ofNat 64 (s.srcA f 2 ((s.actLanes f).headD 0))
  if !s.acts f then .next (s.advance f)
  else match (if n < 2 ^ 16 then sysReg n else none) with
    | none => .next (s.illegal (.syswr f))
    | some r =>
      if (s.sysWrite r v).isNone then .next (s.illegal (.syswr f))
      else match s.sysFence with
        | (s, false) => .next (s.stallAt 28)
        | (s, true) => .next (((s.sysWrite r v).getD s).advance f)

/-! ## HALT and wake events (R435) -/

/-- HALT: a wake event that is kept lets it go on at once. -/
def State.vesperHalt (s : State) (f : Fields) : Out :=
  if !s.acts f then .next (s.advance f true)
  else if s.ves.woken then .next ((s.modVes fun v => { v with woken := false }).advance f true)
  else .next (s.block .vesperHalt 1 19)

def execHalt (f : Fields) (s : State) : Out := s.onceMore f .vesperHalt id fun s => s.vesperHalt f

/-- A wake event ends HALT; with operand 2 the quad has not started, and it starts where it stands (R459). -/
def Quad.wake (q : Quad) : Quad := { q with operand := 0, wait := if q.operand = 2 then .none else q.wait }

/-- WAKE_EVENT: a blocked HALT ends, or the next one will not block. -/
def execWakeEvent (die vcore : Nat) (s : State) : Out :=
  let core := 64 + vcore
  let here (w : Warp) : Bool := w.id.die == die && w.id.core == core
  let asleep (q : Quad) : Bool := q.wait == .vesperHalt && q.operand != 0
  if s.warps.any fun w => here w && w.quads.any asleep then
    .next (s.modWarps here fun w => { w with quads := w.quads.map fun q => if asleep q then q.wake else q })
  else .next (s.modCore die core fun c => { c with ves := { c.ves with woken := true } })

/-- A wake event for every Vesper core of a die. -/
def State.wakeDie (s : State) (die : Nat) : State := (List.range 4).foldl (fun s v => s.post (.wakeEvent die v)) s

/-- A Vesper core that a double trap halted starts again at TVEC (R430). -/
def State.restartVesper (s : State) (die core : Nat) : State :=
  let tvec := (s.coreAt die core).ves.tvec
  (s.modCore die core fun c => { c with ves := { c.ves with down := false } }).modWarps
    (fun w => w.id.die == die && w.id.core == core) fun w =>
      { w with
        halted := false, user := false, gang := [], parked := none, resuming := none
        quads := w.quads.map fun q => { q with pc := tvec, wait := .none, operand := 0 } }

/-- WAKE: a write to WAKE. -/
def execWake (die : Nat) (mask : BitVec 4) (s : State) : Out :=
  .next ((setBits 4 mask.toNat).foldl (fun s v =>
    if (s.coreAt die (64 + v)).ves.down then s.restartVesper die (64 + v) else s.post (.wakeEvent die v)) s)

/-- SUPROOT: the supervisor root of a die; boot translation ends once it is not 0 (R459). -/
def execSuproot (die : Nat) (value : DWord) (s : State) : Out :=
  .next (s.modDie die fun d => { d with regs := { d.regs with suproot := paReg value } })

end Sys2Proof.Machine
end

