-- ==== Sys2Proof/Machine/Debug.lean ====
section
/-! DEFINITION. Breakpoints, marks, the sampler and stop requests (R439 to R444), and the replay of a park (R363). -/

namespace Sys2Proof.Machine

/-! ## BKPT (R441) -/

def execBkpt (f : Fields) (s : State) : Out :=
  let pc := s.warp.pc
  let t : Trap := { code := cBkpt, info0 := f.imm16.toNat, lane := (s.actLanes f).headD 0 }
  let go := s.advance f true
  if !s.acts f then .next go
  else if s.warp.isVesper then .next (go.trapVesper (pc + 64) t)
  else if s.myCore.dbgctl.getLsbD 2 then .next (go.trapCore pc t)
  else .next go

/-! ## The sample ring (R442, R443) -/

/-- A sample or mark record, field by field. -/
structure Sample where
  pc      : DWord
  blame   : DWord
  regions : BitVec 48
  process : BitVec 16
  mark    : Bool
  clock   : BitVec 38
  warp    : BitVec 6
  slot    : BitVec 4
  core    : BitVec 6
  sched   : BitVec 2
  issued  : Bool
  blamed  : Bool
  reason  : BitVec 5
  deriving DecidableEq, Repr

def Sample.bits (r : Sample) : BitVec 256 :=
  r.pc ++ r.blame ++ r.regions ++ r.process ++ BitVec.ofBool r.mark ++ r.clock ++ r.warp ++ r.slot ++ r.core ++ r.sched ++
    BitVec.ofBool r.issued ++ BitVec.ofBool r.blamed ++ r.reason

/-- A record enters its die's ring, or is dropped when the ring is full. -/
def State.writeSample (s : State) (die : Nat) (r : Sample) : State :=
  let d := (s.dieAt die).regs
  let size := 2 ^ (Machine.bits d.smpctl.toNat 12 8)
  let reg (s : State) (g : DieRegs → DieRegs) : State := s.modDie die fun x => { x with regs := g x.regs }
  if (d.smptail.toNat + 2 ^ 32 - d.smphead.toNat) % 2 ^ 32 = size then reg s fun x => { x with smplost := x.smplost + 1 }
  else
    let a := s.device * 2 ^ 55 + d.smpbase.toNat + 256 * (d.smptail.toNat % size)
    reg (s.deviceWrites a (words64 4 r.bits.toNat)) fun x => { x with smptail := (x.smptail + 1) &&& 0xFFFF_FFFF#64 }

/-- The clock of R72 for a warp. -/
def State.clockOf (s : State) (w : Warp) : Nat := tget 0 s.clocks (islandOf w.id.die w.id.core)

/-- What every record of a warp carries. -/
def State.sampleOf (s : State) (w : Warp) (pc blame : DWord) : Sample where
  pc := pc
  blame := blame
  regions := w.regionField
  process := BitVec.ofNat 16 w.info.process
  mark := true
  clock := BitVec.ofNat 38 (s.clockOf w)
  warp := BitVec.ofNat 6 w.id.warp
  slot := BitVec.ofNat 4 (blockSlot w.id.block)
  core := BitVec.ofNat 6 w.id.core
  sched := BitVec.ofNat 2 w.id.warp
  issued := true
  blamed := false
  reason := 0

/-- PMARK: its value, which may be indirect; an indirect register that does not exist marks nothing, for PMARK never faults
after decode. -/
def execPmark (f : Fields) (s : State) : Out :=
  match s.actLanes f with
  | [] => .next (s.advance f)
  | l :: _ =>
    if s.myCore.dbgctl.getLsbD 1 && (s.indirectBreach (.pmark f) f).isNone then
      let r := s.sampleOf s.warp s.warp.pc (BitVec.ofNat 64 (s.srcB f false 32 1 l))
      .next ((s.writeSample s.warp.id.die r).advance f)
    else .next (s.advance f)

/-! ## Sampling (R442, R444) -/

/-- The reason of a wait. -/
def WaitKind.reason : WaitKind → Nat
  | .none => 21 | .await => 7 | .syncwait => 6 | .barWait | .barSync => 4 | .cbarWait => 5 | .fwait | .pendingHandle => 3
  | .plwait | .placementPark => 9 | .sleep | .vesperHalt => 19 | .pagePark => 8 | .arecv => 29

/-- The sub-gang that a warp has chosen, or would choose (R160). -/
def State.chosen (s : State) (w : Warp) : List Nat := if w.gang.isEmpty then lowestGang (s.present (s.unmark w)) else w.gang

/-- A reason of issue that its last attempt has found, unless it has gone since: 17 with the acknowledgements and the room. -/
def State.stallNow (s : State) (w : Warp) : Nat :=
  if w.stall = 17 ∧ !s.ackWait w.id ∧ (s.windowOut w.id.die w.id.core).length < 256 then 0 else w.stall

/-- Reasons that are a matter of pipeline timing, which R494 leaves open: a drain, special-function lanes, selection, register
banks and pipes. Which of them holds for a ready warp is free (log entry 5). -/
def timingReasons : List Nat := [21, 1, 16, 22, 23]

/-- The stall reasons that hold for a warp (R444). -/
def State.stallsOf (s : State) (w : Warp) : List Nat :=
  let gang := s.chosen w
  let waits := if gang.isEmpty then (w.quads.filter fun q => q.live != 0).map fun q => q.wait.reason else []
  let marked := w.gang.isEmpty && !gang.isEmpty && (s.present w).isEmpty
  waits ++ [s.stallNow w] ++ (if s.ackWait w.id then [17] else []) ++ (if w.nest.running.isSome then [26] else []) ++
    (if marked then [20] else [])

/-- The warp has issued in the present cycle of its island. -/
def State.issuedNow (s : State) (w : Warp) : Bool :=
  match tget none (s.coreAt w.id.die w.id.core).last (w.id.warp % 4) with
  | some (b, n, c) => b == w.id.block && n == w.id.warp && s.clockOf w ≤ c + 1
  | none => false

/-- The reason that a sample of a warp carries (R442): the highest that holds. -/
def State.sampleReason (s : State) (w : Warp) : Nat :=
  let c := s.coreAt w.id.die w.id.core
  if w.halted || c.trapped || c.halt != .running then
    match c.cause with
    | .debug => 30
    | .preempt | .none => 25
    | .trap => 24
  else if s.issuedNow w then 0
  else
    match (s.stallsOf w).foldl max 0 with
    | 0 => timingReasons.getD (Config.pick s.free % timingReasons.length) 21
    | n => n

/-- The next warp of a scheduler's rotation. -/
def State.rotationPick (s : State) (die core sched : Nat) : Option Warp :=
  let key (w : Warp) : Nat := blockSlot w.id.block * 64 + w.id.warp
  let mine := s.warps.filter fun w => w.id.die == die && w.id.core == core && w.id.warp % 4 == sched
  let least (ws : List Warp) : Option Warp := ws.foldl (fun b w => match b with
    | some u => if key w < key u then some w else b
    | none => some w) none
  let from_ := tget 0 (s.coreAt die core).sampled sched
  (least (mine.filter fun w => from_ ≤ key w)).or (least mine)

/-- One scheduler writes its record. -/
def State.sampleOn (s : State) (die core sched : Nat) : State :=
  match s.rotationPick die core sched with
  | none => s
  | some w =>
    let reason := s.sampleReason w
    let pc := match s.chosen w with
      | q :: _ => (match w.quads[q]? with | some u => u.pc | none => 0)
      | [] => (match w.quads.find? fun q => q.live != 0 with | some u => u.pc | none => 0)
    let r : Sample :=
      { s.sampleOf w pc (if reason = 2 then w.blame else 0) with
        mark := false, issued := w.issued, blamed := reason == 2, reason := BitVec.ofNat 5 reason }
    let s := s.modWarpAt w.id fun w => { w with issued := false }
    let s := s.modCore die core fun c =>
      { c with sampled := tput 0 c.sampled sched (blockSlot w.id.block * 64 + w.id.warp + 1) }
    { s with free := s.free + 1 }.writeSample die r

/-- SAMPLING_CYCLE: every scheduler of each core whose DBGCTL[0] is 1. -/
def execSamplingCycle (die : Nat) (s : State) : Out :=
  if !(s.dieAt die).regs.smpctl.getLsbD 16 then .next s
  else
    let cores := (List.range 64).filter fun n => (s.coreAt die n).dbgctl.getLsbD 0
    .next (cores.foldl (fun s n => (List.range 4).foldl (fun s k => s.sampleOn die n k) s) s)

/-! ## Stop requests (R439) -/

/-- STOP_REQUEST: DBGCTL of a core is written. -/
def execStopRequest (die core : Nat) (dbgctl : DWord) (s : State) : Out :=
  .next (s.debugWrite die (0x1_0000 * core) dbgctl)

/-! ## Replay (R363, R428) -/

/-- The park ends: the instruction issues again for its pending lanes, or raises NOT_MAPPED. -/
def Warp.unpark (w : Warp) (resolved : Bool) : Warp :=
  let clear (q : Quad) : Quad := if q.wait == .pagePark then { q with wait := .none, operand := 0 } else q
  match w.parked with
  | some r =>
    let r := { r with unresolved := !resolved }
    if r.park then { w with quads := w.quads.map clear, parked := some r }
    else { w with parked := none, replays := r :: w.replays }
  | none => { w with quads := w.quads.map clear }

/-- PARK_REPLAY: not before the miss record has entered the queue (R420). -/
def execParkReplay (id : WarpId) (resolved : Bool) (s : State) : Out :=
  if (s.dieAt id.die).waiting.any fun r => r.warp == some id then .next (s.post (.parkReplay id resolved))
  else .next (s.modWarpAt id fun w => w.unpark resolved)

end Sys2Proof.Machine
end

