-- ==== Sys2Proof/Machine/Launch.lean ====
section
/-! DEFINITION. Launch queues, intake, dispatch, dependence, retirement and discard (R171 to R190, R195 to R204, R413,
R495). -/

namespace Sys2Proof.Machine

/-! ## Physical accesses of the device -/

/-- A physical bit address of this device as a fabric address. -/
def State.phys (s : State) (pa : Nat) : Nat := s.device * 2 ^ 55 + pa % 2 ^ 55

/-- A sync word at a physical address gets 1 added, when there is one (R389, R420, R424). -/
def State.physSync (s : State) (pa die : Nat) : State :=
  (((s.homeUpdate (s.phys pa) 64 (syncAdd 1)).2)).homeReport (s.phys pa) (2 ^ 64 - 1) 1 0 die 0

/-- Status word and sync word of a command. -/
def State.reportStatus (s : State) (die sync status : Nat) : State :=
  if sync = 0 then s else (s.deviceWrite (s.phys (sync + 64)) 64 status).physSync sync die

/-! ## Kernel headers (R171, R173) -/

/-- A header from its 512 bits. -/
def headerOf (addr x : Nat) : Header :=
  let w (n hi lo : Nat) : Nat := bits x (64 * n + hi) (64 * n + lo)
  { addr, entry := sintOf 32 (w 0 63 32), norot := bitOf x 18, ftz := bitOf x 16, spawnres := w 1 55 48, cluster := w 1 47 40
    barriers := w 1 39 36, kregs := w 1 31 24, vunits := w 1 23 16, width := w 1 7 0, l1min := w 2 63 32, spad := w 2 31 0
    savearea := w 3 63 32, anchor := w 3 31 24 }

def roundUp (x n : Nat) : Nat := (x + n - 1) / n * n

/-- C(W) and B of R425, for n contexts. -/
def contextSize (h : Header) : Nat := 1024 + 32 * (16 + 8 * h.width) + 32 * h.vunits * h.width
def saveSize (h : Header) (n : Nat) : Nat := 4096 + roundUp h.spad 4096 + n * contextSize h

/-- The checks of R173. -/
def headerOk (x : Nat) : Bool :=
  let h := headerOf 0 x
  let w (n hi lo : Nat) : Nat := bits x (64 * n + hi) (64 * n + lo)
  w 0 31 19 == 0 && w 0 17 17 == 0 && w 0 15 8 == 0 && w 0 7 0 == 1 && w 1 63 56 == 0 && w 1 35 32 == 0 && w 1 15 8 == 0 &&
  w 3 23 0 == 0 && bits x 511 256 == 0 && h.entry % 64 == 0 &&
  decide (h.spawnres ≤ 63) && decide (1 ≤ h.cluster) && decide (h.cluster ≤ 8) && decide (h.kregs ≤ 128) &&
  decide (1 ≤ h.vunits) && decide (h.vunits ≤ 32) && (h.width == 16 || h.width == 32 || h.width == 64) &&
  decide (131072 ≤ h.l1min) && decide (h.l1min ≤ 786432) && decide (h.spad ≤ 655360) && (decide (h.anchor ≤ 15) || h.anchor == 255) &&
  decide (roundUp h.spad 32768 + roundUp h.l1min 32768 ≤ 786432) && decide (saveSize h (h.spawnres + 1) ≤ h.savearea)

/-! ## Launch queues (R174, R175) -/

/-- A queue descriptor. -/
structure Queue where
  enable : Bool
  device : Bool
  lsize  : Nat
  tail   : Nat
  head   : Nat
  base   : Nat
  deriving DecidableEq, Repr

/-- Where a queue's descriptor lies. -/
def State.queueAddr (s : State) (pid q : Nat) : Nat := s.phys ((s.procAt pid).lqtable.toNat + 256 * q)

/-- A queue's descriptor; one that R174 rejects is disabled. DESIGN CHOICE (log entry 54): R174's list does not name a ring base
that is not a multiple of 1,024, which its table forbids; such a descriptor counts as disabled too. -/
def State.queueAt (s : State) (pid q : Nat) : Queue :=
  let x := s.cohRead (s.queueAddr pid q) 256
  let lsize := bits x 132 128
  let base := bits x 63 0
  let ok := bits x 255 135 == 0 && decide (1 ≤ lsize) && decide (lsize ≤ 16) && base % 1024 == 0 && decide (base < 2 ^ 55) &&
    tableOk base (1024 * 2 ^ lsize)
  { enable := bitOf x 134 && ok, device := bitOf x 133, lsize, tail := bits x 127 96, head := bits x 95 64, base }

def State.recordAddr (s : State) (k : Queue) (n : Nat) : Nat := s.phys (k.base + 1024 * (n % 2 ^ k.lsize))

/-- The launch ID of a count. -/
def launchId (q n : Nat) : Nat := q * 2 ^ 25 + n % 2 ^ 25

/-! ## Launch records (R176) -/

def recordWord (x n hi lo : Nat) : Nat := bits x (64 * n + hi) (64 * n + lo)

def recordLaunch (pid ident order x : Nat) : Launch :=
  let w := recordWord x
  { Launch.none with
    taken := true, process := pid, ident, args := w 1 63 0, grid := [w 2 31 0 + 1, w 2 63 32 + 1, w 3 31 0 + 1]
    cext := [w 4 3 0, w 4 11 8, w 4 19 16], warps := w 3 37 32 + 1, priority := w 4 26 24
    prods := [w 6 31 0, w 6 63 32, w 7 31 0, w 7 63 32].take (w 4 34 32), sync := w 8 63 0, astride := sintOf 64 (w 5 63 0), order }

/-- Step 2 of R177. DESIGN CHOICE (log entry 54): a producer with bit 31 set, which no launch ID has (R175), gives BAD_RECORD,
though step 2 does not list it. -/
def recordOk (ident x : Nat) : Bool :=
  let w := recordWord x
  let np := w 4 34 32
  let prods := [w 6 31 0, w 6 63 32, w 7 31 0, w 7 63 32]
  let dims := [(w 2 31 0 + 1, w 4 3 0), (w 2 63 32 + 1, w 4 11 8), (w 3 31 0 + 1, w 4 19 16)]
  w 3 63 38 == 0 && w 4 63 35 == 0 && w 4 31 27 == 0 && w 4 23 20 == 0 && w 4 15 12 == 0 && w 4 7 4 == 0 && bits x 1023 576 == 0 &&
  decide (np ≤ 4) && w 0 63 0 % 512 == 0 && w 8 63 0 % 128 == 0 &&
  (dims.all fun (g, c) => decide (1 ≤ c) && decide (c ≤ 8) && g % c == 0) &&
  ((prods.drop np).all (· == 0)) &&
  ((prods.take np).all fun p =>
    let age := (ident + 2 ^ 25 - p % 2 ^ 25) % 2 ^ 25
    !bitOf p 31 && (p >>> 25 != ident >>> 25 || (decide (1 ≤ age) && decide (age < 2 ^ 24))))

/-! ## Capacity (R68, R180, R181) -/

/-- What a block takes of a core: slots, its scratchpad, its l1min, and contexts with units on each scheduler. -/
structure Need3 where
  slots : Nat
  spad  : Nat
  l1min : Nat
  ctx   : List Nat
  units : Nat           -- bytes of a scheduler's file for one context
  deriving DecidableEq, Repr

def blockNeed (h : Header) (contexts : List Nat) : Need3 :=
  { slots := 1, spad := roundUp h.spad 4096, l1min := h.l1min, ctx := (List.range 4).map fun s => (contexts.filter fun j => j % 4 == s).length
    units := h.vunits * 32 * h.width }

/-- The contexts that a block holds until it retires: those of its initial warps, to which a retired warp's context returns,
and the reserved ones (R195; R69 says otherwise, log entry 54). -/
def Block.contexts (b : Block) : List Nat := List.range (b.warps + b.header.spawnres)

/-- What a block that has left its core takes of another one: a retired block of a cluster that is away only its allotment
(R205). -/
def Block.need (b : Block) : Need3 :=
  if b.place = .retired then { blockNeed b.header [] with slots := 0 } else blockNeed b.header b.contexts

/-- The resident blocks of a core, and those whose scratchpad it still keeps (R205). -/
def State.blocksOn (s : State) (die core : Nat) : List Block :=
  (s.blocks.map (·.2)).filter fun b => b.die == die && b.core == core && b.header.width != 0 && b.place == .resident

def State.clusterOver (s : State) (b : Block) : Bool :=
  s.blocks.all fun (_, u) => !(u.process == b.process && u.launch == b.launch && u.cluster == b.cluster) || u.place == .retired

def State.spadHeld (s : State) (die core : Nat) : List Block :=
  (s.blocks.map (·.2)).filter fun b =>
    b.die == die && b.core == core && b.header.width != 0 && b.place == .retired && !b.held && !s.clusterOver b

/-- What is free on a core: slots, scratchpad, contexts and file bytes of each scheduler, and the L1, 0 when it is empty. -/
structure Free where
  slots : Nat
  spad  : Nat
  ctx   : List Nat
  file  : List Nat
  l1    : Nat
  deriving DecidableEq, Repr

def State.freeOn (s : State) (die core : Nat) : Free :=
  let bs := s.blocksOn die core
  let kept := s.spadHeld die core
  let l1 := if bs.isEmpty && kept.isEmpty then 0 else (s.coreAt die core).l1Size
  let used := ((bs ++ kept).map fun b => roundUp b.header.spad 4096).foldl (· + ·) 0
  let needs := bs.map fun b => blockNeed b.header b.contexts
  let total (g : Need3 → Nat) : Nat := (needs.map g).foldl (· + ·) 0
  { slots := 16 - bs.length, spad := min 655360 (786432 - l1) - used
    ctx := (List.range 4).map fun k => 16 - total fun n => n.ctx.getD k 0
    file := (List.range 4).map fun k => 131072 - total fun n => n.ctx.getD k 0 * n.units
    l1 }

/-- A block fits what is free. -/
def Free.fits (f : Free) (n : Need3) : Bool :=
  let spad := if f.l1 = 0 then min 655360 (786432 - roundUp n.l1min 32768) else f.spad
  decide (n.slots ≤ f.slots) && decide (n.spad ≤ spad) && (f.l1 == 0 || decide (n.l1min ≤ f.l1)) &&
  (List.range 4).all fun k => decide (n.ctx.getD k 0 ≤ f.ctx.getD k 0) && decide (n.ctx.getD k 0 * n.units ≤ f.file.getD k 0)

def Free.take (f : Free) (n : Need3) : Free :=
  let l1 := if f.l1 = 0 then roundUp n.l1min 32768 else f.l1
  let spad := if f.l1 = 0 then min 655360 (786432 - l1) else f.spad
  { slots := f.slots - n.slots, spad := spad - n.spad, l1
    ctx := (List.range 4).map fun k => f.ctx.getD k 0 - n.ctx.getD k 0
    file := (List.range 4).map fun k => f.file.getD k 0 - n.ctx.getD k 0 * n.units }

def Free.empty : Free := { slots := 16, spad := 0, ctx := [16, 16, 16, 16], file := [131072, 131072, 131072, 131072], l1 := 0 }

/-- A core that takes blocks: it runs and no trap has stopped it (R447). -/
def State.coreOpen (s : State) (die core : Nat) : Bool :=
  let c := s.coreAt die core
  s.alive die && !c.trapped && c.halt == .running

/-- The blocks, ranks in order, fit these cores. -/
def State.fitCores (s : State) (die : Nat) (placed : List (Nat × Free)) : List (Nat × Need3) → Bool
  | [] => true
  | (core, n) :: rest =>
    let f := match placed.find? fun x => x.1 == core with | some x => x.2 | none => s.freeOn die core
    f.fits n && s.coreOpen die core && s.fitCores die ((core, f.take n) :: placed) rest

/-- A first-fit choice of cores of a bay for the blocks of a cluster. -/
def State.chooseCores (s : State) (die bay : Nat) (placed : List (Nat × Free)) : List Need3 → Option (List Nat)
  | [] => some []
  | n :: rest =>
    let free (core : Nat) : Free := match placed.find? fun x => x.1 == core with | some x => x.2 | none => s.freeOn die core
    match ((List.range 8).map (bay * 8 + ·)).find? fun core => (free core).fits n && s.coreOpen die core with
    | some core => (s.chooseCores die bay ((core, (free core).take n) :: placed) rest).map (core :: ·)
    | none => none

/-- A bay of a die with room for a cluster, and cores in it. -/
def State.roomOn (s : State) (die : Nat) (needs : List Need3) : Option (Nat × List Nat) :=
  (List.range 8).findSome? fun bay => (s.chooseCores die bay [] needs).map fun cs => (bay, cs)

/-! ## Producers (R177, R190, R202) -/

/-- What a launch knows of a producer: it has not started, it has started, or it is done, and whether without failure. -/
inductive Producer where
  | unstarted | started | done (clean : Bool)
  deriving DecidableEq, Repr

/-- The producer of a launch ID. DESIGN CHOICE (log entry 54): R177 defines which records are earlier only within one queue; a
producer of another queue counts as not yet taken where its age against that queue's head is 0 or at least 2^24. -/
def State.producer (s : State) (pid p : Nat) : Producer :=
  let k := s.queueAt pid (p >>> 25)
  let age := (k.head + 2 ^ 25 - p % 2 ^ 25) % 2 ^ 25
  if age = 0 ∨ 2 ^ 24 ≤ age then .unstarted
  else if 4096 < age then .done true
  else match (s.launchAt pid p).done with
    | some c => .done c
    | none => if (s.launchAt pid p).taken then .started else .unstarted

/-! ## Records of kind LAUNCH (R495) -/

def State.firstDie (s : State) : Nat := ((List.range 4).find? s.alive).getD 0

def State.launchRecord (s : State) (pid ident status code addr what : Nat) : State :=
  let r : FaultRecord :=
    { addr := BitVec.ofNat 64 addr, pc := 0, info0 := BitVec.ofNat 64 what, info1 := 0, regions := 0, process := BitVec.ofNat 16 pid,
      launch := BitVec.ofNat 32 ident, warp := 0, lane := 0, slot := 0, core := 0, die := BitVec.ofNat 2 s.firstDie, kind := 9,
      code := BitVec.ofNat 8 code, status := BitVec.ofNat 16 status, flags := 0, aux16 := 0, time := BitVec.ofNat 64 s.timer }
  s.enqueueRecord s.firstDie ⟨r, none, none, false⟩

/-- An access that the device makes on its own in a process: the fabric address and how its page is held, or the trap code that
a load or store of the same bits would raise (R495). DESIGN CHOICE (log entry 54): the device acts for no block, so a word in a
scratchpad window gets SPAD_BOUND. -/
def State.softAccess (s : State) (pid va w : Nat) (n : Need) : Except Nat (Nat × Mode) :=
  match windowOf (va >>> 56) with
  | some 0 | some 3 =>
    match s.peek s.firstDie pid va n with
    | .ok fa leaf =>
      match s.served fa (leafMode leaf 0) with
      | none => .error cPoison
      | some x =>
        match s.poisonOf x w with
        | some k => .error (if k = 1 then cPoison else cDataLost)
        | none => .ok (x, leafMode leaf 0)
    | .perm => .error cPerm
    | .miss | .bad => .error cNotMapped
  | some 4 => .error cPerm
  | some _ => .error cSpadBound
  | none => .error cNotMapped

/-! ## Retirement of a launch (R179, R190) -/

/-- The launch's own words are written, behind a release at `.sys`, or a record says which one cannot be: the status word,
which is checked first (log entry 54), or the sync word, which has its own windows (R216). -/
def State.writeCompletion (s : State) (l : Launch) (status : Nat) : State :=
  if l.sync = 0 then s
  else
    let word := (l.sync + 64) % 2 ^ 64
    match s.softAccess l.process word 64 needW with
    | .error c => s.launchRecord l.process l.ident status c word 2
    | .ok (st, sm) =>
      match (if l.sync >>> 56 = 10 then .error cNotMapped else s.softAccess l.process l.sync 64 needW) with
      | .error c => s.launchRecord l.process l.ident status c l.sync 3
      | .ok (sy, ym) =>
        let s := (List.range 4).foldl State.deviceRelease s
        let s := (s.deviceWrite st 64 (l.ident * 2 ^ 32 + status) sm.rdie).drainForwards fun _ => true
        ((s.homeUpdate sy 64 (syncAdd 1) ym.rdie).2).homeReport sy (2 ^ 64 - 1) 1 0 s.firstDie l.process

/-- The mailboxes that the launch owns become dead (R282). -/
def State.killMailboxes (s : State) (pid ident : Nat) : State :=
  s.mailboxes.foldl (fun s (p, fa) =>
    if p = pid ∧ s.cohRead (fa + 192) 32 = ident then (s.homeUpdate (fa + 192 + 40) 1 fun _ => 1).2 else s) s

/-- A launch retires with a status. -/
def State.retireLaunch (s : State) (pid ident status : Nat) : State :=
  let l := s.launchAt pid ident
  if l.status.isSome then s
  else
    let s := s.writeCompletion l status
    let s := s.modLaunch pid ident fun l =>
      { l with status := some status, done := match l.done with | some d => some d | none => some (status == 0 && !l.unclean) }
    s.killMailboxes pid ident

def Launch.blocks (l : Launch) : Nat := (l.grid.foldl (· * ·) 1)
def Launch.clusterSize (l : Launch) : Nat := l.cext.foldl (· * ·) 1
def Launch.clusters (l : Launch) : Nat := l.blocks / max 1 l.clusterSize

/-- The launch retires when its last block has (R195, R196). -/
def State.checkLaunch (s : State) (pid ident : Nat) : State :=
  let l := s.launchAt pid ident
  let s :=
    if l.done.isNone ∧ l.blocks ≤ l.produced ∧ l.started then s.modLaunch pid ident fun l => { l with done := some !l.unclean } else s
  if l.started ∧ l.status.isNone ∧ l.blocks ≤ l.ended then s.retireLaunch pid ident (l.first.getD 0) else s

/-- A block becomes produced (R190); `clean`: by PRODUCE or normal retirement. -/
def State.produceBlock (s : State) (num : Nat) (clean : Bool) : State :=
  let b := s.blockAt num
  if b.produced then s
  else
    let s := s.modBlock num fun b => { b with produced := true, clean }
    let s := s.modLaunch b.process b.launch fun l => { l with produced := l.produced + 1, unclean := l.unclean || !clean }
    s.checkLaunch b.process b.launch

/-- The core's resources that go when its last block does: the split of the SRAM (R181) and a trap stop (R416). -/
def State.settleCore (s : State) (die core : Nat) : State :=
  if s.slotMask die core ≠ 0 then s
  else
    s.modCore die core fun c =>
      { c with
        l1Size := if (s.spadHeld die core).isEmpty then 0 else c.l1Size
        trapped := if c.byTrap then false else c.trapped, byTrap := false
        cause := if c.halt = .running ∧ (c.byTrap ∨ !c.trapped) then .none else c.cause }

/-- An area of the save pool is free again. -/
def State.freeArea (s : State) (pid a : Nat) : State :=
  { s with procs := tmod Process.reset s.procs pid fun p => { p with areas := p.areas.filter fun x => x.1 != a } }

/-- The areas that a block has of the save pool are free again. -/
def State.freeAreas (s : State) (num : Nat) : State :=
  let b := s.blockAt num
  let s := (b.area.toList ++ b.matArea.toList).foldl (fun s a => s.freeArea b.process a) s
  s.modBlock num fun b => { b with area := none, matArea := none }

/-- The retired blocks of a cluster that is over need their areas no longer. -/
def State.endCluster (s : State) (b : Block) : State :=
  if !s.clusterOver b then s
  else ((s.clusterBlocks b.process b.launch b.cluster).filter fun x => x.2.held).foldl
    (fun s x => (s.freeAreas x.1).modBlock x.1 fun b => { b with held := false }) s

/-- Discard a block without retiring its warps (R196). It counts as gone once what they have sent is over, at its
BLOCK_RETIREMENT. -/
def State.discardBlock (s : State) (num cause : Nat) : State :=
  let b := s.blockAt num
  if b.place = .retired then s
  else
    let s := { s with
      warp := if s.warp.id.block = num ∧ !s.warp.isVesper then Warp.idle else s.warp
      others := s.others.filter fun w => !(w.id.block == num && !w.isVesper) }
    let s := (s.freeAreas num).modBlock num fun b =>
      { b with place := .retired, discarded := true, held := false, initial := 0, extra := 0, reserved := [] }
    let s := s.modLaunch b.process b.launch fun l => { l with first := l.first.or (some cause) }
    let s := if b.place = .resident then (s.passMatrix b.die b.core num).settleCore b.die b.core else s
    (s.endCluster b).post (.blockRetirement num)

/-- The kernel instance ends a launch: every block goes, and no cluster follows (R196, R423). -/
def State.endLaunch (s : State) (pid ident cause : Nat) : State :=
  let s := s.modLaunch pid ident fun l => { l with first := l.first.or (some cause), unclean := true }
  let mine := s.blocks.filter fun (_, b) => b.process == pid && b.launch == ident && b.place != .retired && b.header.width != 0
  let s := mine.foldl (fun s (n, _) => s.discardBlock n cause) s
  (s.modLaunch pid ident fun l =>
    let never := l.blocks - l.next * l.clusterSize
    { l with next := l.clusters, swapped := [], ended := l.ended + never, produced := l.produced + never }).checkLaunch pid ident

/-! ## Intake (R175, R177) -/

/-- The first step of R177 that a record fails: its status and, for a failed read, the record to write. -/
structure Reject where
  status : Nat
  report : Option (Nat × Nat × Nat)    -- code, address, what failed
  deriving DecidableEq, Repr

/-- Steps 3 to 5 for a record that step 2 passes. -/
def State.checkHeader (s : State) (pid x : Nat) (l : Launch) : Except Reject Header :=
  let ha := recordWord x 0 63 0
  let failing := ((List.range 8).map fun i => (ha + 64 * i) % 2 ^ 64).findSome? fun a =>
    match s.softAccess pid a 64 needR with | .error c => some (c, a) | .ok _ => none
  match failing with
  | some (c, a) => .error ⟨2, some (c, a, 1)⟩
  | none =>
    let word (i : Nat) : Nat := match s.softAccess pid ((ha + 64 * i) % 2 ^ 64) 64 needR with | .ok x => s.cohRead x.1 64 | .error _ => 0
    let img := (List.range 8).foldr (fun i acc => word i + acc <<< 64) 0
    let h := headerOf ha img
    if !headerOk img then .error ⟨2, none⟩
    else if l.clusterSize ≠ h.cluster ∨ 64 < l.warps + h.spawnres then .error ⟨1, none⟩
    else if h.savearea < saveSize h (l.warps + h.spawnres) then .error ⟨2, none⟩
    else if !Free.empty.fits (blockNeed h (List.range (l.warps + h.spawnres))) then .error ⟨3, none⟩
    else .ok h

/-- The steps of R177 for the record at a physical place: the record fails to be read where it is poisoned, or its die lost. -/
def State.checkRecord (s : State) (pid ident addr : Nat) : Except Reject (Header × Nat) :=
  match (if (s.served addr (leafMode 0 0)).isNone then some 1 else s.poisonOf addr 1024) with
  | some k => .error ⟨2, some (if k = 1 then cPoison else cDataLost, addr % 2 ^ 55, 0)⟩
  | none =>
    let x := s.cohRead addr 1024
    if !recordOk ident x then .error ⟨1, none⟩
    else match s.checkHeader pid x (recordLaunch pid ident 0 x) with
      | .error e => .error e
      | .ok h => .ok (h, x)

/-- Step 5 of R457 has ended, and the device is not in recovery. -/
def Platform.serving (p : Platform) : Bool := decide (6 ≤ p.stage) && !p.recovery && !p.stopped

/-- The first doorbell or host request ends step 6 of R457. -/
def Platform.endStep6 (p : Platform) : Platform := if p.serving then { p with stage := 7 } else p

/-- A producer in another queue has not been taken: it holds the launch back, so that no launch of a cycle starts (R177). -/
def State.prodsHold (s : State) (pid : Nat) (l : Launch) : Bool :=
  l.prods.any fun p => p >>> 25 != l.ident >>> 25 && s.producer pid p == .unstarted

/-- LAUNCH_INTAKE: the next record of a queue is taken, and the launch starts or retires at intake. DESIGN CHOICE (log entry
54): while tail - head is above 2^lsize, of which R174 says nothing, no record is taken. -/
def execLaunchIntake (pid q : Nat) (s : State) : Out :=
  let k := s.queueAt pid q
  let tail := if k.device then k.tail else tget 0 s.rung (pid * 64 + q)
  let waiting := (tail + 2 ^ 32 - k.head) % 2 ^ 32
  if !s.platform.serving then .next (if k.enable && waiting != 0 then s.post (.launchIntake pid q) else s)
  else if !k.enable || waiting == 0 || decide (2 ^ k.lsize < waiting) then .next s
  else
    let ident := launchId q k.head
    let checked := s.checkRecord pid ident (s.recordAddr k k.head)
    let x := s.cohRead (s.recordAddr k k.head) 1024
    if (match checked with | .ok _ => s.prodsHold pid (recordLaunch pid ident 0 x) | .error _ => false) then
      .next (s.post (.launchIntake pid q))
    else
    let s := { s with
      blocks := s.blocks.filter fun (_, b) => !(b.process == pid && b.launch == ident && b.header.width != 0)
      admits := s.admits.filter fun a => a.launch != launchKey pid ident }
    let s := s.deviceWrite (s.queueAddr pid q + 64) 32 ((k.head + 1) % 2 ^ 32)
    let l := recordLaunch pid ident s.nextSeq x
    let s := { s with nextSeq := s.nextSeq + 1 }
    let s := match checked with
      | .ok (h, _) => s.modLaunch pid ident fun _ => { l with header := h, started := true }
      | .error e =>
        let s := s.modLaunch pid ident fun _ => l
        let s := match e.report with | some (c, a, w) => s.launchRecord pid ident e.status c a w | none => s
        s.retireLaunch pid ident e.status
    .next (if 1 < waiting then s.post (.launchIntake pid q) else s)

/-- DOORBELL (R413). -/
def execDoorbell (hostId : Nat) (value : DWord) (s : State) : Out :=
  let pid := bits value.toNat 63 48
  let q := bits value.toNat 5 0
  let k := s.queueAt pid q
  let p := s.procAt pid
  let s := { s with platform := s.platform.endStep6 }
  if s.platform.serving && p.dbhost.getLsbD hostId && p.context && k.enable && !k.device && bits value.toNat 47 6 == 0 then
    .next ({ s with rung := tput 0 s.rung (pid * 64 + q) k.tail }.post (.launchIntake pid q))
  else .next s.dropHost

/-! ## Dispatch (R182 to R186) -/

/-- The coordinates of a block of a cluster, by rank (R183). -/
def Launch.blockPos (l : Launch) (cluster rank : Nat) : List Nat :=
  let g (i : Nat) : Nat := l.grid.getD i 1
  let c (i : Nat) : Nat := max 1 (l.cext.getD i 1)
  let n (i : Nat) : Nat := g i / c i
  [cluster % n 0 * c 0 + rank % c 0, cluster / n 0 % n 1 * c 1 + rank / c 0 % c 1,
   cluster / (n 0 * n 1) * c 2 + rank / (c 0 * c 1)]

def Launch.linear (l : Launch) (pos : List Nat) : Nat :=
  pos.getD 0 0 + l.grid.getD 0 1 * (pos.getD 1 0 + l.grid.getD 1 1 * pos.getD 2 0)

/-- The argument word that the header names, if it can be read (R184): read once for the launch, at its first dispatch (log
entry 54). -/
def State.anchorArg (s : State) (l : Launch) : Option Nat :=
  match l.anchorWord with
  | some w => w
  | none =>
    if 16 ≤ l.header.anchor then none
    else match s.softAccess l.process ((l.args + 64 * l.header.anchor) % 2 ^ 64) 64 needR with
      | .ok x => some (s.cohRead x.1 64)
      | .error _ => none

/-- The anchor address of a block (R184, R186). -/
def State.anchorAddr (s : State) (l : Launch) (pos : List Nat) : Option Nat :=
  (s.anchorArg l).map fun a => wrapInt 64 ((a : Int) + l.astride * (l.linear pos : Nat))

/-- The die where the search for room begins (R184). -/
def State.anchorDie (s : State) (l : Launch) (cluster : Nat) : Nat :=
  let other := Config.dieRotation s.free % 4
  match s.anchorAddr l (l.blockPos cluster 0) with
  | none => other
  | some a =>
    match (s.walk s.firstDie l.process a).1 with
    | .leaf e level _ =>
      let fa := leafAddr s.device e (pageBits level) a
      if s.isLocal fa && (windowOf (a >>> 56) == some 0 || windowOf (a >>> 56) == some 3) then dieOf fa else other
    | _ => other

def Launch.needs (l : Launch) : List Need3 :=
  List.replicate l.clusterSize (blockNeed l.header (List.range (l.warps + l.header.spawnres)))

/-- The launches that can dispatch a cluster: started, with clusters left and every producer started. -/
def State.dispatchable (s : State) : List Launch :=
  (s.launches.map (·.2)).filter fun l =>
    l.started && l.status.isNone && decide (l.next < l.clusters) && (l.prods.all fun p => s.producer l.process p != .unstarted)

def Launch.waitsSwapped (l : Launch) (cluster : Nat) : Bool := l.swapped.any fun x => x.1 == cluster

/-- The first die with room for a cluster of a launch that has not started. -/
def State.dispatchDie (s : State) (l : Launch) (cluster : Nat) (needs : List Need3) : Option (Nat × Nat × List Nat) :=
  let h := s.anchorDie l cluster
  [h, h ^^^ 1, h ^^^ 2, h ^^^ 3].findSome? fun d => (s.roomOn d needs).map fun (bay, cs) => (d, bay, cs)

/-! ## The order of clusters (R182, R192, R193)

A cluster that has been swapped out goes ahead of one of its priority that has not started, and the highest priority goes
first. A rotation makes room for one cluster in particular: while that one waits, the cluster that went for it is not restored,
and where the cluster whose turn it is finds no room, the one that the room was made for may take it (log entry 54). -/

/-- The blocks of a swapped-out cluster in rank order: those saved, and the retired ones whose allotments went with them. -/
def State.savedRanks (s : State) (l : Launch) (cluster : Nat) : List (Nat × Block) :=
  (List.range 8).filterMap fun r =>
    (s.clusterBlocks l.process l.ident cluster).find? fun (_, b) =>
      b.rank == r && (b.place == .saved || (b.place == .retired && b.held))

/-- Such blocks with the cores named for them; matrix blocks go to cores without one. -/
def State.restoreFits (s : State) (die : Nat) (bs : List (Nat × Block)) (cores : List Nat) : Bool :=
  let mats := (bs.zip cores).filterMap fun (x, c) => if x.2.matArea.isNone then none else some c
  s.fitCores die [] (cores.zip (bs.map (·.2.need))) && mats.eraseDups.length == mats.length &&
  mats.all fun c => (s.coreAt die c).matrix.isNone

/-- The first bay with room for a swapped-out cluster, with its die and the cores. -/
def State.restorePlace (s : State) (l : Launch) (cluster : Nat) : Option (Nat × Nat × List Nat) :=
  let bs := s.savedRanks l cluster
  (List.range 4).findSome? fun d => (List.range 8).findSome? fun bay =>
    (s.chooseCores d bay [] (bs.map (·.2.need))).bind fun cs => if s.restoreFits d bs cs then some (d, bay, cs) else none

/-- A cluster of a launch with its place in the order: a swapped-out one comes with the number of its swapping out. -/
abbrev Waiting := Launch × Nat × Nat

/-- Of two clusters the one that goes first: higher priority, then the earlier number. -/
def Waiting.first (x y : Waiting) : Waiting :=
  if y.1.priority > x.1.priority ∨ (y.1.priority = x.1.priority ∧ y.2.2 < x.2.2) then y else x

def Waiting.best : List Waiting → Option Waiting
  | [] => none
  | x :: xs => some (xs.foldl Waiting.first x)

/-- The clusters that are swapped out. -/
def State.swappedOut (s : State) : List Waiting :=
  ((s.launches.map (·.2)).filter fun l => l.status.isNone).flatMap fun l => l.swapped.map fun x => (l, x.1, x.2)

/-- The launch of a cluster that a rotation makes room for, while the cluster waits. -/
def State.admitLaunch (s : State) (a : Admit) : Option Launch :=
  let l := tget Launch.none s.launches a.launch
  if l.started && l.status.isNone && (Launch.waitsSwapped l a.cluster || (decide (l.next ≤ a.cluster) && decide (a.cluster < l.clusters)))
  then some l else none

/-- The cluster went to make room for one that still waits. -/
def State.heldBack (s : State) (x : Waiting) : Bool :=
  s.admits.any fun a => a.outLaunch == launchKey x.1.process x.1.ident && a.outCluster == x.2.1 && (s.admitLaunch a).isSome

/-- The cluster whose turn it is by R182 and R193. -/
def State.headCluster (s : State) : Option Waiting :=
  let out := s.swappedOut
  let fresh := Waiting.best (s.dispatchable.map fun l => (l, l.next, l.order))
  match Waiting.best (out.filter fun x => !s.heldBack x) with
  | some x => if fresh.all fun y => decide (y.1.priority ≤ x.1.priority) then some x else fresh
  | none => fresh.filter fun y => out.all fun x => decide (x.1.priority < y.1.priority)

/-- Where a cluster finds room now: die, bay and cores. -/
def State.clusterRoom (s : State) (l : Launch) (cluster : Nat) : Option (Nat × Nat × List Nat) :=
  if Launch.waitsSwapped l cluster then s.restorePlace l cluster else s.dispatchDie l cluster l.needs

/-- The clusters that rotations make room for; of a launch that has still to dispatch others before, the next one. -/
def State.admitted (s : State) : List (Launch × Nat) :=
  s.admits.filterMap fun a => (s.admitLaunch a).map fun l => (l, if Launch.waitsSwapped l a.cluster then a.cluster else l.next)

/-- The cluster that becomes resident next: the one whose turn it is or, where it finds no room, one that a rotation makes
room for and that finds it. -/
def State.nextCluster (s : State) : Option (Launch × Nat) :=
  let fits (x : Launch × Nat) : Bool := (s.clusterRoom x.1 x.2).isSome
  match s.headCluster.map fun x => (x.1, x.2.1) with
  | some x => if fits x then some x else s.admitted.find? fits
  | none => s.admitted.find? fits

def State.endAdmit (s : State) (launch cluster : Nat) : State :=
  { s with admits := s.admits.filter fun a => a.launch != launch || a.cluster != cluster }

/-- The launch whose next cluster is dispatched now. -/
def State.nextLaunch (s : State) : Option Launch :=
  (s.nextCluster.filter fun x => !Launch.waitsSwapped x.1 x.2).map (·.1)

/-- A number for a new block: its slot is the number modulo 16, and Vesper cores stand under 0. -/
def State.blockNumber (s : State) (die core : Nat) : Nat :=
  let top := s.blocks.foldl (fun m (n, _) => max m (n / 16)) 0
  let used := s.slotMask die core
  (top + 1) * 16 + ((List.range 16).find? fun i => !bitOf used i).getD 0

/-- The quads of a new warp (R155). -/
def freshQuads (width : Nat) (pc : DWord) : List Quad :=
  List.replicate (width / 4) { pc, ctr := 0, live := 0b1111, wait := .none, operand := 0, yielded := false }

/-- A new warp of a block (R69, R155, R186, R199). -/
def State.newWarp (s : State) (id : WarpId) (b : Block) (pc : DWord) (prio : Nat) (spawned : Bool) (sregs : List (Nat × Nat)) : State :=
  let h := b.header
  let regs := (sregs.filter fun r => r.1 < h.kregs).map fun (n, v) => (⟨.s n, 0, v % 2 ^ 32⟩ : RegWrite)
  let w : Warp :=
    { Warp.idle with
      id, live := true
      info :=
        { width := h.width, vregs := 8 * h.vunits, kregs := h.kregs, process := b.process, launch := b.launch,
          maxPrio := (s.launchAt b.process b.launch).priority, start := s.nextSeq, spawned }
      quads := freshQuads h.width pc, regs := RegFile.zero.setAll regs, fmode := if h.ftz then 1 else 0, prio }
  { s with others := w :: s.others, nextSeq := s.nextSeq + 1 }

/-- The entry point of a kernel. -/
def Header.start (h : Header) : DWord := BitVec.ofNat 64 (wrapInt 64 ((h.addr : Int) + h.entry))

/-- A block becomes resident, its scratchpad cleared. -/
def State.placeBlock (s : State) (l : Launch) (cluster rank die core : Nat) : State :=
  let num := s.blockNumber die core
  let pos := l.blockPos cluster rank
  let anchor := (s.anchorAddr l pos).getD 0
  let b : Block :=
    { Block.none with
      place := .resident, die, core, process := l.process, launch := l.ident, cluster, rank, pos, header := l.header, warps := l.warps
      initial := BitVec.ofNat 64 (2 ^ l.warps - 1), args := l.args, anchor
      reserved := (List.range l.header.spawnres).map (l.warps + ·) }
  let empty := (s.freeOn die core).l1 = 0
  let s := s.modCore die core fun c => if empty then { c with l1Size := roundUp l.header.l1min 32768 } else c
  let s := (s.modBlock num fun _ => b).acquireAt die core 4
  (List.range l.warps).foldl (fun s i =>
    s.newWarp { die, core, block := num, warp := i } b l.header.start l.priority false
      [(0, l.args), (1, l.args >>> 32), (2, anchor), (3, anchor >>> 32)]) s

/-- CLUSTER_DISPATCH: the next cluster of the launch whose turn it is becomes resident on cores of one bay of the first die
with room; `bay` counts over the dies. Anything else that is asked for has no effect. -/
def execClusterDispatch (launch cluster bay : Nat) (cores : List Nat) (s : State) : Out :=
  match s.nextLaunch with
  | none => .next s
  | some l =>
    let die := bay / 8
    let fits : Bool := match s.dispatchDie l cluster l.needs with | some (d, _, _) => d == die | none => false
    if launchKey l.process l.ident = launch ∧ l.next = cluster ∧ fits = true ∧ cores.length = l.clusterSize ∧
        (cores.all fun c => c / 8 == bay % 8) ∧ s.fitCores die [] (cores.zip l.needs) then
      let l := { l with anchorWord := some (s.anchorArg l) }
      let s := s.modCluster (clusterKey launch cluster) fun _ => []
      let s := cores.zipIdx.foldl (fun s (core, rank) => s.placeBlock l cluster rank die core) s
      .next (({ s with free := s.free + 1 }.modLaunch l.process l.ident fun u => { u with next := u.next + 1, anchorWord := l.anchorWord }).endAdmit launch cluster)
    else .next s

/-- The dispatch that the device can make now. -/
def State.dueDispatch (s : State) : List Instr :=
  match s.nextLaunch with
  | none => []
  | some l =>
    match s.dispatchDie l l.next l.needs with
    | some (d, bay, cs) => [.clusterDispatch (launchKey l.process l.ident) l.next (d * 8 + bay) cs]
    | none => []

/-! ## Retirement of blocks (R195) -/

/-- Something that warps of the block have sent is not over. -/
def State.blockBusy (s : State) (num : Nat) (convsToo : Bool) : Bool :=
  (s.pendings.any fun p => match p.warp with | some id => id.block == num && decide (id.core < 64) | none => false) ||
  (s.cores.any fun (_, c) => c.slots.any fun (_, q) => q.any fun r => r.warp.block == num && decide (r.warp.core < 64)) ||
  (s.ops.any fun (_, o) => match o with
    | some o => o.warp.block == num && decide (o.warp.core < 64) && o.warp.warp != 64 &&
        (convsToo || (match o.work with | .conv _ _ => false | _ => true))
    | none => false)

/-- A block that has ended counts in its launch; its end is the release at `.pkg` of R253. -/
def State.countBlock (s : State) (num : Nat) (clean : Bool) : State :=
  let b := s.blockAt num
  let s := (s.releaseLines b.die 4).drainForwards fun _ => true
  let s := s.modBlock num fun b => { b with counted := true }
  let s := s.modLaunch b.process b.launch fun l => { l with ended := l.ended + 1 }
  (s.produceBlock num clean).checkLaunch b.process b.launch

/-- BLOCK_RETIREMENT: a block whose warps have all retired, or that has been discarded, ends once everything that its warps have
sent is over. -/
def execBlockRetirement (num : Nat) (s : State) : Out :=
  let b := s.blockAt num
  let due : Bool := if b.place = .resident then b.initial == 0 && b.extra == 0 else b.place == .retired && b.discarded
  if b.counted || !due then .next s
  else if s.blockBusy num true then .next (s.post (.blockRetirement num))
  else if b.discarded then .next (s.countBlock num false)
  else
    let s := s.modBlock num fun b => { b with place := .retired, reserved := [], handles := [], barriers := [] }
    let s := ((s.freeMatrix b.die b.core num).settleCore b.die b.core).endCluster b
    .next (s.countBlock num true)

/-! ## Instructions (R198 to R204) -/

/-- SPAWN: the lowest free reserved context of the block. -/
def execSpawn (f : Fields) (s : State) : Out :=
  if !s.acts f then .next (s.advance f)
  else match s.release 1 with
    | (s, false) => .next (s.stallAt 28)
    | (s, true) =>
      let b := s.myBlock
      let id := s.warp.id
      let d (s : State) (v : Bool) : State := s.later [predName f.k f.d.toNat] ((s.actLanes f).map fun l => destPred f f.d l v) 0
      match b.reserved with
      | [] => .next ((d s false).advance f)
      | r :: rs =>
        let j := rs.foldl min r
        let pc := s.warp.pc + BitVec.ofInt 64 (64 * sintOf 16 f.imm16.toNat)
        let sregs := (List.range 8).map fun i => (i, s.uword (f.a.toNat + i))
        let prio := s.warp.prio
        let t := d s true
        let t := t.modBlock id.block fun b => { b with reserved := b.reserved.filter (· != j), extra := b.extra ||| 1#64 <<< j }
        .next ((t.newWarp { id with warp := j } b pc prio true sregs).advance f)

/-- LAUNCH: the record is read as LD reads it, then posted (R200). -/
def execLaunch (f : Fields) (s : State) : Out :=
  let lane := (s.actLanes f).headD 0
  let a := s.upair f.a
  let b := s.srcB f false 32 1 lane
  if !s.acts f then .next (s.advance f)
  else match s.indirectBreach (.launch f) f with
  | some r => .next (s.indirectTrap f r)
  | none =>
    if a % 1024 ≠ 0 then .next (s.trap { code := cMisalign, addr := a, info0 := 1024, lane, flags := 1 })
    else match s.release 4 with
    | (s, false) => .next (s.stallAt 28)
    | (s, true) =>
      match s.readOnce f a 1024 with
      | (_, .error o) => o
      | (s, .ok x) =>
        let give (s : State) (v : Nat) : Out := .next ((s.later (coversD f 1) (s.onceResult f 1 v) 0).advance f)
        let pid := s.processOf s.warp
        let k := s.queueAt pid b
        if 64 ≤ b then give s 0xFFFF_FFFE
        else if !k.enable || !k.device then give s 0xFFFF_FFFE
        else if (k.tail + 2 ^ 32 - k.head) % 2 ^ 32 = 2 ^ k.lsize then give s 0xFFFF_FFFF
        else
          let s := (s.homeUpdate (s.queueAddr pid b + 96) 32 fun t => (t + 1) % 2 ^ 32).2
          let s := s.deviceWrites (s.recordAddr k k.tail) (words64 16 x)
          give (s.post (.launchIntake pid b)) (launchId b k.tail)

def execProduce (f : Fields) (s : State) : Out :=
  if !s.acts f then .next (s.advance f)
  else match s.release 4 with
    | (s, false) => .next (s.stallAt 28)
    | (s, true) => .next (((if s.warp.isVesper then s else s.produceBlock s.warp.id.block true)).advance f)

/-- The producers of a warp's launch are done: whether all of them without failure. -/
def State.producersDone (s : State) (w : Warp) : Option Bool :=
  let ps := (s.launchAt w.info.process w.info.launch).prods.map (s.producer w.info.process)
  if w.isVesper then some true
  else if ps.all fun p => match p with | .done _ => true | _ => false then some (ps.all (· == .done true)) else none

def execAwait (f : Fields) (s : State) : Out :=
  if !s.acts f then .next (s.advance f true)
  else match s.producersDone s.warp with
    | none => .next (s.block .await 0 7)
    | some v =>
      let s := s.acquire (some 4)
      .next ((s.later [predName f.k f.d.toNat] ((s.actLanes f).map fun l => destPred f f.d l v) 0).advance f true)

/-- AWAIT_WAKE: the sub-gangs that wait look again. -/
def execAwaitWake (id : WarpId) (s : State) : Out :=
  match s.warpAt? id with
  | none => .next s
  | some w =>
    if (s.producersDone w).isNone then .next s
    else .next (s.modWarpAt id fun w =>
      { w with quads := w.quads.map fun q => if q.wait == .await then { q with wait := .none, operand := 0 } else q })

/-- SLEEP as it first issues. -/
def State.sleepFor (s : State) (f : Fields) : Out :=
  let lane := (s.actLanes f).headD 0
  if !s.acts f then .next (s.advance f true)
  else match s.indirectBreach (.sleep f) f with
    | some r => .next (s.indirectTrap f r)
    | none =>
      let n := s.srcB f false 32 1 lane
      if n = 0 then .next (s.advance f true) else .next (s.block .sleep (s.timer + n) 19)

def execSleep (f : Fields) (s : State) : Out := s.onceMore f .sleep id fun s => s.sleepFor f

/-- SLEEP_WAKE: the time has passed. -/
def execSleepWake (id : WarpId) (s : State) : Out :=
  .next (s.modWarpAt id fun w =>
    { w with quads := w.quads.map fun q => if q.wait == .sleep && decide (q.operand ≤ s.timer) then { q with operand := 0 } else q })

def execSetprio (f : Fields) (s : State) : Out :=
  let lane := (s.actLanes f).headD 0
  if !s.acts f then .next (s.advance f)
  else match s.indirectBreach (.setprio f) f with
    | some r => .next (s.indirectTrap f r)
    | none =>
      let n := s.srcB f false 32 1 lane
      .next ((s.modWarp fun w => { w with prioNext := some (min n w.info.maxPrio) }).advance f)

/-! ## Promotion (R188) -/

/-- WARP_PROMOTION: the warp has been ready without issuing for 4,096 cycles, or for 4,096 more. -/
def execWarpPromotion (id : WarpId) (s : State) : Out :=
  match s.warpAt? id with
  | none => .next s
  | some w =>
    if w.halted || decide (w.waited < 4096) then .next s
    else
      let p := match w.promoted with | some (o, k) => (o, min 7 (k + 1)) | none => (s.nextSeq, 0)
      .next ({ s with nextSeq := s.nextSeq + 1 }.modWarpAt id fun w => { w with promoted := some p, waited := w.waited - 4096 })

end Sys2Proof.Machine
end

