-- ==== Sys2Proof/Machine/Preempt.lean ====
section
/-! DEFINITION. The fault queue (R418 to R420) and CORECTL: pre-emption, resumption and discard (R421 to R423). -/

namespace Sys2Proof.Machine

/-! ## The fault queue -/

/-- A record as it lies in memory (R418). -/
def FaultRecord.bits (r : FaultRecord) : BitVec 512 :=
  r.addr ++ r.pc ++ r.info0 ++ r.info1 ++ r.regions ++ r.process ++ r.launch ++ 0#8 ++ r.warp ++ r.lane ++ r.slot ++ r.core ++
    r.die ++ r.kind ++ r.code ++ r.status ++ r.flags ++ r.aux16 ++ r.time

def DieRegs.fqSize (d : DieRegs) : Nat := 2 ^ Machine.bits d.fqctl.toNat 4 0

/-- As many records as the ring has places have not been consumed. -/
def DieRegs.fqIsFull (d : DieRegs) : Bool := decide (d.fqSize ≤ (d.fqtail.toNat + 2 ^ 32 - d.fqhead.toNat) % 2 ^ 32)

/-- The records that wait have found the queue full: each counts once. -/
def Die.markLate (d : Die) : Die :=
  { d with
    waiting := d.waiting.map fun r => { r with late := true }
    regs := { d.regs with fqfull := d.regs.fqfull + BitVec.ofNat 64 (d.waiting.filter (!·.late)).length } }

/-- FAULT_RECORD_ENQUEUE: the oldest waiting record of a die enters its queue (R420), once the kernel instance
has set the queue up (R459). -/
def execFaultRecordEnqueue (die : Nat) (s : State) : Out :=
  let d := (s.dieAt die).regs
  match (s.dieAt die).waiting with
  | [] => .next s
  | r :: rest =>
    if !(d.fqSet && d.fqCtlSet) then .next (s.post (.faultRecordEnqueue die))
    else if d.fqIsFull then .next ((s.modDie die Die.markLate).post (.faultRecordEnqueue die))
    else
      let s := s.deviceWrites (s.phys (d.fqbase.toNat + 512 * (d.fqtail.toNat % d.fqSize))) (words64 8 r.body.bits.toNat)
      let s := s.modDie die fun x => { x with waiting := rest, regs := { x.regs with fqtail := (x.regs.fqtail + 1) &&& 0xFFFF_FFFF#64 } }
      let s := s.physSync d.fqsync.toNat die
      let s := match r.stops with
        | some c => s.modCore die c fun k => { k with byTrap := k.byTrap || k.trapped }
        | none => s
      .next (s.wakeDie die)

/-! ## CORECTL -/

/-- CORECTL_HALT: no further effect on a core that a trap stops, or that halts already (R417). -/
def execCorectlHalt (die core : Nat) (s : State) : Out :=
  let c := s.coreAt die core
  if c.trapped ∨ c.halt ≠ .running then .next s
  else .next ((s.modCore die core fun c => { c with halt := .halting, cause := .preempt }).post (.haltCompletion die core))

/-- The HALTED record. -/
def State.haltedRecord (s : State) (die core : Nat) : FaultRecord :=
  { addr := 0, pc := 0, info0 := BitVec.ofNat 64 (s.slotMask die core), info1 := 0, regions := 0, process := 0, launch := 0, warp := 0,
    lane := 0, slot := 0, core := BitVec.ofNat 6 core, die := BitVec.ofNat 2 die, kind := 6, code := 0, status := 0, flags := 0,
    aux16 := 0, time := BitVec.ofNat 64 s.timer }

/-- HALT_COMPLETION: every warp of the core stands at an instruction boundary (R416, R421, R422). -/
def execHaltCompletion (die core : Nat) (s : State) : Out :=
  let c := s.coreAt die core
  let t := (s.haltWarps die core).modCore die core fun c => { c with haltAt := s.timer, grace := 0 }
  if c.halt = .halting then
    .next ((t.modCore die core fun c => { c with halt := .halted }).enqueueRecord die ⟨s.haltedRecord die core, none, none, false⟩)
  else if c.trapped then .next t
  else .next s

/-- The core is halted or stopped by trap. -/
def Core.stands (c : Core) : Bool := c.halt == .halted || c.byTrap

/-- The block is halted for its rotation, which goes on (R192). -/
def Block.rotating (b : Block) : Bool := b.place == .resident && b.held && b.area.isSome

/-- CORECTL_RESUME, once what the halt left in the background has been written (R422). -/
def execCorectlResume (die core : Nat) (s : State) : Out :=
  let here (w : Warp) : Bool := w.id.die == die && w.id.core == core && !(s.blockAt w.id.block).rotating
  if !(s.coreAt die core).stands then .next s
  else
    let s := s.haltWarps die core
    if s.warps.any fun w => here w && !w.score.isEmpty then .next (s.post (.corectlResume die core))
    else
      .next ((s.modCore die core fun c => { c with trapped := false, byTrap := false, grace := 0, cause := .none, halt := .running }).modWarps
        here fun w => { w with halted := false })

/-- The block in a slot of a core. -/
def State.slotBlock (s : State) (die core slot : Nat) : Option Nat :=
  (s.blocks.find? fun (n, b) =>
    b.place == .resident && b.die == die && b.core == core && blockSlot n == slot && b.header.width != 0).map (·.1)

/-- CORECTL_DISCARD. The status is FAULTED (R196). -/
def execCorectlDiscard (die core slot : Nat) (whole : Bool) (s : State) : Out :=
  if !(s.coreAt die core).stands then .next s
  else match s.slotBlock die core slot with
    | none => .next s
    | some num =>
      let b := s.blockAt num
      .next (if whole then s.endLaunch b.process b.launch 4 else s.discardBlock num 4)

end Sys2Proof.Machine
end

