-- ==== Sys2Proof/Machine/Dusk.lean ====
section
/-! DEFINITION. The Dusk engine: save areas (R425 to R428), context commands (R424, R429), rotation (R191 to R193) and
checkpoints (R389). -/

namespace Sys2Proof.Machine

/-! ## The layout of a save area (R425 to R428) -/

/-- Bits of an image: byte offset, width and value. -/
structure ImageField where
  off   : Nat
  width : Nat
  value : Nat
  deriving DecidableEq, Repr

/-- An image from its fields. -/
def imageOf (l : List ImageField) : Nat := l.foldl (fun x f => x ||| (f.value % 2 ^ f.width) <<< (8 * f.off)) 0

/-- Bits of an image. -/
def imgBits (x off width : Nat) : Nat := (x >>> (8 * off)) % 2 ^ width

def waitNumber : WaitKind → Nat
  | .none | .vesperHalt | .arecv => 0 | .await => 1 | .syncwait => 2 | .barWait => 3 | .barSync => 4 | .cbarWait => 5 | .fwait => 6
  | .plwait => 7 | .sleep => 8 | .pagePark => 9 | .placementPark => 10 | .pendingHandle => 11

/-- The quad's wait as a restore takes it up: barrier waits keep their token and SLEEP its deadline; the other waits issue
again (R227, R422). -/
def waitRestored (kind operand haltAt : Nat) : WaitKind × Nat :=
  match kind with
  | 3 => (.barWait, operand) | 4 => (.barSync, operand) | 5 => (.cbarWait, operand)
  | 8 => (.sleep, if operand = 0 then 0 else haltAt + operand)
  | _ => (.none, 0)

def Quad.image (haltAt q : Nat) (u : Quad) : List ImageField :=
  let operand := match u.wait with
    | .barWait | .barSync | .cbarWait => u.operand
    | .sleep => u.operand - haltAt
    | _ => 0
  [⟨16 * q, 64, u.pc.toNat⟩, ⟨16 * q + 8, 16, u.ctr.toNat⟩,
   ⟨16 * q + 10, 8, u.live.toNat + 16 * waitNumber u.wait⟩, ⟨16 * q + 11, 1, b2n u.yielded⟩, ⟨16 * q + 12, 32, operand⟩]

/-- A replay record at byte offset `o` (R428). -/
def Replay.image (o : Nat) (r : Replay) : List ImageField :=
  [⟨o, 64, r.pc.toNat⟩, ⟨o + 8, 64, maskOf (r.lanes.map (·.1))⟩] ++ r.lanes.map fun (l, a) => ⟨o + 16 + 8 * l, 64, a⟩

/-- A warp context (R427). -/
def Warp.image (w : Warp) (haltAt : Nat) : Nat :=
  let W := w.info.width
  let each (n : Nat) (g : Nat → ImageField) : List ImageField := (List.range n).map g
  imageOf <|
    (w.quads.zipIdx.flatMap fun (u, q) => u.image haltAt q) ++
    (w.regions.zipIdx.map fun (e, i) => ⟨256 + 2 * i, 16, e.toNat⟩) ++
    [⟨272, 32, w.fmode.toNat⟩, ⟨276, 8, w.depth⟩, ⟨277, 3, w.prio⟩, ⟨278, 6, w.replays.length⟩, ⟨279, 8, w.trapCode.getD 0⟩,
     ⟨280, 7, w.regs.q.toNat⟩, ⟨336, 8, b2n w.nest.valid⟩, ⟨348, 32, w.nest.acc.toNat⟩] ++
    (w.nest.idx.zipIdx.map fun (n, i) => ⟨338 + 2 * i, 16, n⟩) ++
    (each 4 fun i => ⟨288 + 4 * i, 32, w.regs.get (.x i) 0⟩) ++
    (each 16 fun i => ⟨304 + 2 * i, 16, w.regs.get (.h i) 0⟩) ++
    (each W fun i => ⟨448 + i, 7, (tget 0 w.regs.p i).toNat⟩) ++
    (each 128 fun n => ⟨512 + 4 * n, 32, w.regs.get (.s n) 0⟩) ++
    (w.replays.zipIdx.flatMap fun (r, j) => r.image (1024 + j * (16 + 8 * W))) ++
    ((List.range w.info.vregs).flatMap fun n => each W fun i => ⟨1536 + 256 * W + 4 * (n * W + i), 32, w.regs.get (.v n) i⟩)

def replayFrom (x o W : Nat) : Replay :=
  { pc := BitVec.ofNat 64 (imgBits x o 64), lanes := (setBits W (imgBits x (o + 8) 64)).map fun l => (l, imgBits x (o + 16 + 8 * l) 64)
    park := false, unresolved := false, slot := 0 }

/-- A warp context read back into a warp whose identity and allotment are known. R427 keeps no counter with the nest state: its
LOOPNEST is taken to be the one at which the sub-gang that parked stands, or else the lowest that no wait holds (log entry 50). -/
def Warp.restored (w : Warp) (haltAt x : Nat) : Warp :=
  let W := w.info.width
  let each (n off step width : Nat) (name : Nat → RegName) : List RegWrite :=
    (List.range n).map fun i => ⟨name i, 0, imgBits x (off + step * i) width⟩
  let regs := (RegFile.zero.setAll (each 4 288 4 32 .x ++ each 16 304 2 16 .h ++ each 128 512 4 32 .s)).setAll
    ((List.range w.info.vregs).flatMap fun n => (List.range W).map fun i => ⟨.v n, i, imgBits x (1536 + 256 * W + 4 * (n * W + i)) 32⟩)
  let code := imgBits x 279 8
  let kind (q : Nat) : Nat := imgBits x (16 * q + 10) 8 / 16
  let quads : List Quad := (List.range (W / 4)).map fun q =>
    let (wait, operand) := waitRestored (kind q) (imgBits x (16 * q + 12) 32) haltAt
    { pc := BitVec.ofNat 64 (imgBits x (16 * q) 64), ctr := BitVec.ofNat 16 (imgBits x (16 * q + 8) 16)
      live := BitVec.ofNat 4 (imgBits x (16 * q + 10) 4), wait, operand, yielded := imgBits x (16 * q + 11) 1 == 1 }
  let atNest (k : Nat) : Option DWord :=
    ((lowestGang ((quads.zipIdx.filter fun (u, q) => u.live != 0 && !u.yielded && kind q == k).map fun (u, q) => (q, u))).head?.bind
      (quads[·]?)).map (·.pc)
  { w with
    quads
    regs := { regs with
      q := BitVec.ofNat 8 (imgBits x 280 7)
      p := tputRange 0 [] 0 ((List.range W).map fun i => BitVec.ofNat 8 (imgBits x (448 + i) 7)) }
    regions := (List.range 8).map fun i => BitVec.ofNat 16 (imgBits x (256 + 2 * i) 16)
    depth := imgBits x 276 8
    fmode := BitVec.ofNat 32 (imgBits x 272 32)
    prio := imgBits x 277 3
    nest :=
      { valid := imgBits x 336 8 != 0, pc := ((atNest 9).or (atNest 0)).getD 0, idx := (List.range 5).map fun i => imgBits x (338 + 2 * i) 16
        acc := BitVec.ofNat 32 (imgBits x 348 32), asked := 0, running := none }
    replays := (List.range (imgBits x 278 6)).map fun j => replayFrom x (1024 + j * (16 + 8 * W)) W
    trapCode := if code = 0 then none else some code }

/-- The bytes of a block's area, and where its parts lie. -/
def Block.contextCount (b : Block) : Nat := b.warps + b.header.spawnres
def Block.areaSize (b : Block) : Nat := saveSize b.header b.contextCount
def Block.contextAt (b : Block) (j : Nat) : Nat := 4096 + roundUp b.header.spad 4096 + j * contextSize b.header

/-- The scratchpad allotment as one number. -/
def Block.spadImage (b : Block) : Nat := ofBytes (tgetRange 0 b.spad 0 (roundUp b.header.spad 4096))

/-- Block state (R426). -/
def State.blockImage (s : State) (num : Nat) : Nat :=
  let b := s.blockAt num
  let c := s.coreAt b.die b.core
  let ws := s.warps.filter fun w => w.id.block == num && !w.isVesper
  let cluster := if b.rank ≠ 0 then [] else (List.range 4).flatMap fun k =>
    (s.clusterBarrier b.clusterKey k).words.zipIdx.map fun (x, r) => (⟨320 + 72 * k + 8 * r, 64, x⟩ : ImageField)
  imageOf <|
    [⟨0, 32, b.launch⟩, ⟨4, 32, b.pos.getD 0 0⟩, ⟨8, 32, b.pos.getD 1 0⟩, ⟨12, 32, b.pos.getD 2 0⟩, ⟨16, 8, b.rank⟩, ⟨17, 8, b.warps⟩,
     ⟨18, 1, b2n (c.matrix == some num)⟩, ⟨24, 64, maskOf (ws.map (·.id.warp))⟩, ⟨32, 64, c.haltAt⟩] ++
    ((List.range b.header.barriers).flatMap fun k =>
      [⟨64 + 16 * k, 64, (b.barrier k).mask.toNat⟩, ⟨72 + 16 * k, 8, (b.barrier k).phase.toNat⟩]) ++
    cluster ++
    ((List.range 64).map fun i => ⟨1024 + 8 * i, 64, (b.handle i).word⟩) ++
    [⟨4096, 8 * roundUp b.header.spad 4096, b.spadImage⟩] ++
    ws.map fun w => ⟨b.contextAt w.id.warp, 8 * contextSize b.header, w.image c.haltAt⟩

/-- A matrix block's accumulator state: each engine's store, then its side registers (R425). -/
def Core.matrixImage (c : Core) : List Nat :=
  (List.range 2).flatMap fun e =>
    ((tgetRange 0 c.acc (e * 65536) 65536).map (·.toNat)) ++
    (List.range 512).flatMap fun i => [(tget minusInf c.sideM (e * 512 + i)).toNat, (tget 0 c.sideL (e * 512 + i)).toNat]

def matrixAreaSize : Nat := 532480

/-- Pairs of 32-bit words as 64-bit words. -/
def pairUp : List Nat → List Nat
  | a :: b :: r => (a + b <<< 32) :: pairUp r
  | [a] => [a]
  | [] => []

/-- A handle entry from its word. -/
def handleFrom (x : Nat) : HandleEntry :=
  let state := match bits x 28 26 with | 1 => .pending | 2 => .doneOk | 3 => .doneErr | 4 => .cancelled | _ => HandleState.free
  { state, seq := BitVec.ofNat 10 (bits x 25 16), status := BitVec.ofNat 16 (bits x 15 0), op := if state = .pending then some (bits x 63 29) else none }

/-! ## Saving -/

/-- An engine operation that reads or writes the scratchpad or the accumulators of its block, or has not started: the save
waits for it (R290, R306). -/
def EngineOp.holdsBlock (o : EngineOp) : Bool :=
  match o.work with
  | .copy c =>
    let spad (a : Nat) : Bool := a >>> 56 == 8 || a >>> 56 == 9
    !o.started || spad c.src || spad c.dst || c.list.any spad || c.sync.any spad || c.mm.isSome
  | .matrix _ => true
  | .msg _ | .conv _ _ => false

/-- An engine operation of a peer that may reach the scratchpad of the blocks of its cluster. -/
def EngineOp.reachesPeers (o : EngineOp) : Bool :=
  match o.work with
  | .copy c => c.src >>> 56 == 9 || c.dst >>> 56 == 9 || c.list.any (· >>> 56 == 9) || c.sync.any (· >>> 56 == 9)
  | .matrix _ => true
  | _ => false

/-- Everything of the block that has to end before its save does is over. -/
def State.blockQuiet (s : State) (num : Nat) : Bool :=
  let b := s.blockAt num
  (s.pendings.all fun p => match p.warp with | some id => !(id.block == num && decide (id.core < 64)) | none => true) &&
  (s.cores.all fun (_, c) => c.slots.all fun (_, q) => q.all fun r => r.block != num && !(r.warp.block == num && decide (r.warp.core < 64))) &&
  (s.warps.all fun w => w.isVesper || w.id.block != num || w.score.isEmpty) &&
  (s.clusterAway b || s.agenda.all fun e => match e with
    | .clusterBarrierArrival launch cluster _ _ _ => Machine.clusterKey launch cluster != b.clusterKey
    | _ => true) &&
  (s.ops.all fun (_, o) => match o with
    | some o =>
      let u := s.blockAt o.warp.block
      decide (64 ≤ o.warp.core) ||
      !((o.warp.block == num && o.holdsBlock) ||
        (o.reachesPeers && u.process == b.process && u.launch == b.launch && u.cluster == b.cluster))
    | none => true)

/-- A block's state goes to its area and the block leaves its core (R424); the move is a release (R259). -/
def State.saveBlock (s : State) (num area matArea : Nat) : State :=
  let b := s.blockAt num
  let owner := (s.coreAt b.die b.core).matrix == some num
  let s := s.releaseLines b.die 4
  let s := s.deviceWrites (s.phys area) (words64 (b.areaSize / 8) (s.blockImage num))
  let s := if owner then s.deviceWrites (s.phys matArea) (pairUp (s.coreAt b.die b.core).matrixImage) else s
  let gone (w : Warp) : Bool := w.id.block == num && !w.isVesper
  let s := { s with warp := if gone s.warp then Warp.idle else s.warp, others := s.others.filter fun w => !gone w }
  let s := s.modBlock num fun b => { b with place := .saved, area := some area, matArea := if owner then some matArea else none, held := false }
  (s.freeMatrix b.die b.core num).settleCore b.die b.core

/-- A free run of the process's save pool, in 64 KiB units, and the process with the run in use (R192, R436). -/
def Process.takeArea (p : Process) (bytes : Nat) : Option (Nat × Process) :=
  let base := p.savepool.toNat / 2 ^ 20 * 2 ^ 20
  let size := roundUp (8 * bytes) (2 ^ 19)
  let free (a : Nat) : Bool := p.areas.all fun (x, n) => decide (a + size ≤ x) || decide (x + n ≤ a)
  (((List.range (bits p.savepool.toNat 19 0)).map fun u => base + u * 2 ^ 19).find? fun a =>
    free a && decide (a + size ≤ base + bits p.savepool.toNat 19 0 * 2 ^ 19)).map fun a => (a, { p with areas := (a, size) :: p.areas })

def State.takeArea (s : State) (pid bytes : Nat) : Option (Nat × State) :=
  ((s.procAt pid).takeArea bytes).map fun (a, p) => (a, { s with procs := tput Process.reset s.procs pid p })

/-- The allotment of a retired block goes to its area when its cluster is rotated (R205). -/
def State.saveAllotment (s : State) (num area : Nat) : State :=
  let b := s.blockAt num
  let s := s.deviceWrites (s.phys area) (words64 (b.areaSize / 8) (s.blockImage num))
  (s.modBlock num fun b => { b with held := true }).settleCore b.die b.core

/-! ## Restoring -/

/-- Something that the block sent before it left its core has not ended: the acquire of its move waits for it (R259), and so
does the restore. -/
def State.moveBusy (s : State) (num : Nat) : Bool := s.blockBusy num false

/-- The scope that contains two cores (R259). -/
def moveScope (die core die' core' : Nat) : Nat :=
  if die ≠ die' then 4 else if core = core' then 1 else if core / 8 = core' / 8 then 2 else 3

/-- The identity of a saved block's operations, and of the updates that wait for its scratchpad, once it is resident again. -/
def State.renameOps (s : State) (num new die core : Nat) : State :=
  { s with
    agenda := s.agenda.map fun e => match e with
      | .handlerRun r => .handlerRun { r with spad := r.spad.map fun b => if b = num then new else b }
      | e => e
    ops := s.ops.map fun (k, o) => (k, o.map fun o =>
      if o.warp.block = num ∧ o.warp.core < 64 then { o with warp := { o.warp with die, core, block := new } } else o) }

/-- A saved block becomes resident on a core, its state read back from an area; it stays held when `held`. -/
def State.restoreBlock (s : State) (num die core area : Nat) (held : Bool) : State :=
  let b := s.blockAt num
  let x := s.cohRead (s.phys area) (8 * b.areaSize)
  let new := s.blockNumber die core
  let haltAt := imgBits x 32 64
  let c := s.coreAt die core
  let stopped := c.trapped || c.halt != .running
  let matrix := imgBits x 18 1 == 1
  let empty := (s.freeOn die core).l1 = 0
  let r : Block :=
    { b with
      place := .resident, die, core, area := none, matArea := none, held, waitSince := none
      barriers := (List.range b.header.barriers).foldl (fun t k =>
        tput Barrier.reset t k { phase := BitVec.ofNat 8 (imgBits x (72 + 16 * k) 8), mask := BitVec.ofNat 64 (imgBits x (64 + 16 * k) 64) }) []
      handles := (List.range 64).foldl (fun t i => tput HandleEntry.reset t i (handleFrom (imgBits x (1024 + 8 * i) 64))) []
      spad := tputRange 0 [] 0 (bytesOf (roundUp b.header.spad 4096) (imgBits x 4096 (8 * roundUp b.header.spad 4096))) }
  let mat := if matrix then s.cohRead (s.phys (b.matArea.getD 0)) (8 * matrixAreaSize) else 0
  let s := s.freeAreas num
  let s := { s with blocks := tput Block.none (tput Block.none s.blocks num Block.none) new r }
  let s := if b.rank ≠ 0 then s else (List.range 4).foldl (fun s k =>
    s.modClusterBarrier b.clusterKey k fun _ =>
      { phase := BitVec.ofNat 8 (imgBits x (320 + 72 * k) 8)
        masks := (List.range 8).map fun i => BitVec.ofNat 64 (imgBits x (328 + 72 * k + 8 * i) 64) }) s
  let s := s.modCore die core fun c =>
    let c := if empty then { c with l1Size := roundUp b.header.l1min 32768 } else c
    if !matrix then c
    else
      let word (i : Nat) : Word := BitVec.ofNat 32 (imgBits mat (4 * i) 32)
      (List.range 2).foldl (fun c e => { c with
        matrix := some new
        acc := tputRange 0 c.acc (e * 65536) ((List.range 65536).map fun i => word (e * 66560 + i))
        sideM := tputRange minusInf c.sideM (e * 512) ((List.range 512).map fun i => word (e * 66560 + 65536 + 2 * i))
        sideL := tputRange 0 c.sideL (e * 512) ((List.range 512).map fun i => word (e * 66560 + 65537 + 2 * i)) }) c
  let s := s.renameOps num new die core
  let s := s.acquireAt die core (moveScope b.die b.core die core)
  let s := (setBits 64 (imgBits x 24 64)).foldl (fun s j =>
    let w : Warp :=
      { Warp.idle with
        id := { die, core, block := new, warp := j }, live := true, halted := stopped
        info :=
          { width := b.header.width, vregs := 8 * b.header.vunits, kregs := b.header.kregs, process := b.process, launch := b.launch
            maxPrio := (s.launchAt b.process b.launch).priority, start := s.nextSeq, spawned := b.extra.getLsbD j } }
    { s with
      others := w.restored haltAt (imgBits x (b.contextAt j) (8 * contextSize b.header)) :: s.others, nextSeq := s.nextSeq + 1 }) s
  if r.initial = 0 ∧ r.extra = 0 then s.post (.blockRetirement new) else s

/-- The allotment of a retired block is back on a core (R205). -/
def State.restoreAllotment (s : State) (num die core : Nat) : State :=
  let b := s.blockAt num
  let x := match b.area with | some a => s.cohRead (s.phys a) (8 * b.areaSize) | none => 0
  let empty := (s.freeOn die core).l1 = 0
  let s := (s.freeAreas num).modBlock num fun b =>
    { b with
      die, core, held := false
      spad := tputRange 0 [] 0 (bytesOf (roundUp b.header.spad 4096) (imgBits x 4096 (8 * roundUp b.header.spad 4096))) }
  s.modCore die core fun c => if empty then { c with l1Size := roundUp b.header.l1min 32768 } else c

/-- The blocks of a cluster start together. -/
def State.releaseCluster (s : State) (pid ident cluster : Nat) : State :=
  { s with blocks := s.blocks.map fun (n, b) =>
      (n, if b.process = pid ∧ b.launch = ident ∧ b.cluster = cluster ∧ b.place = .resident then { b with held := false } else b) }

/-! ## Context commands (R424, R429) -/

structure ContextCommand where
  area    : Nat
  sync    : Nat
  size    : Nat
  process : Nat
  slot    : Nat
  core    : Nat
  op      : Nat
  clean   : Bool             -- the reserved fields are 0, and the addresses are aligned
  deriving DecidableEq, Repr

def State.contextCommand (s : State) (cmd : Nat) : ContextCommand :=
  let x := s.cohRead (s.phys cmd) 256
  { area := bits x 255 192, sync := bits x 191 128, size := bits x 127 96, process := bits x 95 80, slot := bits x 39 36
    core := bits x 35 30, op := bits x 27 24
    clean := bits x 79 40 == 0 && bits x 29 28 == 0 && bits x 23 0 == 0 && bits x 255 192 % 32768 == 0 && bits x 191 128 % 128 == 0 }

def stNotHalted : Nat := 0x40
def stAreaSmall : Nat := 0x41
def stRestoreCapacity : Nat := 0x13

/-- A context command ends: status word, sync word, and the next command may start. -/
def State.endContext (s : State) (die : Nat) (c : ContextCommand) (slot status : Nat) : State :=
  (s.modDie die fun d => { d with dusk := d.dusk.tail }).reportStatus die c.sync (slot * 2 ^ 32 + status)

/-- What ends a save at once. -/
def State.saveRefused (s : State) (die : Nat) (c : ContextCommand) : Option Nat :=
  if !c.clean || c.op != 1 then some stBadCmd
  else if !(s.coreAt die c.core).stands then some stNotHalted
  else match s.slotBlock die c.core c.slot with
    | none => some stBadCmd
    | some num =>
      let b := s.blockAt num
      if c.size < b.areaSize then some stAreaSmall
      else if !tableOk c.area (8 * b.areaSize) then some stNotMapped
      else if (s.served (s.phys c.area) (leafMode 0 0)).isNone then some stDieLost
      else if (s.coreAt die c.core).matrix = some num ∧ (s.takeArea b.process matrixAreaSize).isNone then some stAreaSmall
      else none

/-- CONTEXT_SAVE: commands in order of arrival; the save waits for what R290 and R306 name. -/
def execContextSave (die cmd : Nat) (s : State) : Out :=
  let c := s.contextCommand cmd
  if (s.dieAt die).dusk.head? ≠ some cmd then
    .next (if (s.dieAt die).dusk.contains cmd then s.post (.contextSave die cmd) else s)
  else match s.saveRefused die c, s.slotBlock die c.core c.slot with
    | some st, _ => .next (s.endContext die c c.slot st)
    | none, none => .next s
    | none, some num =>
      let s := s.haltWarps die c.core
      if !s.blockQuiet num then .next (s.post (.contextSave die cmd))
      else
        let b := s.blockAt num
        let (m, s) := if (s.coreAt die c.core).matrix = some num then (s.takeArea b.process matrixAreaSize).getD (0, s) else (0, s)
        .next ((s.saveBlock num c.area m).endContext die c c.slot 0)

/-- The saved block that an area names: by launch and position. -/
def State.savedBlock (s : State) (pid x : Nat) : Option Nat :=
  (s.blocks.find? fun (_, b) =>
    b.place == .saved && b.process == pid && b.launch == imgBits x 0 32 && b.pos == [imgBits x 4 32, imgBits x 8 32, imgBits x 12 32] &&
    !((s.launchAt b.process b.launch).swapped.any fun y => y.1 == b.cluster)).map (·.1)

/-- What ends a restore at once (R429). -/
def State.restoreRefused (s : State) (die : Nat) (c : ContextCommand) (num : Nat) : Option Nat :=
  let b := s.blockAt num
  let ranks := s.clusterBlocks b.process b.launch b.cluster
  let otherBay := ranks.any fun (n, u) => n != num && u.place == .resident && (u.die != die || u.core / 8 != c.core / 8)
  let x := s.cohRead (s.phys c.area) (8 * b.areaSize)
  if c.size < b.areaSize then some stAreaSmall
  else if !tableOk c.area (8 * b.areaSize) then some stNotMapped
  else if (s.served (s.phys c.area) (leafMode 0 0)).isNone then some stPoison
  else match s.poisonOf (s.phys c.area) (8 * b.areaSize) with
    | some k => some (if k = 1 then stPoison else stDataLost)
    | none =>
      if !(s.freeOn die c.core).fits b.need || otherBay || (imgBits x 18 1 == 1 && (s.coreAt die c.core).matrix.isSome) then
        some stRestoreCapacity
      else none

/-- Every rank of the block's cluster is restored or retired, so the ranks start together (R429). -/
def State.startWhole (s : State) (b : Block) : State :=
  let ranks := (s.clusterBlocks b.process b.launch b.cluster).filter fun (_, u) => u.place != .retired
  if ranks.all fun (_, u) => u.place == .resident && u.held then
    (s.releaseCluster b.process b.launch b.cluster).completeCluster b
  else s

/-- CONTEXT_RESTORE. -/
def execContextRestore (die cmd : Nat) (s : State) : Out :=
  let c := s.contextCommand cmd
  if (s.dieAt die).dusk.head? ≠ some cmd then
    .next (if (s.dieAt die).dusk.contains cmd then s.post (.contextRestore die cmd) else s)
  else if !c.clean || c.op != 2 then .next (s.endContext die c 0 stBadCmd)
  else match s.savedBlock c.process (s.cohRead (s.phys c.area) 4096) with
    | none => .next (s.endContext die c 0 stBadCmd)
    | some num =>
      let b := s.blockAt num
      match s.restoreRefused die c num with
      | some st => .next (s.endContext die c 0 st)
      | none =>
        if s.moveBusy num then .next (s.post (.contextRestore die cmd)) else
        let slot := blockSlot (s.blockNumber die c.core)
        .next (((s.restoreBlock num die c.core c.area (b.header.cluster != 1)).startWhole b).endContext die c slot 0)

/-! ## Rotation (R191 to R193) -/

/-- The warp is parked on a page or a placement miss that is not resolved (R191). -/
def Warp.parkWaits (w : Warp) : Bool :=
  match w.parked with
  | some r =>
    !r.park || w.gang.any fun q => match w.quads[q]? with | some u => u.wait == .pagePark || u.wait == .placementPark | none => false
  | none => false

/-- A warp that R191 counts as waiting. -/
def State.warpWaits (s : State) (w : Warp) : Bool :=
  !w.halted && (w.parkWaits || (w.parked.isNone && (w.quads.filter fun q => q.live != 0).all fun q => s.waits w q && (match q.wait with
    | .await | .syncwait | .barWait | .barSync | .cbarWait | .fwait | .plwait | .pagePark | .placementPark => true
    | .none | .sleep | .pendingHandle | .vesperHalt | .arecv => false)))

/-- Every unfinished warp of a block waits, on a core that no halt and no trap has stopped. -/
def State.blockWaits (s : State) (num : Nat) (b : Block) : Bool :=
  let c := s.coreAt b.die b.core
  b.place == .resident && !b.held && c.halt == .running && !c.trapped &&
  (s.warps.filter fun w => w.id.block == num && !w.isVesper).all s.warpWaits

/-- The blocks of a cluster that have not retired. -/
def State.liveBlocks (s : State) (pid ident cluster : Nat) : List (Nat × Block) :=
  (s.clusterBlocks pid ident cluster).filter fun (_, b) => b.place != .retired

def State.rotatable (s : State) (pid ident cluster : Nat) : Bool :=
  let bs := s.liveBlocks pid ident cluster
  !bs.isEmpty && bs.all fun (n, b) =>
    !b.header.norot && s.blockWaits n b && (match b.waitSince with
      | some t => decide ((s.procAt pid).rotthresh.toNat < s.timer - t)
      | none => false)

/-- The clusters of a launch and of its producers that are not resident (R192), those that have not started first, each with
its launch; of the first kind, as many as can matter. -/
def State.awaiting (s : State) (pid ident : Nat) : List (Launch × Nat) :=
  let ls := (((s.launchAt pid ident).prods ++ [ident]).map (s.launchAt pid)).filter fun l => l.started && l.status.isNone
  (ls.flatMap fun l =>
    if l.prods.all fun q => s.producer pid q != .unstarted then
      (List.range (min (l.clusters - l.next) (s.admits.length + 1))).map fun i => (l, l.next + i)
    else []) ++
  ls.flatMap fun l => l.swapped.map fun x => (l, x.1)

/-- A rotation is under way. -/
def State.rotating (s : State) : Bool := s.blocks.any fun (_, b) => b.rotating

/-- The cluster that a rotation of a cluster makes room for: the first that waits and for which no other rotation is making
room. -/
def State.rotationTarget (s : State) (pid ident cluster : Nat) : Option Admit :=
  ((s.awaiting pid ident).find? fun (l, k) =>
    let noted := s.admits.any fun a => a.launch == launchKey l.process l.ident && a.cluster == k
    (s.clusterRoom l k).isNone && !(noted && s.rotating)).map fun (l, k) =>
      ⟨launchKey l.process l.ident, k, launchKey pid ident, cluster⟩

/-- A cluster of the launch or of one of its producers waits for resources. -/
def State.clusterAwaits (s : State) (pid ident cluster : Nat) : Bool := (s.rotationTarget pid ident cluster).isSome

/-- The cluster that a rotation makes room for is noted, once. -/
def State.noteAdmit (s : State) (a : Admit) : State := if s.admits.contains a then s else { s with admits := s.admits ++ [a] }

/-- The blocks of a cluster that has not been swapped out: those that have not retired, and those that have and whose allotments
go with them. -/
def State.rotatingBlocks (s : State) (pid ident cluster : Nat) : List (Nat × Block) :=
  (s.clusterBlocks pid ident cluster).filter fun (_, b) => b.place != .retired || !b.held

/-- Areas of the save pool for the blocks of a cluster, noted in the blocks. -/
def State.takeAreas (s : State) : List (Nat × Block) → Option State
  | [] => some s
  | (n, b) :: rest =>
    match s.takeArea b.process b.header.savearea with
    | none => none
    | some (a, s) =>
      let matrix := b.place != .retired && (s.coreAt b.die b.core).matrix == some n
      match (if matrix then (s.takeArea b.process matrixAreaSize).map fun (m, s) => (some m, s) else some (none, s)) with
      | none => none
      | some (m, s) => (s.modBlock n fun b => { b with area := some a, matArea := m, held := b.place != .retired }).takeAreas rest

/-- Step 1 of R192: the warps of the cluster's blocks halt. -/
def State.haltBlocks (s : State) (bs : List (Nat × Block)) : State :=
  s.modWarps (fun w => !w.isVesper && bs.any fun x => x.1 == w.id.block) s.halt

/-- One block of a rotated cluster leaves its core (step 2 of R192, R205). -/
def State.rotateOut (s : State) (x : Nat × Block) : State :=
  if x.2.place = .retired then s.saveAllotment x.1 (x.2.area.getD 0)
  else (s.modCore x.2.die x.2.core fun c => { c with haltAt := s.timer }).saveBlock x.1 (x.2.area.getD 0) (x.2.matArea.getD 0)

/-- ROTATION: the cluster halts with areas set aside for it, and leaves once what its blocks have sent is over. -/
def execRotation (launch cluster : Nat) (s : State) : Out :=
  let pid := launch / 2 ^ 32
  let ident := launch % 2 ^ 32
  let bs := s.liveBlocks pid ident cluster
  let all := s.rotatingBlocks pid ident cluster
  if !bs.isEmpty && bs.all fun (n, b) => b.rotating && s.warps.all fun w => w.isVesper || w.id.block != n || w.halted then
    if bs.all fun (n, _) => s.blockQuiet n then
      let s := (all.filter fun x => x.2.area.isSome).foldl State.rotateOut s
      .next ({ s with nextSeq := s.nextSeq + 1 }.modLaunch pid ident fun l => { l with swapped := l.swapped ++ [(cluster, s.nextSeq)] })
    else .next (s.post (.rotation launch cluster))
  else if s.rotatable pid ident cluster && s.clusterAwaits pid ident cluster then
    match s.takeAreas all with
    | none => .next s
    | some t => .next ((((s.rotationTarget pid ident cluster).elim t t.noteAdmit).haltBlocks bs).post (.rotation launch cluster))
  else .next s

/-- The swapped-out cluster that is restored now. -/
def State.nextSwapped (s : State) : Option (Launch × Nat) := s.nextCluster.filter fun x => Launch.waitsSwapped x.1 x.2

/-- One block of a swapped-out cluster comes back. -/
def State.rotateIn (s : State) (die : Nat) (x : (Nat × Block) × Nat) : State :=
  if x.1.2.place = .retired then s.restoreAllotment x.1.1 die x.2
  else s.restoreBlock x.1.1 die x.2 (x.1.2.area.getD 0) true

/-- CLUSTER_RESTORE: the swapped-out cluster whose turn it is becomes resident on cores of one bay, once what it sent before it
left has ended (R259). -/
def execClusterRestore (launch cluster die bay : Nat) (cores : List Nat) (s : State) : Out :=
  match s.nextSwapped with
  | none => .next s
  | some (l, k) =>
    let bs := s.savedRanks l k
    if launchKey l.process l.ident = launch ∧ k = cluster ∧ cores.length = bs.length ∧ (cores.all fun c => c / 8 == bay) ∧
        s.restoreFits die bs cores = true ∧ (bs.all fun x => !s.moveBusy x.1) = true then
      let s := (bs.zip cores).foldl (fun s x => s.rotateIn die x) s
      .next (((s.releaseCluster l.process l.ident k).modLaunch l.process l.ident fun l =>
        { l with swapped := l.swapped.filter fun x => x.1 != k }).endAdmit launch k)
    else .next s

/-- The restore that the device can make now. -/
def State.dueRestore (s : State) : List Instr :=
  match s.nextSwapped with
  | none => []
  | some (l, k) =>
    ((s.restorePlace l k).map fun (d, bay, cs) => Instr.clusterRestore (launchKey l.process l.ident) k d bay cs).toList

/-- The rotations that may begin. -/
def State.dueRotations (s : State) : List Instr :=
  (s.blocks.filter fun (_, b) => b.place == .resident && b.header.width != 0 && b.waitSince.isSome).map fun (_, b) =>
    .rotation (launchKey b.process b.launch) b.cluster

/-- As time passes, a block's wait is one without break only while every warp of it waits (R191). -/
def State.noteWaits (s : State) : State :=
  { s with blocks := s.blocks.map fun (n, b) =>
      (n, { b with waitSince := if s.blockWaits n b && b.header.width != 0 then b.waitSince.or (some s.timer) else none }) }

/-! ## Checkpoints (R389) -/

structure Checkpoint where
  src   : Nat
  dst   : Nat
  count : Nat
  mode  : Nat
  sync  : Nat
  clean : Bool
  deriving DecidableEq, Repr

def State.checkpointAt (s : State) (die desc : Nat) : Checkpoint :=
  let x := s.cohRead (s.phys desc) 256
  let src := bits x 255 192
  let dst := bits x 191 128
  { src, dst, count := bits x 127 96, mode := bits x 95 94, sync := bits x 63 0
    clean := bits x 93 64 == 0 && src % 32768 == 0 && dst % 32768 == 0 && regionOf dst == 1 && decide (dst < 2 ^ 55) && regionOf src == 0 &&
      decide (src < 2 ^ 55) && dieOf src == die && bits x 127 96 != 0 && bits x 63 0 % 128 == 0 }

/-- A sector goes to the destination unless it is poisoned; whether it was skipped. -/
def State.copySector (s : State) (src dst : Nat) : State × Bool :=
  if (tget none s.poison (sectorOf src)).isSome then (s, true)
  else (s.deviceWrites dst (words64 8 (s.homeRead src 512)), false)

/-- Granule g: its dirty bit clears, and its sectors are copied. -/
def State.copyGranule (s : State) (c : Checkpoint) (g : Nat) (full : Bool) : State × Bool :=
  let src := s.phys (c.src + 32768 * g)
  let dst := s.phys (c.dst + 32768 * g)
  let bit := s.dirtyBitOf src
  if !full && bit.all fun a => s.cohRead a 1 == 0 then (s, false)
  else
    let s := match bit with | some a => (s.homeUpdate a 1 fun _ => 0).2 | none => s
    (List.range 64).foldl (fun (s, k) i =>
      let (s, skipped) := s.copySector (src + 512 * i) (dst + 512 * i)
      (s, k || skipped)) (s, false)

/-- One granule of a checkpoint, or its end. -/
def State.checkpointStep (s : State) (die desc : Nat) (full : Bool) (again : Instr) : State :=
  let c := s.checkpointAt die desc
  let fin (s : State) (st : Nat) : State := (s.modDie die fun d => { d with ckpts := d.ckpts.tail }).reportStatus die c.sync st
  match (s.dieAt die).ckpts with
  | [] => s
  | (a, g, skipped) :: rest =>
    if a ≠ desc then (if rest.any fun x => x.1 == desc then s.post again else s)
    else if !c.clean || c.mode != (if full then 0 else 1) then fin s stBadCmd
    else if !frameOk (c.src + 32768 * g) 32768 || dieOf (c.src + 32768 * g) != die then fin s stNotMapped
    else if (s.hostRange (s.phys (c.dst + 32768 * g)) 32768 (·.w)).isNone then fin s.dropHost stNotMapped
    else
      let (s, k) := s.copyGranule c g full
      if g + 1 = c.count then fin s (if skipped || k then stPoison else 0)
      else (s.modDie die fun d => { d with ckpts := (a, g + 1, skipped || k) :: d.ckpts.tail }).post again

/-- FULL_CHECKPOINT. -/
def execFullCheckpoint (die desc : Nat) (s : State) : Out := .next (s.checkpointStep die desc true (.fullCheckpoint die desc))

/-- INCREMENTAL_CHECKPOINT. -/
def execIncrementalCheckpoint (die desc : Nat) (s : State) : Out :=
  .next (s.checkpointStep die desc false (.incrementalCheckpoint die desc))

end Sys2Proof.Machine
end

