-- ==== Sys2Proof/Machine/Angelus.lean ====
section
/-! DEFINITION. The Angelus channels (R381 to R385), shoot-downs (R366 to R368), AMSG and ARECV (R391 to R393), and the loss
of a die (R386, R387). -/

namespace Sys2Proof.Machine

/-! ## Channels -/

def State.channel (s : State) (grp : Bool) : Channel := if grp then s.group else s.package

def State.modChannel (s : State) (grp : Bool) (g : Channel → Channel) : State :=
  if grp then { s with group := g s.group } else { s with package := g s.package }

def globalDie (device die : Nat) : Nat := device * 4 + die

/-- The dies of this package that have not been removed. -/
def State.survivors (s : State) : List Nat := (List.range 4).filter s.alive

/-- A message of an endpoint, before it is stamped (R382). -/
def State.message (s : State) (die kind payload : Nat) : AngelusMsg :=
  { seq := 0, epoch := BitVec.ofNat 16 (s.dieAt die).regs.epoch.toNat, kind := BitVec.ofNat 8 kind, srcDev := BitVec.ofNat 9 s.device
    srcDie := BitVec.ofNat 2 die, payload := BitVec.ofNat 384 payload }

def messageBits (m : AngelusMsg) : BitVec 512 :=
  BitVec.ofNat 64 m.seq ++ m.epoch ++ m.kind ++ m.srcDev ++ m.srcDie ++ 0#29 ++ m.payload

/-- A message goes to its sequencer, with the scoreboard entry that it will fill, if any. -/
def State.submit (s : State) (grp : Bool) (m : AngelusMsg) (entry : Option (WarpId × Nat)) : State :=
  (s.modChannel grp fun c => { c with backlog := c.backlog ++ [(m, entry)] }).post (.submittedMessage grp m)

/-- A waiting entry gets its value. -/
def State.finishEntry (s : State) (id : WarpId) (entry v : Nat) : State :=
  (s.modWarpAt id fun w => w.modEntry entry fun e => { e with kind := .known, results := e.results.map fun r => { r with value := v } }).post
    (.longLatencyResult id entry)

/-- An entry for a result that an answer will bring, with the acquire that follows it. -/
def State.awaitResult (s : State) (f : Fields) (acquire : Option Nat := none) : State × Nat :=
  let n := s.warp.nextId
  let seq := s.nextSeq
  (s.bumpSeq.modWarp fun w =>
    (w.takeEntry s.free (coversD f 1) (s.onceResult f 1 0) 0).modEntry n fun e => { e with kind := .wait, acquire, seq }, n)

/-! ## Stamping (R381, R384) -/

def queuedKind (m : AngelusMsg) : Bool := m.kind == 1 || m.kind == 3

/-- The dies whose receive queue has no room for another stamped message. -/
def State.fullDies (s : State) (grp : Bool) : List Nat :=
  let c := s.channel grp
  s.survivors.filter fun d =>
    decide (64 ≤ (c.queues.getD d []).length + (c.stamped.filter fun m => queuedKind m && decide (c.delivered.getD d 0 ≤ m.seq)).length)

/-- The die that a MEMBERSHIP message removes. -/
def removedBy (m : AngelusMsg) : Nat := bits m.payload.toNat 10 0

def deliveryOf (grp : Bool) (d : Nat) (m : AngelusMsg) : Option Instr :=
  match m.kind.toNat with
  | 1 => some (.user grp d m)
  | 3 => some (.membership grp d m)
  | 4 => some (.invalidate d m)
  | 5 => some (.commit d m)
  | 7 => some (.pageflush grp d m)
  | _ => none

/-- The payload of PAGEFLUSH obeys R383. -/
def flushOk (m : AngelusMsg) : Bool :=
  let p := m.payload.toNat
  bits p 63 0 % 2 ^ 19 == 0 && bits p 95 64 != 0 && bits p 383 96 == 0

/-- The sequencer stamps a message, which goes to every survivor. -/
def State.stamp (s : State) (grp : Bool) (m : AngelusMsg) (entry : Option (WarpId × Nat)) : State :=
  let n := (s.channel grp).next
  let m := { m with seq := n }
  let die := m.srcDie.toNat
  let all := if grp then s.gmembers else s.survivors
  let s := s.modChannel grp fun c => { c with next := n + 1, stamped := c.stamped ++ [m] }
  let s := s.survivors.foldl (fun s d => match deliveryOf grp d m with | some e => s.post e | none => s) s
  match entry with
  | none => s
  | some (id, k) =>
    let wait (waiting : List Nat) (value : Nat) : State := s.modChannel grp fun c =>
      { c with waits := c.waits ++ [{ seq := n, kind := m.kind.toNat, die, waiting, warp := id, entry := k, value }] }
    match m.kind.toNat with
    | 4 => wait s.survivors (n % 2 ^ 31)
    | 5 => wait s.survivors 0
    | 7 => wait all (if flushOk m then n % 2 ^ 31 else 0xFFFF_FFFF)
    | _ => s.finishEntry id k (n % 2 ^ 31)

/-- SUBMITTED_MESSAGE: stamped, or withheld while a receive queue is full. -/
def execSubmittedMessage (grp : Bool) (m : AngelusMsg) (s : State) : Out :=
  let c := s.channel grp
  let full := (s.fullDies grp).filter fun d => !(m.kind == 3 && removedBy m == globalDie s.device d)
  if !full.isEmpty then
    let fresh := full.filter fun d => !c.stalled.contains d
    let s := fresh.foldl (fun s d => s.modDie d fun x => { x with regs := { x.regs with angstall := x.regs.angstall + 1 } }) s
    .next ((s.modChannel grp fun c => { c with stalled := c.stalled ++ fresh }).post (.submittedMessage grp m))
  else
    let entry := ((c.backlog.find? fun x => x.1 == m).bind (·.2))
    .next ((s.modChannel grp fun c => { c with backlog := c.backlog.eraseP fun x => x.1 == m }).stamp grp m entry)

/-! ## Delivery -/

/-- What stands in the way of a delivery at a die: it has had the message already, or an earlier one is missing. -/
inductive Turnstile where
  | now | later | never
  deriving DecidableEq, Repr

def State.turnstile (s : State) (grp : Bool) (die : Nat) (m : AngelusMsg) : Turnstile :=
  let got := (s.channel grp).delivered.getD die 0
  if !s.alive die || m.seq < got then .never else if got < m.seq then .later else .now

def State.noteDelivery (s : State) (grp : Bool) (die : Nat) (m : AngelusMsg) : State :=
  s.modChannel grp fun c => { c with delivered := c.delivered.set die (m.seq + 1) }

/-- Delivery in sequence order (R381): `go` is what the message does at the die. -/
def State.deliver (s : State) (grp : Bool) (die : Nat) (m : AngelusMsg) (again : Instr) (go : State → State) : Out :=
  match s.turnstile grp die m with
  | .never => .next s
  | .later => .next (s.post again)
  | .now => .next (go (s.noteDelivery grp die m))

/-- A message enters a receive queue: Vesper cores in HALT or in ARECV look again (R393, R435). -/
def State.receive (s : State) (grp : Bool) (die : Nat) (m : AngelusMsg) : State :=
  let s := s.modChannel grp fun c => { c with queues := c.queues.set die (c.queues.getD die [] ++ [m]) }
  (s.modWarps (fun w => w.id.die == die && w.isVesper) fun w =>
    { w with quads := w.quads.map fun q => if q.wait == .arecv then { q with wait := .none, operand := 0 } else q }).wakeDie die

/-- USER. -/
def execUser (grp : Bool) (die : Nat) (m : AngelusMsg) (s : State) : Out :=
  s.deliver grp die m (.user grp die m) fun s => s.receive grp die m

/-! ## Acknowledgements -/

/-- The code of a sharer of a home die in a shoot-down's list; dies stand there under their own numbers. -/
def agentCode (home agent : Nat) : Nat := 4 + home * 260 + agent

/-- A wait is over: the shoot-down's ticket stands or is used up, and the instruction gets its value. -/
def State.endWait (s : State) (grp : Bool) (w : AckWait) : State :=
  let s := s.modChannel grp fun c =>
    { c with
      waits := c.waits.filter fun x => x.seq != w.seq
      tickets := if w.kind = 4 then c.tickets ++ [(w.die, w.value)] else c.tickets }
  s.finishEntry w.warp w.entry w.value

/-- Some answers are no longer awaited. -/
def State.dropAwaited (s : State) (grp : Bool) (gone : AckWait → Nat → Bool) : State :=
  (s.channel grp).waits.foldl (fun s w =>
    let left := w.waiting.filter fun x => !gone w x
    if left = w.waiting then s
    else
      let s := s.modChannel grp fun c =>
        { c with waits := c.waits.map fun x => if x.seq = w.seq then { x with waiting := left } else x }
      if left.isEmpty then s.endWait grp w else s) s

/-- ANGELUS_ACK: an answer reaches the issuing endpoint. -/
def execAngelusAck (grp : Bool) (seq from_ : Nat) (s : State) : Out :=
  .next (s.dropAwaited grp fun w x => w.seq == seq && x == from_)

/-! ## Shoot-downs (R366) -/

/-- The page-table lines that an INVALIDATE names. -/
def State.namedLines (s : State) (m : AngelusMsg) : List Nat :=
  let p := m.payload.toNat
  (List.range (bits p 76 64 + 1)).map fun i => lineOf (s.phys (bits p 63 0 + 2048 * i))

/-- INVALIDATE: a home sends an invalidation to every sharer of the named lines that it homes; `.all` reaches every agent of
the die. -/
def execInvalidate (die : Nat) (m : AngelusMsg) (s : State) : Out :=
  s.deliver false die m (.invalidate die m) fun s =>
    let all := m.payload.getLsbD 77
    let mine := if all then [] else (s.namedLines m).filter fun l => dieOf (l * 2048) == die
    let dir := (s.dieAt die).lineDir
    let mask := mine.foldl (fun a l => match dir.find? (·.1 == l) with | some x => a ||| x.2 | none => a) 0
    let agents := if all then (List.range 65).map (die * 65 + ·) else setBits 260 mask
    let s := s.modDie die fun d => { d with lineDir := if all then [] else d.lineDir.filter fun x => !mine.contains x.1 }
    let s := s.modChannel false fun c =>
      { c with waits := c.waits.map fun w =>
          if w.seq = m.seq ∧ w.kind = 4 then { w with waiting := w.waiting ++ agents.map (agentCode die) } else w }
    let s := agents.foldl (fun s a => s.post (.translationInvalidation die a m.seq mine all)) s
    s.dropAwaited false fun w x => w.seq == m.seq && x == die

/-- The entries of an agent that were read from some lines go: a core's, or with agent 64 of a die those of its Meridian engine
and its Vesper cores. -/
def State.dropEntries (s : State) (agent : Nat) (gone : Nat → Bool) : State :=
  let d := agent / 65
  let cores := if agent % 65 < 64 then [agent % 65] else [64, 65, 66, 67]
  let s := cores.foldl (fun s c => s.modCore d c fun k =>
    { k with tlb := k.tlb.filter fun t => !gone t.line, walks := k.walks.filter fun t => !gone t.line }) s
  if agent % 65 < 64 then s else s.modDie d fun x => { x with meridian := x.meridian.filter fun t => !gone t.line }

/-- The copies of a core keep no translated address of their sync words. -/
def State.forgetSyncs (s : State) (die core : Nat) : State :=
  { s with ops := s.ops.map fun (n, o) => (n, o.map fun o =>
      match o.work with
      | .copy c =>
        let kept := c.syncAt.filter fun x => x.1.isSome
        if o.warp.die = die ∧ o.warp.core = core then { o with work := .copy { c with syncAt := kept } } else o
      | _ => o) }

/-- TRANSLATION_INVALIDATION: the sharer drops its entries and acknowledges. -/
def execTranslationInvalidation (die agent seq : Nat) (lines : List Nat) (all : Bool) (s : State) : Out :=
  let s := (s.dropEntries agent fun l => all || lines.contains l).forgetSyncs (agent / 65) (agent % 65)
  let key := seq % 2 ^ 31 * 4 + agent / 65
  let s := s.modChannel false fun c => { c with drops := tput 0 c.drops key s.nextSeq }
  .next (s.post (.angelusAck false seq (agentCode die agent)))

/-- A die still has an access that it translated before a place in issue order: one on its way, or a message to a mailbox. -/
def State.oldAccess (s : State) (die limit : Nat) : Bool :=
  (s.pendings.any fun p => p.die == die && p.line != noLine && decide (p.seq < limit)) ||
  s.ops.any fun (_, o) => match o with
    | some o => (match o.work with | .msg _ => o.warp.die == die && decide (o.seq < limit) | _ => false)
    | none => false

/-- COMMIT: the die answers once every access that it translated before it dropped the entries has been performed. -/
def execCommit (die : Nat) (m : AngelusMsg) (s : State) : Out :=
  let limit := tget 0 s.package.drops (bits m.payload.toNat 30 0 * 4 + die)
  if s.turnstile false die m = .now && s.oldAccess die limit then .next (s.post (.commit die m))
  else s.deliver false die m (.commit die m) fun s => s.post (.angelusAck false m.seq die)

/-- Whether 16 shoot-downs of a die are outstanding: sent, or waiting for their COMMIT. -/
def State.shootdownsFull (s : State) (die : Nat) : Bool :=
  let c := s.package
  decide (16 ≤ (c.waits.filter fun w => w.die == die && (w.kind == 4 || w.kind == 5)).length +
    (c.tickets.filter fun t => t.1 == die).length +
    (c.backlog.filter fun (m, _) => m.srcDie.toNat == die && (m.kind == 4 || m.kind == 5)).length)

/-- A result that is known at issue. -/
def State.giveOnce (s : State) (f : Fields) (v : Nat) : State := (s.later (coversD f 1) (s.onceResult f 1 v) 0).advance f

/-- TLBINV.inv (R368). -/
def execTlbinvInv (f : Fields) (s : State) : Out :=
  let lane := (s.actLanes f).headD 0
  let die := s.warp.id.die
  let a := s.srcA f 2 lane
  let n := s.srcB f false 32 1 lane
  let all := f.mb 1
  if !s.acts f then .next (s.advance f)
  else match s.release 4 with
    | (s, false) => .next (s.stallAt 28)
    | (s, true) =>
      if !all && (a % 2048 != 0 || decide (2 ^ 55 ≤ a) || regionOf a != 0 || n == 0 || decide (4096 < n)) then
        .next (s.giveOnce f 0xFFFF_FFFE)
      else if s.shootdownsFull die then .next (s.giveOnce f 0xFFFF_FFFF)
      else
        let lines := if all then 2 ^ 77 else a + (n - 1) * 2 ^ 64
        let m := s.message die 4 (lines + s.processOf s.warp * 2 ^ 80)
        let (s, k) := s.awaitResult f
        .next ((s.submit false m (some (s.warp.id, k))).advance f)

/-- TLBINV.commit (R368). -/
def execTlbinvCommit (f : Fields) (s : State) : Out :=
  let die := s.warp.id.die
  let t := s.srcB f false 32 1 ((s.actLanes f).headD 0)
  if !s.acts f then .next (s.advance f)
  else if !s.package.tickets.contains (die, t) then .next (s.giveOnce f 0xFFFF_FFFE)
  else
    let s := s.modChannel false fun c => { c with tickets := c.tickets.erase (die, t) }
    let (s, k) := s.awaitResult f (some 4)
    .next ((s.submit false (s.message die 5 t) (some (s.warp.id, k))).advance f)

/-! ## PAGEFLUSH (R377, R383) -/

/-- A line lies in the range that a PAGEFLUSH names, on its sender's device. -/
def flushLine (m : AngelusMsg) (line : Nat) : Bool :=
  let p := m.payload.toNat
  let lo := m.srcDev.toNat * 2 ^ 55 + bits p 63 0
  decide (lo ≤ line * 2048) && decide (line * 2048 < lo + bits p 95 64 * 2 ^ 19)

/-- PAGEFLUSH: the die gives back the lines of the range that it holds, and recalls those that it homes. -/
def execPageflush (grp : Bool) (die : Nat) (m : AngelusMsg) (s : State) : Out :=
  let homed := (s.dir.map (·.1)).filter fun l => flushLine m l && s.isLocal (l * 2048) && dieOf (l * 2048) == die
  let from_ := if grp then globalDie s.device die else die
  s.deliver grp die m (.pageflush grp die m) fun s =>
    let s :=
      if flushOk m then
        let remote := ((s.dieAt die).l2.map (·.1)).filter (flushLine m)
        homed.foldl State.pullAll (remote.foldl (fun s l => (s.writeBack die l).dropL2 die l) s)
      else s
    s.post (.angelusAck grp m.seq from_)

/-! ## AMSG and ARECV (R391 to R393) -/

/-- The scope of a channel: `.pkg` or `.fab`. -/
def channelScope (grp : Bool) : Nat := if grp then 5 else 4

/-- AMSG. -/
def execAmsg (f : Fields) (s : State) : Out :=
  let lane := (s.actLanes f).headD 0
  let grp := f.mb 0
  let kind := s.srcB f false 32 1 lane
  if !s.acts f then .next (s.advance f)
  else match s.readOnce f (s.srcA f 2 lane) 384 with
    | (_, .error o) => o
    | (s, .ok x) =>
      if kind ≠ 1 ∧ kind ≠ 7 then .next (s.giveOnce f 0xFFFF_FFFE)
      else match s.release (channelScope grp) with
        | (s, false) => .next (s.stallAt 28)
        | (s, true) =>
          let (s, k) := s.awaitResult f
          .next ((s.submit grp (s.message s.warp.id.die kind x) (some (s.warp.id, k))).advance f)

/-- ARECV: the oldest message leaves the queue once its 512 bits can be written. -/
def execArecv (f : Fields) (s : State) : Out :=
  let lane := (s.actLanes f).headD 0
  let grp := f.mb 0
  let die := s.warp.id.die
  let a := s.srcA f 2 lane
  if !s.acts f then .next (s.advance f)
  else match (s.channel grp).queues.getD die [] with
    | [] => if f.mb 1 then .next (s.block .arecv 0 29) else .next (s.giveOnce f 0xFFFF_FFFF)
    | m :: rest =>
      if a % 512 ≠ 0 then .next (s.trap { code := cMisalign, addr := a, info0 := 512, lane, flags := 2 })
      else match s.place s.warp a 512 with
      | .error c => .next (s.trap { code := c, addr := a, lane, flags := 2 })
      | .ok _ =>
        if spaceOf a ≠ 2 ∨ windowOf (a >>> 56) = none then .next (s.trap { code := cPerm, addr := a, lane, flags := 2 })
        else
          let (s, r) := s.reachAll s.warp ⟨.store, needW, 512, none⟩ [(lane, a)]
          match s.reachStop r 2 with
          | some o => o
          | none =>
            if !r.bad.isEmpty then .next (s.parkReach r ((s.actLanes f).map fun l => (l, a)) 2)
            else
              let s := s.modChannel grp fun c => { c with queues := c.queues.set die rest, stalled := c.stalled.filter (· != die) }
              let s := s.startStore 0 r.parts (fun _ => (messageBits m).toNat) none
              .next ((s.acquire (some (channelScope grp))).giveOnce f (m.seq % 2 ^ 31))

/-! ## Membership (R386, R387) -/

/-- HEARTBEAT: the others hear the endpoint, which also counts the periods in which it missed somebody's (R388). -/
def execHeartbeat (die : Nat) (s : State) : Out :=
  if !s.alive die then .next s
  else
    let others := s.survivors.filter (· != die)
    let missed := others.any fun d => decide (10000 < s.timer - tget 0 s.heard (die * 4 + d))
    let s := { s with heard := others.foldl (fun t d => tput 0 t (d * 4 + die) s.timer) s.heard }
    .next (if missed then s.modDie die fun x => { x with regs := { x.regs with hbmiss := x.regs.hbmiss + 1 } } else s)

/-- A receiver has had no HEARTBEAT of a sender for 30 µs. -/
def State.silent (s : State) (receiver sender : Nat) : Bool := decide (30000 ≤ s.timer - tget 0 s.heard (receiver * 4 + sender))

/-- A MEMBERSHIP message that removes the die has been stamped or submitted. -/
def State.removalSent (s : State) (grp : Bool) (global : Nat) : Bool :=
  let c := s.channel grp
  (c.stamped ++ c.backlog.map (·.1)).any fun m => m.kind == 3 && removedBy m == global

/-- The sequencer submits MEMBERSHIP for a die of this package. -/
def State.remove (s : State) (grp : Bool) (sequencer die : Nat) : State :=
  let mask := maskOf (s.survivors.filter (· != die))
  if s.removalSent grp (globalDie s.device die) then s
  else s.submit grp (s.message sequencer 3 (globalDie s.device die + mask * 2 ^ 16)) none

/-- The members of the package, whose lowest is its sequencer; a die that a MEMBERSHIP message on its way removes is none. -/
def State.packageMembers (s : State) : List Nat :=
  (List.range 4).filter fun d => !s.removalSent false (globalDie s.device d)

/-- MEMBER_REMOVAL: the sequencer removes a silent member, and the next in line takes over from a silent sequencer. The
group's sequencer, when it lies in this package, removes it there too. -/
def execMemberRemoval (die : Nat) (s : State) : Out :=
  match s.packageMembers.filter (· != die) with
  | [] => .next s
  | q :: _ =>
    if !s.packageMembers.contains die || !s.alive q || !s.silent q die then .next s
    else if s.packageMembers.head? = some die then .next (s.post (.sequencerTakeover false))
    else
      let s := s.remove false q die
      let g := (s.gmembers.filter fun x => x != globalDie s.device die).head?
      .next (if s.gmembers.contains (globalDie s.device die) && g == some (globalDie s.device q) then s.remove true q die else s)

/-- SELF_REMOVAL: a die that hears no other member halts its cores and stops. -/
def execSelfRemoval (die : Nat) (s : State) : Out :=
  if s.alive die && (s.survivors.filter (· != die)).all fun d => s.silent die d then
    let s := s.modWarps (fun w => w.id.die == die) s.halt
    .next { s with members := s.members &&& ~~~(BitVec.ofNat 4 (2 ^ die)) }
  else .next s

/-- SEQUENCER_TAKEOVER (R385): the survivors get the stamped messages that they lack, and then MEMBERSHIP is stamped. The
package's sequencer must be silent to the next in line; the group's must be gone from this package, or lie in another, whose
loss the outside reports. -/
def execSequencerTakeover (grp : Bool) (s : State) : Out :=
  let members := if grp then s.gmembers else s.packageMembers.map (globalDie s.device)
  match members with
  | old :: new :: _ =>
    let die := new % 4
    let here (g : Nat) : Bool := g / 4 == s.device
    let lost := if grp then !here old || !s.alive (old % 4) else s.silent die (old % 4)
    if !lost || s.removalSent grp old then .next s
    else
      let c := s.channel grp
      let s := s.survivors.foldl (fun s d => (c.stamped.filter fun m => decide (c.delivered.getD d 0 ≤ m.seq)).foldl
        (fun s m => match deliveryOf grp d m with
          | some e => if s.agenda.contains e then s else s.post e
          | none => s) s) s
      if here old then .next (s.remove grp die (old % 4))
      else .next (s.submit grp (s.message die 3 (old + maskOf s.survivors * 2 ^ 16)) none)
  | _ => .next s

/-- Step 1 of R387 for one line at a home. -/
def State.loseSharer (s : State) (x line : Nat) : State :=
  let s := match (s.dirAt line).st with
    | .u => s
    | .s m => let m' := m - (m &&& 1 <<< x); s.modDir line fun e => { e with st := if m' = 0 then .u else .s m' }
    | .o d =>
      if d ≠ x then s
      else (List.range 4).foldl (fun s i => s.setPoison (line * 4 + i) 1) (s.modDir line fun e => { e with st := .u })
  let s := s.modDir line fun e => { e with queue := e.queue.filter fun r => r.die != x }
  match (s.dirAt line).busy with
  | some t => if t.waiting.contains x then s.answered x line else s
  | none => s

/-- Step 2 for one remote line: dirty bytes of a REPL page go to the replica. -/
def State.loseLine (s : State) (die line : Nat) (l : L2Line) : State :=
  let s : State := match l.rdie with
    | some r =>
      if s.alive r then (setBits 256 (l.dirty &&& l.valid)).foldl (fun s i =>
        s.homeWrite (withDie (line * 2048) r + 8 * i) 8 (bits l.data (8 * i + 7) (8 * i)) none true) s
      else s
    | none => s
  s.dropL2 die line

/-- What the agenda gives up when a die is lost: its own requests and messages, and writes forwarded to it. -/
def lostEvent (x : Nat) : Instr → Bool
  | .gets r | .getm r | .homeStore r => r.die == x
  | .handlerRun r => r.srcDie == x
  | .forwardedWrite _ _ _ dest => dest.die == x
  | .submittedMessage _ m => m.srcDie.toNat == x
  | .putm d _ => d == x
  | _ => false

/-- MSG operations whose mailbox header lies on the lost home (R387). -/
def State.loseMessages (s : State) (x : Nat) : State :=
  s.ops.foldl (fun s (n, o) => match o with
    | some o => (match o.work with
      | .msg m => if s.isLocal m.header && dieOf m.header == x && (s.served m.header (leafMode m.leaf 0)).isNone then s.opErr n stDieLost else s
      | _ => s)
    | none => s) s

/-- Placement conversions that lose a member abort (R341). -/
def State.loseConvs (s : State) (device x : Nat) : State :=
  s.convs.foldl (fun s (k, c) =>
    if c.isSome && ((s.plAt (k / 4096) (k % 4096)).members.contains (device, x)) then
      s.post (.conversionAbort (k / 4096) (k % 4096) .lostDie)
    else s) s

/-- Engine operations that were under way: which of them had a request to the lost home out is free (R387). -/
def State.loseRequests (s : State) : State :=
  { s with
    ops := s.ops.map fun (n, o) => (n, o.map fun o =>
      if o.started ∧ Config.pick (s.free + n) % 2 = 1 then { o with lostAs := stDieLost } else o)
    free := s.free + s.nextOp + 1 }

/-- Steps 1, 2 and 6 of R387 at a survivor, and the requests, operations and blocks of the lost die. What the lost home had
forwarded reaches the replica that acts for it. -/
def State.loseDie (s : State) (die x : Nat) : State :=
  let s := if s.alive x then (s.drainForwards fun l => s.isLocal (l * 2048) && dieOf (l * 2048) == x).loseRequests else s
  let s := { s with members := s.members &&& ~~~(BitVec.ofNat 4 (2 ^ x)) }
  let s := ((s.dir.map (·.1)).filter fun l => s.isLocal (l * 2048) && dieOf (l * 2048) == die).foldl (fun s l => s.loseSharer x l) s
  let s := (s.dieAt die).l2.foldl (fun s (l, v) => match v with
    | some v => if s.isLocal (l * 2048) && dieOf (l * 2048) == x then s.loseLine die l v else s
    | none => s) s
  let s : State :=
    { s with
      agenda := s.agenda.filter fun e => !lostEvent x e
      ops := s.ops.filter fun (_, o) => match o with | some o => o.warp.die != x | none => true }
  let s := s.loseMessages x
  let bs := s.blocks.filter fun (_, b) => b.place == .resident && b.die == x && b.header.width != 0
  let s := bs.foldl (fun s (n, _) => s.discardBlock n 5) s
  s.loseConvs s.device x

/-- Answers of a lost member are no longer awaited. -/
def State.forgetMember (s : State) (x : Nat) : State :=
  let local_ := x % 4
  let here := x / 4 == s.device
  let s := s.dropAwaited true fun _ y => y == x
  if !here then s
  else
    let s := s.modChannel false fun c => { c with waits := c.waits.filter fun w => w.die != local_ }
    s.dropAwaited false fun _ y => y == local_ || (decide (4 ≤ y) && ((y - 4) / 260 == local_ || (y - 4) % 260 / 65 == local_))

/-- MEMBERSHIP: delivered, it removes the die at this survivor and enters the receive queue. -/
def execMembership (grp : Bool) (die : Nat) (m : AngelusMsg) (s : State) : Out :=
  s.deliver grp die m (.membership grp die m) fun s =>
    let x := removedBy m
    let s := s.receive grp die m
    let s := if grp then { s with gmembers := s.gmembers.filter (· != x) } else s
    let s := s.forgetMember x
    if grp then (if x / 4 = s.device then s else s.loseConvs (x / 4) (x % 4))
    else
      let s := s.modDie die fun d => { d with regs := { d.regs with epoch := (d.regs.epoch + 1) &&& 0xFFFF#64 } }
      if x / 4 = s.device then s.loseDie die (x % 4) else s

end Sys2Proof.Machine
end

