-- ==== Sys2Proof/Machine/Atomics.lean ====
section
/-! DEFINITION. Group 0x9: atomics at the homes (R266 to R281) and MSG (R282 to R284). -/

namespace Sys2Proof.Machine

/-! ## Fields (R272, R273) -/

def atomSlot (f : Fields) : Nat := f.c.toNat % 32
def atomWidth (f : Fields) : Nat := atomicWidth (f.c.toNat / 32) (f.xn 10 5)

/-- The address of a lane: no index. -/
def State.atomAddr (s : State) (f : Fields) (lane : Nat) : Nat :=
  wrapInt 64 ((s.srcA f 2 lane : Nat) + sintOf 32 f.imm32.toNat)

/-- The scopes of ord (R276): acquire and release. -/
def atomAcq (f : Fields) : Option Nat := if f.xb 3 then some (f.xn 2 0) else none
def atomRel (f : Fields) : Option Nat := if f.xb 4 then some (f.xn 2 0) else none

/-- R268. -/
def atomAligned (slot w a : Nat) : Bool := if slotBitwise slot then withinWord a w else naturalClass a w

/-! ## Requests (R275) -/

/-- The window check of an atomic: the scratchpad windows raise NOT_MAPPED (R271). -/
def State.atomWindow (s : State) (w : Warp) (width : Nat) (lanes : List (Nat × Nat)) : Option (Nat × Nat × Nat) :=
  lanes.findSome? fun (l, a) =>
    if a >>> 56 = 8 ∨ a >>> 56 = 9 then some (l, a, cNotMapped)
    else match s.place w a width with
      | .error c => some (l, a, c)
      | .ok _ => none

/-- Lanes by word, words in the order of their first lane. -/
def groupWords (size : Nat) : List AtomicLane → List (Nat × List AtomicLane) → List (Nat × List AtomicLane)
  | [], acc => acc
  | x :: xs, acc =>
    groupWords size xs
      (if acc.any fun g => g.1 == x.addr / size then
         acc.map fun g => if g.1 = x.addr / size then (g.1, g.2 ++ [x]) else g
       else acc ++ [(x.addr / size, [x])])

/-- The requests of an atomic whose checks have passed: its lanes with address and page, its operands, and what its entry
writes. -/
def State.sendAtomic (s : State) (f : Fields) (slot w : Nat) (r : Reach) (dest : Option LoadDest)
    (x y : Nat → Nat) (hit : Option (Nat × Nat × Nat)) : State :=
  let lanes : List (AtomicLane × Nat) := r.good.filterMap fun (l, a, ps) =>
    match ps.head?.map PartAt.spot with
    | some (.mem fa leaf) => some (⟨l, fa, a, x l, y l⟩, leaf)
    | _ => none
  let groups := groupWords (if w = 128 then 128 else 64) (lanes.map (·.1)) []
  let new := groups.map fun g => (g.2.headD ⟨0, 0, 0, 0, 0⟩).addr
  match if s.farFull s.warp.id.die new then some 18 else s.windowFull new with
  | some n => s.stallAt n
  | none =>
    let id := s.warp.nextId
    let mode (g : List AtomicLane) : Mode :=
      match lanes.find? fun z => g.head?.map (·.lane) == some z.1.lane with
      | some z => leafMode z.2 f.hint.toNat
      | none => leafMode 0 0
    let waits := r.good.map fun (l, a, _) => (⟨l, a, 1, 0⟩ : LaneWait)
    let d : LoadDest := dest.getD { uniform := false, reg := 0, elems := 1, width := w, signed := false }
    let covers := if dest.isSome then coversD f (regsFor w) else []
    let seq := s.nextSeq
    let pid := s.processOf s.warp
    let s := (s.loadEntry .wait covers waits [] d (atomAcq f) hit).modWarp fun u => u.modEntry id fun e => { e with dest }
    let s := groups.foldl (fun s g =>
      s.post (.handlerRun
        { warp := s.warp.id, gang := s.warp.gang, pid, srcDie := s.warp.id.die, slot, width := w, seq, entry := some id, spad := none, mode := mode g.2,
          acq := atomAcq f, rel := atomRel f, lanes := g.2 })) s
    s.bumpSeq.advance f

/-- ATOM, RED, ATOMK and ATOMX: the checks of R275 in their order, then the requests. -/
def State.runAtomic (s : State) (i : Instr) (f : Fields) (slot w : Nat) (dest : Option LoadDest) : Out :=
  let n := regsFor w
  let lanes := s.memLanes f (s.atomAddr f)
  if lanes.isEmpty then .next (s.advance f)
  else match s.indirectBreach i f, s.atomWindow s.warp w lanes, lanes.find? (fun (_, a) => !atomAligned slot w a) with
    | some r, _, _ => .next (s.indirectTrap f r)
    | none, some (l, a, c), _ => .next (s.trap { code := c, addr := a, lane := l, flags := 11 })
    | none, none, some (l, a) => .next (s.trap { code := cMisalign, addr := a, info0 := w, lane := l, flags := 11 })
    | none, none, none =>
      let (s, r) := s.reachAll s.warp ⟨.atomic, needRW, w, none⟩ lanes
      match s.reachStop r 11 with
      | some o => o
      | none =>
        if !r.bad.isEmpty then .next (s.parkReach r lanes 11)
        else if 24 ≤ slot ∧ (tget none s.platform.slots slot).isNone then
          let l := lanes.headD (0, 0)
          .next (s.trap { code := cHandlerFault, addr := l.2, info0 := slot, lane := l.1, flags := 11 })
        else
          let y (l : Nat) : Nat := if f.form = .w128 then s.field f f.e n l % 2 ^ w else 0
          .next (s.sendAtomic f slot w r dest (fun l => s.srcBReg f n l % 2 ^ w) y (s.watchOf true true (seenOf w lanes)))

/-- Where old goes. -/
def atomDest (f : Fields) (w : Nat) : LoadDest := { uniform := f.k, reg := f.d.toNat, elems := 1, width := w, signed := false }

def execAtom (f : Fields) (s : State) : Out := s.runAtomic (.atom f) f (atomSlot f) (atomWidth f) (some (atomDest f (atomWidth f)))
def execRed (f : Fields) (s : State) : Out := s.runAtomic (.red f) f (atomSlot f) (atomWidth f) none
def execAtomk (f : Fields) (s : State) : Out := s.runAtomic (.atomk f) f (atomSlot f) (atomWidth f) (some (atomDest f (atomWidth f)))
def execAtomx (f : Fields) (s : State) : Out := s.runAtomic (.atomx f) f 22 128 (some (atomDest f 128))

/-! ## HANDLER_RUN (R269 to R278) -/

/-- The new value of a slot, the extension slots and the sync-word updates included; none when an extension handler exceeds
its budget (R281). -/
def newValue (slot w old x y : Nat) : Option Nat :=
  if slot = 32 then some (syncAdd x old)
  else if slot = 33 then some (syncSet x old)
  else if 24 ≤ slot then (Config.extensionHandler slot w old x y).map (· % 2 ^ w)
  else some (slotValue slot w old x y % 2 ^ w)

/-- The lanes of a run on a word of which `word` is the value: each lane's bits are read and replaced in turn. -/
def runWord (slot w size : Nat) : List AtomicLane → Nat → Option (List (Nat × Nat) × Nat)
  | [], word => some ([], word)
  | l :: ls, word =>
    let at_ := l.addr % size
    let old := (word >>> at_) % 2 ^ w
    match newValue slot w old l.x l.y with
    | none => none
    | some v => (runWord slot w size ls (insertBits word at_ w v)).map fun (rs, u) => ((l.lane, old) :: rs, u)

/-- The mask of the bits that a run writes, within its word. -/
def runMask (w size : Nat) (lanes : List AtomicLane) : Nat :=
  lanes.foldl (fun m l => m ||| ((2 ^ w - 1) <<< (l.addr % size))) 0

/-- What a run tells its issuer. A sync-word update tells nothing but a failure. -/
def State.answer (s : State) (r : AtomicReq) (res : HandlerResult) : State :=
  if 32 ≤ r.slot then
    match res with
    | .poison _ _ _ => s.modWarpAt r.warp fun w => { w with trapCode := lowestCode cAtomicPoison w.trapCode }
    | _ => s
  else s.post (.atomicAcknowledgement r res)

/-- The run at the home: poison, then every lane, then one write of the lanes' bits, which goes to a replica too (R280). The
issuing core's L1 gives up the lines (R269). -/
def State.runAtHome (s : State) (r : AtomicReq) : State :=
  match r.lanes.find? fun l => (s.served l.addr r.mode).isNone with
  | some l => s.answer r (.poison l.lane l.va 3)
  | none =>
    let at_ (l : AtomicLane) : AtomicLane := { l with addr := (s.served l.addr r.mode).getD l.addr }
    let lanes := r.lanes.map at_
    match lanes.findSome? fun l => (s.poisonOf l.addr r.width).map fun k => (l, k) with
    | some (l, k) => s.answer r (.poison l.lane l.va k)
    | none =>
      let size := if r.width = 128 then 128 else 64
      let a := (lanes.headD ⟨0, 0, 0, 0, 0⟩).addr / size * size
      let s := (if r.mode.coh then s.pullAll (lineOf a) else s.recallHosts (lineOf a) true).holdHome (lineOf a) r.mode.hint
      match runWord r.slot r.width size lanes (s.homeRead a size) with
      | none => s.answer r (.budget r.slot)
      | some (olds, word) =>
        let mask := runMask r.width size lanes
        let m := mask <<< (a % 2048)
        let v := (word &&& mask) <<< (a % 2048)
        let s := (s.homeMerge (lineOf a) m v false).forward (lineOf a) m v r.mode.rdie
        let s := r.lanes.foldl (fun s l => s.dropL1Line r.warp.die r.warp.core (lineOf l.addr)) s
        let sync := 32 ≤ r.slot
        let s := s.homeReport a mask (if sync then 1 else 0) (if r.slot = 32 then 0 else if r.slot = 33 then 11 else r.slot) r.srcDie r.pid
        s.answer r (.old olds)

/-- HANDLER_RUN: one request at its home, once what it has to wait for is done; or a sync-word update that releases goes to its
scratchpad's queue. -/
def execHandlerRun (r : AtomicReq) (s : State) : Out :=
  let away : Bool := match r.spad with | some b => (s.blockAt b).place == .saved | none => false
  let marked := r.spad.isNone && r.lanes.any fun l => s.marked l.addr r.width true
  if (pendAtomic r).any (s.blocked · true) || away || marked then .next (s.post (.handlerRun r))
  else
    let t := match r.rel with | some sc => s.releaseLines r.srcDie sc | none => s
    let held := match r.rel with | some sc => 4 ≤ sc && t.forwarding | none => false
    if held then .next (t.post (.handlerRun r))
    else match r.spad with
      | some b => .next (t.pushSync r b)
      | none => .next (t.runAtHome r)

/-- ATOMIC_ACKNOWLEDGEMENT: old values reach the entry; with the last of them the instruction is complete. -/
def ScoreEntry.acknowledge (e : ScoreEntry) (r : AtomicReq) : HandlerResult → ScoreEntry
  | .old vs =>
    { e with lanes := e.lanes.map fun l => match vs.lookup l.lane with
        | some v => { l with left := 0, value := v }
        | none => l }
  | res =>
    let done (l : LaneWait) : LaneWait := if r.lanes.any fun x => x.lane == l.lane then { l with left := 0 } else l
    let mine := match res with
      | .poison lane a k => (lane, a, cAtomicPoison, k)
      | .budget slot => let l := r.lanes.headD ⟨0, 0, 0, 0, 0⟩; (l.lane, l.va, cHandlerFault, slot)
      | .old _ => (0, 0, 0, 0)
    { e with
      lanes := e.lanes.map done
      fail := match e.fail with | some g => some (if mine.1 < g.1 then mine else g) | none => some mine }

/-- The replica has not applied every write to the lines of a request (R280, R378). -/
def State.replicaBehind (s : State) (r : AtomicReq) : Bool :=
  s.agenda.any fun e => match e with
    | .forwardedWrite line _ _ _ => r.mode.rdie.isSome && r.lanes.any fun l => lineOf l.addr == line
    | _ => false

def execAtomicAcknowledgement (r : AtomicReq) (res : HandlerResult) (s : State) : Out :=
  if s.replicaBehind r then .next (s.post (.atomicAcknowledgement r res))
  else
  match r.entry with
  | none => .next s
  | some id =>
    let s := s.modWarpAt r.warp fun w => w.modEntry id fun e => e.acknowledge r res
    let finished : Bool := match s.warpAt? r.warp with
      | some w => (match w.score.find? fun e => e.id = id with | some e => e.lanes.all fun l => l.left == 0 | none => false)
      | none => false
    .next (if finished then s.post (.longLatencyResult r.warp id) else s)

/-! ## MSG (R282 to R284) -/

/-- The payload: sixteen registers from b, read in the lowest active lane or uniform. -/
def State.msgPayload (s : State) (f : Fields) (lane : Nat) : Nat := s.srcBReg f 16 lane

/-- MSG: the checks of R275 on the header, an entry, and the message on its way. -/
def execMsg (f : Fields) (s : State) : Out :=
  let lanes := match s.actLanes f with | [] => [] | l :: _ => [(l, match s.warp.resuming with
    | some r => (r.lanes.headD (0, 0)).2
    | none => s.srcA f 2 l)]
  match lanes.head? with
  | none => .next (s.advance f)
  | some (l, a) =>
    match s.indirectBreach (.msg f) f, s.atomWindow s.warp 256 lanes with
    | some r, _ => .next (s.indirectTrap f r)
    | none, some (l, a, c) => .next (s.trap { code := c, addr := a, lane := l, flags := 11 })
    | none, none =>
      if a % 256 ≠ 0 then .next (s.trap { code := cMisalign, addr := a, info0 := 256, lane := l, flags := 11 })
      else
        let (s, r) := s.reachAll s.warp ⟨.atomic, needRW, 64, none⟩ lanes
        match s.reachStop r 11 with
        | some o => o
        | none =>
          match r.parts.head?.map PartAt.spot, s.myBlock.freeHandle with
          | some (.mem fa leaf), some idx =>
            match s.windowFull [fa] with
            | some n => .next (s.stallAt n)
            | none =>
              let go (s : State) : State :=
                let n := s.nextOp
                let m : MsgOp :=
                  { header := fa, leaf, payload := s.msgPayload f l, budget := f.xn 7 0, attempts := 0, retryAt := 0, place := none, written := false, rel := none }
                ((s.startOp f.fh.toNat 4 f.hint.toNat idx (.msg m)).post (.msgRetry n)).advance f
              if f.mb 3 then
                match s.release (f.mn 2 0) with
                | (s, true) => .next (go s)
                | (s, false) => .next (s.stallAt 28)
              else .next (go s)
          | some (.mem _ _), none => .next (s.stallAt 27)
          | _, _ => .next (s.parkReach r ((s.actLanes f).map fun x => (x, a)) 11)

/-- The launch that owns a mailbox has retired (R282). -/
def State.ownerGone (s : State) (process owner : Nat) : Bool :=
  owner != 0xFFFF_FFFF && (s.launchAt process owner).status.isSome

/-- The fields of a header, as its home holds them. -/
structure Mailbox where
  tail  : Nat
  head  : Nat
  base  : Nat
  spare : Bool              -- a reserved bit is set
  dead  : Bool
  lsize : Nat
  owner : Nat
  deriving DecidableEq, Repr

def State.mailbox (s : State) (fa : Nat) : Mailbox :=
  let w1 := s.cohRead (fa + 64) 64
  let w3 := s.cohRead (fa + 192) 64
  { tail := w1 >>> 32, head := w1 % 2 ^ 32, base := s.cohRead (fa + 128) 64,
    spare := bits w3 63 41 != 0 || bits w3 39 36 != 0, dead := bitOf w3 40, lsize := bits w3 35 32, owner := w3 % 2 ^ 32 }

/-- What a run on a word of the header meets: poison, or a lost home. -/
def State.msgSpoiled (s : State) (o : EngineOp) (m : MsgOp) (off : Nat) : Option Nat :=
  match s.served (m.header + off) (leafMode m.leaf 0) with
  | none => some o.lostAs
  | some x => (s.poisonOf x 64).map fun _ => stPoison

/-- Where the header is served. -/
def State.msgHome (s : State) (m : MsgOp) : Nat := (s.served m.header (leafMode m.leaf 0)).getD m.header

/-- A handler run on bits of a header writes them; the issuing core's L1 gives up the line (R257, R269). -/
def State.msgUpdate (s : State) (o : EngineOp) (m : MsgOp) (off w : Nat) (g : Nat → Nat) : State :=
  (s.dropL1Line o.warp.die o.warp.core (lineOf m.header)).homeUpdate (s.msgHome m + off) w g (leafMode m.leaf 0).rdie |>.2

/-- The run on words 1 and 3: the message takes its place in the ring, or the operation ends or is refused. A header whose owner
has retired becomes dead here at the latest (R282, log entry 36). -/
def State.msgPlace (s : State) (n : Nat) (o : EngineOp) (m : MsgOp) : State :=
  match (s.msgSpoiled o m 64).or (s.msgSpoiled o m 192) with
  | some st => s.opErr n st
  | none =>
    let b := s.mailbox (s.msgHome m)
    if b.spare || b.lsize == 0 then s.opErr n stBadMailbox
    else if b.dead || s.ownerGone o.process b.owner then (s.msgUpdate o m 232 1 fun _ => 1).opErr n stDeadContext
    else if (b.tail + 2 ^ 32 - b.head) % 2 ^ 32 < 2 ^ b.lsize then
      let s := (s.msgUpdate o m 96 32 fun _ => (b.tail + 1) % 2 ^ 32).homeReport (s.msgHome m + 64) ((2 ^ 32 - 1) <<< 32) 0 0
        o.warp.die o.process
      let s := { s with mailboxes := if s.mailboxes.contains (o.process, m.header) then s.mailboxes else (o.process, m.header) :: s.mailboxes }
      (s.modOp n fun o => { o with work := .msg { m with place := some b.tail } }).post (.msgRetry n)
    else if m.attempts = m.budget then s.opErr n stMailboxFull
    else (s.modOp n fun o => { o with work := .msg { m with attempts := m.attempts + 1, retryAt := s.timer + 1000 } }).post (.msgRetry n)

/-- An earlier message of the same mailbox has not made its sync update. -/
def State.msgBefore (s : State) (m : MsgOp) (place : Nat) : Bool :=
  s.ops.any fun (_, o) => match o with
    | some o => (match o.work with | .msg x => x.header == m.header && x.place == some ((place + 2 ^ 32 - 1) % 2 ^ 32) | _ => false)
    | none => false

/-- MSG_RETRY: the next step of a message: its place, with 1 µs between attempts, then its 512 bits, then the sync word in tail
order, an engine arrival (R253). -/
def execMsgRetry (n : Nat) (s : State) : Out :=
  match s.opAt n with
  | none => .next s
  | some o =>
    match o.work with
    | .msg m =>
      if o.suspended || !s.opReady o then .next (s.post (.msgRetry n))
      else match m.place with
        | none => if s.timer < m.retryAt then .next (s.post (.msgRetry n)) else .next (s.msgPlace n o m)
        | some place =>
          if !m.written then
            let b := s.mailbox (s.msgHome m)
            let va := (b.base + 512 * (place % 2 ^ b.lsize)) % 2 ^ 64
            match s.engineReach o .store needW va 512 with
            | (s, .error (.miss va)) => .next ((s.suspendOp n o va 2).post (.msgRetry n))
            | (s, .error .held) => .next (s.post (.msgRetry n))
            | (s, .error (.status st)) => .next (s.opErr n st)
            | (s, .ok sp) =>
              if s.spotHeld sp 512 true then .next (s.post (.msgRetry n))
              else
                let s := s.engineWrite o sp 512 m.payload
                .next ((s.modOp n fun o => { o with work := .msg { m with written := true } }).post (.msgRetry n))
          else if s.msgBefore m place then .next (s.post (.msgRetry n))
          else match s.msgSpoiled o m 0 with
            | some st => .next (s.opErr n st)
            | none =>
              let s := s.deviceRelease o.warp.die
              .next (((s.msgUpdate o m 0 64 (syncAdd 1)).homeReport (s.msgHome m) (2 ^ 64 - 1) 1 0 o.warp.die o.process).opOk n)
    | _ => .next s

end Sys2Proof.Machine
end

