-- ==== Sys2Proof/Machine/Control.lean ====
section
/-! DEFINITION. Group 0x0: branches, calls, loops, EXIT, YIELD and the region stack (R155 to R170). -/

namespace Sys2Proof.Machine

/-! ## Branches (R161 to R168) -/

/-- What a control transfer does besides moving the counter. -/
inductive Jump where
  | branch | loop | call | ret
  deriving DecidableEq, Repr

/-- The target of a relative form (R167). -/
def relTarget (f : Fields) (pc : DWord) : DWord := pc + BitVec.ofNat 64 (immInt f true 64) * 64

/-- The count that LOOP leaves in a lane (R168). -/
def State.loopCount (s : State) (f : Fields) (lane : Nat) : Nat :=
  (s.reg (regName f.k f.d.toNat) lane + (2 ^ 32 - 1)) % 2 ^ 32

/-- The lanes of ActiveLanes() that meet the loop condition. -/
def State.votes (s : State) (f : Fields) (j : Jump) : List Nat :=
  (s.activeLanes f).filter fun l => j != .loop || s.loopCount f l != 0

/-- Take(q) of R163 and R168. -/
def State.takes (s : State) (f : Fields) (j : Jump) (q : Nat) : Bool :=
  if f.k then s.guardTrue f 0 && (j != .loop || s.loopCount f 0 != 0)
  else
    let v := s.votes f j
    if f.mb 0 then (s.warp.quadLanes q).all v.contains else (s.warp.quadLanes q).any v.contains

/-- The target of a quad: none in an indirect form for a quad without active lanes (R168). -/
def State.target (s : State) (f : Fields) (rel : Bool) (q : Nat) : Option DWord :=
  if rel then some (relTarget f s.warp.pc)
  else if f.k then some (BitVec.ofNat 64 (s.srcA f 2 0))
  else ((s.warp.quadLanes q).find? (s.activeLanes f).contains).map fun l => BitVec.ofNat 64 (s.srcA f 2 l)

/-- Where a quad stands afterwards. -/
def Quad.jump (u : Quad) (j : Jump) (lx : Bool) (pc next : DWord) (t : Option DWord) (take : Bool) : Quad :=
  let back := match t with | some a => decide (a ≤ pc) | none => false
  if take && t.isSome then
    let ctr := if back && (j == .branch || j == .loop) then u.ctr + 1 else u.ctr
    { u with pc := t.getD pc, ctr := if lx && !back then 0xFFFF else ctr, wait := .none, operand := 0 }
  else { u with pc := next, ctr := if lx && back then 0xFFFF else u.ctr, wait := .none, operand := 0 }

/-- The register result of LOOP or of a call: a long-latency result with the value at issue (R52, R55). -/
def State.jumpResult (s : State) (f : Fields) (j : Jump) (rel : Bool) : List RegWrite :=
  let link := s.warp.pc.toNat + f.slot
  match j with
  | .loop => (s.actLanes f).map fun l => ⟨regName f.k f.d.toNat, l, s.loopCount f l⟩
  | .call =>
    if f.k then (if s.guardTrue f 0 then dest f 2 0 link else [])
    else
      ((s.warp.gang.filter fun q => s.takes f j q && (s.target f rel q).isSome).flatMap s.warp.quadLanes).flatMap fun l =>
        dest f 2 l link
  | _ => []

/-- BRA, BRX, CALL, CALLX, RET and LOOP (R168). -/
def State.jump (s : State) (f : Fields) (j : Jump) (rel : Bool) : State :=
  let pc := s.warp.pc
  let lx := f.mb 1 && (j == .branch || j == .loop)
  let quads := s.warp.quads.mapIdx fun i q =>
    if s.warp.gang.contains i then q.jump j lx pc (pc + BitVec.ofNat 64 f.slot) (s.target f rel i) (s.takes f j i) else q
  let s' := match j with
    | .loop => s.later [regName f.k f.d.toNat] (s.jumpResult f j rel) 0
    | .call => s.later (coversD f 2) (s.jumpResult f j rel) 0
    | _ => s
  s'.modWarp fun w => { w with quads }.endRun

def execNop (f : Fields) (s : State) : Out := .next (s.advance f)
def execBra (f : Fields) (s : State) : Out := .next (s.jump f .branch true)
def execBrx (f : Fields) (s : State) : Out := .next (s.jump f .branch false)
def execCall (f : Fields) (s : State) : Out := .next (s.jump f .call true)
def execCallx (f : Fields) (s : State) : Out := .next (s.jump f .call false)
def execRet (f : Fields) (s : State) : Out := .next (s.jump f .ret false)
def execLoop (f : Fields) (s : State) : Out := .next (s.jump f .loop true)

/-! ## EXIT (R169) -/

/-- The live mask less the lanes that exit; `q` is the quad's number. -/
def Quad.exit (q : Nat) (lanes : List Nat) (u : Quad) : Quad :=
  { u with live := u.live &&& ~~~(BitVec.ofNat 4 (maskOf ((List.range 4).filter fun i => lanes.contains (4 * q + i)))) }

/-- Loads whose lanes have not returned: a fault of one of them is still precise (R58), so the last EXIT waits for them. -/
def Warp.loadsOut (w : Warp) : Bool := w.score.any fun e => e.kind == .load

/-- EXIT: the active lanes end, and with its last live lane the warp retires. -/
def execExit (f : Fields) (s : State) : Out :=
  let lanes := s.activeLanes f
  let quads := s.warp.quads.mapIdx fun i q => q.exit i lanes
  if quads.all fun q => q.live == 0 then
    if s.warp.loadsOut then .next (s.stallAt 2) else .next s.retireWarp
  else .next ((s.modWarp fun w => { w with quads := w.quads.mapIdx fun i q => q.exit i lanes }).advance f true)

/-! ## YIELD (R165) -/

/-- YIELD ends the run and, when a lane is active, marks the sub-gang. -/
def execYield (f : Fields) (s : State) : Out :=
  let g := s.warp.gang
  let mark := s.acts f
  .next ((s.advance f true).modWarp fun w =>
    { w with quads := w.quads.mapIdx fun i q => if mark && g.contains i then { q with yielded := true } else q })

/-! ## The region stack (R170, R439) -/

/-- ENTER's push. -/
def Warp.pushRegion (w : Warp) (id : BitVec 16) : Warp :=
  { w with regions := (id :: w.regions).take 8, depth := min (w.depth + 1) 255 }

/-- LEAVE's pop. -/
def Warp.popRegion (w : Warp) : Warp :=
  if w.depth = 0 then w else { w with regions := w.regions.drop 1 ++ [0], depth := w.depth - 1 }

/-- The edge matches an armed stop request of the core (R439). -/
def State.stopMatches (s : State) : Bool :=
  let c := s.myCore
  !s.warp.isVesper && c.dbgctl.getLsbD 3 && !c.trapped && c.halt == .running &&
  (!c.dbgctl.getLsbD 4 || c.dbgctl.extractLsb' 16 16 == s.warp.regions.headD 0)

/-- A region edge is complete: the counters stand past the instruction, and a matching stop request stops the core. -/
def State.regionEdge (s : State) (f : Fields) (g : Warp → Warp) : State :=
  if s.acts f then
    let pc := s.warp.pc
    let s := (s.modWarp g).advance f
    if s.stopMatches then
      let t : Trap := { code := cBkpt, info0 := 2 ^ 16 + (s.warp.regions.headD 0).toNat }
      (s.trapCore pc t).modCore s.warp.id.die s.warp.id.core fun c => { c with dbgctl := c.dbgctl &&& ~~~8#64 }
    else s
  else s.advance f

def execEnter (f : Fields) (s : State) : Out := .next (s.regionEdge f fun w => w.pushRegion f.imm16)

/-- LEAVE at depth 0 has no effect, so it is no region edge (log entry 21). -/
def execLeave (f : Fields) (s : State) : Out :=
  if s.warp.depth = 0 then .next (s.advance f) else .next (s.regionEdge f Warp.popRegion)

end Sys2Proof.Machine
end

