-- ==== Sys2Proof/Machine/Fabric.lean ====
section
/-! DEFINITION. Links, wavelengths and retraining (R394 to R401), switch planes and requests from other devices (R402,
R403). -/

namespace Sys2Proof.Machine

/-! ## Control flits (R395, R397, R400) -/

/-- A control flit on vc 4 takes the next number of its direction and is kept until it is acknowledged. -/
def Link.control (l : Link) (payload : BitVec 11 × BitVec 512) : Link :=
  { l with
    unacked := l.unacked ++ [{ seq := l.txNext, vc := 4, kind := 2, credit := payload.1, payload := payload.2 }]
    txNext := l.txNext + 1 }

/-! ## Retraining (R399, R400) -/

def bitAt (w : Nat) : BitVec 8 := BitVec.ofNat 8 (2 ^ w)

def Link.modWave (l : Link) (w : Nat) (g : Wavelength → Wavelength) : Link := { l with waves := tmod Wavelength.reset l.waves w g }

/-- A link that has no active wavelength left has failed. -/
def State.checkLink (s : State) (link : Nat) : State :=
  if (s.linkAt link).failed then s.post (.linkFailure link) else s

/-- A retraining begins, or waits while another wavelength of the direction retrains: the receiver's control flit names the
wavelength. -/
def State.startRetrain (s : State) (link w : Nat) : State :=
  let l := s.linkAt link
  if !l.active.getLsbD w then s
  else if l.training ≠ 0 then s.modLink link fun l => l.modWave w fun x => { x with pending := true }
  else
    let s := s.modLink link fun l =>
      { (l.modWave w fun x => { x with retrain := x.retrain + 1, attempts := 0, pending := false, retryAt := none }).control
          (Config.controlFlit s.free w none) with
        active := l.active &&& ~~~bitAt w, training := l.training ||| bitAt w }
    { s with sent := s.sent ++ [Sent.removal link w], free := s.free + 1 }.checkLink link

/-- The direction is free for the next wavelength that waits. -/
def State.nextRetrain (s : State) (link : Nat) : State :=
  let l := s.linkAt link
  if l.training ≠ 0 then s
  else match (List.range 8).find? fun w => (l.wave w).pending && l.active.getLsbD w with
    | some w => s.startRetrain link w
    | none => s

/-- ERROR_WINDOW_END: 2³⁰ bits have been received since the last. -/
def execErrorWindowEnd (link w : Nat) (s : State) : Out :=
  let l := s.linkAt link
  let x := l.wave w
  let got := (x.rxBits - x.winBits).toNat
  let rise := (x.corrBits - x.winCorr).toNat
  if got < 2 ^ 30 then .next s
  else
    let above := decide (l.thresh.toNat * 2 ^ 30 < rise * 10 ^ 12)
    let s := s.modLink link fun l => l.modWave w fun x => { x with winBits := x.rxBits, winCorr := x.corrBits, winUncorr := 0 }
    .next (if above then s.startRetrain link w else s)

/-- WAVELENGTH_REMOVAL: the transmitter takes the wavelength out of its list. -/
def execWavelengthRemoval (link w : Nat) (s : State) : Out :=
  .next ((s.modLink link fun l => { l with txActive := l.txActive &&& ~~~bitAt w }).checkLink link)

/-- TRAINING_ATTEMPT_END: in the receiving direction a failed attempt is repeated after 10 ms, and the third disables the
wavelength; in the transmitting direction a passed one makes the transmitter name S, 1 to 4,096 flits after the control flit. -/
def execTrainingAttemptEnd (link w : Nat) (passed : Bool) (s : State) : Out :=
  let l := s.linkAt link
  let x := l.wave w
  if l.training.getLsbD w ∧ x.retryAt = none then
    if passed then .next s
    else if x.attempts = 2 then
      let s := s.modLink link fun l =>
        { l.modWave w fun x => { x with fail := x.fail + 1, attempts := 0 } with
          training := l.training &&& ~~~bitAt w, disabled := l.disabled ||| bitAt w }
      .next (s.nextRetrain link)
    else
      let s := s.modLink link fun l => l.modWave w fun x => { x with attempts := x.attempts + 1, retryAt := some (s.timer + 10 ^ 7) }
      .next (s.post (.trainingRetry link w))
  else if passed ∧ !l.txActive.getLsbD w ∧ l.back = none then
    let d := Config.handBackDistance s.free % 4096 + 1
    let at_ := l.txNext + BitVec.ofNat 16 d
    let s := s.modLink link fun l => { l.control (Config.controlFlit s.free w (some at_)) with back := some (w, at_) }
    .next ({ s with free := s.free + 1, sent := s.sent ++ [Sent.handBack link w at_] }.post (Instr.handBack link w at_))
  else .next s

/-- TRAINING_RETRY: not before 10 ms have passed. -/
def execTrainingRetry (link w : Nat) (s : State) : Out :=
  match ((s.linkAt link).wave w).retryAt with
  | none => .next s
  | some t =>
    if s.timer < t then .next (s.post (.trainingRetry link w))
    else .next (s.modLink link fun l => l.modWave w fun x => { x with retryAt := none })

/-- HAND_BACK: from flit S on the wavelength carries flits again, in the direction that had given it up. -/
def execHandBack (link w : Nat) (at_ : BitVec 16) (s : State) : Out :=
  let l := s.linkAt link
  if l.back = some (w, at_) then
    .next (s.modLink link fun l => { l with back := none, txActive := l.txActive ||| bitAt w, txNext := at_ })
  else if l.training.getLsbD w then
    let s := s.modLink link fun l =>
      { l.modWave w fun x => { x with attempts := 0, retryAt := none } with
        active := l.active ||| bitAt w, training := l.training &&& ~~~bitAt w }
    .next (s.nextRetrain link)
  else .next s

/-! ## Flits (R395 to R397) -/

/-- How far a sequence number lies ahead of another. -/
def ahead (a b : BitVec 16) : Nat := (a - b).toNat

/-- Flits that came early follow as their turn comes. -/
def Link.deliverEarly : Nat → Link → Link
  | 0, l => l
  | n + 1, l =>
    match l.early.find? fun f => f.seq == l.expect with
    | some f =>
      Link.deliverEarly n { l with early := l.early.filter fun g => g.seq != f.seq, got := l.got ++ [f], expect := l.expect + 1 }
    | none => l

/-- FLIT: an uncorrectable flit, or a gap, is answered by a negative acknowledgement; the others are delivered in order, each
once. -/
def execFlit (link w : Nat) (f : Flit) (corrected : Nat) (uncorrectable : Bool) (s : State) : Out :=
  let l := s.linkAt link
  let s := s.modLink link fun l => l.modWave w fun x =>
    { x with
      rxBits := x.rxBits + 640
      corrBits := if uncorrectable then x.corrBits else x.corrBits + BitVec.ofNat 64 corrected
      uncorr := if uncorrectable then x.uncorr + 1 else x.uncorr
      winUncorr := if uncorrectable then x.winUncorr + 1 else x.winUncorr }
  let x := (s.linkAt link).wave w
  let s := if uncorrectable && x.winUncorr == 3 then s.startRetrain link w else s
  let s := if 2 ^ 30 ≤ (x.rxBits - x.winBits).toNat then s.post (.errorWindowEnd link w) else s
  let nak : State := { s with sent := s.sent ++ [.nak link l.expect] }
  if uncorrectable then .next nak
  else if ahead f.seq l.expect = 0 then
    let s := s.modLink link fun l => Link.deliverEarly l.early.length { l with got := l.got ++ [f], expect := l.expect + 1 }
    .next { s with sent := s.sent ++ [.ack link ((s.linkAt link).expect)] }
  else if ahead f.seq l.expect < 2 ^ 15 then
    .next (nak.modLink link fun l => { l with early := if l.early.any fun g => g.seq == f.seq then l.early else l.early ++ [f] })
  else .next s

/-- NEGATIVE_ACKNOWLEDGEMENT: the transmitter sends again from the flit that it names, in order. -/
def execNegativeAcknowledgement (link : Nat) (first : BitVec 16) (s : State) : Out :=
  let again := (s.linkAt link).unacked.dropWhile fun f => f.seq != first
  let s := s.modLink link fun l => { l with replay := l.replay + BitVec.ofNat 64 again.length }
  .next { s with sent := s.sent ++ again.map fun f => .resend link f }

/-- FLIT_ACKNOWLEDGEMENT: cumulative, up to but not including the flit that it names. -/
def execFlitAcknowledgement (link : Nat) (upTo : BitVec 16) (s : State) : Out :=
  .next (s.modLink link fun l => { l with unacked := l.unacked.filter fun f => ahead f.seq upTo < 2 ^ 15 })

/-! ## Planes (R403) -/

/-- LINK_FAILURE: a fabric link's plane takes no new request; the ones outstanding have 1 ms. -/
def execLinkFailure (link : Nat) (s : State) : Out :=
  let s := s.modLink link fun l => { l with active := 0, training := 0, txActive := 0 }
  if 48 ≤ link ∨ s.planes.getD link .down ≠ .up then .next s
  else .next ({ s with planes := s.planes.set link .draining }.post (.planeDrainTimeout link))

/-- PLANE_DRAIN_TIMEOUT: the held requests go to the planes that H finds among those that are up. -/
def execPlaneDrainTimeout (plane : Nat) (s : State) : Out :=
  if s.planes.getD plane .up = .draining then .next { s with planes := s.planes.set plane .down } else .next s

/-- PLANE_REJOIN: the link is up again with all its wavelengths. -/
def execPlaneRejoin (plane : Nat) (s : State) : Out :=
  if s.planes.getD plane .up = .down then
    let fresh (l : Link) : Link := { l with active := 0xFF, training := 0, disabled := 0, txActive := 0xFF, back := none }
    .next ({ s with planes := s.planes.set plane .up }.modLink plane fresh)
  else .next s

/-! ## Requests from other devices (R403) -/

/-- The run of memory that a request names. -/
def opSpan : RemoteOp → Nat × Nat
  | .load a w | .store a w _ | .atomic _ a w _ _ => (a, w)

/-- Whether the request writes. -/
def opWrites : RemoteOp → Bool
  | .load _ _ => false
  | .store _ _ _ | .atomic _ _ _ _ _ => true

/-- The marks of a placement conversion act on every agent (R339, R340). -/
def State.remoteHeld (s : State) (op : RemoteOp) : Bool := s.convHeld (fun _ => false) (s.phys (opSpan op).1) (opSpan op).2 (opWrites op)

/-- A request performed at its home, with its answer, if the home's memory is good. Which die and process of the source an
atomic comes from, the request does not show: a home watchpoint's record has free values there (log entry 46). -/
def State.performRemote (s : State) (src : Nat) (op : RemoteOp) : State × Except Nat Nat :=
  let at_ (addr w : Nat) (go : Nat → State × Except Nat Nat) : State × Except Nat Nat :=
    let fa := s.phys addr
    match s.served fa (leafMode 0 0) with
    | none => (s, .error 1)
    | some fa => match s.poisonOf fa w with | some k => (s, .error k) | none => go fa
  match op with
  | .load addr w => at_ addr w fun fa => let s := s.recallHosts (lineOf fa) false; (s, .ok (s.cohRead fa w))
  | .store addr w v =>
    match s.served (s.phys addr) (leafMode 0 0) with
    | none => (s, .ok 0)
    | some fa => (s.deviceWrite fa w (v % 2 ^ w), .ok 0)
  | .atomic slot addr w x y => at_ addr w fun fa =>
    let old := s.cohRead fa w
    match newValue slot w old x y with
    | none => (s, .error 3)
    | some v =>
      let s := (s.deviceWrite fa w v).homeReportOf fa (2 ^ w - 1) 0 slot src (Config.pick s.free % 4) (Config.pick (s.free + 1) % 2 ^ 16)
      ({ s with free := s.free + 2 }, .ok old)

/-- Responses are kept for 64 µs. -/
def State.keptResponses (s : State) : List (Nat × Nat × Nat × Sent) := s.saved.filter fun (_, _, t, _) => decide (s.timer ≤ t + 64000)

/-- FABRIC_REQUEST: a tag completed within the last 64 µs gets the saved response; a request that a conversion holds back
waits. -/
def execFabricRequest (dev tag : Nat) (op : RemoteOp) (s : State) : Out :=
  match s.keptResponses.find? fun (d, t, _, _) => d == dev && t == tag with
  | some (_, _, _, r) => .next { s with saved := s.keptResponses, sent := s.sent ++ [r] }
  | none =>
    if s.remoteHeld op then .next (s.post (.fabricRequest dev tag op))
    else
      let (s, v) := s.performRemote dev op
      let r : Sent := match v with | .ok v => .response dev tag v | .error k => .poisoned dev tag k
      .next { s with saved := (dev, tag, s.timer, r) :: s.keptResponses, sent := s.sent ++ [r] }

end Sys2Proof.Machine
end

