-- ==== Sys2Proof/Machine/Hosts.lean ====
section
/-! DEFINITION. Hosts: their requests to device memory (R408 to R410), range tables, leases and reclaim (R411). -/

namespace Sys2Proof.Machine

/-! ## Host requests -/

/-- The kind-01 entry of a host that covers a run of device memory and grants the access in both copies. -/
def State.partition (s : State) (hostId addr w : Nat) (grants : Range → Bool) : Option Range :=
  ((s.rangePairs.filter fun (x, y) =>
    x.kind == 1 && y.kind == 1 && x.hostId == hostId && y.hostId == hostId && x.covers addr w && y.covers addr w &&
    grants x && grants y).map (·.1)).head?

def opGranted : RemoteOp → Range → Bool
  | .load _ _, e => e.r
  | .store _ _ _, e => e.w
  | .atomic _ _ _ _ _, e => e.a

/-- The valid entries of a host and a kind. -/
def State.extentsOf (s : State) (hostId kind : Nat) : List Range :=
  (s.ranges.map fun (_, e) => rangeOf e).filter fun e => e.valid && e.kind == kind && e.hostId == hostId

/-- The run lies in the host's own memory, which the device sees in region 01 (R407, R408). -/
def State.hostOwns (s : State) (hostId a w : Nat) : Bool :=
  regionOf a == 1 && (s.extentsOf hostId 0).any fun e => e.covers (a % 2 ^ 53) w

/-- What a host gets back for a request that has been performed. -/
def hostAnswer (hostId : Nat) (op : RemoteOp) (v : Nat) : Sent :=
  match op with
  | .store _ _ _ => .hostDone hostId
  | _ => .hostData hostId (opSpan op).1 v

/-- The host-holder table takes a line; its least recently used one is recalled when it is full (R410). -/
def State.hold (s : State) (line hostId : Nat) (modified : Bool) : State :=
  let rest := s.holders.filter fun x => !(x.1 == line && x.2.1 == hostId)
  let s := { s with holders := rest }
  let s := if 262144 ≤ rest.length then (match rest.getLast? with | some x => s.recallHosts x.1 true | none => s) else s
  { s with holders := (line, hostId, modified) :: s.holders }

/-- HOST_REQUEST: in device memory, checked against both copies of the range table; under C the host may keep the line. A
host's own loads and stores in the memory that the device sees in region 01 are performed there, where device accesses at
`.sys` meet them (R262). A request that a conversion holds back waits (R339). -/
def execHostRequest (hostId : Nat) (op : RemoteOp) (cache : Bool) (s : State) : Out :=
  let (a, w) := opSpan op
  let s := { s with platform := s.platform.endStep6 }
  let refused : Out := .next { s with sent := s.sent ++ [Sent.hostRefused hostId] }
  if s.hostOwns hostId a w then
    match s.performRemote s.device op with
    | (s, .ok v) => .next { s with sent := s.sent ++ [hostAnswer hostId op v] }
    | (s, .error _) => .next { s with sent := s.sent ++ [Sent.hostRefused hostId] }
  else if !s.platform.serving then refused
  else match s.partition hostId a w (opGranted op) with
    | none => refused
    | some e =>
      if s.remoteHeld op then .next (s.post (.hostRequest hostId op cache))
      else
      let s := s.recallHosts (lineOf (s.phys a)) (opWrites op)
      match s.performRemote s.device op with
      | (s, .error _) => .next { s with sent := s.sent ++ [Sent.hostRefused hostId] }
      | (s, .ok v) =>
        let line := lineOf (s.phys a)
        let keep := cache && e.c && !Config.versionOne (s.hostLinkOf hostId line)
        let s := if keep then (if (opWrites op) then s.pullAll line else s).hold line hostId (opWrites op) else s
        .next { s with sent := s.sent ++ [hostAnswer hostId op v] }

/-! ## Range tables (R408) -/

/-- Two runs of device memory overlap. -/
def Range.overlaps (x y : Range) : Bool :=
  decide (x.dbase < y.dbase + y.units * 2 ^ 19) && decide (y.dbase < x.dbase + x.units * 2 ^ 19)

/-- The controller accepts an entry. -/
def State.entryOk (s : State) (index : Nat) (entry : BitVec 256) : Bool :=
  let e := rangeOf entry
  bits entry.toNat 82 0 == 0 && decide (index < 64) && decide (e.kind < 2) && e.dbase % 2 ^ 19 == 0 && decide (1 ≤ e.units) &&
  (if e.kind = 0 then e.hbase % 65536 == 0 && !e.c && decide (e.dbase < 2 ^ 53)
   else e.hbase == 0 && regionOf e.dbase == 0 && decide (e.dbase < 2 ^ 55)) &&
  !(e.kind == 1 && e.valid && s.ranges.any fun (k, r) =>
    let r := rangeOf r
    k != index && r.valid && r.kind == 1 && r.hostId != e.hostId && r.overlaps e)

/-- RANGE_TABLE_UPDATE: an accepted entry goes to both copies. -/
def execRangeTableUpdate (index : Nat) (entry : BitVec 256) (s : State) : Out :=
  if s.entryOk index entry then .next { s with ranges := tput 0 s.ranges index entry, tray := tput 0 s.tray index entry }
  else .next { s with sent := s.sent ++ [.rejected index] }

/-! ## Leases (R411) -/

/-- LEASE_RENEWAL: three periods from its arrival. -/
def execLeaseRenewal (hostId : Nat) (s : State) : Out :=
  if (s.extentsOf hostId 1).isEmpty then .next s
  else .next { s with leases := tput 0 s.leases hostId (s.timer + 3 * s.leasePer.toNat) }

/-- Step 1: the entries of the host are no longer valid. -/
def invalidate (hostId : Nat) (t : Table (BitVec 256)) : Table (BitVec 256) :=
  t.foldl (fun acc (k, e) =>
    tput 0 acc k (if (rangeOf e).hostId = hostId then e &&& ~~~(BitVec.ofNat 256 (2 ^ 87)) else e)) []

/-- Step 2: lines that the host holds modified are lost. -/
def State.loseHeld (s : State) (hostId : Nat) : State :=
  let lost := s.holders.filter fun (_, h, m) => h == hostId && m
  let s := { s with holders := s.holders.filter fun x => x.2.1 != hostId }
  lost.foldl (fun s (l, _, _) => (List.range 4).foldl (fun s i => s.setPoison (l * 4 + i) 2) (s.pullAll l)) s

/-- Step 3: zeros in every other sector of an extent, written at the homes. -/
def State.zeroExtent (s : State) (e : Range) (lost : Nat → Bool) : State :=
  let lo := s.phys e.dbase
  let hi := lo + e.units * 2 ^ 19
  let within (bit : Nat) : Bool := decide (lo ≤ bit) && decide (bit < hi)
  let cached := ((s.dir.map (·.1)) ++ s.holders.map (·.1)).filter fun l => within (l * 2048)
  let s := cached.foldl State.pullAll s
  let clear (line : Nat) (l : Option L2Line) : Option L2Line := if within (line * 2048) then none else l
  let strip (d : Die) : Die := { d with l2 := (d.l2.map fun (n, l) => (n, clear n l)).filter fun x => x.2.isSome }
  let s := { s with dies := s.dies.map fun (k, d) => (k, strip d) }
  let s : State := { s with
    mem := s.mem.filter fun (b, _) => !within (s.phys (b * 8)) || lost (sectorOf (s.phys (b * 8)))
    poison := s.poison.filter fun (x, _) => !within (x * 512) || lost x }
  (List.range (e.units * 16)).foldl (fun s g => s.setDirtyBit (lo + 32768 * g)) s

/-- Step 4: dirty bytes of the host's own memory in the dies' L2 are discarded. -/
def State.dropDirty (s : State) (es : List Range) : State :=
  let mine (line : Nat) : Bool := s.isHost (line * 2048) && es.any fun e => e.covers (line * 2048 % 2 ^ 53) 1
  let clean (l : L2Line) : L2Line := { l with valid := l.valid - (l.valid &&& l.dirty), dirty := 0 }
  let strip (d : Die) : Die := { d with l2 := d.l2.map fun (n, l) => (n, if mine n then l.map clean else l) }
  { s with dies := s.dies.map fun (k, d) => (k, strip d) }

/-- Step 5: the record of a die. -/
def State.leaseRecord (s : State) (hostId die : Nat) : State :=
  let r : FaultRecord :=
    { addr := 0, pc := 0, info0 := BitVec.ofNat 64 hostId, info1 := 0, regions := 0, process := 0, launch := 0, warp := 0, lane := 0
      slot := 0, core := 0, die := BitVec.ofNat 2 die, kind := 5, code := 0, status := 0, flags := 0, aux16 := 0
      time := BitVec.ofNat 64 s.timer }
  s.enqueueRecord die ⟨r, none, none, false⟩

/-- LEASE_EXPIRY: the steps of R411, once the deadline has passed. -/
def execLeaseExpiry (hostId : Nat) (s : State) : Out :=
  let deadline := tget 0 s.leases hostId
  if deadline = 0 ∨ s.timer < deadline then .next s
  else
    let parts := s.extentsOf hostId 1
    let own := s.extentsOf hostId 0
    let held := (s.holders.filter fun (_, h, m) => h == hostId && m).map (·.1)
    let s := { s with ranges := invalidate hostId s.ranges, tray := invalidate hostId s.tray, leases := tput 0 s.leases hostId 0 }
    let s := s.loseHeld hostId
    let s := parts.foldl (fun s e => s.zeroExtent e fun x => held.contains (x / 4)) s
    let s := { s.dropDirty own with leaseLost := s.leaseLost + 1 }
    .next (s.survivors.foldl (fun s d => s.leaseRecord hostId d) s)

/-- The leases whose deadline has passed. -/
def State.dueLeases (s : State) : List Instr :=
  (s.leases.filter fun (_, t) => t != 0 && decide (t ≤ s.timer)).map fun (h, _) => .leaseExpiry h

end Sys2Proof.Machine
end

