-- ==== Sys2Proof/Machine/Integer.lean ====
section
/-! DEFINITION. Group 0x1: integer arithmetic, moves, special registers and predicate transfers (R72 to R91). -/

namespace Sys2Proof.Machine

/-! ## The results, as functions of the operand values -/

/-- An element-wise operation of two operands (R85). -/
def elemwise2 (op : Int → Int → Int) (t : Nat) (sat : Bool) (x y : Nat) : Nat :=
  packElems t fun i => narrow t sat (op (elt x t i) (elt y t i))

/-- An element-wise operation of three operands, which wraps (R86). -/
def elemwise3 (op : Int → Int → Int → Int) (t : Nat) (x y z : Nat) : Nat :=
  packElems t fun i => narrow t false (op (elt x t i) (elt y t i) (elt z t i))

/-- An element-wise operation of one operand (R89). -/
def elemwise1 (op : Int → Int) (t : Nat) (sat : Bool) (x : Nat) : Nat :=
  packElems t fun i => narrow t sat (op (elt x t i))

/-- The high half of the exact product (R86). -/
def mulHigh (t x y : Nat) : Nat := wrapInt (typeWidth t) ((readAs t x * readAs t y) / (2 ^ typeWidth t : Nat))

/-- IMADW (R86). -/
def mulAddWide (t x y z : Nat) : Nat :=
  wrapInt 64 (readAs t x * readAs t y + (if typeSigned t then sintOf 64 z else (z % 2 ^ 64 : Nat)))

/-- IDIV (R88): quotient truncated toward 0, remainder with the sign of a; a zero divisor gives all ones and a. -/
def divide (t : Nat) (rem : Bool) (x y : Nat) : Nat :=
  let a := readAs t x
  let b := readAs t y
  if b = 0 then (if rem then wrapInt (typeWidth t) a else 2 ^ typeWidth t - 1)
  else wrapInt (typeWidth t) (if rem then a.tmod b else a.tdiv b)

/-- ISAD (R90). -/
def sumAbsDiff (t x y z : Nat) : Nat :=
  (z + (List.range (elems t)).foldl (fun acc i => acc + (elt x t i - elt y t i).natAbs) 0) % 2 ^ 32

/-- DOT4 (R91). -/
def dotFour (ta tb : Nat) (sat : Bool) (x y z : Nat) : Nat :=
  narrow 0 sat ((List.range 4).foldl (fun acc i => acc + elt x ta i * elt y tb i) (sintOf 32 z))

/-! ## Operands by type -/

/-- Operand b of a typed operation; an immediate fills every element (R49, R75). -/
def State.srcBTyped (s : State) (f : Fields) (t lane : Nat) : Nat :=
  if f.isImm then packElems t fun _ => immInt f (typeSigned t) (typeWidth t) else s.srcBReg f (regsOfType t) lane

/-- A typed instruction of two sources. -/
def State.runInt2 (s : State) (i : Instr) (f : Fields) (op : Nat → Nat → Nat) : State :=
  let t := f.mod.toNat
  s.runRegs i f fun l => noFlags (dest f (regsOfType t) l (op (s.srcA f (regsOfType t) l) (s.srcBTyped f t l)))

/-- A typed instruction of three sources, the third in field c. -/
def State.runInt3 (s : State) (i : Instr) (f : Fields) (op : Nat → Nat → Nat → Nat) : State :=
  let t := f.mod.toNat
  let n := regsOfType t
  s.runRegs i f fun l => noFlags (dest f n l (op (s.srcA f n l) (s.srcBTyped f t l) (s.srcC f n l)))

/-- A typed instruction of one source. -/
def State.runInt1 (s : State) (i : Instr) (f : Fields) (op : Nat → Nat) : State :=
  let n := regsOfType f.mod.toNat
  s.runRegs i f fun l => noFlags (dest f n l (op (s.srcA f n l)))

/-! ## Arithmetic -/

def execIadd (f : Fields) (s : State) : Out :=
  .next (s.runInt2 (.iadd f) f (elemwise2 (· + ·) f.mod.toNat (f.cb 0)))

def execIsub (f : Fields) (s : State) : Out :=
  .next (s.runInt2 (.isub f) f (elemwise2 (· - ·) f.mod.toNat (f.cb 0)))

def execImul (f : Fields) (s : State) : Out :=
  .next (s.runInt2 (.imul f) f (elemwise2 (· * ·) f.mod.toNat (f.cb 0)))

def execImin (f : Fields) (s : State) : Out :=
  .next (s.runInt2 (.imin f) f (elemwise2 min f.mod.toNat false))

def execImax (f : Fields) (s : State) : Out :=
  .next (s.runInt2 (.imax f) f (elemwise2 max f.mod.toNat false))

def execIadd3 (f : Fields) (s : State) : Out :=
  .next (s.runInt3 (.iadd3 f) f (elemwise3 (fun x y z => x + y + z) f.mod.toNat))

def execImad (f : Fields) (s : State) : Out :=
  .next (s.runInt3 (.imad f) f (elemwise3 (fun x y z => x * y + z) f.mod.toNat))

def execImulhi (f : Fields) (s : State) : Out :=
  .next (s.runInt2 (.imulhi f) f (mulHigh f.mod.toNat))

/-- IADDC (R87): field c names the predicate that carries in and out. -/
def execIaddc (f : Fields) (s : State) : Out :=
  let t := f.mod.toNat
  let n := regsOfType t
  .next (s.runRegs (.iaddc f) f fun l =>
    let z := s.srcA f n l + s.srcBTyped f t l + b2n (s.predField f f.c l)
    noFlags (dest f n l (z % 2 ^ typeWidth t) ++ [destPred f f.c l (carryOut (typeWidth t) z)]))

def execImadw (f : Fields) (s : State) : Out :=
  let t := f.mod.toNat
  .next (s.runRegs (.imadw f) f fun l =>
    noFlags (dest f 2 l (mulAddWide t (s.srcA f 1 l) (s.srcBTyped f t l) (s.srcC f 2 l))))

/-- IDIV is long-latency (R88). -/
def execIdiv (f : Fields) (s : State) : Out :=
  let t := f.mod.toNat
  let n := regsOfType t
  .next (s.runLater (.idiv f) f n fun l =>
    noFlags (dest f n l (divide t (f.cb 0) (s.srcA f n l) (s.srcBReg f n l))))

def execIabs (f : Fields) (s : State) : Out :=
  .next (s.runInt1 (.iabs f) f (elemwise1 (fun x => if x < 0 then -x else x) f.mod.toNat (f.cb 0)))

def execIneg (f : Fields) (s : State) : Out :=
  .next (s.runInt1 (.ineg f) f (elemwise1 (fun x => -x) f.mod.toNat (f.cb 0)))

def execIsad (f : Fields) (s : State) : Out :=
  .next (s.runInt3 (.isad f) f (sumAbsDiff f.mod.toNat))

def execDot4 (f : Fields) (s : State) : Out :=
  let ty (i : Nat) := if f.mb i then 7 else 6
  .next (s.runRegs (.dot4 f) f fun l =>
    noFlags (dest f 1 l (dotFour (ty 0) (ty 1) (f.mb 3) (s.srcA f 1 l) (s.srcBReg f 1 l) (s.srcC f 1 l))))

/-! ## Moves (R78 to R82) -/

def execMov (f : Fields) (s : State) : Out :=
  let n := if f.mb 0 then 2 else 1
  .next (s.runRegs (.mov f) f fun l => noFlags (dest f n l (s.srcB f false (32 * n) n l)))

/-- MOVI (R79): one part of d is replaced. -/
def execMovi (f : Fields) (s : State) : Out :=
  let k := f.mn 1 0
  let (at_, w, imm) := if f.mb 2 then (32 * k, 32, f.imm32.toNat) else (16 * k, 16, f.imm16.toNat)
  let n := if at_ < 32 then 1 else 2
  .next (s.runRegs (.movi f) f fun l => noFlags (dest f n l (insertBits (s.field f f.d n l) at_ w imm)))

/-- The first lane whose selected register is odd for a pair or beyond the allotment (R80), with the register. -/
def State.movxFault (s : State) (f : Fields) (lanes : List Nat) : Option (Nat × Nat) :=
  let n := if f.mb 0 then 2 else 1
  let limit := if f.k then s.warp.info.kregs else s.warp.info.vregs
  (lanes.map fun l => (l, f.a.toNat + s.srcBReg f 1 l)).find? fun (_, r) => r % n != 0 || limit < r + n

def execMovx (f : Fields) (s : State) : Out :=
  let n := if f.mb 0 then 2 else 1
  match s.movxFault f (s.actLanes f) with
  | some (l, r) => .next (s.trap { code := cRegBound, info0 := r, lane := l })
  | none =>
    .next (s.runRegs (.movx f) f fun l =>
      noFlags (dest f n l (s.regs (regName f.k) (f.a.toNat + s.srcBReg f 1 l) (if f.k then 0 else l) n)))

def execSel (f : Fields) (s : State) : Out :=
  let n := if f.mb 1 then 2 else 1
  .next (s.runRegs (.sel f) f fun l =>
    noFlags (dest f n l
      (if s.predField f f.c l != f.mb 0 then s.srcA f n l else s.srcB f false (32 * n) n l)))

/-- XSET (R82): a vector b is read in the lowest active lane. -/
def execXset (f : Fields) (s : State) : Out :=
  .next (s.runOnce (.xset f) f fun l => [⟨.x f.d.toNat, 0, s.srcB f false 32 1 l⟩])

def execXadd (f : Fields) (s : State) : Out :=
  .next (s.runOnce (.xadd f) f fun l =>
    [⟨.x f.d.toNat, 0, wrapInt 32 (s.reg (.x f.a.toNat) 0 + sintOf 32 (s.srcB f true 32 1 l))⟩])

/-! ## Special registers (R72) -/

/-- fmode as RDSPEC reads it: flags of the same run may or may not show (R117). -/
def State.fmodeRead (s : State) : Word :=
  if Config.flagEarly s.free then s.warp.fmode ||| s.warp.runFlags else s.warp.fmode

/-- The value of a special register, by number. -/
def State.special (s : State) (f : Fields) (n lane : Nat) : Nat :=
  let w := s.warp
  let b := s.myBlock
  let blk (v : Nat) : Nat := if w.isVesper then 0 else v
  let l := s.launchAt w.info.process w.info.launch
  match n with
  | 0x00 => lane
  | 0x01 => lane / 4
  | 0x02 => if w.isVesper then w.id.core - 64 else w.id.warp
  | 0x03 => blk (b.pos.getD 0 0)
  | 0x04 => blk (b.pos.getD 1 0)
  | 0x05 => blk (b.pos.getD 2 0)
  | 0x06 => blk (l.grid.getD 0 0)
  | 0x07 => blk (l.grid.getD 1 0)
  | 0x08 => blk (l.grid.getD 2 0)
  | 0x09 => blk b.rank
  | 0x0A => blk b.header.cluster
  | 0x0B => w.id.die
  | 0x0C => s.device
  | 0x0D => if w.isVesper then w.id.core - 64 else w.id.core
  | 0x0E => w.info.width
  | 0x0F => tget 0 s.clocks (islandOf w.id.die w.id.core)
  | 0x10 => s.timer
  | 0x11 => blk w.info.launch
  | 0x12 => maskOf (if f.k then w.eligible else s.activeLanes f)
  | 0x13 => blk w.prio
  | _ => s.fmodeRead.toNat

/-- The entries of 64 bits. -/
def specialWide (n : Nat) : Bool := n == 0x0F || n == 0x10 || n == 0x12

def execRdspec (f : Fields) (s : State) : Out :=
  let n := f.a.toNat
  .next (s.runRegs (.rdspec f) f fun l => noFlags (dest f (if specialWide n then 2 else 1) l (s.special f n l)))

/-! ## Predicate transfers (R83) -/

def execP2v (f : Fields) (s : State) : Out :=
  .next (s.runRegs (.p2v f) f fun l =>
    noFlags (dest f 1 l (maskOf ((List.range 8).filter fun i => s.predField f (BitVec.ofNat 8 i) l))))

def execV2p (f : Fields) (s : State) : Out :=
  .next (s.runRegs (.v2p f) f fun l =>
    noFlags (((List.range 7).filter fun i => f.b.getLsbD i).map fun i =>
      destPred f (BitVec.ofNat 8 i) l (bitOf (s.srcA f 1 l) i)))

end Sys2Proof.Machine
end

