-- ==== Sys2Proof/Machine/Lanes.lean ====
section
/-! DEFINITION. Group 0x5: cross-lane instructions (R102 to R107). -/

namespace Sys2Proof.Machine

/-- The source lane of XLANE (R103): mode, segment length, lane and k. -/
def xlaneSource (mode seg lane k : Nat) : Nat :=
  let i := lane % seg
  let base := lane - i
  match mode with
  | 0 => base + k % seg
  | 1 => base + (i + k) % seg
  | 2 => base + (seg - 1 - i + k) % seg
  | _ => base + (i ^^^ k) % seg

/-- The segment length of mod[3:2]: the warp width, 4, 8 or 16, and never more than the warp. -/
def segLen (width m : Nat) : Nat := match m with | 0 => width | 1 => min width 4 | 2 => min width 8 | _ => min width 16

def execXlane (f : Fields) (s : State) : Out :=
  let seg := segLen s.warp.info.width (f.mn 3 2)
  .next (s.runRegs (.xlane f) f fun l =>
    noFlags (dest f 1 l (s.srcA f 1 (xlaneSource (f.mn 1 0) seg l (s.srcB f false 32 1 l)))))

/-- PGATH (R104): the mask and the test. -/
def execPgath (f : Fields) (s : State) : Out :=
  .next (s.runWrites (.pgath f) f fun lanes =>
    let m := maskOf (lanes.filter fun l => s.predField f f.a l != f.mb 2)
    let all := maskOf lanes
    let test := match f.mn 1 0 with | 1 => m == all | 2 => m != 0 | _ => m == 0 || m == all
    noFlags (spread .s f.d.toNat 0 m 2 ++
      (if f.mn 1 0 = 0 then []
       else lanes.map (fun l => ⟨.p f.b.toNat, l, b2n test⟩) ++ [⟨.q f.c.toNat, 0, b2n test⟩])))

def execBcast (f : Fields) (s : State) : Out :=
  let n := if f.mb 0 then 2 else 1
  .next (s.runOnce (.bcast f) f fun l =>
    spread .s f.d.toNat 0 (s.srcA f n (s.srcB f false 32 1 l % s.warp.info.width)) n)

/-- REDI over the active lanes' values (R106); the identity where there is none. -/
def reduceInt (op t : Nat) (xs : List Nat) : Nat :=
  let w := typeWidth t
  match op with
  | 0 => xs.foldl (fun a x => (a + x) % 2 ^ w) 0
  | 1 => wrapInt w (xs.foldl (fun a x => min a (readAs t x)) (typeMax t))
  | 2 => wrapInt w (xs.foldl (fun a x => max a (readAs t x)) (typeMin t))
  | 3 => xs.foldl (fun a x => a &&& x) (2 ^ w - 1)
  | 4 => xs.foldl (fun a x => a ||| x) 0
  | _ => xs.foldl (fun a x => a ^^^ x) 0

def execRedi (f : Fields) (s : State) : Out :=
  let t := f.mod.toNat
  let n := regsOfType t
  .next (s.runWrites (.redi f) f fun lanes =>
    noFlags (spread .s f.d.toNat 0 (reduceInt (f.cn 2 0) t (lanes.map fun l => s.srcA f n l)) n))

def execMatch (f : Fields) (s : State) : Out :=
  let n := if f.mb 0 then 2 else 1
  .next (s.runWrites (.match_ f) f fun lanes =>
    joinLanes (fun l =>
      noFlags (dest f 2 l (maskOf (lanes.filter fun u => s.srcA f n u == s.srcA f n l)))) lanes)

end Sys2Proof.Machine
end

