-- ==== Sys2Proof/Machine/Logic.lean ====
section
/-! DEFINITION. Group 0x2: logic, shifts, bit fields, compares and width conversion (R92 to R101). -/

namespace Sys2Proof.Machine

/-- Width of a b32 or b64 operation and its registers, by mod[0]. -/
def bitW (f : Fields) : Nat := if f.mb 0 then 64 else 32
def bitN (f : Fields) : Nat := if f.mb 0 then 2 else 1

/-- A bitwise instruction of two sources (R92). -/
def State.runBit2 (s : State) (i : Instr) (f : Fields) (op : Nat → Nat → Nat) : State :=
  let n := bitN f
  s.runRegs i f fun l => noFlags (dest f n l (op (s.srcA f n l) (s.srcB f false (bitW f) n l)))

/-- A shift, whose count is 32 bits (R94). -/
def State.runShift (s : State) (i : Instr) (f : Fields) (op : Nat → Nat → Nat) : State :=
  let n := bitN f
  s.runRegs i f fun l => noFlags (dest f n l (op (s.srcA f n l) (s.srcB f false 32 1 l)))

def execAnd (f : Fields) (s : State) : Out := .next (s.runBit2 (.and_ f) f fun x y => x &&& y)
def execOr (f : Fields) (s : State) : Out := .next (s.runBit2 (.or_ f) f fun x y => x ||| y)
def execXor (f : Fields) (s : State) : Out := .next (s.runBit2 (.xor_ f) f fun x y => x ^^^ y)
def execAndn (f : Fields) (s : State) : Out := .next (s.runBit2 (.andn f) f fun x y => x &&& notBits (bitW f) y)

def execNot (f : Fields) (s : State) : Out :=
  let n := bitN f
  .next (s.runRegs (.not_ f) f fun l => noFlags (dest f n l (notBits (bitW f) (s.srcA f n l))))

/-- TERN (R93): bit j of the result is t<a + 2b + 4c> of the inputs' bits j. -/
def ternary (t w x y z : Nat) : Nat :=
  maskOf ((List.range w).filter fun j =>
    bitOf t (b2n (bitOf x j) + 2 * b2n (bitOf y j) + 4 * b2n (bitOf z j)))

def execTern (f : Fields) (s : State) : Out :=
  let n := if f.xb 8 then 2 else 1
  .next (s.runRegs (.tern f) f fun l =>
    noFlags (dest f n l
      (ternary (f.xn 7 0) (32 * n) (s.srcA f n l) (s.srcB f false (32 * n) n l) (s.srcC f n l))))

/-! ## Shifts (R94, R95) -/

def shiftLeft (w x n : Nat) : Nat := if w ≤ n then 0 else (x <<< n) % 2 ^ w
def shiftRight (w x n : Nat) : Nat := if w ≤ n then 0 else (x % 2 ^ w) >>> n
def shiftArith (w x n : Nat) : Nat := wrapInt w (sintOf w x / (2 ^ min n (w - 1) : Nat))
def rotateLeft (w x n : Nat) : Nat :=
  let k := n % w
  ((x <<< k) ||| ((x % 2 ^ w) >>> (w - k))) % 2 ^ w

def execShl (f : Fields) (s : State) : Out := .next (s.runShift (.shl f) f (shiftLeft (bitW f)))
def execShr (f : Fields) (s : State) : Out := .next (s.runShift (.shr f) f (shiftRight (bitW f)))
def execSar (f : Fields) (s : State) : Out := .next (s.runShift (.sar f) f (shiftArith (bitW f)))
def execRot (f : Fields) (s : State) : Out := .next (s.runShift (.rot f) f (rotateLeft (bitW f)))

/-- DSH (R95): 32 bits out of c : a from bit n. -/
def doubleShift (sat : Bool) (x count z : Nat) : Nat :=
  let n := if sat then min count 64 else count % 64
  ((z <<< 32 + x) >>> n) % 2 ^ 32

def execDsh (f : Fields) (s : State) : Out :=
  .next (s.runRegs (.dsh f) f fun l =>
    noFlags (dest f 1 l (doubleShift (f.mb 0) (s.srcA f 1 l) (s.srcB f false 32 1 l) (s.srcC f 1 l))))

/-! ## Bit fields (R96 to R98) -/

/-- Position and clipped length of the field that b names. -/
def fieldSpan (w b : Nat) : Nat × Nat := (bits b 7 0, min (bits b 15 8) (w - bits b 7 0))

def bitFieldExtract (signed : Bool) (w x b : Nat) : Nat :=
  let (pos, ln) := fieldSpan w b
  if ln = 0 then 0
  else if signed then signExt ln w (x >>> pos) else (x >>> pos) % 2 ^ ln

def bitFieldInsert (w x b z : Nat) : Nat :=
  let (pos, ln) := fieldSpan w b
  if ln = 0 then z else insertBits z pos ln x

def execBfx (f : Fields) (s : State) : Out := .next (s.runShift (.bfx f) f (bitFieldExtract (f.mb 1) (bitW f)))

def execBfi (f : Fields) (s : State) : Out :=
  let n := bitN f
  .next (s.runRegs (.bfi f) f fun l =>
    noFlags (dest f n l (bitFieldInsert (bitW f) (s.srcA f n l) (s.srcB f false 32 1 l) (s.srcC f n l))))

/-- An instruction that counts bits into 32 bits. -/
def State.runCount (s : State) (i : Instr) (f : Fields) (op : Nat → Nat) : State :=
  s.runRegs i f fun l => noFlags (dest f 1 l (op (s.srcA f (bitN f) l)))

def execPopc (f : Fields) (s : State) : Out := .next (s.runCount (.popc f) f (popCount (bitW f)))
def execClz (f : Fields) (s : State) : Out := .next (s.runCount (.clz f) f (leadingZeros (bitW f)))
def execCtz (f : Fields) (s : State) : Out := .next (s.runCount (.ctz f) f (trailingZeros (bitW f)))

def execBrev (f : Fields) (s : State) : Out :=
  let n := bitN f
  .next (s.runRegs (.brev f) f fun l => noFlags (dest f n l (reverseBits (bitW f) (s.srcA f n l))))

/-- PACK (R98): element i of c replaced by the clamped value, the unused high bits 0 (R74; DEDUCED, log entry 14); c itself
when there is no such element. -/
def packElem (t x i z : Nat) : Nat :=
  let v := if typeSigned t then sintOf 32 x else (x % 2 ^ 32 : Nat)
  if elems t ≤ i then z
  else insertBits (z % 2 ^ (elems t * typeWidth t)) (i * typeWidth t) (typeWidth t) (wrapInt (typeWidth t) (clamp v t))

def unpackElem (t x i : Nat) : Nat := if elems t ≤ i then 0 else wrapInt 32 (elt x t i)

def execPack (f : Fields) (s : State) : Out :=
  .next (s.runRegs (.pack f) f fun l =>
    noFlags (dest f 1 l (packElem f.mod.toNat (s.srcA f 1 l) (s.srcBReg f 1 l) (s.srcC f 1 l))))

def execUnpk (f : Fields) (s : State) : Out :=
  .next (s.runRegs (.unpk f) f fun l =>
    noFlags (dest f 1 l (unpackElem f.mod.toNat (s.srcA f 1 l) (s.srcB f false 32 1 l))))

/-! ## Compare and conversion (R99 to R101) -/

/-- The comparison of a and b that the control byte and the type give. -/
def State.intCompare (s : State) (f : Fields) (l : Nat) : Bool :=
  let t := f.mod.toNat
  let n := regsOfType t
  intCond (f.cn 2 0) (readAs t (s.srcA f n l)) (readAs t (s.srcB f (typeSigned t) (typeWidth t) n l))

def execIpred (f : Fields) (s : State) : Out :=
  .next (s.runRegs (.ipred f) f fun l => noFlags [destPred f f.d l (s.intCompare f l)])

def execImask (f : Fields) (s : State) : Out :=
  let n := regsOfType f.mod.toNat
  .next (s.runRegs (.imask f) f fun l => noFlags (dest f n l (if s.intCompare f l then 2 ^ (32 * n) - 1 else 0)))

def predOp (o : Nat) (x y : Bool) : Bool :=
  match o with | 0 => x && y | 1 => x || y | 2 => x != y | _ => x && !y

def execPcomb (f : Fields) (s : State) : Out :=
  .next (s.runRegs (.pcomb f) f fun l =>
    noFlags [destPred f f.d l
      (predOp (f.mn 3 2) (predOp (f.mn 1 0) (s.predField f f.a l) (s.predField f f.b l)) (s.predField f f.c l))])

/-- ICVT (R101): a result narrower than 32 bits fills 32 bits. -/
def intConvert (td ts : Nat) (sat : Bool) (x : Nat) : Nat :=
  wrapInt (max 32 (typeWidth td)) (readAs td (narrow td sat (readAs ts x)))

def execIcvt (f : Fields) (s : State) : Out :=
  let ts := f.mod.toNat
  let td := f.cn 3 0
  .next (s.runRegs (.icvt f) f fun l =>
    noFlags (dest f (regsOfType td) l (intConvert td ts (f.cb 4) (s.srcA f (regsOfType ts) l))))

end Sys2Proof.Machine
end

