-- ==== Sys2Proof/Machine/Loopnest.lean ====
section
/-! DEFINITION. LOOPNEST (R147 to R154): elements, addresses, chunks, and the nest state. -/

namespace Sys2Proof.Machine

/-! ## The index space (R150) -/

/-- The extents of the levels in use, innermost first. -/
def nestExts (f : NestFields) : List Nat := (f.exts.take f.levels).map (·.toNat + 1)

def product (l : List Nat) : Nat := l.foldr (· * ·) 1

/-- The index vector of a linear index. -/
def nestVector : List Nat → Nat → List Nat
  | [], _ => []
  | e :: es, lin => lin % e :: nestVector es (lin / e)

/-- The linear index of an index vector. -/
def nestLinear : List Nat → List Nat → Nat
  | e :: es, i :: is => i + e * nestLinear es is
  | _, _ => 0

def nestTotal (f : NestFields) : Nat := product (nestExts f)

/-- The elements of one run of a reduction. -/
def nestRun (f : NestFields) : Nat := product ((nestExts f).take f.r.toNat)

def nestReduces (f : NestFields) : Bool := 16 ≤ f.xop.toNat

/-- The linear indices of the chunk that starts at one. -/
def nestChunk (f : NestFields) (lin : Nat) : List Nat :=
  let stop := if nestReduces f then (lin / nestRun f + 1) * nestRun f else nestTotal f
  (List.range (min 32 (stop - lin))).map (lin + ·)

/-- The address of an operand at an index vector; `from_` is R for D of a reduction and 0 otherwise. -/
def State.nestAddr (s : State) (base strides : BitVec 8) (from_ : Nat) (iv : List Nat) : Nat :=
  wrapInt 64 (((s.regs .s base.toNat 0 2 : Nat) : Int) +
    ((iv.zipIdx.drop from_).map fun (i, j) => (i : Int) * sintOf 32 (s.reg (.s (strides.toNat + j)) 0)).foldl (· + ·) 0)

/-! ## Element results (R149) -/

def sourceFormat (f : NestFields) : Format := formatOf f.fs.toNat
def resultFormat (f : NestFields) : Format := formatOf f.fd.toNat
def nestRounding (f : NestFields) : Rounding := roundingOf f.rnd.toNat

/-- EX2.f32 of an FP32 encoding. -/
def exp2Word (x : Nat) : FVal := f32.decode (specialCode .ex2 0 x).1

/-- EX2.f32 of RoundTo(A - B, FP32, RNE). -/
def exp2Diff (a b : FVal) : FVal := exp2Word (fSub f32 rne a b).1

/-- The result of an element-wise operation. -/
def nestElement (f : NestFields) (a b c : FVal) : Nat :=
  let t := resultFormat f
  let r := nestRounding f
  match f.xop.toNat with
  | 0 => (t.round r a).1
  | 1 => (fAdd t r a b).1
  | 2 => (fSub t r a b).1
  | 3 => (fMul t r a b).1
  | 4 => (fFma t r a b c).1
  | 5 => (t.round r (minMaxVal false false a b)).1
  | 6 => (t.round r (minMaxVal true false a b)).1
  | 7 => (t.round r (exp2Word (encodeExact f32 a))).1
  | _ => (t.round r (exp2Diff a b)).1

/-- What a reduction starts from: +0, −∞ or +∞. -/
def nestStart (f : NestFields) : Word :=
  match f.xop.toNat with
  | 17 => 0xFF80_0000#32
  | 18 => 0x7F80_0000#32
  | _ => 0

/-- A chunk joins the accumulator (R152). -/
def nestGroup (f : NestFields) (c : Word) (vs : List (FVal × FVal)) : Word :=
  BitVec.ofNat 32 (match f.xop.toNat with
    | 16 => groupAdd c.toNat (vs.map (·.1))
    | 19 => groupAdd c.toNat (vs.map fun (a, b) => exp2Diff a b)
    | x => vs.foldl (fun c v => encodeExact f32 (minMaxVal (x == 17) true (f32.decode c) v.1)) c.toNat)

/-! ## The read phase (R151) -/

/-- An access of the nest that cannot be made: the element, the address, whether it writes, and why. -/
structure NestFail where
  iv    : List Nat
  va    : Nat
  write : Bool
  bar   : Bar
  deriving DecidableEq, Repr

/-- One element: the parts of its sources, and of its destination with the address when the chunk writes it. -/
structure NestElem where
  srcs : List (List PartAt)
  dst  : Option (Nat × List PartAt)
  deriving DecidableEq, Repr

/-- The lines of a source part come in, as a load's would (R153, R374): the L2 of the die fills, then the core's L1. -/
def State.nestFetch (s : State) (p : PartAt) : State :=
  let id := s.warp.id
  match p.spot with
  | .mem fa leaf =>
    if (tget none (s.coreAt id.die id.core).l1 (sectorOf fa)).isSome then s
    else match s.served fa (leafMode leaf 0) with
      | none => s
      | some x =>
        if s.isRegister x then s
        else
          let s := s.fillRead id.die x p.width (s.processOf s.warp) (leafMode leaf 0)
          if (s.poisonOf (sectorOf x * 512) 512).isSome then s
          else s.fillL1 id.die id.core (sectorOf fa) (s.dieRead id.die (sectorOf x * 512) 512)
  | _ => s

/-- One part of a source is read: memory in the core's L1, or as its die gives it. -/
def State.readSpot (s : State) (p : PartAt) : Nat :=
  match p.spot with
  | .own off => s.myBlock.spadRead off p.width
  | .peer rank off => (s.rankBlock rank).2.spadRead off p.width
  | .mem fa leaf =>
    match tget none (s.coreAt s.warp.id.die s.warp.id.core).l1 (sectorOf fa) with
    | some x => (x >>> (fa % 512)) % 2 ^ p.width
    | none =>
      match s.served fa (leafMode leaf 0) with
      | some x => if s.isRegister x then s.registerRead x % 2 ^ p.width else s.dieRead s.warp.id.die x p.width
      | none => 0

/-- The trap that reading a part meets in poisoned or lost memory (R238, R387). -/
def State.spotPoison (s : State) (p : PartAt) : Option Nat :=
  match p.spot with
  | .mem fa leaf =>
    match s.served fa (leafMode leaf 0) with
    | none => some cPoison
    | some x => (s.poisonOf x p.width).map fun k => if k = 1 then cPoison else cDataLost
  | _ => none

/-- An access of the nest is checked. -/
def State.nestPlace (s : State) (iv : List Nat) (write : Bool) (w va : Nat) : State × Except NestFail (List PartAt) :=
  let p : Probe := if write then ⟨.store, needW, w, none⟩ else ⟨.load, needR, w, none⟩
  match s.reachLane s.warp p 0 va with
  | (s, .error b) => (s, .error ⟨iv, va, write, b⟩)
  | (s, .ok ps) =>
    match if write then none else ps.findSome? s.spotPoison with
    | some c => (s, .error ⟨iv, va, write, .trap c 0⟩)
    | none => (s, .ok ps)

/-- The source operands in use: base and stride fields. -/
def nestSources (f : NestFields) : List (BitVec 8 × BitVec 8) :=
  match nestUses f.xop.toNat with
  | some (b, c, _) => (f.a, f.tA) :: (if b then [(f.b, f.tB)] else []) ++ (if c then [(f.c, f.tC)] else [])
  | none => []

def State.nestReads (s : State) (f : NestFields) (iv : List Nat) :
    List (BitVec 8 × BitVec 8) → State × Except NestFail (List (List PartAt))
  | [] => (s, .ok [])
  | (b, t) :: rest =>
    match s.nestPlace iv false (sourceFormat f).width (s.nestAddr b t 0 iv) with
    | (s, .error e) => (s, .error e)
    | (s, .ok ps) =>
      match s.nestReads f iv rest with
      | (s, .error e) => (s, .error e)
      | (s, .ok qs) => (s, .ok (ps :: qs))

/-- The checks of a chunk's elements in linear order, each with A, B, C and then D. -/
def State.nestElems (s : State) (f : NestFields) : List Nat → State × Except NestFail (List NestElem)
  | [] => (s, .ok [])
  | lin :: rest =>
    let iv := nestVector (nestExts f) lin
    match s.nestReads f iv (nestSources f) with
    | (s, .error e) => (s, .error e)
    | (s, .ok srcs) =>
      let writes := !nestReduces f || (lin + 1) % nestRun f == 0
      let va := s.nestAddr f.d f.tD (if nestReduces f then f.r.toNat else 0) iv
      match if writes then s.nestPlace iv true (resultFormat f).width va else (s, .ok []) with
      | (s, .error e) => (s, .error e)
      | (s, .ok dst) =>
        match s.nestElems f rest with
        | (s, .error e) => (s, .error e)
        | (s, .ok es) => (s, .ok (⟨srcs, if writes then some (va, dst) else none⟩ :: es))

/-! ## Traps and parks (R154) -/

/-- What the record of a failing element carries. -/
def NestFail.trap (e : NestFail) (code info0 : Nat) : Trap :=
  { code, addr := e.va, info0, flags := 16 + (if e.write then 2 else 1)
    info1 := ((e.iv.take 4).zipIdx.map fun (i, j) => i <<< (16 * j)).foldl (· + ·) 0
    aux := e.iv.getD 4 0 }

/-- A failure stops the nest at its recorded chunk: a trap, or a park of the sub-gang. -/
def State.nestFail (s : State) (e : NestFail) : Out :=
  let t := s.modWarp fun w => { w with nest := { w.nest with running := none } }
  match e.bar with
  | .device pa => .fault (.deviceRegister pa)
  | .trap c info => .next (t.trap (e.trap c info))
  | .refused => .next (t.dropHost.trap (e.trap cNotMapped 0))
  | .miss =>
    if t.unresolved then .next (t.trap (e.trap cNotMapped 0))
    else
      let lanes := t.warp.eligible.map fun l => (l, e.va)
      .next (t.parkMiss lanes ((lanes.headD (0, 0)).1) e.va (16 + (if e.write then 2 else 1)))

/-! ## LOOPNEST and its chunks -/

/-- Some access that the issuing warp has sent has not been performed. -/
def State.nestWaits (s : State) : Bool := s.warpPending (s.releasePoint false) s.warp.id

/-- LOOPNEST issues (R153): its nest begins or, where the nest state is that of the LOOPNEST at this PC, goes on from the
recorded chunk (R154). -/
def execLoopnest (f : NestFields) (s : State) : Out :=
  if s.nestWaits then .next (s.stallAt 26)
  else
    let n := s.warp.nest
    let start : Nest :=
      if n.valid ∧ n.pc = s.warp.pc then { n with asked := s.nextSeq, running := some f }
      else { valid := true, pc := s.warp.pc, idx := (nestExts f).map fun _ => 0, acc := nestStart f, asked := s.nextSeq, running := some f }
    .next ((s.bumpSeq.modWarp fun w => { w with nest := start }).post (.loopnestChunk s.warp.id))

/-- The nest has ended: the sub-gang moves past the instruction. -/
def State.nestEnd (s : State) (f : NestFields) : State :=
  s.modWarp fun w => { w with nest := Nest.none }.advance 256 f.drain

/-- The value of a source, from its parts. -/
def State.nestValue (s : State) (t : Format) (ps : List PartAt) : FVal :=
  t.decode (ps.foldl (fun x p => x + s.readSpot p <<< p.at_) 0)

/-- An element's three source values. -/
def State.nestValues (s : State) (f : NestFields) (e : NestElem) : FVal × FVal × FVal :=
  let v (i : Nat) : FVal := match e.srcs[i]? with | some ps => s.nestValue (sourceFormat f) ps | none => .zero false
  (v 0, v 1, v 2)

/-- Some access of the chunk waits for a placement conversion (R339). -/
def State.nestMarked (s : State) (es : List NestElem) : Bool :=
  let held (write : Bool) (p : PartAt) : Bool := match p.spot with | .mem fa _ => s.marked fa p.width write | _ => false
  es.any fun e => e.srcs.any (·.any (held false)) || (match e.dst with | some (_, ps) => ps.any (held true) | none => false)

/-- The writes of a chunk: each element's number as its lane, so that the later element prevails where two write the same
bits (R11, R151). -/
def State.nestWrite (s : State) (outs : List (Nat × List PartAt × Nat)) : State :=
  let parts := outs.zipIdx.flatMap fun ((_, ps, _), i) => ps.map fun p => { p with lane := i }
  s.startStore 0 parts (fun i => match outs[i]? with | some (_, _, v) => v | none => 0) none

/-- The chunk's reads and writes have come to their turn in the scratchpad queues: requests that stood there before are served,
and the writes find room in the slot's queue (R206, R209, R210). -/
def State.nestTurn (s : State) (es : List NestElem) : Bool :=
  let id := s.warp.id
  let before (die core n : Nat) : Bool := (s.slotQueue die core n).any fun r => decide (r.seq < s.warp.nest.asked)
  let waits (p : PartAt) : Bool :=
    match p.spot with
    | .own _ => before id.die id.core s.mySlot
    | .peer rank _ => let b := (s.rankBlock rank).2; before b.die b.core (peerQueue id.core)
    | .mem _ _ => false
  es.all fun e => !e.srcs.any (·.any waits) && !(match e.dst with | some (_, ps) => s.slotBlocks ps | none => false)

/-- One chunk, its checks passed: reads, results, writes, the nest state, and a watchpoint that the writes match (R446). -/
def State.nestRunChunk (s : State) (f : NestFields) (next : Nat) (es : List NestElem) : State :=
  let s := (es.flatMap fun e => e.srcs.flatten).foldl State.nestFetch s
  let vals := es.map (s.nestValues f)
  let acc := if nestReduces f then nestGroup f s.warp.nest.acc (vals.map fun (a, b, _) => (a, b)) else 0
  let outs : List (Nat × List PartAt × Nat) := (es.zip vals).filterMap fun (e, (a, b, c)) =>
    e.dst.map fun (va, ps) =>
      (va, ps, if nestReduces f then ((resultFormat f).round (nestRounding f) (f32.decode acc.toNat)).1 else nestElement f a b c)
  let acc := if outs.isEmpty then acc else nestStart f
  let hit := s.watchOf false true (outs.map fun (va, _, _) => (0, va, (resultFormat f).width))
  let pc := s.warp.pc
  let s := s.nestWrite outs
  let seq := s.nextSeq
  let s := s.bumpSeq.modWarp fun w =>
    { w with nest := { w.nest with idx := nestVector (nestExts f) next, acc, valid := true, asked := seq } }
  let s := if next < nestTotal f then s.post (.loopnestChunk s.warp.id) else s.nestEnd f
  match hit with
  | none => s
  | some (k, lane, a) => s.trapCore pc { code := cWatch, addr := a, info0 := k, lane, flags := 18 }

/-- LOOPNEST_CHUNK: one chunk of a warp's nest, once the warp's earlier accesses have been performed. -/
def execLoopnestChunk (id : WarpId) (s : State) : Out :=
  match s.warpAt? id with
  | none => .next s
  | some w =>
    match w.nest.running with
    | none => .next s
    | some f =>
      let s := s.focus id
      if s.nestWaits then .next (s.post (.loopnestChunk id))
      else
        let lin := nestLinear (nestExts f) s.warp.nest.idx
        match s.nestElems f (nestChunk f lin) with
        | (s, .error e) => s.nestFail e
        | (s, .ok es) =>
          if s.nestMarked es || !s.nestTurn es then .next (s.post (.loopnestChunk id))
          else .next (s.nestRunChunk f (lin + (nestChunk f lin).length) es)

end Sys2Proof.Machine
end

