-- ==== Sys2Proof/Machine/Platform.lean ====
section
/-! DEFINITION. The security controller: keys (R449 to R451), configuration records (R452 to R456), bring-up (R457 to R459),
extension handlers (R281) and attestation (R460). -/

namespace Sys2Proof.Machine

/-! ## Bytes of records -/

/-- A little-endian number in a byte string. -/
def leAt (b : List Byte) (off n : Nat) : Nat := ofBytes ((b.drop off).take n)

def zeroBytes (b : List Byte) (off n : Nat) : Bool := ((b.drop off).take n).all (· == 0)

/-- A measurement takes in one more string (R454). -/
def measure (m x : List Byte) : List Byte := Config.sha256 (m ++ Config.sha256 x)

/-- The signature of a record: its last 64 bytes. -/
def signedByPlovem (b : List Byte) : Bool :=
  decide (64 ≤ b.length) && Config.plovemSignatureOk (b.take (b.length - 64)) (b.drop (b.length - 64))

def Platform.fail (p : Platform) : Platform := { p with recovery := true }

def State.modPlatform (s : State) (g : Platform → Platform) : State := { s with platform := g s.platform }

/-- Step 1 of R457 ends: the controller's firmware has been verified and measured. -/
def Platform.enterStep2 (p : Platform) : Platform :=
  if p.stage = 1 then { p with stage := 2, firmM := measure p.firmM Config.controllerFirmware } else p

/-! ## Reset -/

/-- PACKAGE_RESET: the device is as after power-on, in step 1 of R457. What lies outside the device, its device ID, and the
schedule of the model stay. -/
def execPackageReset (s : State) : Out :=
  .next { State.reset with
    device := s.device, hostMem := s.hostMem, peerMem := s.peerMem, sent := s.sent, inputs := s.inputs, turns := s.turns
    free := s.free, timer := s.timer }

/-! ## Configuration records (R452 to R456) -/

/-- The rules of a type's payload. -/
def payloadOk (type : Nat) (payload : List Byte) : Bool :=
  match type with
  | 1 => true
  | 2 => (match Config.islandPayload payload with
    | some l => l.length == 36 && l.all fun (lo, hi, clk) =>
        decide (600 ≤ lo) && decide (lo ≤ hi) && decide (hi ≤ 800) && lo % 5 == 0 && hi % 5 == 0 && decide (clk ≤ 1700)
    | none => false)
  | _ => (match Config.thermalPayload payload with
    | some l => l.length == 36 && l.all fun t => decide (85 ≤ t) && decide (t ≤ 110)
    | none => false)

/-- What an accepted record of a type sets. -/
def Platform.apply (p : Platform) (type : Nat) (payload : List Byte) : Platform :=
  match type with
  | 1 => { p with features := payload }
  | 2 =>
    let l := (Config.islandPayload payload).getD []
    { p with islands := l.zipIdx.foldl (fun t ((lo, hi, clk), i) =>
        tmod Island.reset t i fun x => { x with floor := lo, ceiling := hi, clock := clk }) p.islands }
  | _ =>
    let l := (Config.thermalPayload payload).getD []
    { p with islands := l.zipIdx.foldl (fun t (c, i) => tmod Island.reset t i fun x => { x with tlim := c }) p.islands }

/-- CONFIGURATION_RECORD: the checks of R453 in order. -/
def execConfigurationRecord (b : List Byte) (s : State) : Out :=
  let p := s.platform.enterStep2
  let type := leAt b 0 2
  let length := leAt b 2 2
  let seq := leAt b 4 4
  let payload := (b.drop 8).take length
  let ok := signedByPlovem b && (type == 1 || type == 2 || type == 3) && decide (length ≤ 4032) && b.length == length + 72 &&
    (!p.anySeq || decide (p.lastSeq < seq)) && payloadOk type payload
  if 7 ≤ p.stage ∨ p.stopped then .next { s with sent := s.sent ++ [.rejected type] }
  else if !ok then .next { s with platform := p.fail, sent := s.sent ++ [.rejected type] }
  else
    let p := { p with recovery := false, lastSeq := seq, anySeq := true, configM := measure p.configM b }
    .next { s with platform := p.apply type payload }

/-! ## The boot image (R458, R459) -/

/-- The checks of R458. -/
def imageFits (b : List Byte) : Bool :=
  let length := leAt b 32 4
  let load := leAt b 8 8
  let code := 8 * length
  signedByPlovem b && leAt b 0 4 == 0x5653_4256 && leAt b 4 2 == 1 && zeroBytes b 6 2 && zeroBytes b 36 28 &&
  decide (64 ≤ length) && decide (length ≤ 2 ^ 26) && length % 32 == 0 && b.length == 128 + length &&
  decide (leAt b 16 8 < code) && leAt b 16 8 % 64 == 0 && decide (leAt b 24 8 < code) && leAt b 24 8 % 64 == 0 &&
  load % 2 ^ 19 == 0 && decide (load + code ≤ dieBits)

/-- The physical address of a die's copy. -/
def bootCopy (load die : Nat) : Nat := die * 2 ^ 41 + load

/-- A Vesper core as R459 starts it. -/
def State.startVesper (s : State) (die v load entry tvec : Nat) : State :=
  let copy := bootCopy load die
  let at_ (o : Nat) : DWord := BitVec.ofNat 64 (bootBase + copy + o)
  let sregs : List (Nat × Nat) :=
    if v = 0 then [(0, die), (1, s.device), (2, copy % 2 ^ 32), (3, copy / 2 ^ 32)] else [(0, die), (1, s.device), (2, v)]
  let quad : Quad :=
    { pc := if v = 0 then at_ entry else at_ tvec, ctr := 0, live := 0b1111, wait := if v = 0 then .none else .vesperHalt
      operand := if v = 0 then 0 else 2, yielded := false }
  let w : Warp :=
    { Warp.idle with
      id := { die, core := 64 + v, block := 0, warp := 0 }, live := true
      info := { width := 4, vregs := 256, kregs := 128, process := 0, launch := 0, maxPrio := 0, start := s.nextSeq, spawned := false }
      quads := [quad], regs := RegFile.zero.setAll (sregs.map fun (n, x) => ⟨.s n, 0, x % 2 ^ 32⟩), user := false }
  let s := s.modCore die (64 + v) fun c => { c with ves := { VesperRegs.reset with tvec := at_ tvec, started := true } }
  { s with others := w :: s.others.filter (fun u => u.id != w.id), nextSeq := s.nextSeq + 1 }

/-- VESPER_BOOT_IMAGE: steps 3 to 5 of R457. -/
def execVesperBootImage (b : List Byte) (s : State) : Out :=
  let p := s.platform.enterStep2
  if 2 < p.stage ∨ p.stopped then .next { s with sent := s.sent ++ [.rejected 0x100] }
  else if !imageFits b then .next { s with platform := p.fail, sent := s.sent ++ [.rejected 0x100] }
  else
    let length := leAt b 32 4
    let (load, entry, tvec) := (leAt b 8 8, leAt b 16 8, leAt b 24 8)
    let p := { p with stage := 6, recovery := false, firmM := measure p.firmM b, load, entry, tvec }
    let s := { s with platform := p }
    let code := (b.drop 64).take length
    let s := s.survivors.foldl (fun s d =>
      { s with mem := code.zipIdx.foldl (fun m (x, i) => tput 0 m (bootCopy load d / 8 + i) x) s.mem }) s
    .next (s.survivors.foldl (fun s d => (List.range 4).foldl (fun s v => s.startVesper d v load entry tvec) s) s)

/-- EXTENSION_HANDLER_LOAD: in step 6. -/
def execExtensionHandlerLoad (slot : Nat) (code sig : List Byte) (s : State) : Out :=
  let p := s.platform
  if p.stage ≠ 6 ∨ p.recovery ∨ p.stopped ∨ slot < 24 ∨ 31 < slot then .next { s with sent := s.sent ++ [.rejected slot] }
  else if !Config.plovemSignatureOk code sig then .next { s with platform := p.fail, sent := s.sent ++ [.rejected slot] }
  else .next { s with platform := { p with slots := tput none p.slots slot (some code), firmM := measure p.firmM (code ++ sig) } }

/-! ## Tenant keys (R450, R451) -/

/-- TENANT_KEY_REQUEST: the lowest handle that names no key. -/
def execTenantKeyRequest (request key : List Byte) (pid : Nat) (s : State) : Out :=
  match Config.tenantSignatureOk request, ((List.range 4096).map (· + 1)).find? fun h => (tget none s.platform.keys h).isNone with
  | true, some h =>
    let s := s.modPlatform fun p => { p with keys := tput none p.keys h (some ⟨key, true⟩) }
    .next { s with
      procs := tmod Process.reset s.procs pid fun p => { p with keyHandle := h }
      sent := s.sent ++ [.keyHandle h] }
  | _, _ => .next { s with sent := s.sent ++ [.rejected 0x200] }

/-- KEY_HANDLE_REVOKE: accesses to ENC pages under the handle raise PERM from then on. -/
def execKeyHandleRevoke (handle : Nat) (s : State) : Out :=
  .next (s.modPlatform fun p =>
    { p with keys := tmod none p.keys handle (Option.map fun k => { k with valid := false }) })

/-! ## Attestation (R460) -/

/-- The first 128 bytes of a report. -/
def State.reportBody (s : State) (nonce : List Byte) (pid : Nat) : List Byte :=
  nonce ++ s.platform.firmM ++ s.platform.configM ++ bytesOf 2 (s.procAt pid).keyHandle ++ bytesOf 2 s.device ++ List.replicate 28 0

/-- ATTESTATION_REQUEST. -/
def execAttestationRequest (nonce : List Byte) (pid : Nat) (s : State) : Out :=
  let s := { s with platform := s.platform.enterStep2 }
  if nonce.length ≠ 32 then .next { s with sent := s.sent ++ [.rejected 0x300] }
  else
    let body := s.reportBody nonce pid
    .next { s with sent := s.sent ++ [.report (body ++ Config.identitySign body)] }

/-! ## Temperature (R456) -/

def State.modIsland (s : State) (i : Nat) (g : Island → Island) : State :=
  s.modPlatform fun p => { p with islands := tmod Island.reset p.islands i g }

/-- THERMAL_THROTTLE: a sixteenth of the clock for each 2 °C above T_lim, to at most half; compute islands only. -/
def execThermalThrottle (island celsius : Nat) (s : State) : Out :=
  if 32 ≤ island then .next s
  else .next (s.modIsland island fun x => { x with drop := min 8 ((celsius - x.tlim) / 2) })

/-- THERMAL_SHUTDOWN: at T_lim + 15 °C the package stops. -/
def execThermalShutdown (island celsius : Nat) (s : State) : Out :=
  if celsius < (tget Island.reset s.platform.islands island).tlim + 15 then .next s
  else .next (s.modPlatform fun p => { p with stopped := true })

end Sys2Proof.Machine
end

