-- ==== Sys2Proof/Machine/Dispatch.lean ====
section
/-! DEFINITION. The meaning of every operation: one arm for each constructor of Instr. -/

namespace Sys2Proof.Machine

def exec (i : Instr) (s : State) : Host.Outcome State Fault Refusal :=
  match i with
  | .nop f => Sys2Proof.Machine.execNop f s
  | .bra f => Sys2Proof.Machine.execBra f s
  | .brx f => Sys2Proof.Machine.execBrx f s
  | .call f => Sys2Proof.Machine.execCall f s
  | .callx f => Sys2Proof.Machine.execCallx f s
  | .ret f => Sys2Proof.Machine.execRet f s
  | .exit_ f => Sys2Proof.Machine.execExit f s
  | .yield_ f => Sys2Proof.Machine.execYield f s
  | .loop f => Sys2Proof.Machine.execLoop f s
  | .enter f => Sys2Proof.Machine.execEnter f s
  | .leave f => Sys2Proof.Machine.execLeave f s
  | .iadd f => Sys2Proof.Machine.execIadd f s
  | .isub f => Sys2Proof.Machine.execIsub f s
  | .iadd3 f => Sys2Proof.Machine.execIadd3 f s
  | .iaddc f => Sys2Proof.Machine.execIaddc f s
  | .imul f => Sys2Proof.Machine.execImul f s
  | .imulhi f => Sys2Proof.Machine.execImulhi f s
  | .imad f => Sys2Proof.Machine.execImad f s
  | .imadw f => Sys2Proof.Machine.execImadw f s
  | .idiv f => Sys2Proof.Machine.execIdiv f s
  | .imin f => Sys2Proof.Machine.execImin f s
  | .imax f => Sys2Proof.Machine.execImax f s
  | .iabs f => Sys2Proof.Machine.execIabs f s
  | .ineg f => Sys2Proof.Machine.execIneg f s
  | .isad f => Sys2Proof.Machine.execIsad f s
  | .dot4 f => Sys2Proof.Machine.execDot4 f s
  | .mov f => Sys2Proof.Machine.execMov f s
  | .movi f => Sys2Proof.Machine.execMovi f s
  | .movx f => Sys2Proof.Machine.execMovx f s
  | .sel f => Sys2Proof.Machine.execSel f s
  | .xset f => Sys2Proof.Machine.execXset f s
  | .xadd f => Sys2Proof.Machine.execXadd f s
  | .rdspec f => Sys2Proof.Machine.execRdspec f s
  | .p2v f => Sys2Proof.Machine.execP2v f s
  | .v2p f => Sys2Proof.Machine.execV2p f s
  | .and_ f => Sys2Proof.Machine.execAnd f s
  | .or_ f => Sys2Proof.Machine.execOr f s
  | .xor_ f => Sys2Proof.Machine.execXor f s
  | .andn f => Sys2Proof.Machine.execAndn f s
  | .not_ f => Sys2Proof.Machine.execNot f s
  | .tern f => Sys2Proof.Machine.execTern f s
  | .shl f => Sys2Proof.Machine.execShl f s
  | .shr f => Sys2Proof.Machine.execShr f s
  | .sar f => Sys2Proof.Machine.execSar f s
  | .rot f => Sys2Proof.Machine.execRot f s
  | .dsh f => Sys2Proof.Machine.execDsh f s
  | .bfx f => Sys2Proof.Machine.execBfx f s
  | .bfi f => Sys2Proof.Machine.execBfi f s
  | .popc f => Sys2Proof.Machine.execPopc f s
  | .clz f => Sys2Proof.Machine.execClz f s
  | .ctz f => Sys2Proof.Machine.execCtz f s
  | .brev f => Sys2Proof.Machine.execBrev f s
  | .pack f => Sys2Proof.Machine.execPack f s
  | .unpk f => Sys2Proof.Machine.execUnpk f s
  | .ipred f => Sys2Proof.Machine.execIpred f s
  | .imask f => Sys2Proof.Machine.execImask f s
  | .pcomb f => Sys2Proof.Machine.execPcomb f s
  | .icvt f => Sys2Proof.Machine.execIcvt f s
  | .fadd f => Sys2Proof.Machine.execFadd f s
  | .fsub f => Sys2Proof.Machine.execFsub f s
  | .fmul f => Sys2Proof.Machine.execFmul f s
  | .ffma f => Sys2Proof.Machine.execFfma f s
  | .fmin f => Sys2Proof.Machine.execFmin f s
  | .fmax f => Sys2Proof.Machine.execFmax f s
  | .fpred f => Sys2Proof.Machine.execFpred f s
  | .fmask f => Sys2Proof.Machine.execFmask f s
  | .fclass f => Sys2Proof.Machine.execFclass f s
  | .frnd f => Sys2Proof.Machine.execFrnd f s
  | .fscale f => Sys2Proof.Machine.execFscale f s
  | .redf f => Sys2Proof.Machine.execRedf f s
  | .loopnest f => Sys2Proof.Machine.execLoopnest f s
  | .loopnestChunk w => Sys2Proof.Machine.execLoopnestChunk w s
  | .f2f f => Sys2Proof.Machine.execF2f f s
  | .f2i f => Sys2Proof.Machine.execF2i f s
  | .i2f f => Sys2Proof.Machine.execI2f f s
  | .rcp f => Sys2Proof.Machine.execRcp f s
  | .rsq f => Sys2Proof.Machine.execRsq f s
  | .sqrt f => Sys2Proof.Machine.execSqrt f s
  | .ex2 f => Sys2Proof.Machine.execEx2 f s
  | .exp f => Sys2Proof.Machine.execExp f s
  | .lg2 f => Sys2Proof.Machine.execLg2 f s
  | .log f => Sys2Proof.Machine.execLog f s
  | .sin f => Sys2Proof.Machine.execSin f s
  | .cos f => Sys2Proof.Machine.execCos f s
  | .tanh f => Sys2Proof.Machine.execTanh f s
  | .sigm f => Sys2Proof.Machine.execSigm f s
  | .xlane f => Sys2Proof.Machine.execXlane f s
  | .pgath f => Sys2Proof.Machine.execPgath f s
  | .bcast f => Sys2Proof.Machine.execBcast f s
  | .redi f => Sys2Proof.Machine.execRedi f s
  | .match_ f => Sys2Proof.Machine.execMatch f s
  | .lea f => Sys2Proof.Machine.execLea f s
  | .aligndn f => Sys2Proof.Machine.execAligndn f s
  | .alignup f => Sys2Proof.Machine.execAlignup f s
  | .alcls f => Sys2Proof.Machine.execAlcls f s
  | .bitofs f => Sys2Proof.Machine.execBitofs f s
  | .b2bit f => Sys2Proof.Machine.execB2bit f s
  | .bit2b f => Sys2Proof.Machine.execBit2b f s
  | .pdiff f => Sys2Proof.Machine.execPdiff f s
  | .ld f => Sys2Proof.Machine.execLd f s
  | .st f => Sys2Proof.Machine.execSt f s
  | .ldk f => Sys2Proof.Machine.execLdk f s
  | .stk f => Sys2Proof.Machine.execStk f s
  | .ldx f => Sys2Proof.Machine.execLdx f s
  | .stx f => Sys2Proof.Machine.execStx f s
  | .pref f => Sys2Proof.Machine.execPref f s
  | .cctl f => Sys2Proof.Machine.execCctl f s
  | .fence f => Sys2Proof.Machine.execFence f s
  | .fenceEng f => Sys2Proof.Machine.execFenceEng f s
  | .migr f => Sys2Proof.Machine.execMigr f s
  | .lds f => Sys2Proof.Machine.execLds f s
  | .sts f => Sys2Proof.Machine.execSts f s
  | .ldsc f => Sys2Proof.Machine.execLdsc f s
  | .stsc f => Sys2Proof.Machine.execStsc f s
  | .atoms f => Sys2Proof.Machine.execAtoms f s
  | .syncset f => Sys2Proof.Machine.execSyncset f s
  | .syncadd f => Sys2Proof.Machine.execSyncadd f s
  | .syncwait f => Sys2Proof.Machine.execSyncwait f s
  | .syncwaitWake w => Sys2Proof.Machine.execSyncwaitWake w s
  | .synctest f => Sys2Proof.Machine.execSynctest f s
  | .barArrive f => Sys2Proof.Machine.execBarArrive f s
  | .barWait f => Sys2Proof.Machine.execBarWait f s
  | .barSync f => Sys2Proof.Machine.execBarSync f s
  | .cbarArrive f => Sys2Proof.Machine.execCbarArrive f s
  | .clusterBarrierArrival launch cluster barrier rank warp => Sys2Proof.Machine.execClusterBarrierArrival launch cluster barrier rank warp s
  | .cbarWait f => Sys2Proof.Machine.execCbarWait f s
  | .atom f => Sys2Proof.Machine.execAtom f s
  | .red f => Sys2Proof.Machine.execRed f s
  | .atomk f => Sys2Proof.Machine.execAtomk f s
  | .atomx f => Sys2Proof.Machine.execAtomx f s
  | .handlerRun r => Sys2Proof.Machine.execHandlerRun r s
  | .atomicAcknowledgement r res => Sys2Proof.Machine.execAtomicAcknowledgement r res s
  | .msg f => Sys2Proof.Machine.execMsg f s
  | .msgRetry op => Sys2Proof.Machine.execMsgRetry op s
  | .cpy f => Sys2Proof.Machine.execCpy f s
  | .cpyMm f => Sys2Proof.Machine.execCpyMm f s
  | .gather f => Sys2Proof.Machine.execGather f s
  | .scatter f => Sys2Proof.Machine.execScatter f s
  | .copyCommandStart die core engine => Sys2Proof.Machine.execCopyCommandStart die core engine s
  | .arrivalUnit op unit => Sys2Proof.Machine.execArrivalUnit op unit s
  | .copyOperationEnd op => Sys2Proof.Machine.execCopyOperationEnd op s
  | .cancelHonoured op => Sys2Proof.Machine.execCancelHonoured op s
  | .engineMissResume op resolved => Sys2Proof.Machine.execEngineMissResume op resolved s
  | .fwait f => Sys2Proof.Machine.execFwait f s
  | .ftest f => Sys2Proof.Machine.execFtest f s
  | .fcancel f => Sys2Proof.Machine.execFcancel f s
  | .fmov f => Sys2Proof.Machine.execFmov f s
  | .mma f => Sys2Proof.Machine.execMma f s
  | .mmaSm f => Sys2Proof.Machine.execMmaSm f s
  | .accld f => Sys2Proof.Machine.execAccld f s
  | .accst f => Sys2Proof.Machine.execAccst f s
  | .accz f => Sys2Proof.Machine.execAccz f s
  | .accside f => Sys2Proof.Machine.execAccside f s
  | .quant f => Sys2Proof.Machine.execQuant f s
  | .deq f => Sys2Proof.Machine.execDeq f s
  | .matrixCommandStart die core engine => Sys2Proof.Machine.execMatrixCommandStart die core engine s
  | .matrixCommandEnd die core engine => Sys2Proof.Machine.execMatrixCommandEnd die core engine s
  | .pldef f => Sys2Proof.Machine.execPldef f s
  | .plset f => Sys2Proof.Machine.execPlset f s
  | .ldPl f => Sys2Proof.Machine.execLdPl f s
  | .plconv f => Sys2Proof.Machine.execPlconv f s
  | .plwait f => Sys2Proof.Machine.execPlwait f s
  | .plqry f => Sys2Proof.Machine.execPlqry f s
  | .pldrop f => Sys2Proof.Machine.execPldrop f s
  | .joinRequest pid entry member gen cur demanded => Sys2Proof.Machine.execJoinRequest pid entry member gen cur demanded s
  | .sourceSectorRead pid entry member sector => Sys2Proof.Machine.execSourceSectorRead pid entry member sector s
  | .destinationSectorWritten pid entry member sector => Sys2Proof.Machine.execDestinationSectorWritten pid entry member sector s
  | .conversionComplete pid entry => Sys2Proof.Machine.execConversionComplete pid entry s
  | .conversionAbort pid entry cause => Sys2Proof.Machine.execConversionAbort pid entry cause s
  | .placementTimeout pid entry => Sys2Proof.Machine.execPlacementTimeout pid entry s
  | .spawn f => Sys2Proof.Machine.execSpawn f s
  | .launch f => Sys2Proof.Machine.execLaunch f s
  | .produce f => Sys2Proof.Machine.execProduce f s
  | .await f => Sys2Proof.Machine.execAwait f s
  | .awaitWake w => Sys2Proof.Machine.execAwaitWake w s
  | .sleep f => Sys2Proof.Machine.execSleep f s
  | .sleepWake w => Sys2Proof.Machine.execSleepWake w s
  | .setprio f => Sys2Proof.Machine.execSetprio f s
  | .trap f => Sys2Proof.Machine.execTrap f s
  | .rte f => Sys2Proof.Machine.execRte f s
  | .sysrd f => Sys2Proof.Machine.execSysrd f s
  | .syswr f => Sys2Proof.Machine.execSyswr f s
  | .halt f => Sys2Proof.Machine.execHalt f s
  | .wakeEvent die vcore => Sys2Proof.Machine.execWakeEvent die vcore s
  | .tlbinvInv f => Sys2Proof.Machine.execTlbinvInv f s
  | .tlbinvCommit f => Sys2Proof.Machine.execTlbinvCommit f s
  | .amsg f => Sys2Proof.Machine.execAmsg f s
  | .arecv f => Sys2Proof.Machine.execArecv f s
  | .bkpt f => Sys2Proof.Machine.execBkpt f s
  | .pmark f => Sys2Proof.Machine.execPmark f s
  | .longLatencyResult w entry => Sys2Proof.Machine.execLongLatencyResult w entry s
  | .parkReplay w resolved => Sys2Proof.Machine.execParkReplay w resolved s
  | .engineWatchReport w engine handle pid vaddr mask time => Sys2Proof.Machine.execEngineWatchReport w engine handle pid vaddr mask time s
  | .homeWatchReport die pa mask kind slot srcDev srcDie pid => Sys2Proof.Machine.execHomeWatchReport die pa mask kind slot srcDev srcDie pid s
  | .samplingCycle die => Sys2Proof.Machine.execSamplingCycle die s
  | .stopRequest die core dbgctl => Sys2Proof.Machine.execStopRequest die core dbgctl s
  | .launchIntake pid queue => Sys2Proof.Machine.execLaunchIntake pid queue s
  | .clusterDispatch launch cluster bay cores => Sys2Proof.Machine.execClusterDispatch launch cluster bay cores s
  | .warpPromotion w => Sys2Proof.Machine.execWarpPromotion w s
  | .rotation launch cluster => Sys2Proof.Machine.execRotation launch cluster s
  | .clusterRestore launch cluster die bay cores => Sys2Proof.Machine.execClusterRestore launch cluster die bay cores s
  | .blockRetirement block => Sys2Proof.Machine.execBlockRetirement block s
  | .gets r => Sys2Proof.Machine.execGets r s
  | .getm r => Sys2Proof.Machine.execGetm r s
  | .putm die line => Sys2Proof.Machine.execPutm die line s
  | .homeStore r => Sys2Proof.Machine.execHomeStore r s
  | .recall die line keep => Sys2Proof.Machine.execRecall die line keep s
  | .lineInvalidation die line => Sys2Proof.Machine.execLineInvalidation die line s
  | .transactionComplete line => Sys2Proof.Machine.execTransactionComplete line s
  | .forwardedWrite line mask value dest => Sys2Proof.Machine.execForwardedWrite line mask value dest s
  | .submittedMessage grp m => Sys2Proof.Machine.execSubmittedMessage grp m s
  | .invalidate die m => Sys2Proof.Machine.execInvalidate die m s
  | .translationInvalidation die agent seq lines all => Sys2Proof.Machine.execTranslationInvalidation die agent seq lines all s
  | .commit die m => Sys2Proof.Machine.execCommit die m s
  | .angelusAck grp seq from_ => Sys2Proof.Machine.execAngelusAck grp seq from_ s
  | .pageflush grp die m => Sys2Proof.Machine.execPageflush grp die m s
  | .user grp die m => Sys2Proof.Machine.execUser grp die m s
  | .membership grp die m => Sys2Proof.Machine.execMembership grp die m s
  | .heartbeat die => Sys2Proof.Machine.execHeartbeat die s
  | .memberRemoval die => Sys2Proof.Machine.execMemberRemoval die s
  | .selfRemoval die => Sys2Proof.Machine.execSelfRemoval die s
  | .sequencerTakeover grp => Sys2Proof.Machine.execSequencerTakeover grp s
  | .faultRecordEnqueue die => Sys2Proof.Machine.execFaultRecordEnqueue die s
  | .corectlHalt die core => Sys2Proof.Machine.execCorectlHalt die core s
  | .haltCompletion die core => Sys2Proof.Machine.execHaltCompletion die core s
  | .corectlResume die core => Sys2Proof.Machine.execCorectlResume die core s
  | .corectlDiscard die core slot whole => Sys2Proof.Machine.execCorectlDiscard die core slot whole s
  | .contextSave die cmd => Sys2Proof.Machine.execContextSave die cmd s
  | .contextRestore die cmd => Sys2Proof.Machine.execContextRestore die cmd s
  | .fullCheckpoint die desc => Sys2Proof.Machine.execFullCheckpoint die desc s
  | .incrementalCheckpoint die desc => Sys2Proof.Machine.execIncrementalCheckpoint die desc s
  | .wake die mask => Sys2Proof.Machine.execWake die mask s
  | .suproot die value => Sys2Proof.Machine.execSuproot die value s
  | .errorWindowEnd link wavelength => Sys2Proof.Machine.execErrorWindowEnd link wavelength s
  | .wavelengthRemoval link wavelength => Sys2Proof.Machine.execWavelengthRemoval link wavelength s
  | .trainingAttemptEnd link wavelength passed => Sys2Proof.Machine.execTrainingAttemptEnd link wavelength passed s
  | .trainingRetry link wavelength => Sys2Proof.Machine.execTrainingRetry link wavelength s
  | .handBack link wavelength at_ => Sys2Proof.Machine.execHandBack link wavelength at_ s
  | .linkFailure link => Sys2Proof.Machine.execLinkFailure link s
  | .planeDrainTimeout plane => Sys2Proof.Machine.execPlaneDrainTimeout plane s
  | .planeRejoin plane => Sys2Proof.Machine.execPlaneRejoin plane s
  | .leaseExpiry hostId => Sys2Proof.Machine.execLeaseExpiry hostId s
  | .doorbell hostId value => Sys2Proof.Machine.execDoorbell hostId value s
  | .uncorrectableError pa => Sys2Proof.Machine.execUncorrectableError pa s
  | .flit link wavelength f corrected uncorrectable => Sys2Proof.Machine.execFlit link wavelength f corrected uncorrectable s
  | .negativeAcknowledgement link first => Sys2Proof.Machine.execNegativeAcknowledgement link first s
  | .flitAcknowledgement link upTo => Sys2Proof.Machine.execFlitAcknowledgement link upTo s
  | .hostRequest hostId op cache => Sys2Proof.Machine.execHostRequest hostId op cache s
  | .leaseRenewal hostId => Sys2Proof.Machine.execLeaseRenewal hostId s
  | .fabricRequest srcDev tag op => Sys2Proof.Machine.execFabricRequest srcDev tag op s
  | .packageReset => Sys2Proof.Machine.execPackageReset s
  | .configurationRecord bytes => Sys2Proof.Machine.execConfigurationRecord bytes s
  | .vesperBootImage bytes => Sys2Proof.Machine.execVesperBootImage bytes s
  | .extensionHandlerLoad slot code sig => Sys2Proof.Machine.execExtensionHandlerLoad slot code sig s
  | .tenantKeyRequest request key pid => Sys2Proof.Machine.execTenantKeyRequest request key pid s
  | .keyHandleRevoke handle => Sys2Proof.Machine.execKeyHandleRevoke handle s
  | .rangeTableUpdate index entry => Sys2Proof.Machine.execRangeTableUpdate index entry s
  | .attestationRequest nonce pid => Sys2Proof.Machine.execAttestationRequest nonce pid s
  | .thermalThrottle island celsius => Sys2Proof.Machine.execThermalThrottle island celsius s
  | .thermalShutdown island celsius => Sys2Proof.Machine.execThermalShutdown island celsius s

end Sys2Proof.Machine
end

