-- ==== Sys2Proof/Machine/Schedule.lean ====
section
/-! DEFINITION. Choosing what happens next: one issue (R59, R157 to R160), warps (R187), and the turns of the schedule. -/

namespace Sys2Proof.Machine

/-! ## One issue -/

/-- The issuing warp parks at its instruction or at its fetch (R363): the record goes to the fault queue of its die. -/
def State.park (s : State) (kind : WaitKind) (operand stall : Nat) (lanes : List (Nat × Nat)) : State :=
  s.modWarp fun w =>
    let record : Replay := { pc := w.pc, lanes, park := w.resuming.all (·.park), unresolved := false, slot := 0 }
    { (w.modGang fun q => { q with wait := kind, operand }) with stall, parked := some record, resuming := none }

/-- A fetch that meets a page miss parks the sub-gang at its PC (R363). -/
def State.parkFetch (s : State) (pc : Nat) : State :=
  let lanes := s.warp.eligible
  let r := s.missRecord (BitVec.ofNat 64 pc) { code := 0, addr := pc, lane := lanes.headD 0, info0 := maskOf lanes, flags := 4 }
  (s.park .pagePark 0 8 []).enqueueRecord s.warp.id.die ⟨r, none, some s.warp.id, false⟩

/-- The stall reasons of an instruction that waits at issue. -/
def stallReasons : List Nat := [2, 10, 11, 12, 13, 14, 15, 16, 17, 18, 26, 27, 28]

/-- Entries of the scoreboard: an instruction that has no register result takes none (R55). -/
def Warp.entries (w : Warp) : List ScoreEntry := w.score.filter fun e => !e.covers.isEmpty

/-- What a warp that waits on the scoreboard is blamed for (R55, R442): the PC of the matching entry, and of the oldest when
the scoreboard is full. Of several that match, the oldest gives the PC: the model's choice (log entry 52). -/
def State.blameFor (s : State) (i : Instr) : DWord :=
  let names := s.touched i
  match (s.warp.score.find? fun e => e.covers.any names.contains).or s.warp.entries.head? with
  | some e => e.pc
  | none => 0

/-- The warp waits on the scoreboard. -/
def State.stallScore (s : State) (i : Instr) : State := s.modWarp fun w => { w with stall := 2, blame := s.blameFor i }

/-- The issuing warp's next instruction: decoded, checked and performed. The scoreboard of R55 has 32 entries, and an
instruction that finds it full waits. -/
def State.issueWord (s : State) (x : Nat) : Out :=
  match decode (BitVec.ofNat 256 x) with
  | .error _ => .next (s.trap { code := cIllegalOp, info0 := x % 2 ^ 64 })
  | .ok i =>
    match s.warp.decodeTrap i with
    | some t => .next (s.trap t)
    | none =>
      if s.scoreWait i then .next (s.stallScore i)
      else match exec i s with
        | .next t => if t.warp.id = s.warp.id ∧ 32 < t.warp.entries.length ∧ s.warp.entries.length < t.warp.entries.length then .next (s.stallScore i) else .next t
        | o => o

/-- Fetch and issue for the chosen sub-gang. -/
def State.issueFetch (s : State) : Out :=
  let pc := s.warp.pc.toNat
  if s.ackWait s.warp.id then .next (s.stallAt 17)
  else if s.mustHold s.warp then
    .next (s.modWarp fun w => { w with stall := 2, blame := match w.score with | e :: _ => e.pc | [] => 0 })
  else match s.fetch s.warp pc with
  | (s, .trap c) => .next (s.trap { code := c, addr := pc, flags := 4 })
  | (s, .miss) => .next (s.parkFetch pc)
  | (s, .fill) => .next (s.stallAt 10)
  | (s, .bits x) => s.issueWord x

/-- The warp is held: by its core's halt, its own, or a park of the instruction it is at. -/
def State.held (s : State) (w : Warp) : Bool :=
  let c := s.coreAt w.id.die w.id.core
  w.halted || w.nest.running.isSome || !s.alive w.id.die || s.platform.stopped || (s.blockAt w.id.block).held ||
  (c.trapped && c.grace == 0) || c.halt == .halted || c.ves.down ||
  (match w.parked with
   | some r => if r.park then (w.gang.any fun q => match w.quads[q]? with | some u => s.waits w u | none => false)
               else true
   | none => false)

/-- An acquire that a halt completed takes effect before the warp issues again (R260). -/
def State.payAcquire (s : State) : State :=
  match s.warp.owed with
  | some sc => (s.acquireAt s.warp.id.die s.warp.id.core sc).modWarp fun w => { w with owed := none }
  | none => s

/-- A selection point (R157 to R160): the merging of sub-gangs costs the warp a cycle (R158). -/
def State.issueSelect (s : State) : Out :=
  let merge := s.regangs s.warp
  let s := s.modWarp s.select
  if s.warp.gang.isEmpty then .next s
  else if merge then .next (s.stallAt 11)
  else s.issueFetch

/-- The issuing warp's next issue: a pending trap code first (R417), then replay records (R428), then the parked
instruction, then the chosen sub-gang. -/
def State.issueWarp (s : State) : Out :=
  let s := (s.modWarp fun w => { w with stall := 0 }).payAcquire
  match s.warp.trapCode with
  | some c =>
    .next ((s.modWarp fun w => { (if w.gang.isEmpty then s.select w else w) with trapCode := none }).trap { code := c })
  | none =>
    match s.warp.gang, s.warp.replays with
    | [], r :: rs => (s.modWarp fun w => { w with replays := rs, resuming := some r }).issueFetch
    | [], [] => s.issueSelect
    | _, _ =>
      match s.warp.parked with
      | some r =>
        if r.lanes.isEmpty then
          if r.unresolved then .next ((s.modWarp fun w => { w with parked := none }).trap { code := cNotMapped, addr := r.pc.toNat, flags := 4 })
          else (s.modWarp fun w => { w with parked := none }).issueFetch
        else (s.modWarp fun w => { w with parked := none, resuming := some r }).issueFetch
      | none => s.issueFetch

/-! ## Choosing a warp (R187) -/

/-- The scheduler of a warp (R186). -/
def Warp.sched (w : Warp) : Nat := w.id.warp % 4

def Warp.effPrio (w : Warp) : Nat := min 7 (w.prio + (match w.promoted with | some p => p.2 | none => 0))

/-- The order of R187. -/
def State.picks (s : State) (a b : Warp) : Bool :=
  let last := s.issuedNow
  if a.effPrio != b.effPrio then decide (b.effPrio < a.effPrio)
  else match a.promoted, b.promoted with
    | some x, some y => decide (x.1 < y.1)
    | some _, none => true
    | none, some _ => false
    | none, none => if last a != last b then last a else decide (a.info.start < b.info.start)

def insertWarp (s : State) (w : Warp) : List Warp → List Warp
  | [] => [w]
  | x :: xs => if s.picks w x then w :: x :: xs else x :: insertWarp s w xs

/-- Nothing of R159, no park and no halt holds the warp's chosen sub-gang. -/
def State.unheld (s : State) (w : Warp) : Bool :=
  !s.held w && (w.gang ≠ [] || !w.replays.isEmpty || w.trapCode.isSome || !(s.runnable w).isEmpty)

/-- The warps that may issue, in the order in which they are tried. -/
def State.candidates (s : State) (p : Warp → Bool) : List Warp :=
  ((s.warps.filter fun w => p w && s.unheld w).foldl (fun l w => insertWarp s w l) [])

/-- After an issue: the scheduler remembers its warp, promotion and the wait for it end (R188), and so does a block's wait
(R191). The free choices of the next issue are others (R54). -/
def State.noteIssue (s : State) (w : Warp) : State :=
  let s := { s with free := s.free + 1 }.modWarpAt w.id fun x =>
    { x with promoted := none, issued := true, waited := 0, count := x.count + 1 }
  let s := if (s.blockAt w.id.block).waitSince.isSome then s.modBlock w.id.block fun b => { b with waitSince := none } else s
  s.modCore w.id.die w.id.core fun c =>
    { c with
      last := tput none c.last w.sched (some (w.id.block, w.id.warp, s.clockOf w)), grace := if c.trapped then c.grace - 1 else c.grace }

/-- The warp waits at issue: nothing of its instruction has happened. A wait for a conversion counts unless it parks. -/
def Warp.stalled (w : Warp) : Bool := stallReasons.contains w.stall || (w.stall == 9 && w.parked.isNone)

/-- A warp tries to issue; `true` when it waits at issue. -/
def State.tryIssue (s : State) (w : Warp) : Out × Bool :=
  match (s.focus w.id).issueWarp with
  | .next t =>
    if t.warp.id = w.id ∧ t.warp.live ∧ t.warp.stalled then (.next t, true)
    else (.next (t.noteIssue w), false)
  | o => (o, false)

/-- The first of the warps that can issue does; the others before it show their stall. -/
def State.issueFirst (s : State) : List Warp → Out × Bool
  | [] => (.next s, true)
  | w :: ws =>
    match s.tryIssue w with
    | (.next t, true) => t.issueFirst ws
    | r => r

def State.issueOn (s : State) (die core sched : Nat) : Out :=
  (s.issueFirst (s.candidates fun w => w.id.die == die && w.id.core == core && w.sched == sched)).1

/-! ## Turns -/

/-- Nanoseconds pass. -/
def State.pass (s : State) (ns : Nat) : State := { s with timer := s.timer + ns }

/-- Cycles for which warps of an island have been ready without issuing; each 4,096 of them promote a warp (R188). -/
def State.countReady (s : State) (island n : Nat) : State :=
  let here (w : Warp) : Bool := islandOf w.id.die w.id.core == island
  let ready (w : Warp) : Bool := s.unheld w && !w.stalled
  let due (w : Warp) : Nat := if here w && ready w then (w.waited + n) / 4096 - w.waited / 4096 else 0
  (s.warps.flatMap fun w => List.replicate (due w) (Instr.warpPromotion w.id)).foldl State.post
    (s.modWarps here fun w => { w with waited := if ready w then w.waited + n else 0 })

/-- Cycles of an island pass. The sampler of a die counts the cycles of the die's first island from the write that enabled
it, and samples every 2^k of them (R442). -/
def State.tick (s : State) (island n : Nat) : State :=
  let s := { s.countReady island n with clocks := tmod 0 s.clocks island (· + n) }
  let die := island / 8
  let d := s.dieAt die
  if island % 8 ≠ 0 ∨ 32 ≤ island ∨ !d.regs.smpctl.getLsbD 16 then s
  else
    let period := 2 ^ bits d.regs.smpctl.toNat 4 0
    let due := (d.smpClock + n) / period - d.smpClock / period
    (List.replicate due (Instr.samplingCycle die)).foldl State.post (s.modDie die fun d => { d with smpClock := d.smpClock + n })

/-- An uncorrectable error inside the engine of an operation ends it with ENGINE_ERROR (R289); one of the Meridian engine ends
the conversion (R342). -/
def State.failOp (s : State) (n : Nat) : State :=
  match s.opAt n with
  | none => s
  | some o =>
    match o.work with
    | .conv idx _ => s.post (.conversionAbort o.process idx (.engine stEngineError))
    | _ => s.opErr n stEngineError

/-- A payload of a host-attached sector whose tag fails to verify is dropped, and accesses meet DATA_LOST (R238, R451). -/
def State.failTag (s : State) (sector : Nat) : State := if s.isHost (sector * 512) then s.setPoison sector 2 else s

/-- A turn of the schedule. -/
def State.take (s : State) : Turn → Out
  | .event n =>
    match s.agenda[n]? with
    | some i => exec i { s with agenda := s.agenda.eraseIdx n }
    | none => .next s
  | .input =>
    match s.inputs with
    | i :: is => exec i { s with inputs := is }
    | [] => .next s
  | .issue die core sched => s.issueOn die core sched
  | .slot die core n => .next (s.serveSlot die core n)
  | .time ns => .next (s.noteWaits.pass ns)
  | .cycles island n => .next (s.tick island n)
  | .engineError n => .next (s.failOp n)
  | .tagFailure sector => .next (s.failTag sector)

/-- The waits that can end now, as events. -/
def State.dueWakes (s : State) : List Instr :=
  s.warps.flatMap fun w =>
    (w.quads.filter fun q => q.live != 0).flatMap fun q =>
      match q.wait with
      | .syncwait => [.syncwaitWake w.id]
      | .await => [.awaitWake w.id]
      | .sleep => if q.operand != 0 && decide (q.operand ≤ s.timer) then [.sleepWake w.id] else []
      | _ => []

/-- The first of some events that changes the machine. -/
def State.firstEffect (s : State) : List (Instr × State) → Option Out
  | [] => none
  | (i, t) :: rest =>
    match exec i t with
    | .next u => if u = s then s.firstEffect rest else some (.next u)
    | o => some o

/-- Each pending event with the state that lacks it; an event that goes back to wait leaves the agenda in another order. -/
def State.agendaChoices (s : State) : List (Instr × State) :=
  s.agenda.zipIdx.map fun (i, n) => (i, { s with agenda := s.agenda.eraseIdx n })

/-- A pending event that does more than go back to wait. -/
def State.agendaStep (s : State) : List (Instr × State) → Option Out
  | [] => none
  | (i, t) :: rest =>
    match exec i t with
    | .next u => if u = t.post i then s.agendaStep rest else some (.next u)
    | o => some o

/-- The scratchpad queues that hold requests. -/
def State.busySlots (s : State) : List (Nat × Nat) :=
  s.cores.flatMap fun (k, c) => c.slots.map fun (n, _) => (k, n)

/-- The first of some queues whose head can be served. -/
def State.slotStep (s : State) : List (Nat × Nat) → Option State
  | [] => none
  | (k, n) :: rest => let t := s.serveSlot (k / 68) (k % 68) n; if t = s then s.slotStep rest else some t

/-- A turn for every scheduler that has a warp to try, and then the cycle that they took. -/
def State.round (s : State) : List Turn :=
  let ws := s.candidates fun _ => true
  ((ws.map fun w => (w.id.die, w.id.core, w.sched)).eraseDups.map fun (die, core, sched) => Turn.issue die core sched) ++
    ((ws.map fun w => islandOf w.id.die w.id.core).eraseDups.map fun i => Turn.cycles i 1) ++ [.time 1]

/-- What happens when the schedule names no turn: inputs, pending events, scratchpad slots, what has become due, then an issue,
after which every scheduler gets a turn; with nothing of these, a microsecond passes. It is one of the orders the rules allow. -/
def State.unscheduled (s : State) : Out :=
  match s.inputs with
  | i :: is => exec i { s with inputs := is }
  | [] =>
    match s.agendaStep s.agendaChoices with
    | some o => o
    | none =>
      match s.slotStep s.busySlots with
      | some t => .next t
      | none =>
        match s.firstEffect ((s.dueWakes ++ s.dueRestore ++ s.dueDispatch ++ s.dueLeases ++ s.dueRotations).map fun i => (i, s)) with
        | some o => o
        | none =>
          match s.issueFirst (s.candidates fun _ => true) with
          | (.next t, true) => .next (t.noteWaits.pass 1000)
          | (.next t, false) => .next { t with turns := t.turns ++ s.round }
          | (o, _) => o

end Sys2Proof.Machine
end

