-- ==== Sys2Proof/Machine/Step.lean ====
section
/-! DEFINITION. One step of the machine, and the placing of an instruction where the next step fetches it. -/

namespace Sys2Proof.Machine

/-- One step: the next turn of the schedule, or the machine's own order when the schedule is empty. -/
def step (s : State) : Host.Outcome State Fault Refusal :=
  match s.turns with
  | t :: ts => { s with turns := ts }.take t
  | [] => s.unscheduled

/-- Where `withFetchWord` puts the instruction: byte address in die 0's memory. -/
def fetchByte : Nat := 0x8000

/-- The block that `withFetchWord` runs a compute warp in. -/
def loadBlock : Block :=
  { Block.none with
    place := .resident
    process := 1
    header := { Header.none with width := 16, vunits := 32, kregs := 128, barriers := 15, spad := 4096 }
    warps := 1
    initial := 1 }

/-- A warp that stands at the instruction. -/
def loadWarp (vesper : Bool) : Warp :=
  let pc : Nat := if vesper then bootBase + 8 * fetchByte else 8 * fetchByte
  let quad : Quad := { pc := BitVec.ofNat 64 pc, ctr := 0, live := 15, wait := .none, operand := 0, yielded := false }
  { Warp.idle with
    id := if vesper then { die := 0, core := 64, block := 0, warp := 0 } else { die := 0, core := 0, block := 16, warp := 0 }
    live := true
    info :=
      { width := if vesper then 4 else 16, vregs := 256, kregs := 128, process := 1, launch := 0, maxPrio := 0, start := 0,
        spawned := false }
    quads := List.replicate (if vesper then 1 else 4) quad
    user := !vesper }

/-- The translation that a compute warp runs with: the first page of the user window, with every permission. -/
def loadTlb : TlbEntry :=
  { process := 1, space := 0, va := 0, size := 19, leaf := BitVec.ofNat 64 0x27D, line := 0 }

/-- The sector of code at `fetchByte` in a core's instruction cache, as memory has it. -/
def State.loadCode (s : State) (core : Nat) : State :=
  let sector := sectorOf (s.device * 2 ^ 55 + 8 * fetchByte)
  s.modCore 0 core fun c => { c with icache := (sector, s.homeRead (sector * 512) 512) :: c.icache }

/-- The instruction of the given bits stored where the next step fetches, in memory and in the instruction cache, and a warp
that fetches it there: a warp of a resident block, or for a privileged instruction the supervisor warp of a Vesper core. -/
def State.withFetchWord (s : State) (nbits w : Nat) : State :=
  let word := w % 2 ^ nbits
  let vesper := match decode (BitVec.ofNat 256 word) with | .ok i => Instr.privileged i | .error _ => false
  let mem := (bytesOf 32 word).zipIdx.foldl (fun m (b, i) => tput 0 m (fetchByte + i) b) s.mem
  let s := { s with mem, warp := loadWarp vesper, others := if s.warp.live then s.warp :: s.others else s.others }
  if vesper then { s.loadCode 64 with turns := .issue 0 64 0 :: s.turns }
  else
    let s := s.modBlock 16 fun _ => loadBlock
    let s := (s.loadCode 0).modCore 0 0 fun c => { c with tlb := loadTlb :: c.tlb }
    { s with turns := .issue 0 0 0 :: s.turns }

end Sys2Proof.Machine
end

