-- ==== Sys2Proof/WellFormed.lean ====
section
/-! DEFINITION. Which instruction terms the hardware has a word for: those whose fields pass the checks of R59, item 2. -/

namespace Sys2Proof

/-- An instruction row whose fields its opcode allows (R39 to R51 and the encoding table of its chapter). An event has
no word and is not well formed in this sense. -/
def Instr.WellFormed (i : Instr) : Prop := i.check = true

end Sys2Proof
end

