-- ==== Sys2Proof/Safety.lean ====
section
/-! DEFINITION. What a safe run is, and the words in which claims speak of a step: canonical states, what a register holds
after writes, and what an instruction leaves as it was. -/

namespace Sys2Proof

/-- The fields of an unguarded word without drain and hint. -/
def Fields.plain (k : Bool) (mod d a b c asel bsel : Nat) (ext : Ext) : Fields where
  guard := { ga := 7, gan := false, gb := 7, gbn := false }
  drain := false
  hint := 0
  k := k
  mod := BitVec.ofNat 4 mod
  d := BitVec.ofNat 8 d
  a := BitVec.ofNat 8 a
  b := BitVec.ofNat 8 b
  c := BitVec.ofNat 8 c
  bsel := BitVec.ofNat 2 bsel
  asel := BitVec.ofNat 2 asel
  ext := ext

/-- The assigned opcodes of R61, as ranges. -/
def opcodeRanges : List (Nat × Nat) :=
  [(0x001, 0x00B), (0x040, 0x04E), (0x060, 0x068), (0x080, 0x092), (0x0A0, 0x0A3), (0x0C0, 0x0CB), (0x0F0, 0x0F0),
   (0x100, 0x102), (0x110, 0x11A), (0x140, 0x144), (0x180, 0x187), (0x1C0, 0x1CA), (0x200, 0x204), (0x210, 0x213),
   (0x220, 0x224), (0x240, 0x244), (0x280, 0x283), (0x290, 0x293), (0x2C0, 0x2C5), (0x2D0, 0x2D1), (0x300, 0x306),
   (0x340, 0x345), (0x380, 0x384), (0x388, 0x388), (0x38C, 0x38D), (0x3A0, 0x3A1)]

end Sys2Proof

namespace Sys2Proof.Machine

/-! ## Safe runs -/

/-- The machine goes on: it neither stops at a device register that no chapter defines nor meets an instruction without a
meaning. -/
def State.goesOn (s : State) : Prop := ∃ t, step s = .next t

/-- `n` steps all go on. -/
def State.safeFor : Nat → State → Prop
  | 0, _ => True
  | n + 1, s => ∃ t, step s = .next t ∧ t.safeFor n

/-! ## Canonical states -/

/-- The registers of a warp in canonical form. -/
def RegFile.wf (r : RegFile) : Bool := twf 0 r.v && twf 0 r.s && twf 0 r.p && twf 0 r.x && twf 0 r.h

/-- A warp whose registers are in canonical form, and whose record of the run holds register values. -/
def Warp.wf (w : Warp) : Bool := w.regs.wf && w.run.all fun r => decide (r.old < 2 ^ 32)

/-- The memories that a state holds by byte address. -/
def State.memoryWf (s : State) : Bool := Memory.wf s.mem && Memory.wf s.hostMem && Memory.wf s.peerMem

/-- The keys of a table rise. -/
def rising {α : Type} : Table α → Bool
  | [] => true
  | [_] => true
  | (k, _) :: (k', v) :: t => decide (k < k') && rising ((k', v) :: t)

def Block.ordered (b : Block) : Bool := rising b.barriers && rising b.handles && rising b.spad

def Core.ordered (c : Core) : Bool :=
  rising c.l1 && rising c.slots && rising c.watches && rising c.last && rising c.sampled && rising c.queues && rising c.acc &&
  rising c.sideM && rising c.sideL

def Die.ordered (d : Die) : Bool := rising d.l2 && rising d.homeWatches

def Conv.ordered (c : Conv) : Bool := rising c.captured && rising c.agents

/-- The keys of every table of the state rise. -/
def State.ordered (s : State) : Bool :=
  rising s.blocks && rising s.clusters && rising s.launches && rising s.ops && rising s.cores && rising s.dies &&
  rising s.procs && rising s.placements && rising s.convs && rising s.heard &&
  rising s.links && rising s.ranges && rising s.tray && rising s.leases && rising s.rung && rising s.poison &&
  rising s.homeLines && rising s.dir && rising s.clocks && rising s.platform.islands && rising s.platform.keys &&
  rising s.platform.slots && rising s.package.drops && rising s.group.drops &&
  (s.blocks.all fun x => x.2.ordered) && (s.clusters.all fun x => rising x.2) && (s.cores.all fun x => x.2.ordered) &&
  (s.dies.all fun x => x.2.ordered) && (s.convs.all fun x => x.2.all Conv.ordered) && (s.links.all fun x => rising x.2.waves)

/-- The scoreboard entries of a warp have names that it has given. -/
def Warp.named (w : Warp) : Bool := w.score.all fun e => decide (e.id < w.nextId)

/-- Every memory and every register file is in canonical form, the keys of every table rise, and no scoreboard entry has a
name that is still to be given. -/
def State.canonical (s : State) : Bool :=
  s.memoryWf && s.ordered && (s.warp :: s.others).all fun w => w.wf && w.named

/-! ## Registers -/

/-- The copies a register has (R67): vector registers and predicates have one for each lane, the others one. -/
def RegName.has : RegName → Nat → Bool
  | .v _, lane | .p _, lane => decide (lane < 64)
  | _, lane => lane == 0

/-- What a register holds after a value is written to it: its low bits; true for p7 and q7 (R67). -/
def RegName.hold : RegName → Nat → Nat
  | .v _, y | .s _, y | .x _, y => y % 2 ^ 32
  | .h _, y => y % 2 ^ 16
  | .p k, y | .q k, y => if k = 7 then 1 else if 7 < k then 0 else y % 2

/-- The last of some writes to one copy of a register. -/
def lastWrite (ws : List RegWrite) (n : RegName) (lane : Nat) : Option RegWrite :=
  ws.reverse.find? fun r => r.name == n && r.lane == lane

/-- An earlier instruction of the run has written the register (R54). -/
def Warp.runHas (w : Warp) (n : RegName) (lane : Nat) : Bool := w.run.any fun u => u.name == n && u.lane == lane

/-- The writes have been made and no other: each copy of a register that they name holds the last value written to it, or,
if an earlier instruction of the same run wrote it, possibly still the value before (R54); every other copy holds what
it held. -/
def Wrote (s t : State) (ws : List RegWrite) : Prop :=
  ∀ n lane, n.has lane = true →
    match lastWrite ws n lane with
    | none => t.warp.regs.get n lane = s.warp.regs.get n lane
    | some r =>
      t.warp.regs.get n lane = n.hold r.value ∨
      (s.warp.runHas n lane = true ∧ t.warp.regs.get n lane = s.warp.regs.get n lane)

/-! ## Frames -/

/-- Every byte of memory reads as before, from every die and in every scratchpad. -/
def SameBytes (s t : State) : Prop :=
  (∀ die b, t.dieByte die b = s.dieByte die b) ∧ ∀ n, (t.blockAt n).spad = (s.blockAt n).spad

/-- The counters after an instruction of `slot` bits (R35): each quad of the sub-gang stands past it, every other quad where
it stood; a replay record's instruction (R428) moves none. Live masks and counters of loops stay. -/
def CountersPast (s t : State) (slot : Nat) : Prop :=
  t.warp.quads.length = s.warp.quads.length ∧
  ∀ q u, s.warp.quads[q]? = some u → ∃ v, t.warp.quads[q]? = some v ∧ v.live = u.live ∧ v.ctr = u.ctr ∧
    v.pc = if s.warp.gang.contains q ∧ (s.warp.resuming.all (·.park)) then u.pc + BitVec.ofNat 64 slot else u.pc

/-- With the drain bit a selection point is reached, from which a priority that SETPRIO has given counts (R204). -/
def Warp.NextPrio (t s : Warp) (drain : Bool) : Prop :=
  t.prio = (if drain then s.prioNext.getD s.prio else s.prio) ∧ t.prioNext = if drain then none else s.prioNext

/-- The same for an instruction that may drain in every execution (R53). -/
def Warp.PrioKept (t s : Warp) (f : Fields) : Prop := t.NextPrio s f.drain ∨ t.NextPrio s true

/-- What a short-latency register instruction leaves: outside the registers, the record of the run and the counters of the
issuing warp nothing changes; the sticky flags are those there were and `fl`, visible once the run ends (R117). -/
structure RegisterFrame (s t : State) (f : Fields) (fl : Word) : Prop where
  rest : t = { s with warp := { s.warp with
    regs := t.warp.regs, run := t.warp.run, runFlags := t.warp.runFlags, fmode := t.warp.fmode, quads := t.warp.quads
    gang := t.warp.gang, prio := t.warp.prio, prioNext := t.warp.prioNext, resuming := none } }
  prio : t.warp.NextPrio s.warp f.drain
  bytes : SameBytes s t
  flags : t.warp.fmode ||| t.warp.runFlags = s.warp.fmode ||| s.warp.runFlags ||| fl
  shown : t.warp.fmode = if f.drain then s.warp.fmode ||| s.warp.runFlags ||| fl else s.warp.fmode
  counters : CountersPast s t f.slot

/-- The instruction completes as a short-latency register instruction that makes the writes `ws` and raises the flags
`fl`. The conditions are those of R45 and R47: no indirect source names a register beyond the allotment. -/
def Completes (i : Instr) (f : Fields) (s : State) (ws : List RegWrite) (fl : Word) : Prop :=
  ∃ t, exec i s = .next t ∧ Wrote s t ws ∧ RegisterFrame s t f fl

/-- The writes of a result: in each lane in which the instruction acts, `v` of the lane into `n` registers from d. -/
def State.lanesWrite (s : State) (f : Fields) (n : Nat) (v : Nat → Nat) : List RegWrite :=
  (s.actLanes f).flatMap fun l => dest f n l (v l)

/-- The writes of a predicate result into the predicate that `x` names. -/
def State.lanesPred (s : State) (f : Fields) (x : BitVec 8) (v : Nat → Bool) : List RegWrite :=
  (s.actLanes f).flatMap fun l => [destPred f x l (v l)]

/-- The sticky flags that the lanes raise together (R117). -/
def State.lanesFlags (s : State) (f : Fields) (fl : Nat → Word) : Word := (s.actLanes f).foldl (fun a l => a ||| fl l) 0

/-- The row's word passes the checks of R59, and no indirect source breaks R45: nothing traps. -/
def State.clear (s : State) (i : Instr) (f : Fields) : Prop :=
  i.WellFormed ∧ s.warp.wf = true ∧ s.indirectBreach i f = none

/-- The instruction completes with the result `v` of each lane in `n` registers from d, and no flag. -/
def Gives (i : Instr) (f : Fields) (s : State) (n : Nat) (v : Nat → Nat) : Prop :=
  s.clear i f → Completes i f s (s.lanesWrite f n v) 0

/-- The instruction completes with the truth of `v` of each lane in the predicate of field `x`, and no flag. -/
def GivesPred (i : Instr) (f : Fields) (s : State) (x : BitVec 8) (v : Nat → Bool) : Prop :=
  s.clear i f → Completes i f s (s.lanesPred f x v) 0

/-- The instruction completes with a packed result of type `t` (R74, R77) in d: element k of lane l is the exact result
`r l k` clamped to the type, or, where it wraps, congruent to it; unused high bits are 0. -/
def GivesElements (i : Instr) (f : Fields) (s : State) (t : Nat) (sat : Bool) (r : Nat → Nat → Int) : Prop :=
  s.clear i f → ∃ v : Nat → Nat, Completes i f s (s.lanesWrite f (regsOfType t) v) 0 ∧
    ∀ l ∈ s.actLanes f, v l < 2 ^ (elems t * typeWidth t) ∧
      ∀ k < elems t, if sat then elt (v l) t k = clamp (r l k) t
        else (elt (v l) t k - r l k) % (2 ^ typeWidth t : Nat) = 0

/-- The instruction completes with a result whose bits in each lane are those given, in `n` registers from d. -/
def GivesBits (i : Instr) (f : Fields) (s : State) (n : Nat) (b : Nat → Nat → Bool) : Prop :=
  s.clear i f → ∃ v : Nat → Nat, Completes i f s (s.lanesWrite f n v) 0 ∧
    ∀ l ∈ s.actLanes f, ∀ j < 32 * n, (v l).testBit j = b l j

/-- The instruction completes with a float result of `n` elements in d: element e of lane l has the code of `r l e`, and
the flags of all elements of all lanes are raised. -/
def GivesFloats (i : Instr) (f : Fields) (s : State) (n : Nat) (r : Nat → Nat → Rounded) : Prop :=
  s.clear i f → ∃ v : Nat → Nat,
    Completes i f s (s.lanesWrite f 1 v) (s.lanesFlags f fun l => (List.range n).foldl (fun a e => a ||| (r l e).2) 0) ∧
    ∀ l ∈ s.actLanes f, v l = ((List.range n).map fun e => (r l e).1 <<< (16 * e)).sum

/-- The same for one exact result of 32 or 64 bits that wraps. -/
def GivesInt (i : Instr) (f : Fields) (s : State) (t : Nat) (r : Nat → Int) : Prop :=
  GivesElements i f s t false fun l _ => r l

/-- A result that an entry will not write is one for a register that its run has written before (R54). -/
def ScoreEntry.LostIn (e : ScoreEntry) (w : Warp) : Prop := ∀ x ∈ e.lost, x.1 ∈ e.covers ∧ w.runHas x.1 x.2 = true

/-- A long-latency instruction has issued (R55, R56): its result, known, stands on the scoreboard for the registers `covers`
and has not been written; an event writes it. The counters have passed the instruction, and nothing else has changed but
that, with the drain bit, the run has ended. -/
structure Started (s t : State) (f : Fields) (covers : List RegName) (ws : List RegWrite) (fl : Word) : Prop where
  rest : t = { s with
    warp := { s.warp with
      score := t.warp.score, nextId := s.warp.nextId + 1, quads := t.warp.quads, gang := t.warp.gang, resuming := none
      prio := if f.drain then s.warp.prioNext.getD s.warp.prio else s.warp.prio
      prioNext := if f.drain then none else s.warp.prioNext
      run := if f.drain then [] else s.warp.run, runFlags := if f.drain then 0 else s.warp.runFlags
      fmode := if f.drain then s.warp.fmode ||| s.warp.runFlags else s.warp.fmode }
    agenda := s.agenda ++ [.longLatencyResult s.warp.id s.warp.nextId] }
  entry : ∃ e : ScoreEntry, t.warp.score = s.warp.score ++ [e] ∧ e.id = s.warp.nextId ∧ e.pc = s.warp.pc ∧ e.kind = .known ∧
    e.covers = covers ∧ e.results = ws ∧ e.flags = fl ∧ e.lanes = [] ∧ e.parts = [] ∧ e.dest = none ∧ e.LostIn s.warp
  bytes : SameBytes s t
  counters : CountersPast s t f.slot

/-- The instruction completes as a long-latency register instruction with the result `v` of each lane in `n` registers from
d, and the flags of all its lanes. -/
def GivesLater (i : Instr) (f : Fields) (s : State) (n : Nat) (v : Nat → Rounded) : Prop :=
  s.clear i f → ∃ t, exec i s = .next t ∧
    Started s t f (coversD f n) (s.lanesWrite f n fun l => (v l).1) (s.lanesFlags f fun l => (v l).2)

/-- Only the issuing warp changes, and of it no register; the sticky flags there were remain. -/
structure WarpOnly (s t : State) : Prop where
  rest : t = { s with warp := t.warp }
  regs : t.warp.regs = s.warp.regs
  flags : t.warp.fmode ||| t.warp.runFlags = s.warp.fmode ||| s.warp.runFlags
  bytes : SameBytes s t

/-- A result is owed: one more scoreboard entry, whose value is known. -/
def Owed (s t : State) (covers : List RegName) (ws : List RegWrite) : Prop :=
  t.warp.nextId = s.warp.nextId + 1 ∧
  ∃ e : ScoreEntry, t.warp.score = s.warp.score ++ [e] ∧ e.id = s.warp.nextId ∧ e.pc = s.warp.pc ∧ e.kind = .known ∧
    e.covers = covers ∧ e.results = ws ∧ e.flags = 0 ∧ e.lanes = [] ∧ e.parts = [] ∧ e.dest = none ∧ e.LostIn s.warp

/-- The event that writes the result that is owed next. -/
def State.resultDue (s : State) : Instr := .longLatencyResult s.warp.id s.warp.nextId

/-- A result is due: it is owed, and the event that writes it is on the agenda, alone. -/
def Due (s t : State) (covers : List RegName) (ws : List RegWrite) : Prop :=
  t.agenda = s.agenda ++ [s.resultDue] ∧ Owed s t covers ws

/-! ## Accesses to memory -/

/-- Every lane of an access passes its checks (R13 to R16, R45, R240): it is translated, which leads to `u`, and there is
room for its requests: in the slot's queue, in the L1 queue and towards other devices and hosts (R209, R234, R404, R406). -/
structure State.Reached (s : State) (i : Instr) (f : Fields) (p : Probe) (u : State) (r : Reach) : Prop where
  acts   : s.memLanes f (s.memAddr f) ≠ []
  direct : s.indirectBreach i f = none
  window : s.windowBreach s.warp p.width (s.memLanes f (s.memAddr f)) = none
  reach  : s.reachAll s.warp p (s.memLanes f (s.memAddr f)) = (u, r)
  pass   : r.bad = []
  room   : u.noRoom r.parts = none

/-- What an instruction leaves whose accesses have issued: no register and no byte has changed, and the counters have passed
it; accesses may be under way. -/
structure AccessFrame (s t : State) (f : Fields) : Prop where
  prio : t.warp.PrioKept s.warp f
  rest : t = { s with warp := t.warp, cores := t.cores, agenda := t.agenda, nextSeq := t.nextSeq }
  warp : t.warp = { s.warp with
    score := t.warp.score, nextId := t.warp.nextId, quads := t.warp.quads, gang := t.warp.gang, run := t.warp.run
    prio := t.warp.prio, prioNext := t.warp.prioNext, runFlags := t.warp.runFlags, fmode := t.warp.fmode, resuming := none }
  flags : t.warp.fmode ||| t.warp.runFlags = s.warp.fmode ||| s.warp.runFlags
  bytes : SameBytes s t
  counters : CountersPast s t f.slot

/-- The counters have passed the instruction, and else of its warp nothing has changed but what the end of a run changes. -/
structure MovesOn (s t : State) (f : Fields) : Prop where
  prio : t.warp.PrioKept s.warp f
  warp : t.warp = { s.warp with
    quads := t.warp.quads, gang := t.warp.gang, run := t.warp.run, runFlags := t.warp.runFlags, fmode := t.warp.fmode
    prio := t.warp.prio, prioNext := t.warp.prioNext, resuming := none }
  flags : t.warp.fmode ||| t.warp.runFlags = s.warp.fmode ||| s.warp.runFlags
  counters : CountersPast s t f.slot

/-- The counters have passed the instruction, its warp owes a result, and else of the warp nothing has changed but what the
end of a run changes. -/
structure MovesOwing (s t : State) (f : Fields) (covers : List RegName) (ws : List RegWrite) : Prop where
  prio : t.warp.PrioKept s.warp f
  warp : t.warp = { s.warp with
    quads := t.warp.quads, gang := t.warp.gang, run := t.warp.run, runFlags := t.warp.runFlags, fmode := t.warp.fmode
    prio := t.warp.prio, prioNext := t.warp.prioNext, score := t.warp.score, nextId := t.warp.nextId, resuming := none }
  owed : Owed s t covers ws
  flags : t.warp.fmode ||| t.warp.runFlags = s.warp.fmode ||| s.warp.runFlags
  counters : CountersPast s t f.slot

/-- The sub-gang stands at the instruction and waits (R159); nothing else has changed but that its run has ended. -/
structure Blocks (s t : State) (kind : WaitKind) (operand : Nat) : Prop where
  rest : t = { s with warp := { s.warp with
    quads := t.warp.quads, gang := [], run := [], runFlags := 0, fmode := s.warp.fmode ||| s.warp.runFlags
    prio := s.warp.prioNext.getD s.warp.prio, prioNext := none, stall := t.warp.stall } }
  length : t.warp.quads.length = s.warp.quads.length
  quads : ∀ (q : Nat) (u : Quad), s.warp.quads[q]? = some u → ∃ v : Quad, t.warp.quads[q]? = some v ∧
    v.pc = u.pc ∧ v.ctr = u.ctr ∧ v.live = u.live ∧
    if s.warp.gang.contains q then v.wait = kind ∧ v.operand = operand else v.wait = u.wait ∧ v.operand = u.operand

/-- The instruction has no effect but to move on. -/
def OnlyMoves (s t : State) (f : Fields) : Prop := t = { s with warp := t.warp } ∧ MovesOn s t f

/-- A line of this device that no host holds, on a die without a dirty map (log entry 12). -/
def State.plainLine (s : State) (line : Nat) : Prop :=
  line < 2 ^ 53 ∧ s.isLocal (line * 2048) = true ∧ (∀ h ∈ s.holders, h.1 ≠ line) ∧
  (s.dieAt (dieOf (line * 2048))).regs.dmap = 0

/-- The L2 of a die holds the line or has a free way in its set: nothing leaves it for the line's sake (R229). -/
def State.hasRoom (s : State) (die line : Nat) : Prop :=
  (∃ x ∈ s.l2Lines die, x.1 = line) ∨ (sameSet line 16 (s.l2Lines die)).length < 16

/-- The home has taken over the dirty bytes of a copy of the line, and no other byte of any home has changed. -/
def TakenHome (s t : State) (line : Nat) (l : L2Line) : Prop :=
  ∀ b, b < 2 ^ 61 → t.homeByte b =
    if b / 256 = line ∧ bitOf l.dirty (b % 256) = true ∧ bitOf l.valid (b % 256) = true then
      l.data / 2 ^ (8 * (b % 256)) % 256
    else s.homeByte b

/-- An engine operation has been started (R285 to R287): it is on record under the next number, an entry of the handle table
that was FREE is PENDING with its next sequence number, and the handle is owed to H[f]. -/
structure StartsOp (s t : State) (f : Fields) (engine idx : Nat) (work : Work) : Prop where
  moves : MovesOwing s t f [.h f.fh.toNat] [⟨.h f.fh.toNat, 0, (nextHandleSeq (s.myBlock.handle idx).seq).toNat * 64 + idx⟩]
  free : (s.myBlock.handle idx).state = .free
  number : t.nextOp = s.nextOp + 1
  record : ∃ o : EngineOp, t.opAt s.nextOp = some o ∧ o.warp = s.warp.id ∧ o.process = s.processOf s.warp ∧
    o.user = s.warp.user ∧ o.handle = some idx ∧ o.hseq = (nextHandleSeq (s.myBlock.handle idx).seq).toNat ∧
    o.seq = s.nextSeq ∧ o.engine = engine ∧ o.started = false ∧ o.cancel = false ∧ o.suspended = false ∧ o.work = work
  entry : t.myBlock.handle idx = ⟨.pending, nextHandleSeq (s.myBlock.handle idx).seq, 0, some s.nextOp⟩
  bytes : SameBytes s t

/-- An engine operation ends (R286, R301): it is no longer on record; its entry of the handle table, if it is PENDING under the
operation's sequence number, has the final state and the status; and the issuing warp's quads that wait for it go on. -/
structure OpEnds (s t : State) (n : Nat) (o : EngineOp) (st : HandleState) (status : Nat) : Prop where
  gone : t.opAt n = none ∧ ∀ k, k ≠ n → t.opAt k = s.opAt k
  entry : ∀ i : Nat, o.handle = some i →
    let e := (s.blockAt o.warp.block).handle i
    e.seq.toNat = o.hseq → e.state = .pending →
      (t.blockAt o.warp.block).handle i = { e with state := st, status := BitVec.ofNat 16 status, op := none } ∧
      (s.warp.live = true → s.warp.id.block = o.warp.block → t.warp.quads = s.warp.quads.map fun q =>
        if (q.wait = .fwait ∨ q.wait = .pendingHandle) ∧ q.operand = e.seq.toNat * 64 + i then { q with wait := .none, operand := 0 }
        else q)
  regs : t.warp.regs = s.warp.regs

/-- One more scoreboard entry, for a result that comes lane by lane. -/
def Awaits (s t : State) (kind : ResultKind) (covers : List RegName) (dest : Option LoadDest) (acq : Option Nat)
    (lanes : List LaneWait) (parts : List LoadPart) : Prop :=
  t.warp.nextId = s.warp.nextId + 1 ∧
  ∃ e : ScoreEntry, t.warp.score = s.warp.score ++ [e] ∧ e.id = s.warp.nextId ∧ e.pc = s.warp.pc ∧ e.kind = kind ∧
    e.covers = covers ∧ e.results = [] ∧ e.dest = dest ∧ e.acquire = acq ∧ e.lanes = lanes ∧ e.parts = parts ∧
    e.fail = none ∧ e.flags = 0 ∧ e.seq = s.nextSeq ∧ e.LostIn s.warp

/-- The store parts of an event. -/
def Instr.stored : Instr → List StorePart
  | .getm r | .homeStore r => r.stores
  | _ => []

/-- The bytes of the address space that bits a to a + w - 1 do not touch read as before. -/
def OtherBytes (s t : State) (a w : Nat) : Prop := ∀ die b, b < 2 ^ 61 → b ∉ bytesTouched a w → t.dieByte die b = s.dieByte die b

/-! ## Placement tables -/

/-- Where the table of a process holds an entry (R326, R327). -/
def State.tableAt (s : State) (pid idx : Nat) : Nat := s.device * 2 ^ 55 + (s.procAt pid).pltable.toNat + 512 * idx

/-- An access by the device to `n` bits, all of one line of a home, waits for nothing and takes no copy from anywhere. -/
structure State.Rests (s : State) (fa n : Nat) : Prop where
  inside : fa % 2048 + n ≤ 2048
  plain  : s.plainLine (lineOf fa)
  idle   : (s.dirAt (lineOf fa)).busy = none ∧ (s.dirAt (lineOf fa)).st = .u
  room   : s.hasRoom (dieOf fa) (lineOf fa)
  clean  : ∀ k w : Nat, k + w ≤ n → s.poisonOf (fa + k) w = none

/-- No line has a transaction under way (R375). -/
def State.NoTransactions (s : State) : Prop := ∀ line, (s.dirAt line).busy = none

/-- An entry has been set, in the engines and in the process's table; no other entry and no other byte of memory has changed. -/
structure EntrySet (s t : State) (pid idx : Nat) (e : PlEntry) : Prop where
  entry  : t.plAt pid idx = e
  others : ∀ p k, (p, k) ≠ (pid, idx) → k < 4096 → t.plAt p k = s.plAt p k
  words  : ∀ i < 8, readBits t.homeByte (s.tableAt pid idx + 64 * i) 64 = e.words.getD i 0 % 2 ^ 64
  bytes  : OtherBytes s t (s.tableAt pid idx) 512

/-! ## Real values of floats -/

/-- The number m × 2^e. -/
def Dyad.val (d : Dyadic) : Rat := (d.m : Rat) * (2 : Rat) ^ d.e

/-- The value of an encoding that is a number. -/
def FVal.value : FVal → Option Rat
  | .zero _ => some 0
  | .num d => some (Dyad.val d)
  | _ => none

/-- The eight formats of R108. -/
def formats : List Format := [f32, f16, bf16, e5m2, e4m3, e3m2, e2m3, e2m1]

end Sys2Proof.Machine
end

