-- ==== Sys2Proof/Certificates/Slice0/Obligations.lean ====
section
/-! DEFINITION. The statements for the provers. -/

open Sys2Proof Sys2Proof.Machine

/-! ## Integer arithmetic -/

/-- R74, R75, R77, R85, R86, R89: the element-wise integer instructions, by elements. -/
def Obligations.ElementwiseIntegers : Prop :=
  ∀ (f : Fields) (s : State),
    let t := f.mod.toNat
    let n := regsOfType t
    let a l k := elt (s.srcA f n l) t k
    let b l k := elt (s.srcBTyped f t l) t k
    let c l k := elt (s.srcC f n l) t k
    GivesElements (.iadd f) f s t (f.cb 0) (fun l k => a l k + b l k) ∧
    GivesElements (.isub f) f s t (f.cb 0) (fun l k => a l k - b l k) ∧
    GivesElements (.imul f) f s t (f.cb 0) (fun l k => a l k * b l k) ∧
    GivesElements (.iadd3 f) f s t false (fun l k => a l k + b l k + c l k) ∧
    GivesElements (.imad f) f s t false (fun l k => a l k * b l k + c l k) ∧
    GivesElements (.imin f) f s t false (fun l k => min (a l k) (b l k)) ∧
    GivesElements (.imax f) f s t false (fun l k => max (a l k) (b l k)) ∧
    GivesElements (.iabs f) f s t (f.cb 0) (fun l k => ((a l k).natAbs : Int)) ∧
    GivesElements (.ineg f) f s t (f.cb 0) (fun l k => -a l k)

/-- R86, R87, R90, R91: high half and wide products, the carry, the sum of absolute differences and the dot product, whose
mod[2] is reserved. -/
def Obligations.WideIntegers : Prop :=
  ∀ (f : Fields) (s : State),
    let t := f.mod.toNat
    let n := regsOfType t
    let wide := if typeSigned t then 2 else 3
    let ta := if f.mb 0 then 7 else 6
    let tb := if f.mb 1 then 7 else 6
    let z l := s.srcA f n l + s.srcBTyped f t l + b2n (s.predField f f.c l)
    GivesInt (.imulhi f) f s t (fun l =>
      (readAs t (s.srcA f n l) * readAs t (s.srcBTyped f t l)) / (2 ^ typeWidth t : Nat)) ∧
    GivesInt (.imadw f) f s wide (fun l =>
      readAs t (s.srcA f 1 l) * readAs t (s.srcBTyped f t l) + readAs wide (s.srcC f 2 l)) ∧
    Gives (.isad f) f s 1 (fun l => (s.srcC f 1 l +
      ((List.range (elems t)).map fun k => (elt (s.srcA f 1 l) t k - elt (s.srcBTyped f t l) t k).natAbs).sum) % 2 ^ 32) ∧
    GivesElements (.dot4 f) f s 0 (f.mb 3) (fun l _ => readAs 0 (s.srcC f 1 l) +
      elt (s.srcA f 1 l) ta 0 * elt (s.srcBReg f 1 l) tb 0 + elt (s.srcA f 1 l) ta 1 * elt (s.srcBReg f 1 l) tb 1 +
      elt (s.srcA f 1 l) ta 2 * elt (s.srcBReg f 1 l) tb 2 + elt (s.srcA f 1 l) ta 3 * elt (s.srcBReg f 1 l) tb 3) ∧
    (s.clear (.iaddc f) f → Completes (.iaddc f) f s
      ((s.actLanes f).flatMap fun l =>
        dest f n l (z l % 2 ^ typeWidth t) ++ [destPred f f.c l (decide (2 ^ typeWidth t ≤ z l))]) 0) ∧
    ((Instr.dot4 f).WellFormed → f.mb 2 = false)

/-- R88: IDIV, a long-latency instruction: quotient toward zero and remainder with the dividend's sign; for a zero divisor
the quotient is all ones and the remainder the dividend. -/
def Obligations.Division : Prop :=
  ∀ (f : Fields) (s : State), s.clear (.idiv f) f →
    let t := f.mod.toNat
    let n := regsOfType t
    let a l := readAs t (s.srcA f n l)
    let b l := readAs t (s.srcBReg f n l)
    ∃ v : Nat → Nat, (∃ u, exec (.idiv f) s = .next u ∧ Started s u f (coversD f n) (s.lanesWrite f n v) 0) ∧
      ∀ l ∈ s.actLanes f, v l < 2 ^ typeWidth t ∧
        (b l = 0 → if f.cb 0 then readAs t (v l) = a l else v l = 2 ^ typeWidth t - 1) ∧
        (b l ≠ 0 → ∃ q r : Int, a l = q * b l + r ∧ r.natAbs < (b l).natAbs ∧ (r = 0 ∨ (r < 0 ↔ a l < 0)) ∧
          if f.cb 0 then readAs t (v l) = r else (readAs t (v l) - q) % (2 ^ typeWidth t : Nat) = 0)

/-! ## Moves and transfers -/

/-- R78 to R81: MOV copies b, SEL chooses by a predicate, MOVX reads the register that each lane selects, MOVI replaces one
part of d. A MOVX whose selected register is odd for a pair or beyond the allotment in some active lane raises REG_BOUND for the
first such lane, and no lane is written. -/
def Obligations.Moves : Prop :=
  ∀ (f : Fields) (s : State),
    let n0 := if f.mb 0 then 2 else 1
    let n1 := if f.mb 1 then 2 else 1
    let at_ := if f.mb 2 then 32 * f.mn 1 0 else 16 * f.mn 1 0
    let w := if f.mb 2 then 32 else 16
    let nd := if at_ < 32 then 1 else 2
    let r l := f.a.toNat + s.srcBReg f 1 l
    let bad l := r l % n0 ≠ 0 ∨ (if f.k then s.warp.info.kregs else s.warp.info.vregs) < r l + n0
    Gives (.mov f) f s n0 (fun l => s.srcB f false (32 * n0) n0 l) ∧
    Gives (.sel f) f s n1 (fun l =>
      if s.predField f f.c l != f.mb 0 then s.srcA f n1 l else s.srcB f false (32 * n1) n1 l) ∧
    (s.movxFault f (s.actLanes f) = none →
      Gives (.movx f) f s n0 (fun l =>
        s.regs (regName f.k) (f.a.toNat + s.srcBReg f 1 l) (if f.k then 0 else l) n0)) ∧
    GivesBits (.movi f) f s nd (fun l j =>
      if at_ ≤ j ∧ j < at_ + w then (if f.mb 2 then f.imm32.toNat else f.imm16.toNat).testBit (j - at_)
      else (s.field f f.d nd l).testBit j) ∧
    (∀ l ∈ s.actLanes f, bad l → ∃ l' ∈ s.actLanes f, bad l' ∧
      exec (.movx f) s = .next (s.trap { code := 0x03, info0 := r l', lane := l' }) ∧
      ∃ before after, s.actLanes f = before ++ l' :: after ∧ ∀ k ∈ before, ¬ bad k)

/-- R72, R82, R83: the special registers, the index registers and the transfers of predicates. -/
def Obligations.Transfers : Prop :=
  ∀ (f : Fields) (s : State),
    let a := f.a.toNat
    Gives (.rdspec f) f s (if a = 0x0F ∨ a = 0x10 ∨ a = 0x12 then 2 else 1) (s.special f a) ∧
    GivesBits (.p2v f) f s 1 (fun l j => decide (j < 8) && s.predField f (BitVec.ofNat 8 j) l) ∧
    (s.clear (.v2p f) f → Completes (.v2p f) f s
      ((s.actLanes f).flatMap fun l => ((List.range 7).filter fun i => f.b.getLsbD i).map fun i =>
        destPred f (BitVec.ofNat 8 i) l ((s.srcA f 1 l).testBit i)) 0) ∧
    (s.clear (.xset f) f → Completes (.xset f) f s
      ((s.actLanes f).take 1 |>.map fun l => ⟨.x f.d.toNat, 0, s.srcB f false 32 1 l⟩) 0) ∧
    (s.clear (.xadd f) f → Completes (.xadd f) f s
      ((s.actLanes f).take 1 |>.map fun l =>
        ⟨.x f.d.toNat, 0, ((s.reg (.x a) 0 : Int) + sintOf 32 (s.srcB f true 32 1 l)).emod (2 ^ 32) |>.toNat⟩) 0)

/-! ## Logic and bit fields -/

/-- R92, R93: the bitwise instructions, bit by bit; TERN's table is in xmod[7:0]. The upper bits of mod are reserved. -/
def Obligations.BitwiseLogic : Prop :=
  ∀ (f : Fields) (s : State),
    let n := if f.mb 0 then 2 else 1
    let a l j := (s.srcA f n l).testBit j
    let b l j := (s.srcB f false (32 * n) n l).testBit j
    let m := if f.xb 8 then 2 else 1
    GivesBits (.and_ f) f s n (fun l j => a l j && b l j) ∧
    GivesBits (.or_ f) f s n (fun l j => a l j || b l j) ∧
    GivesBits (.xor_ f) f s n (fun l j => a l j != b l j) ∧
    GivesBits (.andn f) f s n (fun l j => a l j && !b l j) ∧
    GivesBits (.not_ f) f s n (fun l j => !a l j) ∧
    GivesBits (.tern f) f s m (fun l j =>
      f.xmod.getLsbD (b2n ((s.srcA f m l).testBit j) + 2 * b2n ((s.srcB f false (32 * m) m l).testBit j) +
        4 * b2n ((s.srcC f m l).testBit j))) ∧
    ∀ i ∈ [Instr.and_ f, .or_ f, .xor_ f, .andn f, .not_ f], i.WellFormed → f.mn 3 1 = 0

/-- R94 to R96: the shifts and the bit-field instructions, bit by bit, and which bits of mod are reserved. -/
def Obligations.Shifts : Prop :=
  ∀ (f : Fields) (s : State),
    let n := if f.mb 0 then 2 else 1
    let W := 32 * n
    let a l j := (s.srcA f n l).testBit j
    let count l := s.srcB f false 32 1 l
    let pos l := count l % 256
    let len l := min (count l / 256 % 256) (W - pos l)
    let dn l := if f.mb 0 then min (count l) 64 else count l % 64
    GivesBits (.shl f) f s n (fun l j => decide (count l ≤ j) && a l (j - count l)) ∧
    GivesBits (.shr f) f s n (fun l j => decide (j + count l < W) && a l (j + count l)) ∧
    GivesBits (.sar f) f s n (fun l j => a l (min (j + count l) (W - 1))) ∧
    GivesBits (.rot f) f s n (fun l j => a l ((j + W - count l % W) % W)) ∧
    GivesBits (.dsh f) f s 1 (fun l j =>
      if j + dn l < 32 then (s.srcA f 1 l).testBit (j + dn l)
      else decide (j + dn l < 64) && (s.srcC f 1 l).testBit (j + dn l - 32)) ∧
    GivesBits (.bfx f) f s n (fun l j =>
      if len l = 0 then false else if j < len l then a l (pos l + j) else f.mb 1 && a l (pos l + len l - 1)) ∧
    GivesBits (.bfi f) f s n (fun l j =>
      if pos l ≤ j ∧ j < pos l + len l then a l (j - pos l) else (s.srcC f n l).testBit j) ∧
    (∀ i ∈ [Instr.shl f, .shr f, .sar f, .rot f], i.WellFormed → f.mn 3 1 = 0) ∧
    (∀ i ∈ [Instr.bfx f, .bfi f], i.WellFormed → f.mn 3 2 = 0) ∧ ((Instr.bfi f).WellFormed → f.mb 1 = false)

/-- R97: POPC counts the set bits, CLZ the zeros above the highest and CTZ those below the lowest of them, and
BREV reverses the bits. -/
def Obligations.BitCounts : Prop :=
  ∀ (f : Fields) (s : State),
    let n := if f.mb 0 then 2 else 1
    let W := 32 * n
    let a l j := (s.srcA f n l).testBit j
    Gives (.popc f) f s 1 (fun l => ((List.range W).filter fun j => a l j).length) ∧
    GivesBits (.brev f) f s n (fun l j => a l (W - 1 - j)) ∧
    (s.clear (.clz f) f → ∃ v : Nat → Nat, Completes (.clz f) f s (s.lanesWrite f 1 v) 0 ∧ ∀ l ∈ s.actLanes f,
      v l ≤ W ∧ (∀ j < W, W - v l ≤ j → a l j = false) ∧ (v l < W → a l (W - 1 - v l) = true)) ∧
    (s.clear (.ctz f) f → ∃ v : Nat → Nat, Completes (.ctz f) f s (s.lanesWrite f 1 v) 0 ∧ ∀ l ∈ s.actLanes f,
      v l ≤ W ∧ (∀ j < v l, a l j = false) ∧ (v l < W → a l (v l) = true))

/-- R74, R98, R101: PACK, UNPK and ICVT: an element replaced by a clamped value (the bits above the last element 0, log entry
14), an element read, a value converted. -/
def Obligations.PackAndConvert : Prop :=
  ∀ (f : Fields) (s : State),
    let t := f.mod.toNat
    let w := typeWidth t
    let full := if typeSigned t then 0 else 1
    let td := f.cn 3 0
    let fulld := if td = 2 ∨ td = 3 then td else if typeSigned td then 0 else 1
    (s.clear (.pack f) f → ∃ v : Nat → Nat, Completes (.pack f) f s (s.lanesWrite f 1 v) 0 ∧ ∀ l ∈ s.actLanes f,
      let i := s.srcBReg f 1 l
      (i < elems t → elt (v l) t i = clamp (readAs full (s.srcA f 1 l)) t) ∧
      ∀ j < 32, ¬ (i < elems t ∧ i * w ≤ j ∧ j < i * w + w) →
        (v l).testBit j = (decide (elems t ≤ i ∨ j < elems t * w) && (s.srcC f 1 l).testBit j)) ∧
    (s.clear (.unpk f) f → ∃ v : Nat → Nat, Completes (.unpk f) f s (s.lanesWrite f 1 v) 0 ∧ ∀ l ∈ s.actLanes f,
      let i := s.srcB f false 32 1 l
      v l < 2 ^ 32 ∧ readAs full (v l) = if i < elems t then elt (s.srcA f 1 l) t i else 0) ∧
    (s.clear (.icvt f) f → ∃ v : Nat → Nat, Completes (.icvt f) f s (s.lanesWrite f (regsOfType td) v) 0 ∧
      ∀ l ∈ s.actLanes f,
        let x := readAs t (s.srcA f (regsOfType t) l)
        v l < 2 ^ typeWidth fulld ∧ readAs fulld (v l) = readAs td (v l) ∧
        if f.cb 4 then readAs td (v l) = clamp x td else (readAs td (v l) - x) % (2 ^ typeWidth td : Nat) = 0)

/-- R99, R100: compares write the truth of their condition, to a predicate or as a mask; PCOMB combines predicates,
with both selectors 00. -/
def Obligations.Compares : Prop :=
  ∀ (f : Fields) (s : State),
    let t := f.mod.toNat
    let n := regsOfType t
    let x l := readAs t (s.srcA f n l)
    let y l := readAs t (s.srcB f (typeSigned t) (typeWidth t) n l)
    let holds l : Bool := [decide (x l = y l), decide (x l ≠ y l), decide (x l < y l), decide (x l ≤ y l), decide (x l > y l),
      decide (x l ≥ y l)].getD (f.cn 2 0) false
    let op (o : Nat) (p q : Bool) : Bool := [p && q, p || q, p != q, p && !q].getD o false
    GivesPred (.ipred f) f s f.d holds ∧
    GivesBits (.imask f) f s n (fun l _ => holds l) ∧
    GivesPred (.pcomb f) f s f.d (fun l =>
      op (f.mn 3 2) (op (f.mn 1 0) (s.predField f f.a l) (s.predField f f.b l)) (s.predField f f.c l)) ∧
    ((Instr.pcomb f).WellFormed → f.asel = 0 ∧ f.bsel = 0)

/-! ## Floating point -/

/-- R113: a result that does not overflow is the format's value that the mode asks for: RNE the nearest, of two as near the
one whose lowest mantissa bit is 0; RZ the greatest magnitude that is not above; RU the least value that is not below; RD the
greatest that is not above. INEXACT (R116) tells that it differs from the exact value. -/
def Obligations.RoundingModes : Prop :=
  ∀ t ∈ formats, ∀ (c : Rounding) (d : Sys2Proof.Machine.Dyadic), c.mode < 4 → d.m ≠ 0 →
    let r := t.roundNum c d
    let v := Dyad.val d
    r.2 &&& fOverflow = 0 →
      ∃ w, (t.decode r.1).value = some w ∧ (r.2 &&& fInexact ≠ 0 ↔ w ≠ v) ∧
        ∀ y z, (t.decode y).value = some z →
          (c.mode = 0 → (w - v).abs ≤ (z - v).abs ∧ (z ≠ w → (w - v).abs = (z - v).abs → r.1 % 2 = 0)) ∧
          (c.mode = 1 → w.abs ≤ v.abs ∧ 0 ≤ w * v ∧ (z.abs ≤ v.abs → 0 ≤ z * v → z.abs ≤ w.abs)) ∧
          (c.mode = 2 → v ≤ w ∧ (v ≤ z → w ≤ z)) ∧
          (c.mode = 3 → w ≤ v ∧ (z ≤ v → z ≤ w))

/-- R113, step 2, and R116: what an overflow leaves, by mode and format. -/
def Obligations.Overflow : Prop :=
  ∀ t ∈ formats, ∀ (c : Rounding) (d : Sys2Proof.Machine.Dyadic), c.mode < 4 → d.m ≠ 0 →
    let r := t.roundNum c d
    let neg := decide (d.m < 0)
    r.2 &&& fOverflow ≠ 0 →
      r.2 = fOverflow ||| fInexact ∧
      (t.decode r.1 = .inf neg ∧ t.specials = .ieee ∧ c.sat = false ∧
          (c.mode = 0 ∨ c.mode = 2 ∧ neg = false ∨ c.mode = 3 ∧ neg = true) ∨
        r.1 = t.maxCode + (if neg then 2 ^ (t.exp + t.man) else 0) ∧
          (t.specials ≠ .ieee ∨ c.sat = true ∨ c.mode = 1 ∨ c.mode = 2 ∧ neg = true ∨ c.mode = 3 ∧ neg = false))

/-- R114 to R117, R126 to R130: FADD, FSUB and FMUL, element by element, with the table of R130: NaNs propagate, opposite
infinities give the NaN of cause 3, zero times infinity that of cause 4, another infinity stays, exact zero sums have the
signs given, and everything else is the exact result rounded once, whichever way the exact result is written. -/
def Obligations.FloatArithmetic : Prop :=
  (∀ (f : Fields) (s : State),
    let t := floatType f
    let c := floatRounding f
    let x l e := s.floatVal f (s.srcA f 1 l) e
    let y l e := s.floatVal f (s.srcBFloat f l) e
    GivesFloats (.fadd f) f s (floatElems f) (fun l e => flush s.ftz t (fAdd t c (x l e) (y l e))) ∧
    GivesFloats (.fsub f) f s (floatElems f) (fun l e => flush s.ftz t (fSub t c (x l e) (y l e))) ∧
    GivesFloats (.fmul f) f s (floatElems f) (fun l e => flush s.ftz t (fMul t c (x l e) (y l e)))) ∧
  ∀ t ∈ [f32, f16, bf16], ∀ (c : Rounding) (a b : Bool) (k : Nat) (y : FVal) (p q d : Sys2Proof.Machine.Dyadic),
    let zero (n : Bool) : Rounded := (t.withSign n 0, 0)
    let inf (n : Bool) : Rounded := (t.withSign n t.infCode, 0)
    fAdd t c (.nan a k) y = (t.nanCode a k, 0) ∧ fMul t c (.nan a k) y = (t.nanCode a k, 0) ∧
    (y.isNan = false → fAdd t c y (.nan a k) = (t.nanCode a k, 0) ∧ fMul t c y (.nan a k) = (t.nanCode a k, 0)) ∧
    fAdd t c (.inf a) (.inf (!a)) = t.genNan 3 ∧ fSub t c (.inf a) (.inf a) = t.genNan 3 ∧
    fMul t c (.zero a) (.inf b) = t.genNan 4 ∧ fMul t c (.inf a) (.zero b) = t.genNan 4 ∧
    fAdd t c (.inf a) (.inf a) = inf a ∧ fAdd t c (.inf a) (.num p) = inf a ∧ fAdd t c (.num p) (.inf a) = inf a ∧
    fMul t c (.inf a) (.inf b) = inf (a != b) ∧ fMul t c (.inf a) (.num p) = inf (a != decide (p.m < 0)) ∧
    fAdd t c (.zero a) (.zero (!a)) = zero (c.mode == 3) ∧ fAdd t c (.zero a) (.zero a) = zero a ∧
    (p.m ≠ 0 → q.m ≠ 0 →
      (Dyad.val p + Dyad.val q = 0 → fAdd t c (.num p) (.num q) = zero (c.mode == 3)) ∧
      (d.m ≠ 0 → Dyad.val d = Dyad.val p + Dyad.val q → fAdd t c (.num p) (.num q) = t.roundNum c d) ∧
      (d.m ≠ 0 → Dyad.val d = Dyad.val p - Dyad.val q → fSub t c (.num p) (.num q) = t.roundNum c d) ∧
      (d.m ≠ 0 → Dyad.val d = Dyad.val p * Dyad.val q → fMul t c (.num p) (.num q) = t.roundNum c d))

/-- R131 to R134: FFMA rounds the exact sum of product and addend once, by RNE, with its special cases in their order; FMIN and
FMAX write an operand's encoding and set no flag but what FTZ sets: a minimum is one of two numbers, and neither is below it;
FRND writes the integer that its mode asks for (`roundInt`, which IntegerRounding describes), a zero with the operand's sign;
FSCALE rounds x × 2^n once. NaNs propagate, and infinities and zeros stay. -/
def Obligations.FloatOthers : Prop :=
  (∀ (f : Fields) (s : State),
    let t := floatType f
    let n := floatElems f
    let x l e := s.floatVal f (s.srcA f 1 l) e
    let y l e := s.floatVal f (s.srcBFloat f l) e
    GivesFloats (.ffma f) f s n
      (fun l e => flush s.ftz t (fFma t ⟨0, f.mb 3⟩ (x l e) (y l e) (s.floatVal f (s.srcC f 1 l) e))) ∧
    GivesFloats (.fmin f) f s n (fun l e => flush s.ftz t (encodeExact t (minMaxVal false (f.cb 0) (x l e) (y l e)), 0)) ∧
    GivesFloats (.fmax f) f s n (fun l e => flush s.ftz t (encodeExact t (minMaxVal true (f.cb 0) (x l e) (y l e)), 0)) ∧
    GivesFloats (.frnd f) f s n (fun l e => flush s.ftz t (fRnd t (f.cn 1 0) (x l e))) ∧
    GivesFloats (.fscale f) f s n (fun l e =>
      flush s.ftz t (fScale t (floatRounding f) (sintOf 32 (s.srcB f true 32 1 l)) (x l e)))) ∧
  (∀ t ∈ [f32, f16, bf16], ∀ (c : Rounding) (a b : Bool) (k : Nat) (x y z : FVal) (p q r d : Sys2Proof.Machine.Dyadic),
    let zero (n : Bool) : Rounded := (t.withSign n 0, 0)
    let inf (n : Bool) : Rounded := (t.withSign n t.infCode, 0)
    fFma t c (.nan a k) y z = (t.nanCode a k, 0) ∧
    (x.isNan = false → fFma t c x (.nan a k) z = (t.nanCode a k, 0)) ∧
    (x.isNan = false → y.isNan = false → fFma t c x y (.nan a k) = (t.nanCode a k, 0)) ∧
    (z.isNan = false → fFma t c (.zero a) (.inf b) z = t.genNan 4 ∧ fFma t c (.inf a) (.zero b) z = t.genNan 4) ∧
    fFma t c (.inf a) (.inf b) (.inf !(a != b)) = t.genNan 3 ∧
    (z.isNan = false → z ≠ .inf !(a != b) → fFma t c (.inf a) (.inf b) z = inf (a != b)) ∧
    (p.m ≠ 0 → q.m ≠ 0 → r.m ≠ 0 →
      (let n := a != decide (p.m < 0)
       (∀ u ∈ [(FVal.inf a, FVal.num p), (.num p, .inf a)], fFma t c u.1 u.2 (.inf !n) = t.genNan 3 ∧
         (z.isNan = false → z ≠ .inf !n → fFma t c u.1 u.2 z = inf n)) ∧
       ∀ u ∈ [(FVal.zero a, FVal.num p), (.num p, .zero a)], fFma t c u.1 u.2 (.inf b) = inf b ∧
         fFma t c u.1 u.2 (.zero b) = zero (if n = b then b else c.mode == 3) ∧ fFma t c u.1 u.2 (.num r) = t.roundNum c r) ∧
      fFma t c (.zero a) (.zero b) (.num r) = t.roundNum c r ∧
      fFma t c (.num p) (.num q) (.inf a) = inf a ∧
      (d.m ≠ 0 → Dyad.val d = Dyad.val p * Dyad.val q → fFma t c (.num p) (.num q) (.zero a) = t.roundNum c d) ∧
      (Dyad.val p * Dyad.val q + Dyad.val r = 0 → fFma t c (.num p) (.num q) (.num r) = zero (c.mode == 3)) ∧
      (d.m ≠ 0 → Dyad.val d = Dyad.val p * Dyad.val q + Dyad.val r → fFma t c (.num p) (.num q) (.num r) = t.roundNum c d)) ∧
    ∀ e, fFma t c (.zero a) (.zero b) (.inf e) = inf e ∧ fFma t c (.zero a) (.zero b) (.zero e) = zero (if (a != b) = e then e else c.mode == 3)) ∧
  (∀ t ∈ [f32, f16, bf16], ∀ (c : Rounding) (a : Bool) (k m x : Nat) (n : Int) (d e : Sys2Proof.Machine.Dyadic),
    (∀ v ∈ [FVal.zero a, .inf a, .nan a k], fRnd t m v = (encodeExact t v, 0) ∧ fScale t c n v = (encodeExact t v, 0)) ∧
    encodeExact t (.nan a k) = t.nanCode a k ∧ encodeExact t (.inf a) = t.withSign a t.infCode ∧
    encodeExact t (.zero a) = t.withSign a 0 ∧
    ((t.decode x).isNan = false → encodeExact t (t.decode x) = x % 2 ^ t.width) ∧
    (t.decode x = .num d → m < 4 →
      (fRnd t m (.num d)).2 = 0 ∧
      (roundInt m d = 0 → (fRnd t m (.num d)).1 = t.withSign (decide (d.m < 0)) 0) ∧
      (roundInt m d ≠ 0 → (t.decode (fRnd t m (.num d)).1).value = some (roundInt m d : Rat))) ∧
    (t.decode x = .num d → Dyad.val e = Dyad.val d * (2 : Rat) ^ n → fScale t c n (.num d) = t.roundNum c e)) ∧
  ∀ (nanMode : Bool) (x y : FVal), x.isNan = false → y.isNan = false →
    let lo := minMaxVal false nanMode x y
    let hi := minMaxVal true nanMode x y
    (lo = x ∨ lo = y) ∧ x.below lo = false ∧ y.below lo = false ∧
    (hi = x ∨ hi = y) ∧ hi.below x = false ∧ hi.below y = false ∧
    ∀ isMax n k n' k', minMaxVal isMax true (.nan n k) y = .nan n k ∧ minMaxVal isMax false (.nan n k) y = y ∧
      minMaxVal isMax true x (.nan n k) = .nan n k ∧ minMaxVal isMax false x (.nan n k) = x ∧
      minMaxVal isMax nanMode (.nan n k) (.nan n' k') = .nan n k

/-- R135, R136: the comparisons, the masks and the classes. -/
def Obligations.FloatCompares : Prop :=
  (∀ (f : Fields) (s : State),
    let t := floatType f
    let x l e := s.floatVal f (s.srcA f 1 l) e
    let y l e := s.floatVal f (s.srcBFloat f l) e
    let nan l e := (x l e).isNan || (y l e).isNan
    let holds l e : Bool :=
      if f.cn 2 0 = 6 then !nan l e else if f.cn 2 0 = 7 then nan l e else if nan l e then f.cb 3
      else [(x l e).eq (y l e), !(x l e).eq (y l e), (x l e).lt (y l e), !(y l e).lt (x l e), (y l e).lt (x l e),
        !(x l e).lt (y l e)].getD (f.cn 2 0) false
    GivesPred (.fpred f) f s f.d (fun l => holds l 0) ∧
    GivesFloats (.fmask f) f s (floatElems f) (fun l e => (if holds l e then 2 ^ t.width - 1 else 0, 0)) ∧
    Gives (.fclass f) f s 1 (fun l => classWord t (s.srcA f 1 l) (x l 0))) ∧
  ∀ t ∈ [f32, f16, bf16], ∀ code, ((List.range 9).filter fun j => (classWord t code (t.decode code)).testBit j).length = 1

/-- R137: REDF writes one result for the sub-gang. With no active lane that is +0, +∞ or −∞; else the first NaN in lane order; a
sum of opposite infinities is the NaN of cause 3, one infinity stays, an exact zero sum has the sign given, and every other sum
is exact before its one rounding, so neither the order of the lanes nor their number of additions shows; the smallest and the
largest are one of the values, and none is below or above. -/
def Obligations.FloatReduction : Prop :=
  (∀ (f : Fields) (s : State), s.clear (.redf f) f →
    let t := floatType f
    let vals e := (s.actLanes f).map fun l => s.floatVal f (s.srcA f 1 l) e
    let r e := flush s.ftz t (reduceFloat t (f.cn 1 0) ⟨f.cn 3 2, f.mb 3⟩ (vals e))
    Completes (.redf f) f s [⟨.s f.d.toNat, 0, (((List.range (floatElems f)).map fun e => (r e).1 <<< (16 * e)).sum) % 2 ^ 32⟩]
      ((List.range (floatElems f)).foldl (fun a e => a ||| (r e).2) 0)) ∧
  ∀ t ∈ [f32, f16, bf16], ∀ (c : Rounding) (us vs : List FVal), (∀ v ∈ us, v.isNan = false) → (∀ d, .num d ∈ us → d.m ≠ 0) →
    let finite := ∀ a, .inf a ∉ us
    let sum := (us.filterMap FVal.value).sum
    (us.Perm vs → reduceFloat t 0 c us = reduceFloat t 0 c vs) ∧
    (∀ op n k, reduceFloat t op c (us ++ .nan n k :: vs) = (t.nanCode n k, 0)) ∧
    reduceFloat t 0 c [] = (0, 0) ∧ reduceFloat t 1 c [] = (t.infCode, 0) ∧
    reduceFloat t 2 c [] = (t.infCode + 2 ^ (t.exp + t.man), 0) ∧
    (.inf false ∈ us → .inf true ∈ us → reduceFloat t 0 c us = t.genNan 3) ∧
    (∀ a, .inf a ∈ us → .inf (!a) ∉ us → reduceFloat t 0 c us = (t.withSign a t.infCode, 0)) ∧
    (us ≠ [] → finite → sum = 0 →
      reduceFloat t 0 c us = (t.withSign (decide (∀ v ∈ us, v = .zero true) || c.mode == 3) 0, 0)) ∧
    (finite → sum ≠ 0 → ∀ d, Dyad.val d = sum → reduceFloat t 0 c us = t.roundNum c d) ∧
    (us ≠ [] → ∃ lo ∈ us, ∃ hi ∈ us, reduceFloat t 1 c us = (encodeExact t lo, 0) ∧ reduceFloat t 2 c us = (encodeExact t hi, 0) ∧
      ∀ v ∈ us, v.below lo = false ∧ hi.below v = false)

/-- R138 to R144: the conversions; F2F's 96-bit form replaces one element of d. -/
def Obligations.Conversions : Prop :=
  ∀ (f : Fields) (s : State),
    let ts := formatOf (f.cn 2 0)
    let td := formatOf (f.cn 5 3)
    let rf l := flush s.ftz td (td.round ⟨f.mn 1 0, f.mb 2⟩
      (decodeFtz s.ftz ts ((s.srcA f 1 l >>> (f.xn 4 0 * ts.width)) % 2 ^ ts.width)))
    let at_ := f.xn 9 5 * td.width
    let ti := f.cn 7 4
    let si := f.cn 3 0
    let ri l := floatToInt ti (f.mn 1 0) (decodeFtz s.ftz ts (s.srcA f 1 l))
    let rt l := (formatOf (f.cn 6 4)).round ⟨f.mn 1 0, f.mb 2⟩
      (FVal.ofDyadic ⟨readAs si (s.srcA f (regsOfType si) l), 0⟩ false)
    (s.clear (.f2f f) f → ∃ v : Nat → Nat, Completes (.f2f f) f s (s.lanesWrite f 1 v) (s.lanesFlags f fun l => (rf l).2) ∧
      ∀ l ∈ s.actLanes f, ∀ j < 32, (v l).testBit j =
        if f.form = .w64 then (rf l).1.testBit j
        else if at_ ≤ j ∧ j < at_ + td.width then (rf l).1.testBit (j - at_) else (s.field f f.d 1 l).testBit j) ∧
    (s.clear (.f2i f) f → Completes (.f2i f) f s (s.lanesWrite f (regsOfType ti) fun l => (ri l).1)
      (s.lanesFlags f fun l => (ri l).2)) ∧
    (s.clear (.i2f f) f → Completes (.i2f f) f s (s.lanesWrite f 1 fun l => (rt l).1) (s.lanesFlags f fun l => (rt l).2))

/-- R133, R143: rounding to an integer: the nearest, of two the even one; toward zero; up; down. -/
def Obligations.IntegerRounding : Prop :=
  ∀ (d : Sys2Proof.Machine.Dyadic), d.m ≠ 0 →
    let v := Dyad.val d
    let q m := roundInt m d
    ((q 0 - v : Rat).abs ≤ 1 / 2 ∧ ((q 0 - v : Rat).abs = 1 / 2 → q 0 % 2 = 0)) ∧
    ((q 1 : Rat).abs ≤ v.abs ∧ v.abs < (q 1 : Rat).abs + 1 ∧ 0 ≤ (q 1 : Rat) * v) ∧
    (v ≤ q 2 ∧ (q 2 : Rat) < v + 1) ∧ ((q 3 : Rat) ≤ v ∧ v < (q 3 : Rat) + 1)

/-- R145, R146: the special functions are long-latency; their exact cases and special inputs are those of the table. The rest
of their values is free within the bounds of the table, by `Config.specialFunction` (log entry 4). -/
def Obligations.SpecialFunctions : Prop :=
  (∀ (f : Fields) (s : State),
    let r fn l := specialReg s.ftz fn (f.mn 1 0) (s.srcA f 1 l)
    GivesLater (.rcp f) f s 1 (r .rcp) ∧ GivesLater (.rsq f) f s 1 (r .rsq) ∧ GivesLater (.sqrt f) f s 1 (r .sqrt) ∧
    GivesLater (.ex2 f) f s 1 (r .ex2) ∧ GivesLater (.exp f) f s 1 (r .exp) ∧ GivesLater (.lg2 f) f s 1 (r .lg2) ∧
    GivesLater (.log f) f s 1 (r .log) ∧ GivesLater (.sin f) f s 1 (r .sin) ∧ GivesLater (.cos f) f s 1 (r .cos) ∧
    GivesLater (.tanh f) f s 1 (r .tanh) ∧ GivesLater (.sigm f) f s 1 (r .sigm)) ∧
  ∀ t ∈ [f32, f16, bf16], ∀ (free k : Nat) (n : Bool) (d : Sys2Proof.Machine.Dyadic) (z : Int),
    let sp fn x := specialValue fn t free x
    let zero (n : Bool) : Rounded := (t.withSign n 0, 0)
    let inf (n : Bool) (fl : Word) : Rounded := (t.withSign n t.infCode, fl)
    (∀ fn, sp fn (.nan n k) = (t.nanCode n k, 0)) ∧
    sp .rcp (.zero n) = inf n fDivZero ∧ sp .rcp (.inf n) = zero n ∧
    sp .rsq (.zero n) = inf n fDivZero ∧ sp .rsq (.inf false) = zero false ∧
    sp .sqrt (.zero n) = zero n ∧ sp .sqrt (.inf false) = inf false 0 ∧
    sp .ex2 (.inf true) = zero false ∧ sp .ex2 (.inf false) = inf false 0 ∧
    sp .exp (.inf true) = zero false ∧ sp .exp (.inf false) = inf false 0 ∧
    (t.decode (sp .exp (.zero n)).1).value = some 1 ∧
    sp .lg2 (.zero n) = inf true fDivZero ∧ sp .log (.zero n) = inf true fDivZero ∧ sp .log (.num ⟨1, 0⟩) = zero false ∧
    sp .sin (.zero n) = zero n ∧ (t.decode (sp .cos (.zero n)).1).value = some 1 ∧
    sp .sin (.inf n) = t.genNan 5 ∧ sp .cos (.inf n) = t.genNan 5 ∧ sp .tanh (.zero n) = zero n ∧
    (t.decode (sp .tanh (.inf n)).1).value = some (if n then -1 else 1) ∧
    (t.decode (sp .sigm (.zero n)).1).value = some (1 / 2) ∧
    sp .sigm (.inf true) = zero false ∧ (t.decode (sp .sigm (.inf false)).1).value = some 1 ∧
    (d.m < 0 → ∀ g ∈ [Sfu.rsq, .sqrt, .lg2, .log], sp g (.num d) = t.genNan 5) ∧
    (d.m ≠ 0 → Dyad.val d = (2 : Rat) ^ z →
      sp .rcp (.num d) = t.roundNum rne ⟨1, -z⟩ ∧
      (t.decode (sp .lg2 (.num d)).1).value = (t.decode (t.round rne (FVal.ofDyadic ⟨z, 0⟩ false)).1).value) ∧
    (d.m ≠ 0 → Dyad.val d = (z : Rat) → -1000 ≤ z → z ≤ 1000 → sp .ex2 (.num d) = t.roundNum rne ⟨1, z⟩)

/-! ## Across lanes -/

/-- R102 to R107: the cross-lane instructions. MATCH's mod[3:1] is reserved. -/
def Obligations.CrossLane : Prop :=
  ∀ (f : Fields) (s : State),
    let W := s.warp.info.width
    let lanes := s.actLanes f
    let S := [W, min W 4, min W 8, min W 16].getD (f.mn 3 2) W
    let k l := s.srcB f false 32 1 l
    let i l := l % S
    let src l := l - i l + [k l % S, (i l + k l) % S, (S - 1 - i l + k l) % S, (i l ^^^ k l) % S].getD (f.mn 1 0) 0
    let M := maskOf (lanes.filter fun l => s.predField f f.a l != f.mb 2)
    let all := maskOf lanes
    let test := [false, M == all, M != 0, M == 0 || M == all].getD (f.mn 1 0) false
    let n := if f.mb 0 then 2 else 1
    let t := f.mod.toNat
    let xs := lanes.map fun l => s.srcA f (regsOfType t) l
    let zs := xs.map (readAs t)
    Gives (.xlane f) f s 1 (fun l => s.srcA f 1 (src l)) ∧
    (s.clear (.pgath f) f → Completes (.pgath f) f s
      ([⟨.s f.d.toNat, 0, M % 2 ^ 32⟩, ⟨.s (f.d.toNat + 1), 0, M / 2 ^ 32 % 2 ^ 32⟩] ++
        if f.mn 1 0 = 0 then []
        else (lanes.map fun l => ⟨.p f.b.toNat, l, b2n test⟩) ++ [⟨.q f.c.toNat, 0, b2n test⟩]) 0) ∧
    (s.clear (.bcast f) f → Completes (.bcast f) f s
      ((lanes.take 1).flatMap fun l => spread .s f.d.toNat 0 (s.srcA f n (k l % W)) n) 0) ∧
    (s.clear (.redi f) f → ∃ v, Completes (.redi f) f s (spread .s f.d.toNat 0 v (regsOfType t)) 0 ∧ v < 2 ^ typeWidth t ∧
      (f.cn 2 0 = 0 → (readAs t v - zs.sum) % (2 ^ typeWidth t : Nat) = 0) ∧
      (f.cn 2 0 = 1 → (zs = [] → readAs t v = typeMax t) ∧ (zs ≠ [] → readAs t v ∈ zs ∧ ∀ z ∈ zs, readAs t v ≤ z)) ∧
      (f.cn 2 0 = 2 → (zs = [] → readAs t v = typeMin t) ∧ (zs ≠ [] → readAs t v ∈ zs ∧ ∀ z ∈ zs, z ≤ readAs t v)) ∧
      ∀ j < typeWidth t,
        (f.cn 2 0 = 3 → v.testBit j = xs.all (·.testBit j)) ∧ (f.cn 2 0 = 4 → v.testBit j = xs.any (·.testBit j)) ∧
        (f.cn 2 0 = 5 → v.testBit j = ((xs.filter (·.testBit j)).length % 2 == 1))) ∧
    GivesBits (.match_ f) f s 2 (fun l j => lanes.contains j && s.srcA f n j == s.srcA f n l) ∧
    ((Instr.match_ f).WellFormed → f.mn 3 1 = 0)

/-! ## Addresses -/

/-- R26 to R34: the address instructions, on 64-bit bit addresses. -/
def Obligations.AddressInstructions : Prop :=
  ∀ (f : Fields) (s : State),
    let w := if f.mb 3 then 2 ^ f.c.toNat else f.c.toNat + 1
    let x l := s.srcA f 2 l
    let idx l : Int := [sintOf 32 (s.srcBReg f 1 l), ((s.srcBReg f 1 l % 2 ^ 32 : Nat) : Int), sintOf 64 (s.srcBReg f 2 l)].getD
      (f.mn 1 0) 0
    GivesInt (.lea f) f s 3 (fun l => x l + idx l * w + sintOf 32 f.imm32.toNat) ∧
    Gives (.aligndn f) f s 2 (fun l => x l / w * w) ∧
    Gives (.alignup f) f s 2 (fun l => (x l + w - 1) / w * w % 2 ^ 64) ∧
    GivesPred (.alcls f) f s f.d (fun l =>
      [decide (w ∈ [1, 2, 4, 8, 16, 32, 64, 128]) && x l % w == 0,
        decide (w ∈ [1, 2, 4, 8, 16, 32, 64]) && x l % w == 0, decide (w ≤ 64) && decide (x l % 64 + w ≤ 64)].getD
        (f.mn 1 0) false) ∧
    Gives (.bitofs f) f s 1 (fun l => x l % w) ∧
    Gives (.b2bit f) f s 2 (fun l => x l * 8 % 2 ^ 64) ∧
    GivesInt (.pdiff f) f s 3 (fun l => sintOf 64 (x l + (2 ^ 64 - s.srcBReg f 2 l)) / w) ∧
    ((∀ l ∈ s.actLanes f, x l % 8 = 0) → Gives (.bit2b f) f s 2 (fun l => x l / 8)) ∧
    (s.clear (.bit2b f) f → ∀ before l after, s.actLanes f = before ++ l :: after → (∀ k ∈ before, x k % 8 = 0) →
      x l % 8 ≠ 0 → exec (.bit2b f) s = .next (s.trap { code := 0x06, addr := x l, info0 := 8, lane := l }))

/-! ## Control flow -/

/-- R161 to R163, R166 to R168: BRA, BRX, CALL, CALLX, RET and LOOP move each quad of the sub-gang by its own vote and target,
count backward branches and mark loop exits; the link and the decremented count are long-latency results with the value at
issue (R52, R55). -/
def Obligations.ControlTransfers : Prop :=
  ∀ (f : Fields) (s : State),
    let pc := s.warp.pc
    let next := pc + BitVec.ofNat 64 f.slot
    let active := s.activeLanes f
    let guard := s.guardTrue f 0
    let count l := (s.reg (regName f.k f.d.toNat) l + (2 ^ 32 - 1)) % 2 ^ 32
    let takes (loop : Bool) (q : Nat) : Bool :=
      let cond l := !loop || count l != 0
      if f.k then guard && cond 0
      else if f.mb 0 then (s.warp.quadLanes q).all fun l => active.contains l && cond l
      else (s.warp.quadLanes q).any fun l => active.contains l && cond l
    let rel (_ : Nat) : Option DWord := some (pc + BitVec.ofNat 64 (immInt f true 64) * 64)
    let ind (q : Nat) : Option DWord :=
      if f.k then some (BitVec.ofNat 64 (s.srcA f 2 0))
      else ((s.warp.quadLanes q).filter active.contains).head?.map fun l => BitVec.ofNat 64 (s.srcA f 2 l)
    let jumps (i : Instr) (loop counted : Bool) (target : Nat → Option DWord) (due : State → Prop) : Prop :=
      ∃ t : State, exec i s = .next t ∧ due t ∧ t.warp.regs = s.warp.regs ∧ SameBytes s t ∧
        t = { s with warp := t.warp, agenda := t.agenda } ∧ t.warp.gang = [] ∧
        t.warp.fmode = s.warp.fmode ||| s.warp.runFlags ∧ t.warp.quads.length = s.warp.quads.length ∧
        ∀ q u, s.warp.quads[q]? = some u → ∃ v, t.warp.quads[q]? = some v ∧ v.live = u.live ∧
          if !s.warp.gang.contains q then v.pc = u.pc ∧ v.ctr = u.ctr
          else match target q with
            | none => v.pc = next ∧ v.ctr = u.ctr
            | some a =>
              let back := decide (a ≤ pc)
              let lx := counted && f.mb 1
              if takes loop q then
                v.pc = a ∧ v.ctr = if lx && !back then 0xFFFF else if counted && back then u.ctr + 1 else u.ctr
              else v.pc = next ∧ v.ctr = if lx && back then 0xFFFF else u.ctr
    let none_ (t : State) : Prop := t.agenda = s.agenda ∧ t.warp.score = s.warp.score
    let link (target : Nat → Option DWord) (t : State) : Prop := Due s t (coversD f 2)
      (if f.k then (if guard then dest f 2 0 (pc.toNat + f.slot) else [])
       else (s.warp.gang.filter fun q => takes false q && (target q).isSome).flatMap fun q =>
        (s.warp.quadLanes q).flatMap fun l => dest f 2 l (pc.toNat + f.slot))
    let counts (t : State) : Prop := Due s t [regName f.k f.d.toNat]
      ((s.actLanes f).map fun l => ⟨regName f.k f.d.toNat, l, count l⟩)
    jumps (.bra f) false true rel none_ ∧ jumps (.brx f) false true ind none_ ∧ jumps (.ret f) false false ind none_ ∧
    jumps (.call f) false false rel (link rel) ∧ jumps (.callx f) false false ind (link ind) ∧
    jumps (.loop f) true true rel counts

/-- R64, R156, R165, R169: NOP only moves on; YIELD ends the run and marks the sub-gang; EXIT takes the active lanes out of
the live masks, and the warp that loses its last live lane retires once its loads have returned. R170: ENTER pushes its id and
LEAVE pops, once for the sub-gang and only when a lane is active; at depth 0 LEAVE has no effect. With no stop request armed
(R439), nothing else happens. -/
def Obligations.NopYieldExitRegions : Prop :=
  (∀ (f : Fields) (s : State),
    (∃ t : State, exec (.nop f) s = .next t ∧ WarpOnly s t ∧ CountersPast s t f.slot) ∧
    (∃ t : State, exec (.yield_ f) s = .next t ∧ WarpOnly s t ∧ CountersPast s t f.slot ∧ t.warp.gang = [] ∧
      ∀ q ∈ s.warp.gang, s.acts f = true → ∀ v, t.warp.quads[q]? = some v → v.yielded = true) ∧
    let lanes := s.activeLanes f
    let stay q i := (s.warp.quads.getD q ⟨0, 0, 0, .none, 0, false, 0⟩).live.getLsbD i && !lanes.contains (4 * q + i)
    ((∃ q < s.warp.quads.length, ∃ i < 4, stay q i = true) → s.warp.resuming = none →
      ∃ t : State, exec (.exit_ f) s = .next t ∧ WarpOnly s t ∧ t.warp.gang = [] ∧
        t.warp.quads.length = s.warp.quads.length ∧
        ∀ q u, s.warp.quads[q]? = some u → ∃ v, t.warp.quads[q]? = some v ∧ v.ctr = u.ctr ∧
          v.pc = (if s.warp.gang.contains q then u.pc + BitVec.ofNat 64 f.slot else u.pc) ∧
          ∀ i < 4, v.live.getLsbD i = stay q i) ∧
    ((∀ q < s.warp.quads.length, ∀ i < 4, stay q i = false) → (∀ e ∈ s.warp.score, e.kind ≠ .load) →
      s.clusterAway s.myBlock = false →
      ∃ t : State, exec (.exit_ f) s = .next t ∧ t.warp.live = false ∧ t.others = s.others ∧ t.mem = s.mem ∧ t.cores = s.cores ∧
        ∀ w ∈ t.warps, w ∈ s.others)) ∧
  ∀ (f : Fields) (s : State), s.myCore.dbgctl.getLsbD 3 = false →
    (∃ t : State, exec (.enter f) s = .next t ∧ WarpOnly s t ∧ CountersPast s t f.slot ∧
      (s.acts f = false → t.warp.regions = s.warp.regions ∧ t.warp.depth = s.warp.depth) ∧
      (s.acts f = true → t.warp.depth = min (s.warp.depth + 1) 255 ∧ t.warp.regions.getD 0 0 = f.imm16 ∧
        ∀ k < 7, t.warp.regions.getD (k + 1) 0 = s.warp.regions.getD k 0)) ∧
    (∃ t : State, exec (.leave f) s = .next t ∧ WarpOnly s t ∧ CountersPast s t f.slot ∧
      (s.acts f = false ∨ s.warp.depth = 0 → t.warp.regions = s.warp.regions ∧ t.warp.depth = s.warp.depth) ∧
      (s.acts f = true → 0 < s.warp.depth → s.warp.regions.length = 8 → t.warp.depth = s.warp.depth - 1 ∧
        t.warp.regions.getD 7 0 = 0 ∧ ∀ k < 7, t.warp.regions.getD k 0 = s.warp.regions.getD (k + 1) 0))

/-! ## Translation and memory -/

/-- R355 to R358: a walk reads one entry at each level; the first leaf, at level 1, 2 or 3, ends it. R361: a cached leaf that
grants what an access needs answers without a walk and changes nothing. -/
def Obligations.Translation : Prop :=
  (∀ (s : State) (die process va k e : Nat) (table : Nat → Nat),
    let at_ j := table j + 64 * tableIndex j va
    let root := s.rootOf die process (spaceOf va)
    0 < k → k < 4 → tableOk root (if spaceOf va = 1 then 2 ^ 20 else 2 ^ 23) = true → root < 2 ^ 55 →
    table 0 = root + s.device * 2 ^ 55 →
    (∀ j ≤ k, s.poisonOf (at_ j) 64 = none) →
    (∀ j < k, ∃ next, entryKind j (s.cohRead (at_ j) 64) = .table next ∧ table (j + 1) = next + s.device * 2 ^ 55) →
    e = s.cohRead (at_ k) 64 → entryKind k e = .leaf →
      (s.walk die process va).1 = .leaf e k (at_ k) ∧ bitOf e 0 = true ∧ bitOf e 1 = false ∧
      (s.peek die process va needR = if bitOf e 2 && bitOf e 5 then
          .ok ((if bitOf e 10 then bits e 63 55 else s.device) * 2 ^ 55 + bits e 54 19 * 2 ^ 19 + va % 2 ^ pageBits k) e
        else .perm)) ∧
  ∀ (s : State) (die core process va : Nat) (user : Bool) (n : Need) (t : TlbEntry),
    core < 64 → (s.coreAt die core).tlb.find? (fun t =>
      (spaceOf va == 2 || t.process == process) && t.space == spaceOf va && t.va == va / 2 ^ t.size * 2 ^ t.size) = some t →
    leafGrants t.leaf.toNat user n = true →
      s.translate die core process user va n = (s, .ok (leafAddr s.device t.leaf.toNat t.size va) t.leaf.toNat)

/-- R239 to R245: LD, LDK and LDX take the addresses of their lanes, split each access at 64-bit words, and wait on the
scoreboard for the parts. -/
def Obligations.LoadsIssue : Prop :=
  ∀ (f : Fields) (s u : State) (r : Reach),
    let idx l : Int := [0, sintOf 32 (s.srcBReg f 1 l), ((s.srcBReg f 1 l % 2 ^ 32 : Nat) : Int),
      sintOf 64 (s.srcBReg f 2 l)].getD (f.cn 7 6) 0
    let disp : Int := if f.isImm16 then sintOf 16 f.imm16.toNat else sintOf 32 f.imm32.toNat
    let address l : Int := (s.srcA f 2 l + idx l * (f.cn 5 0 + 1) + disp) % (2 ^ 64 : Nat)
    let e := f.mod.toNat
    let n := f.xn 3 0 + 1
    let issues (i : Instr) (whole : Option Nat) (w : Nat) (covers : List RegName) (dest : LoadDest) (acq : Option Nat) : Prop :=
      s.Reached i f ⟨.load, needR, w, whole⟩ u r →
        u.warp = s.warp ∧
        (s.warp.resuming = none → r.good.map (fun x => (x.1, (x.2.1 : Int))) = (s.actLanes f).map fun l => (l, address l)) ∧
        (∀ x ∈ r.good, (x.2.2.map (·.width)).sum = w ∧ ∀ p ∈ x.2.2, p.lane = x.1 ∧ (x.2.1 + p.at_) % 64 + p.width ≤ 64) ∧
        ∃ t : State, exec i s = .next t ∧ AccessFrame u t f ∧
          Awaits u t .load covers (some dest) acq (r.good.map fun x => ⟨x.1, x.2.1, x.2.2.length, 0⟩)
            (r.parts.filterMap fun p => match p.spot with
              | .mem fa leaf => some ⟨s.warp.nextId, p.lane, fa, p.width, p.at_, leafMode leaf f.hint.toNat, p.va, p.packed⟩
              | _ => none)
    let plain : LoadDest := ⟨f.k, f.d.toNat, 1, memWidth f, if f.mod = 15 then f.xb 11 else 10 ≤ f.mod.toNat⟩
    issues (.ld f) (some (memWidth f)) (memWidth f) (coversD f (regsFor (memWidth f))) plain
      (if f.xn 4 3 = 0 then none else some (f.xn 2 0)) ∧
    issues (.ldk f) (some (memWidth f)) (memWidth f) (coversD f (regsFor (memWidth f))) plain none ∧
    issues (.ldx f) none (n * typeWidth e) (coversD f n) ⟨false, f.d.toNat, n, typeWidth e, typeSigned e⟩ none

/-- R241, R242, R243, R250: what an access under way does. A part whose turn has come reads memory as its home holds it, and
once no part is out the result is written, extended as the load says, and nothing else. -/
def Obligations.LoadsPerform : Prop :=
  ∀ (s : State) (e : ScoreEntry) (before after : List ScoreEntry),
    let id := s.warp.id
    s.warp.live = true → s.warp.score = before ++ e :: after → (∀ x ∈ before ++ after, x.id ≠ e.id) →
    (∀ p rest, e.parts = p :: rest → p.entry = e.id →
      s.partReady id e p = true → s.isLocal p.pa = true → dieOf p.pa = id.die → s.alive id.die = true →
      (∀ h ∈ s.holders, h.1 ≠ lineOf p.pa) → s.hasRoom id.die (lineOf p.pa) → p.mode.mig = false →
      (s.dirAt (lineOf p.pa)).busy = none → (∀ d, (s.dirAt (lineOf p.pa)).st ≠ .o d) → s.poisonOf p.pa p.width = none →
      p.pa % 64 + p.width ≤ 64 → (p.mode.hint = 1 ∨ p.mode.hint = 3 ∨ tget none (s.coreAt id.die id.core).l1 (sectorOf p.pa) = none) →
        ∃ t : State, exec (.longLatencyResult id e.id) s = .next t ∧ SameBytes s t ∧ t.warp.regs = s.warp.regs ∧
          t.agenda = s.agenda ++ [Instr.longLatencyResult id e.id] ∧
          t.warp.score = before ++ { e with
            parts := rest
            lanes := e.lanes.map fun l => if l.lane = p.lane then
              { l with left := l.left - 1, value := l.value + readBits s.homeByte p.pa p.width * 2 ^ p.at_ } else l } :: after) ∧
    (e.parts = [] → (∀ l ∈ e.lanes, l.left = 0) → e.fail = none → e.watch = none → e.acquire = none →
      ∃ t : State, exec (.longLatencyResult id e.id) s = .next t ∧ t = { s with warp := t.warp } ∧ SameBytes s t ∧
        t.warp = { s.warp with regs := t.warp.regs, fmode := s.warp.fmode ||| e.flags, score := before ++ after } ∧
        (e.dest = none → t.warp.regs = s.warp.regs.setAll (e.results.filter fun r => !e.lost.contains (r.name, r.lane))) ∧
        ∀ d, e.dest = some d → e.results = [] → e.lost = [] → t.warp.regs = s.warp.regs.setAll (e.lanes.flatMap fun l =>
          (List.range (if d.elems = 1 then regsFor d.width else d.elems)).map fun i =>
            let v := if d.elems = 1 then l.value else l.value / 2 ^ (i * d.width)
            let x : Int := if d.signed then sintOf d.width v else ((v % 2 ^ d.width : Nat) : Int)
            ⟨regName d.uniform (d.reg + i), if d.uniform then 0 else l.lane,
              (x / (2 ^ (if d.elems = 1 then 32 * i else 0) : Nat) % (2 ^ 32 : Nat)).toNat⟩))

/-- R239, R241, R243 to R245: ST, STK and STX send each part of each lane, with its bits of the data, on its way to its home;
the bytes change when it arrives there. A `.rel` to scratchpad comes after its release, which leads to `v`. -/
def Obligations.StoresIssue : Prop :=
  ∀ (f : Fields) (s u v : State) (r : Reach),
    let w := memWidth f
    let e := f.mod.toNat
    let n := f.xn 3 0 + 1
    let issues (i : Instr) (whole : Option Nat) (w : Nat) (value : Nat → Nat) (rel : Option Nat) : Prop :=
      s.Reached i f ⟨.store, needW, w, whole⟩ u r → v.watchOf false true (seenOf w (s.memLanes f (s.memAddr f))) = none →
      (if rel.isSome && r.parts.any (fun p => match p.spot with | .mem _ _ => false | _ => true) then
        u.release (rel.getD 0) = (v, true) else v = u) →
        u.warp = s.warp ∧
        ∃ t : State, exec i s = .next t ∧ AccessFrame v t f ∧ t.warp.score = v.warp.score ∧
          ∃ news, t.agenda = v.agenda ++ news ∧
            ∀ x, x ∈ news.flatMap Instr.stored ↔ ∃ p ∈ r.parts, ∃ fa leaf, p.spot = .mem fa leaf ∧
              x = ⟨fa, p.width, value p.lane / 2 ^ p.at_ % 2 ^ p.width, p.packed⟩
    let data l := s.field f f.d (regsFor w) l % 2 ^ w
    issues (.st f) (some w) w data (if f.xn 4 3 = 0 then none else some (f.xn 2 0)) ∧
    issues (.stk f) (some w) w data none ∧
    ∃ packed : Nat → Nat,
      (∀ l, ∀ i < n,
        let z : Int := if typeSigned e then sintOf 32 (s.reg (.v (f.d.toNat + i)) l) else (s.reg (.v (f.d.toNat + i)) l : Int)
        packed l / 2 ^ (i * typeWidth e) % 2 ^ typeWidth e =
          (if f.xb 4 then clamp z e % (2 ^ typeWidth e : Nat) else z % (2 ^ typeWidth e : Nat)).toNat) ∧
      issues (.stx f) none (n * typeWidth e) packed none

/-- R236, R372 to R375: requests reach the home of a line that nothing else has in hand. A store of the home's own die is
performed there, and of all bytes only those it stores to change; GETS leaves the requester among the sharers with the
line as the home holds it, and GETM leaves it the owner with the stored bits in its copy. -/
def Obligations.RequestsAtHome : Prop :=
  ∀ (s : State) (r : Req) (p : StorePart),
    let home := dieOf (r.line * 2048)
    s.canonical = true → r.line < 2 ^ 53 → s.isLocal (r.line * 2048) = true → s.alive home = true → (∀ h ∈ s.holders, h.1 ≠ r.line) →
    (s.dirAt r.line).busy = none → s.waitsReq r (r.kind != .getS) = false → r.rel = none →
    s.snoopVictim r.line = none → s.hasRoom r.die r.line →
    (r.kind = .homeStore → r.die = home → r.stores = [p] → lineOf p.pa = r.line → p.pa % 2048 + p.width ≤ 2048 → 0 < p.width →
      s.markedStores r = false → (s.dirAt r.line).st = .u → s.l2At home r.line = none → r.mode.rdie = none →
        ∃ t : State, exec (.homeStore r) s = .next t ∧ readBits t.homeByte p.pa p.width = p.value % 2 ^ p.width ∧
          OtherBytes s t p.pa p.width ∧ t.warp = s.warp) ∧
    (r.kind = .getS → r.die ≠ home → r.stores = [] → r.loads = [] → r.mode.mig = false → (s.dirAt r.line).st = .u →
      (∀ b, b / 256 = r.line → s.fillable b = true) → s.l2At r.die r.line = none →
        ∃ t : State, exec (.gets r) s = .next t ∧ (t.dirAt r.line).st = .s (2 ^ r.die) ∧
          (∃ l, t.l2At r.die r.line = some l ∧ l.kind = .shared ∧ l.dirty = 0 ∧ l.valid = 2 ^ 256 - 1) ∧
          SameBytes s t ∧ t.warp = s.warp) ∧
    (r.kind = .getM → r.die ≠ home → r.stores = [p] → lineOf p.pa = r.line → p.pa % 2048 + p.width ≤ 2048 → 0 < p.width →
      s.markedStores r = false → r.mode.mig = false → (s.dirAt r.line).st = .u → s.l2At r.die r.line = none →
      (∀ b, b / 256 = r.line → s.fillable b = true) →
        ∃ t : State, exec (.getm r) s = .next t ∧ (t.dirAt r.line).st = .o r.die ∧
          (∃ l, t.l2At r.die r.line = some l ∧ l.kind = .modified) ∧
          readBits (t.dieByte r.die) p.pa p.width = p.value % 2 ^ p.width ∧ OtherBytes s t p.pa p.width ∧ t.warp = s.warp)

/-- R372 to R378, R237: the messages between homes and copies. A recalled owner, and a die that gives a line up, leaves its
dirty bytes at the home; a sharer that is told to drops the line; the last answer of a transaction is its end, with which
the request it was begun for is served; a forwarded write changes the bits of its mask at the replica, once the writes forwarded
before it have; an uncorrectable error poisons a sector, once the loads of it that are out have returned. -/
def Obligations.CoherenceEvents : Prop :=
  ∀ (s : State) (line die : Nat) (l : L2Line), s.canonical = true →
    let ends : List Instr := match (s.dirAt line).busy with
      | some x => if x.waiting.all (· == die) then [Instr.transactionComplete line] else []
      | none => []
    (s.plainLine line → s.l2At die line = some l → (s.dirAt line).st = .o die → l.rdie = none →
      ∃ t u : State, exec (.recall die line true) s = .next t ∧ exec (.recall die line false) s = .next u ∧
        TakenHome s t line l ∧ TakenHome s u line l ∧ t.l2At die line = some { l with kind := .shared, dirty := 0 } ∧
        u.l2At die line = none ∧ (t.dirAt line).st = .s (2 ^ die) ∧ (u.dirAt line).st = .u ∧
        t.agenda = s.agenda ++ ends ∧ u.agenda = s.agenda ++ ends ∧ t.warp = s.warp ∧ u.warp = s.warp) ∧
    (∀ m, (s.dirAt line).st = .s m → bitOf m die = true →
      ∃ t : State, exec (.lineInvalidation die line) s = .next t ∧ t.l2At die line = none ∧
        (t.dirAt line).st = (if m = 2 ^ die then .u else .s (m - 2 ^ die)) ∧ t.agenda = s.agenda ++ ends ∧
        (∀ b, t.homeByte b = s.homeByte b) ∧ (∀ d k, (d, k) ≠ (die, line) → t.l2At d k = s.l2At d k) ∧ t.warp = s.warp) ∧
    (∀ waiting r, (s.dirAt line).busy = some ⟨waiting, some r⟩ → (s.dirAt line).queue = [] → r.line = line → r.kind = .getM →
      r.mode.mig = false → (∀ h ∈ s.holders, h.1 ≠ line) → s.hasRoom r.die line →
      ∃ t : State, exec (.transactionComplete line) s = .next t ∧ (t.dirAt line).busy = none ∧ (t.dirAt line).st = .o r.die ∧
        t.warp = s.warp ∧ ∀ b, t.homeByte b = s.homeByte b) ∧
    (∀ waiting, (s.dirAt line).busy = some ⟨waiting, none⟩ → (s.dirAt line).queue = [] →
      ∃ t : State, exec (.transactionComplete line) s = .next t ∧ t = { s with dir := t.dir } ∧ (t.dirAt line).busy = none) ∧
    (s.plainLine line → s.l2At die line = some l → dieOf (line * 2048) ≠ die → l.rdie = none →
      ∃ t : State, exec (.putm die line) s = .next t ∧ TakenHome s t line l ∧ t.l2At die line = none ∧
        ((s.dirAt line).st = .o die → (t.dirAt line).st = .u) ∧ t.warp = s.warp) ∧
    (s.plainLine line → dieOf (line * 2048) = die →
      ∃ t : State, exec (.putm die line) s = .next t ∧ t = { s with homeLines := t.homeLines } ∧
        (tget HomeLine.clean t.homeLines line).dirty = 0) ∧
    (∀ mask v seq,
      let copy := lineOf (withDie (line * 2048) die)
      let bit (x i : Nat) : Bool := x.testBit i
      (s.forwardBefore line ⟨die, seq⟩ = true → exec (.forwardedWrite line mask v ⟨die, seq⟩) s =
        .next { s with agenda := s.agenda ++ [Instr.forwardedWrite line mask v ⟨die, seq⟩] }) ∧
      (s.forwardBefore line ⟨die, seq⟩ = false → die < 4 → s.alive die = true → s.plainLine copy →
        ∃ t : State, exec (.forwardedWrite line mask v ⟨die, seq⟩) s = .next t ∧ t.warp = s.warp ∧ ∀ b, b < 2 ^ 61 → ∀ i < 8,
          bit (t.homeByte b) i = if b / 256 = copy ∧ bit mask (8 * (b % 256) + i) = true then bit v (8 * (b % 256) + i)
            else bit (s.homeByte b) i)) ∧
    (∀ fa, s.sectorAwaited (fa / 512) = true → exec (.uncorrectableError fa) s =
      .next { s with agenda := s.agenda ++ [Instr.uncorrectableError fa] }) ∧
    (∀ fa, s.sectorAwaited (fa / 512) = false →
      ∃ t : State, exec (.uncorrectableError fa) s = .next t ∧ tget none t.poison (fa / 512) = some ⟨1, 0⟩ ∧
      (∀ x, x ≠ fa / 512 → tget none t.poison x = tget none s.poison x) ∧ t.mem = s.mem ∧ t.warp = s.warp ∧
      ∀ d < 4, ∀ m, t.l2At d (fa / 2048) = some m → ∀ i < 64, bitOf m.valid (64 * (fa / 512 % 4) + i) = false)

/-- R246, R247, R263 to R265, R371: PREF, CCTL, the fences and MIGR change no register; what they do to caches, and what they
send, is that of their rules. -/
def Obligations.CacheControls : Prop :=
  ∀ (f : Fields) (s : State), s.canonical = true →
    let id := s.warp.id
    (∃ t : State, exec (.pref f) s = .next t ∧ MovesOn s t f ∧
      (s.indirectBreach (.pref f) f = none → f.mn 1 0 = 1 → f.hint = 0 ∨ f.hint = 2 → ∀ l fa leaf, s.actLanes f = [l] →
        s.place s.warp (s.memAddr f l) 1 = .ok .mem →
        s.translate id.die id.core (s.processOf s.warp) s.warp.user (s.memAddr f l) needR = (s, .ok fa leaf) →
        s.isLocal fa = true → dieOf fa = id.die → s.alive id.die = true → (s.dirAt (lineOf fa)).busy = none →
        s.hasRoom id.die (lineOf fa) → bitOf leaf 13 = false → (∀ d, (s.dirAt (lineOf fa)).st ≠ .o d) → (∀ x, x / 4 = lineOf fa → s.poisonOf (x * 512) 512 = none) →
          SameBytes s t ∧ ∀ x, x / 4 = lineOf fa →
            tget none (t.coreAt id.die id.core).l1 x = some (s.cohRead (x * 512) 512))) ∧
    (f.mod = 1 → s.acts f = true →
      ∃ t : State, exec (.cctl f) s = .next t ∧ MovesOn s t f ∧ (t.coreAt id.die id.core).l1 = [] ∧ SameBytes s t) ∧
    (∀ line, f.mod ≠ 1 → s.indirectBreach (.cctl f) f = none → s.cctlLines f (s.actLanes f) = (s, [line]) →
      s.blocked (s.pendHere line) true = false →
      ∃ t : State, exec (.cctl f) s = .next t ∧ MovesOn s t f ∧
        (f.mod = 0 → SameBytes s t ∧ ∀ x, x / 4 = line → tget none (t.coreAt id.die id.core).l1 x = none) ∧
        (s.plainLine line → dieOf (line * 2048) ≠ id.die → ∀ l, s.l2At id.die line = some l → l.rdie = none →
          (f.mod = 2 → TakenHome s t line l ∧ t.l2At id.die line = some { l with dirty := 0 }) ∧
          (f.mod = 3 → TakenHome s t line l ∧ t.l2At id.die line = none) ∧
          (f.mod = 4 → SameBytes s t ∧ t.l2At id.die line = some { l with keep := false }))) ∧
    (∀ k, s.acts f = true → f.cn 1 0 = k → (k = 0 ∨ k = 1 → s.readsPending = false) → f.mn 2 0 < 4 → k ≠ 3 →
      ∃ t : State, exec (.fence f) s = .next t ∧ MovesOn s t f ∧ SameBytes s t ∧
        (k ≠ 2 → 2 ≤ f.mn 2 0 → (t.coreAt id.die id.core).l1 = []) ∧
        (if k = 1 then t.agenda = s.agenda else ∃ r : Req, t.agenda = s.agenda ++ [Instr.homeStore r] ∧ r.warp = some id ∧
          r.rel = some (f.mn 2 0) ∧ r.stores = [] ∧ r.seq = s.nextSeq)) ∧
    (s.acts f = true → f.cn 1 0 = 3 → f.mn 2 0 < 4 → s.release (f.mn 2 0) = (s, true) →
      ∃ t : State, exec (.fence f) s = .next t ∧ MovesOn s t f ∧ SameBytes s t ∧
        (2 ≤ f.mn 2 0 → (t.coreAt id.die id.core).l1 = [])) ∧
    (s.acts f = false → ∃ t : State, exec (.fence f) s = .next t ∧ OnlyMoves s t f) ∧
    (s.acts f = false ∨ s.opsBefore (s.releasePoint false) id = false → ∃ t : State, exec (.fenceEng f) s = .next t ∧ OnlyMoves s t f) ∧
    (∃ t : State, exec (.migr f) s = .next t ∧ MovesOn s t f ∧ SameBytes s t ∧
      ∀ l ls e, s.indirectBreach (.migr f) f = none → s.actLanes f = l :: ls → s.cachedLeaf (s.srcA f 2 l) = some e →
        let page := bits e.leaf.toNat 54 19 * 2 ^ 19
        let n := s.srcB f false 32 1 l
        let target := if n = 4 then id.die else n
        (s.srcA f 2 l / 2 ^ 56 < 8 ∨ s.srcA f 2 l / 2 ^ 56 = 10) → bitOf e.leaf.toNat 13 = true → bitOf e.leaf.toNat 10 = false →
        regionOf page = 0 → n ≤ 4 → target ≠ dieOf page → (s.dieAt (dieOf page)).hintOut page = false →
          t.agenda = s.agenda ++ [Instr.faultRecordEnqueue (dieOf page)] ∧
          ∃ r : FaultRecord, r.kind = 3 ∧ r.addr = BitVec.ofNat 64 page ∧ r.info0 = BitVec.ofNat 64 target ∧
            (t.dieAt (dieOf page)).waiting = (s.dieAt (dieOf page)).waiting ++ [⟨r, none, none, false⟩])

/-! ## Scratchpad, sync words and barriers -/

/-- R205 to R215: LDS, STS, ATOMS, LDSC and STSC put one request into the queue of their slot, or of the peer's core, with one
part for each 64-bit word that a lane's access meets. -/
def Obligations.ScratchpadIssue : Prop :=
  ∀ (f : Fields) (s : State), s.canonical = true → s.warp.resuming = none →
    let id := s.warp.id
    let w := accessWidth f.mod.toNat
    let op := f.mod.toNat
    let wa : Nat := if op = 1 ∨ op = 10 ∨ op = 12 then 64 else 32
    let lanes := s.activeLanes f
    let imm : Int := if f.isImm16 then sintOf 16 f.imm16.toNat else sintOf 32 f.imm32.toNat
    let o l : Int := s.srcA f 1 l + imm
    let oa l : Nat := s.srcA f 1 l
    let peer l : Nat := ((s.srcA f 2 l + imm) % (2 ^ 64 : Nat)).toNat
    let limit : Int := 8 * s.myBlock.header.spad
    let data l := s.field f f.d (regsFor w) l % 2 ^ w
    let pieces (w a l v : Nat) : List SpadPart := (partsOf a w).map fun x => ⟨l, a + x.1, x.2, x.1, v / 2 ^ x.1 % 2 ^ x.2, 0⟩
    let queued (t : State) (die core n block : Nat) (kind : SpadKind) (entry : Option Nat) (parts : List SpadPart) : Prop :=
      t.slotQueue die core n =
        s.slotQueue die core n ++ if parts = [] then [] else [⟨id, s.warp.gang, block, kind, s.nextSeq, entry, parts⟩]
    let dest : LoadDest := ⟨false, f.d.toNat, 1, w, 10 ≤ op⟩
    ((∀ l ∈ lanes, 0 ≤ o l ∧ o l + w ≤ limit) → s.slotFull = false →
      (s.indirectBreach (.lds f) f = none → ∃ t : State, exec (.lds f) s = .next t ∧ AccessFrame s t f ∧
        Awaits s t .load (coversD f (regsFor w)) (some dest) none
          (lanes.map fun l => ⟨l, (o l).toNat, (partsOf (o l).toNat w).length, 0⟩) [] ∧
        queued t id.die id.core (id.warp % 4) id.block .load (some s.warp.nextId)
          (lanes.flatMap fun l => pieces w (o l).toNat l 0)) ∧
      (s.indirectBreach (.sts f) f = none →
        s.watchOf false true (lanes.map fun l => (l, ownAddr (o l), w)) = none →
        ∃ t : State, exec (.sts f) s = .next t ∧ AccessFrame s t f ∧ t.warp.score = s.warp.score ∧
          queued t id.die id.core (id.warp % 4) id.block .store none (lanes.flatMap fun l => pieces w (o l).toNat l (data l)))) ∧
    ((∀ l ∈ lanes, (oa l + wa : Int) ≤ limit ∧ oa l % wa = 0) → s.slotFull = false → s.indirectBreach (.atoms f) f = none →
      ∃ t : State, exec (.atoms f) s = .next t ∧ AccessFrame s t f ∧
        Awaits s t .wait (coversD f (wa / 32)) (some ⟨false, f.d.toNat, 1, wa, false⟩) none
          (lanes.map fun l => ⟨l, oa l, 1, 0⟩) [] ∧
        queued t id.die id.core (id.warp % 4) id.block (.atomic op) (some s.warp.nextId)
          (lanes.map fun l => ⟨l, oa l, wa, 0,
            if f.isImm ∧ op = 13 then floatImmReg f f32 else s.srcB f (op == 2 || op == 3) wa (wa / 32) l,
            if op = 11 ∨ op = 12 then s.srcC f (wa / 32) l else 0⟩)) ∧
    (∀ l rank off, lanes = [l] → s.peerPlace (peer l) w = .ok (rank, off) → rank < 8 →
      let (num, b) := s.rankBlock rank
      (∃ t : State, exec (.ldsc f) s = .next t ∧ AccessFrame s t f ∧
        Awaits s t .load (coversD f (regsFor w)) (some dest) none [⟨l, peer l, (partsOf (peer l) w).length, 0⟩] [] ∧
        queued t b.die b.core (8 + id.core % 8) num .load (some s.warp.nextId) (pieces w off l 0)) ∧
      (∃ t : State, exec (.stsc f) s = .next t ∧ AccessFrame s t f ∧ t.warp.score = s.warp.score ∧
        queued t b.die b.core (8 + id.core % 8) num .store none (pieces w off l (data l))))

/-- R208, R211, R215, R217, R219: a turn of a slot performs the head's next part in the block's scratchpad: a store puts its
bits there, an atomic its operation's value, SYNCADD and SYNCSET theirs, a load nothing; the lane gets the bits that stood there; no other byte changes. -/
def Obligations.ScratchpadPerform : Prop :=
  ∀ (s : State) (die core n : Nat) (ts : List Turn) (r : SpadReq) (rs : List SpadReq) (p : SpadPart),
    s.canonical = true → s.turns = .slot die core n :: ts → s.slotQueue die core n = r :: rs → r.parts = [p] →
    r.warp = s.warp.id → s.warp.live = true → s.spadHold r = false → s.spadReady r p = true → 0 < p.width →
      let old := (s.blockAt r.block).spadRead p.off p.width
      let b := p.value
      let new := match r.kind with
        | .load => old
        | .store => b
        | .atomic op => [(old + b) % 2 ^ 32, (old + b) % 2 ^ 64, if sintOf 32 old ≤ sintOf 32 b then old else b,
            if sintOf 32 old ≤ sintOf 32 b then b else old, min old b, max old b, old &&& b, old ||| b, old ^^^ b, b, b,
            if old = p.cmp then b else old, if old = p.cmp then b else old,
            (fAdd f32 rne (f32.decode old) (f32.decode b)).1].getD op (if b ≤ old then 0 else (old + 1) % 2 ^ 32)
        | .sync slot =>
          let gen := old / 2 ^ 56
          let count := old / 2 ^ 28 % 2 ^ 28 + b
          let target := old % 2 ^ 28
          if slot ≠ 32 then gen * 2 ^ 56 + b % 2 ^ 28
          else if target = 0 then gen * 2 ^ 56 + min count (2 ^ 28 - 1) * 2 ^ 28
          else (gen + count / target) % 256 * 2 ^ 56 + count % target * 2 ^ 28 + target
      ∃ t : State, step s = .next t ∧ t.slotQueue die core n = rs ∧
        (t.blockAt r.block).spadRead p.off p.width = new % 2 ^ p.width ∧
        (∀ i, i ∉ bytesTouched p.off p.width → tget 0 (t.blockAt r.block).spad i = tget 0 (s.blockAt r.block).spad i) ∧
        (∀ k, k ≠ r.block → t.blockAt k = s.blockAt k) ∧ (∀ d a, t.dieByte d a = s.dieByte d a) ∧
        t.warp.regs = s.warp.regs ∧
        t.warp.score = match r.entry with
          | none => s.warp.score
          | some e => s.warp.score.map fun x => if x.id = e then { x with lanes := x.lanes.map fun l =>
              if l.lane = p.lane then { l with left := l.left - 1, value := l.value + old * 2 ^ p.at_ } else l } else x

/-- R216 to R220: SYNCSET and SYNCADD send the update of their word to it, a relaxed one of a scratchpad word straight to its
queue, in issue order; SYNCWAIT waits while the word's generation is the operand and then gives it, and SYNCTEST tells whether
it is another; SYNCWAIT_WAKE lets the waits end that can. -/
def Obligations.SyncWords : Prop :=
  ∀ (f : Fields) (s u : State) (p : WordPlace),
    let id := s.warp.id
    let lane := (s.actLanes f).headD 0
    let a := s.srcA f 2 lane
    let b := s.srcB f false 32 1 lane
    let gen := u.syncRead p / 2 ^ 56 % 256
    let scope := if f.mb 3 then none else some (f.mn 2 0)
    let lx : AtomicLane := match p with | .spad _ off => ⟨lane, off, a, b, 0⟩ | .mem fa _ => ⟨lane, fa, a, b, 0⟩
    let block := match p with | .spad k _ => some k | .mem _ _ => none
    let sends (i : Instr) (slot : Nat) : Prop :=
      s.syncCheck s.warp a needRW = (u, .ok p) → u.syncPoison p = none → u.watchOf false true [(lane, a, 64)] = none →
      (block = some id.block → u.slotFull = false) →
        ∃ t : State, exec i s = .next t ∧ AccessFrame u t f ∧ t.warp.score = u.warp.score ∧
          match p, scope with
          | .spad k off, none =>
            let home := u.blockAt k
            let place : Nat × Nat × Nat :=
              if k = id.block then (id.die, id.core, id.warp % 4) else (home.die, home.core, 8 + id.core % 8)
            ∃ before after, u.slotQueue place.1 place.2.1 place.2.2 = before ++ after ∧ t.slotQueue place.1 place.2.1 place.2.2 =
                before ++ ⟨id, u.warp.gang, k, .sync slot, u.nextSeq, none, [⟨lane, off, 64, 0, b, 0⟩]⟩ :: after ∧
              (∀ q ∈ before, q.seq < u.nextSeq) ∧ t.agenda = u.agenda
          | _, _ => t.cores = u.cores ∧ ∃ r : AtomicReq,
            t.agenda = u.agenda ++ [Instr.handlerRun r] ∧ r.slot = slot ∧ r.lanes = [lx] ∧ r.spad = block ∧ r.rel = scope ∧
            r.warp = u.warp.id ∧ r.seq = u.nextSeq ∧ r.entry = none
    (s.acts f = true →
      sends (.syncset f) 33 ∧ sends (.syncadd f) 32 ∧
      (s.syncLoad f lane a = (u, some (u.syncRead p)) → (∀ sc, scope = some sc → sc < 4) →
        (gen = b % 256 → ∃ t : State, exec (.syncwait f) s = .next t ∧ Blocks u t .syncwait (a * 256 + b % 256)) ∧
        (gen ≠ b % 256 → ∃ t : State, exec (.syncwait f) s = .next t ∧ SameBytes u t ∧ t.agenda = u.agenda ++ [u.resultDue] ∧
          MovesOwing u t f (coversD f 1) ((u.actLanes f).flatMap fun l => dest f 1 l gen) ∧ t.warp.gang = []) ∧
        ∃ t : State, exec (.synctest f) s = .next t ∧ SameBytes u t ∧ t.agenda = u.agenda ++ [u.resultDue] ∧
          MovesOwing u t f [predName f.k f.d.toNat] ((u.actLanes f).map fun l => destPred f f.d l (gen != b % 256)))) ∧
    (s.acts f = false → ∀ i ∈ [Instr.syncset f, .syncadd f, .syncwait f, .synctest f],
      ∃ t : State, exec i s = .next t ∧ OnlyMoves s t f) ∧
    (s.warp.live = true → ∃ t : State, exec (.syncwaitWake id) s = .next t ∧ t = { s with warp := t.warp } ∧
      t.warp = { s.warp with quads := t.warp.quads } ∧ t.warp.quads.length = s.warp.quads.length ∧
      ∀ (k : Nat) (q : Quad), s.warp.quads[k]? = some q →
        t.warp.quads[k]? = some (if q.wait = .syncwait ∧ s.syncPeek s.warp (q.operand / 256) ≠ some (q.operand % 256) then
          { q with wait := .none, operand := 0 } else q))

/-- R221 to R227: an arrival sets the warp's bit, and the phase completes when the mask covers every participant; its token
names the phase at the arrival; a wait on a token lasts while the phase is the token's. BAR.SYNC is complete for the quads whose
wait has ended, and begins for the others (R159). No cluster barrier completes while a block of the cluster is saved (R227). -/
def Obligations.Barriers : Prop :=
  ∀ (f : Fields) (s : State), s.canonical = true →
    let id := s.warp.id
    let lane := (s.actLanes f).headD 0
    let blk := s.myBlock
    let n := s.srcB f false 32 1 lane
    let bar := blk.barrier n
    let mask := bar.mask ||| 1#64 <<< id.warp
    let after : Barrier := if mask &&& blk.initial = blk.initial then ⟨bar.phase + 1, 0⟩ else ⟨bar.phase, mask⟩
    let t4 := s.srcA f 1 lane
    let token (phase kind : Nat) := phase * 256 + kind * 16 + n
    let arrived (t : State) : Prop := t.myBlock.barrier n = after ∧ (∀ k, k ≠ n → t.myBlock.barrier k = blk.barrier k) ∧
      ∀ k, k ≠ id.block → t.blockAt k = s.blockAt k
    let key := blk.clusterKey
    let cb := s.clusterBarrier key n
    (s.acts f = false → s.warp.ended .barSync = [] →
      ∀ i ∈ [Instr.barArrive f, .barWait f, .barSync f, .cbarArrive f, .cbarWait f], ∃ t : State, exec i s = .next t ∧ OnlyMoves s t f) ∧
    (s.acts f = true → s.warp.info.spawned = false → s.warp.isVesper = false → n < blk.header.barriers →
      (s.release 1 true = (s, true) → ∃ t : State, exec (.barArrive f) s = .next t ∧ arrived t ∧ SameBytes s t ∧ t.agenda = s.agenda ++ [s.resultDue] ∧
        MovesOwing s t f (coversD f 1) ((s.actLanes f).flatMap fun l => dest f 1 l (token bar.phase.toNat 0))) ∧
      (s.release 1 = (s, true) → s.warp.ended .barSync = [] →
        ∃ t : State, exec (.barSync f) s = .next t ∧ arrived t ∧ SameBytes s t ∧
        if after.phase = bar.phase then Blocks { s with blocks := t.blocks } t .barSync (token bar.phase.toNat 0)
        else MovesOn s t f)) ∧
    (s.warp.ended .barSync ≠ [] →
      ((∀ q ∈ s.warp.gang, q ∈ s.warp.ended .barSync) → ∃ t : State, exec (.barSync f) s = .next t ∧ OnlyMoves s t f) ∧
      ((∃ q ∈ s.warp.gang, q ∉ s.warp.ended .barSync) → exec (.barSync f) s =
        exec (.barSync f) { s with warp := s.warp.passQuads f.slot (s.warp.ended .barSync) })) ∧
    (s.acts f = true → t4 / 2 ^ 16 = 0 → t4 / 16 % 16 = 0 → t4 % 16 < blk.header.barriers →
      ∃ t : State, exec (.barWait f) s = .next t ∧
        if (blk.barrier (t4 % 16)).phase.toNat = t4 / 256 then Blocks s t .barWait t4 else OnlyMoves s t f) ∧
    (s.acts f = true → s.warp.info.spawned = false → s.warp.isVesper = false → s.release 2 true = (s, true) → n < 4 →
      blk.rank < cb.masks.length → s.clusterAway blk = false →
      ∃ t : State, exec (.cbarArrive f) s = .next t ∧ SameBytes s t ∧
        MovesOwing s t f (coversD f 1) ((s.actLanes f).flatMap fun l => dest f 1 l (token cb.phase.toNat 1)) ∧
        t.agenda = s.agenda ++
          [.clusterBarrierArrival (blk.process * 2 ^ 32 + blk.launch) blk.cluster n blk.rank id.warp, s.resultDue] ∧
        t.clusterBarrier key n = ⟨cb.phase, cb.masks.set blk.rank (cb.masks.getD blk.rank 0 ||| 1#64 <<< id.warp)⟩) ∧
    (∀ launch cluster barrier rank warp num b, s.blocks.find? (fun x => launchKey x.2.process x.2.launch == launch &&
        x.2.cluster == cluster && x.2.rank == rank && x.2.header.width != 0) = some (num, b) →
      let k := launch * 2 ^ 32 + cluster
      let c := s.clusterBarrier k barrier
      let all := (c.masks.zip (s.clusterParticipants b)).all fun x => x.1 &&& x.2 == x.2
      let run := Instr.clusterBarrierArrival launch cluster barrier rank warp
      (s.clusterAway b = true → exec run s = .next { s with agenda := s.agenda ++ [run] }) ∧
      (s.clusterAway b = false → bitOf (c.masks.getD rank 0).toNat warp = true →
        ∃ t : State, exec run s = .next t ∧ t = { s with clusters := t.clusters } ∧
          t.clusterBarrier k barrier = if all then ⟨c.phase + 1, List.replicate 8 0⟩ else c)) ∧
    (s.acts f = true → s.warp.isVesper = false → t4 / 2 ^ 16 = 0 → t4 / 16 % 16 = 1 → t4 % 16 < 4 →
      ∃ t : State, exec (.cbarWait f) s = .next t ∧
        if (s.clusterBarrier key (t4 % 16)).phase.toNat = t4 / 256 then Blocks s t .cbarWait t4
        else MovesOn s t f ∧ SameBytes s t)

/-! ## Atomics, messages, futures and copies -/

/-- R266 to R277: the address of a lane is a + SInt(imm32), its width that of c[7:5], 128 bits for ATOMX. Once every lane is
translated and the windows of R277, R404 and R406 have room for it, ATOM, RED, ATOMK and ATOMX send one request for each word of
64 bits (128 for ATOMX) that their lanes name, its lanes ascending, each with its operands; a result is awaited for every lane,
in d, but for RED's in no register; no register and no byte has changed yet. -/
def Obligations.AtomicsIssue : Prop :=
  ∀ (f : Fields) (s u : State) (r : Reach), s.canonical = true →
    let lanes := s.memLanes f (s.atomAddr f)
    let far (l : List Nat) := (l.filter fun a => deviceOf a != u.device).length
    let out := u.windowOut u.warp.id.die u.warp.id.core
    let issues (i : Instr) (slot w : Nat) (dest : Option LoadDest) : Prop :=
      let size := if w = 128 then 128 else 64
      (s.warp.resuming = none →
        lanes = (s.actLanes f).map fun l => (l, (((s.srcA f 2 l : Int) + sintOf 32 f.imm32.toNat) % (2 ^ 64 : Nat)).toNat)) ∧
      (lanes ≠ [] → s.indirectBreach i f = none → s.atomWindow s.warp w lanes = none →
      (∀ x ∈ lanes, atomAligned slot w x.2 = true) → s.reachAll s.warp ⟨.atomic, needRW, w, none⟩ lanes = (u, r) → r.bad = [] →
      (∀ x ∈ r.good, ∃ p ps fa leaf, x.2.2 = p :: ps ∧ p.spot = .mem fa leaf) →
      (slot < 24 ∨ (tget none u.platform.slots slot).isSome = true) →
      out.length + lanes.length ≤ 256 → far out + lanes.length ≤ 64 →
      (∀ new : List Nat, new.length ≤ lanes.length → u.farFull u.warp.id.die new = false) →
        ∃ t : State, exec i s = .next t ∧ AccessFrame u t f ∧
          Awaits u t .wait (if dest.isSome then coversD f (regsFor w) else []) dest (if f.xb 3 then some (f.xn 2 0) else none)
            (r.good.map fun x => ⟨x.1, x.2.1, 1, 0⟩) [] ∧
          ∃ reqs : List AtomicReq, t.agenda = u.agenda ++ reqs.map Instr.handlerRun ∧
            (∀ q ∈ reqs, q.warp = u.warp.id ∧ q.slot = slot ∧ q.width = w ∧ q.entry = some u.warp.nextId ∧ q.seq = u.nextSeq ∧
              q.spad = none ∧ q.acq = (if f.xb 3 then some (f.xn 2 0) else none) ∧
              q.rel = (if f.xb 4 then some (f.xn 2 0) else none) ∧ q.lanes ≠ [] ∧
              (q.lanes.map (·.lane)).Sublist (r.good.map (·.1)) ∧ ∀ x ∈ q.lanes, ∀ y ∈ q.lanes, x.addr / size = y.addr / size) ∧
            reqs.Pairwise (fun p q => ∀ x ∈ p.lanes, ∀ y ∈ q.lanes, x.addr / size ≠ y.addr / size) ∧
            ∀ z : AtomicLane, z ∈ reqs.flatMap (·.lanes) ↔ ∃ x ∈ r.good, ∃ p ps fa leaf, x.2.2 = p :: ps ∧ p.spot = .mem fa leaf ∧
              z = ⟨x.1, fa, x.2.1, u.srcBReg f (regsFor w) x.1 % 2 ^ w,
                if f.form = .w128 then u.field f f.e (regsFor w) x.1 % 2 ^ w else 0⟩)
    let slot := f.c.toNat % 32
    let code := f.c.toNat / 32
    let w := if code < 4 then 8 * 2 ^ code else if code = 4 then f.xn 10 5 + 1 else 0
    let old w : LoadDest := ⟨f.k, f.d.toNat, 1, w, false⟩
    issues (.atom f) slot w (some (old w)) ∧ issues (.red f) slot w none ∧ issues (.atomk f) slot w (some (old w)) ∧
    issues (.atomx f) 22 128 (some (old 128))

/-- R217, R219, R267, R269 to R276, R280: a request runs at its home in one step, its lanes in ascending order, each on what the
one before left; the acknowledgement carries the old values, waits for the replica where the page has one, reaches the entry, and
with the last of them the result is due. The update of a sync word tells nothing; one of a scratchpad word that is a release goes
to its slot's queue, in issue order, once the release is complete. -/
def Obligations.AtomicsRun : Prop :=
  ∀ (s : State) (r : AtomicReq) (x : AtomicLane),
    let line := lineOf x.addr
    let a := x.addr
    let w := r.width
    let synced (slot old x : Nat) : Nat :=
      let gen := old / 2 ^ 56
      let count := old / 2 ^ 28 % 2 ^ 28 + x
      let target := old % 2 ^ 28
      if slot = 33 then gen * 2 ^ 56 + x % 2 ^ 28
      else if target = 0 then gen * 2 ^ 56 + min count (2 ^ 28 - 1) * 2 ^ 28
      else (gen + count / target) % 256 * 2 ^ 56 + count % target * 2 ^ 28 + target
    let value (old x y : Nat) : Nat := [(old + x) % 2 ^ w, (old + 2 ^ w - x) % 2 ^ w, if x ≤ old then 0 else (old + 1) % 2 ^ w,
      if old = 0 ∨ x < old then x else old - 1, if sintOf w old ≤ sintOf w x then old else x,
      if sintOf w old ≤ sintOf w x then x else old, min old x, max old x, old &&& x, old ||| x, old ^^^ x, x,
      if old = y then x else old, x].getD r.slot 0 % 2 ^ w
    (s.canonical = true → r.lanes = [x] → r.spad = none → r.rel = none → 0 < w → w ≤ 64 → a % 64 + w ≤ 64 →
      s.hasRoom (dieOf a) line →
      s.plainLine line → s.alive (dieOf a) = true → (s.dirAt line).busy = none → (s.dirAt line).st = .u →
      (s.dieAt (dieOf a)).homeWatches = [] → s.poisonOf a w = none → r.mode.rdie = none → s.marked a w true = false →
      (pendAtomic r).any (s.blocked · true) = false → (∀ d, s.l2At d line = none) →
        let old := readBits s.homeByte a w
        (r.slot < 14 →
          ∃ t : State, exec (.handlerRun r) s = .next t ∧ readBits t.homeByte a w = value old x.x x.y ∧ OtherBytes s t a w ∧
            t.warp = s.warp ∧ t.agenda = s.agenda ++ [Instr.atomicAcknowledgement r (.old [(x.lane, old)])]) ∧
        (r.slot = 32 ∨ r.slot = 33 → w = 64 →
          ∃ t : State, exec (.handlerRun r) s = .next t ∧ readBits t.homeByte a 64 = synced r.slot old x.x ∧ OtherBytes s t a 64 ∧
            t.warp = s.warp ∧ t.agenda = s.agenda)) ∧
    (∀ b sc, s.canonical = true → r.lanes = [x] → r.spad = some b → r.rel = some sc →
      (pendAtomic r).any (s.blocked · true) = false → (s.blockAt b).place ≠ .saved →
        let u := s.releaseLines r.srcDie sc
        let home := u.blockAt b
        let (die, core, slot) : Nat × Nat × Nat :=
          if b = r.warp.block then (r.warp.die, r.warp.core, r.warp.warp % 4) else (home.die, home.core, 8 + r.warp.core % 8)
        (sc < 4 ∨ u.forwarding = false → ∃ t : State, exec (.handlerRun r) s = .next t ∧ t = { u with cores := t.cores } ∧
          ∃ before after, u.slotQueue die core slot = before ++ after ∧ (∀ q ∈ before, q.seq < r.seq) ∧
            t.slotQueue die core slot =
              before ++ ⟨r.warp, r.gang, b, .sync r.slot, r.seq, none, [⟨x.lane, a, 64, 0, x.x, 0⟩]⟩ :: after) ∧
        (4 ≤ sc → u.forwarding = true → exec (.handlerRun r) s = .next { u with agenda := u.agenda ++ [.handlerRun r] })) ∧
    (∀ slot size lanes word, slot < 14 → (∀ l ∈ lanes, l.addr % size = a % size) → r.slot = slot → 0 < w →
      a % size + w ≤ size → word < 2 ^ size →
      ∃ word' : Nat, runWord slot w size lanes word = some ((lanes.foldl (fun (acc : List (Nat × Nat) × Nat) l =>
          (acc.1 ++ [(l.lane, acc.2)], value acc.2 l.x l.y)) ([], word / 2 ^ (a % size) % 2 ^ w)).1, word') ∧
        word' / 2 ^ (a % size) % 2 ^ w = (lanes.foldl (fun (acc : List (Nat × Nat) × Nat) l =>
          (acc.1 ++ [(l.lane, acc.2)], value acc.2 l.x l.y)) ([], word / 2 ^ (a % size) % 2 ^ w)).2) ∧
    (∀ e before after vs, s.replicaBehind r = false → s.warp.live = true → r.warp = s.warp.id → r.entry = some e.id → s.warp.score = before ++ e :: after →
      (∀ y ∈ before ++ after, y.id ≠ e.id) →
        let lanes := e.lanes.map fun l => match vs.lookup l.lane with | some v => { l with left := 0, value := v } | none => l
        ∃ t : State, exec (.atomicAcknowledgement r (.old vs)) s = .next t ∧ t = { s with warp := t.warp, agenda := t.agenda } ∧
          t.warp = { s.warp with score := before ++ { e with lanes := lanes } :: after } ∧
          t.agenda = s.agenda ++ if lanes.all (·.left == 0) then [Instr.longLatencyResult r.warp e.id] else []) ∧
    ∀ res, s.replicaBehind r = true →
      exec (.atomicAcknowledgement r res) s = .next { s with agenda := s.agenda ++ [.atomicAcknowledgement r res] }

/-- R287 to R303: FWAIT waits for a PENDING entry and else gives its state and status and frees it, unless it keeps it; FTEST
tells whether it is final; FCANCEL asks; FMOV moves a handle. -/
def Obligations.Futures : Prop :=
  ∀ (f : Fields) (s : State) (e : HandleEntry), s.canonical = true →
    let h := s.reg (.h f.a.toNat) 0
    let blk := s.myBlock
    let freed (free : Bool) (t : State) : Prop :=
      t.myBlock.handle (h % 64) = (if free then { e with state := .free, op := none } else e) ∧
      (∀ k, k ≠ h % 64 → t.myBlock.handle k = blk.handle k) ∧ ∀ k, k ≠ s.warp.id.block → t.blockAt k = s.blockAt k
    (s.acts f = false → ∀ i ∈ [Instr.fwait f, .ftest f, .fcancel f, .fmov f], ∃ t : State, exec i s = .next t ∧ OnlyMoves s t f) ∧
    (s.acts f = true → blk.handleOf h = some e →
      (e.state = .pending → ∃ t : State, exec (.fwait f) s = .next t ∧ Blocks s t .fwait h) ∧
      (e.state ≠ .pending → (f.mb 0 = false ∨ e.state ≠ .doneErr) →
        ∃ t : State, exec (.fwait f) s = .next t ∧ freed (!f.mb 1) t ∧ SameBytes s t ∧ t.agenda = s.agenda ++ [s.resultDue] ∧
          MovesOwing s t f (coversD f 1) ((s.actLanes f).flatMap fun l => dest f 1 l (e.status.toNat * 2 ^ 16 +
            match e.state with | .free => 0 | .pending => 1 | .doneOk => 2 | .doneErr => 3 | .cancelled => 4))) ∧
      (let final := e.state == .doneOk || e.state == .doneErr || e.state == .cancelled
       ∃ t : State, exec (.ftest f) s = .next t ∧ freed (final && f.mb 0) t ∧ SameBytes s t ∧ t.agenda = s.agenda ++ [s.resultDue] ∧
          MovesOwing s t f [predName f.k f.d.toNat] ((s.actLanes f).map fun l => destPred f f.d l final)) ∧
      (∀ n, e.state = .pending → e.op = some n → ∃ t : State, exec (.fcancel f) s = .next t ∧ MovesOn s t f ∧ SameBytes s t ∧
        t.agenda = s.agenda ++ [Instr.cancelHonoured n] ∧ t.opAt n = (s.opAt n).map fun o => { o with cancel := true }) ∧
      (e.state ≠ .pending → ∃ t : State, exec (.fcancel f) s = .next t ∧ OnlyMoves s t f)) ∧
    (∀ l ls, s.actLanes f = l :: ls → ∃ t : State, exec (.fmov f) s = .next t ∧ SameBytes s t ∧ t.agenda = s.agenda ++ [s.resultDue] ∧
      if f.mb 0 then MovesOwing s t f [.h f.d.toNat] [⟨.h f.d.toNat, 0, s.srcA f 1 l % 2 ^ 16⟩]
      else MovesOwing s t f (coversD f 1) ((s.actLanes f).flatMap fun l => dest f 1 l h))

/-- R285 to R287, R291, R295 to R299: CPY, CPY.MM, GATHER and SCATTER start an operation and give its handle; a copy takes
the last place in the queue of its engine, and its elements are those of its shape. -/
def Obligations.OperationsIssue : Prop :=
  ∀ (f : Fields) (s : State) (idx : Nat), s.canonical = true → s.acts f = true → s.myBlock.freeHandle = some idx →
    let id := s.warp.id
    let pair r := s.regs .s r 0 2
    let word i := s.reg (.s (f.c.toNat + i)) 0
    let dst := pair f.b.toNat
    let engine := if dst / 2 ^ 56 = 8 then 0 else 1
    let dims := f.xn 1 0
    let queues (t : State) : Prop :=
      t.engineQueue id.die id.core engine = s.engineQueue id.die id.core engine ++ [s.nextOp] ∧
      t.agenda = s.agenda ++ [s.resultDue, .copyCommandStart id.die id.core engine]
    let strided (c : CopyOp) : Prop :=
      c.elems = (List.range (if dims = 2 then word 4 else 1)).flatMap fun (p : Nat) =>
        (List.range (if dims = 0 then 1 else word 1)).map fun (j : Nat) =>
        let sh (base : Nat) (row plane : Nat) : Nat :=
          (((base : Int) + (if dims = 2 then p * sintOf 32 (word plane) else 0) +
            if dims = 0 then 0 else j * sintOf 32 (word row)) % (2 ^ 64 : Nat)).toNat
        (sh (pair f.a.toNat) 2 5, sh dst 3 6)
    let shape (c : CopyOp) : Prop := c.len = word 0 ∧ c.sync = (if f.xb 2 then some (pair f.d.toNat) else none) ∧ c.units = [] ∧
      c.ready = false
    (s.engineQueue id.die id.core engine).length < 16 →
      (∃ (t : State) (c : _), exec (.cpy f) s = .next t ∧ StartsOp s t f engine idx (.copy c) ∧ queues t ∧ shape c ∧ strided c ∧ c.mm = none) ∧
      (s.matrixTaken id = false → ∃ (t : State) (c : _), exec (.cpyMm f) s = .next t ∧ StartsOp s t f engine idx (.copy c) ∧ queues t ∧ shape c ∧
        strided c ∧ c.mm = some (b2n (f.xb 3), pair f.e.toNat) ∧ (t.coreAt id.die id.core).matrix = some id.block) ∧
      (∃ (t : State) (c : _), exec (.gather f) s = .next t ∧ StartsOp s t f engine idx (.copy c) ∧ queues t ∧ shape c ∧
        c.list = some (pair f.e.toNat) ∧ c.rows = word 1 ∧
        ∀ xs, { c with idx := some xs }.elems = xs.zipIdx.map fun (x, i) =>
          ((pair f.a.toNat + x * word 2) % 2 ^ 64, (dst + i * word 0) % 2 ^ 64)) ∧
      (∃ (t : State) (c : _), exec (.scatter f) s = .next t ∧ StartsOp s t f engine idx (.copy c) ∧ queues t ∧ shape c ∧
        c.list = some (pair f.e.toNat) ∧ c.rows = word 1 ∧
        ∀ xs, { c with idx := some xs }.elems = xs.zipIdx.map fun (x, i) =>
          ((pair f.a.toNat + i * word 0) % 2 ^ 64, (dst + x * word 2) % 2 ^ 64))

/-- R277, R282 to R284, R289: MSG starts a message with its sixteen registers once the windows have room for it; it takes the place
at the tail of a ring with room; when the ring is full it fails, or is refused and tried again after 1 µs; a spoiled header or a
dead context ends it; its 512 bits are written at its place, and then it counts in the header's sync word, after the message
before it. -/
def Obligations.Messages : Prop :=
  (∀ (f : Fields) (s u v : State) (r : Reach) (l : Nat) (ls : List Nat) (idx fa leaf : Nat) (p : PartAt) (ps : List PartAt),
    let a := s.srcA f 2 l
    s.canonical = true → s.warp.resuming = none → s.actLanes f = l :: ls → s.indirectBreach (.msg f) f = none →
    s.atomWindow s.warp 256 [(l, a)] = none → a % 256 = 0 →
    s.reachAll s.warp ⟨.atomic, needRW, 64, none⟩ [(l, a)] = (u, r) → r.bad = [] → r.parts = p :: ps → p.spot = .mem fa leaf →
    u.canonical = true → u.myBlock.freeHandle = some idx → u.windowFull [fa] = none →
    (if f.mb 3 then u.release (f.mn 2 0) = (v, true) ∧ v.myBlock = u.myBlock ∧ v.canonical = true else v = u) →
      ∃ (t : State) (m : _), exec (.msg f) s = .next t ∧ StartsOp v t f 4 idx (.msg m) ∧ m.header = fa ∧ m.payload = v.srcBReg f 16 l ∧
        m.leaf = leaf ∧ m.budget = f.xn 7 0 ∧ m.attempts = 0 ∧ m.retryAt = 0 ∧ m.place = none ∧ m.written = false ∧ t.agenda = v.agenda ++ [v.resultDue, .msgRetry v.nextOp]) ∧
  ∀ (s : State) (n : Nat) (o : EngineOp) (m : MsgOp),
    let x := m.header
    let b := s.mailbox x
    let ends (t : State) (status : Nat) : Prop := OpEnds s t n o .doneErr status
    s.canonical = true → s.opAt n = some o → o.work = .msg m → o.suspended = false → s.opReady o = true →
    s.plainLine (lineOf x) → x % 256 = 0 → s.alive (dieOf x) = true → (s.dirAt (lineOf x)).st = .u →
    (s.dirAt (lineOf x)).busy = none → s.hasRoom (dieOf x) (lineOf x) → bitOf m.leaf 7 = false →
    (s.dieAt (dieOf x)).homeWatches = [] → (s.dieAt o.warp.die).l2 = [] → (∀ k w : Nat, s.poisonOf (x + k) w = none) →
    (s.blockAt o.warp.block).place ≠ .saved →
      (m.place = none → s.timer < m.retryAt →
        exec (.msgRetry n) s = .next { s with agenda := s.agenda ++ [.msgRetry n] }) ∧
      (m.place = none → m.retryAt ≤ s.timer → b.spare = true ∨ b.lsize = 0 →
        ∃ t : State, exec (.msgRetry n) s = .next t ∧ ends t 0x12 ∧ SameBytes s t) ∧
      (m.place = none → m.retryAt ≤ s.timer → b.spare = false → b.lsize ≠ 0 →
        b.dead = true ∨ s.ownerGone o.process b.owner = true →
        ∃ t : State, exec (.msgRetry n) s = .next t ∧ ends t 0x11 ∧ readBits t.homeByte (x + 232) 1 = 1 ∧ OtherBytes s t (x + 232) 1) ∧
      (m.place = none → m.retryAt ≤ s.timer → b.spare = false → b.lsize ≠ 0 → b.dead = false →
        s.ownerGone o.process b.owner = false →
        ((b.tail + 2 ^ 32 - b.head) % 2 ^ 32 < 2 ^ b.lsize →
          ∃ t : State, exec (.msgRetry n) s = .next t ∧ readBits t.homeByte (x + 96) 32 = (b.tail + 1) % 2 ^ 32 ∧
            OtherBytes s t (x + 96) 32 ∧ t.opAt n = some { o with work := .msg { m with place := some b.tail } } ∧
            t.agenda = s.agenda ++ [Instr.msgRetry n] ∧ t.warp = s.warp) ∧
        (2 ^ b.lsize ≤ (b.tail + 2 ^ 32 - b.head) % 2 ^ 32 → m.attempts = m.budget →
          ∃ t : State, exec (.msgRetry n) s = .next t ∧ ends t 0x10 ∧ SameBytes s t) ∧
        (2 ^ b.lsize ≤ (b.tail + 2 ^ 32 - b.head) % 2 ^ 32 → m.attempts ≠ m.budget →
          ∃ t : State, exec (.msgRetry n) s = .next t ∧
            t.opAt n = some { o with work := .msg { m with attempts := m.attempts + 1, retryAt := s.timer + 1000 } } ∧
            t.agenda = s.agenda ++ [Instr.msgRetry n] ∧ SameBytes s t ∧ t.warp = s.warp)) ∧
      (∀ place u sp, m.place = some place → m.written = false →
        s.engineReach o .store needW ((b.base + 512 * (place % 2 ^ b.lsize)) % 2 ^ 64) 512 = (u, .ok sp) → u.opAt n = some o →
        u.spotHeld sp 512 true = false → u.canonical = true →
          let wrote (t : State) := t.opAt n = some { o with work := .msg { m with written := true } } ∧ t.warp = u.warp ∧
            t.agenda = u.agenda ++ [Instr.msgRetry n]
          (∀ off, sp = .own off → ∃ t : State, exec (.msgRetry n) s = .next t ∧ wrote t ∧
            (t.blockAt o.warp.block).spadRead off 512 = m.payload % 2 ^ 512) ∧
          ∀ fa leaf, sp = .mem fa leaf → fa % 2048 + 512 ≤ 2048 → u.plainLine (lineOf fa) → dieOf fa = o.warp.die →
            u.alive (dieOf fa) = true → u.hasRoom (dieOf fa) (lineOf fa) → (u.dirAt (lineOf fa)).busy = none →
            (u.dirAt (lineOf fa)).st = .u → (u.dieAt (dieOf fa)).homeWatches = [] → bitOf leaf 7 = false →
            (∀ w : Nat, u.poisonOf fa w = none) →
              ∃ t : State, exec (.msgRetry n) s = .next t ∧ wrote t ∧ readBits t.homeByte fa 512 = m.payload % 2 ^ 512 ∧
                OtherBytes u t fa 512) ∧
      (∀ place, m.place = some place → m.written = true → s.msgBefore m place = true →
        exec (.msgRetry n) s = .next { s with agenda := s.agenda ++ [.msgRetry n] }) ∧
      (∀ place, m.place = some place → m.written = true → s.msgBefore m place = false → s.forwarding = false →
        ∃ t : State, exec (.msgRetry n) s = .next t ∧ readBits t.homeByte x 64 = syncAdd 1 (readBits s.homeByte x 64) ∧
          OtherBytes s t x 64 ∧ OpEnds s t n o .doneOk 0)

/-- R286, R291 to R294, R296, R299, R302, R447: a copy is taken from its queue, up to eight of an engine at once, its arrival
units are sent out, each unit writes its bits and counts them, and after the last the operation ends, as a copy without bits does;
a cancelled copy ends; a resolved miss lets it go on. -/
def Obligations.CopyEvents : Prop :=
  ∀ (s : State) (n : Nat) (o : EngineOp) (c : CopyOp), s.canonical = true → s.opAt n = some o → o.work = .copy c →
    let die := o.warp.die
    let core := o.warp.core
    let running := s.runningCopies die core o.engine
    let spad := (s.blockAt o.warp.block).header.spad
    (∀ rest, s.engineQueue die core o.engine = n :: rest → running.length < 8 →
      ∃ t : State, exec (.copyCommandStart die core o.engine) s = .next t ∧ t.engineQueue die core o.engine = rest ∧
        t.opAt n = some { o with started := true } ∧ t.agenda = s.agenda ++ [Instr.copyCommandStart die core o.engine] ∧
        SameBytes s t ∧ t.warp = s.warp) ∧
    (s.engineQueue die core o.engine = [] ∨ 8 ≤ running.length → running.find? (fun x => match x.2.work with | .copy c => !c.ready | _ => false) = some (n, o) → o.suspended = false →
      s.opReady o = true → c.sync = none → c.list = none →
      let units := if c.len = 0 ∨ c.rows = 0 ∨ c.planes = 0 then [] else c.allUnits
      ∃ t : State, exec (.copyCommandStart die core o.engine) s = .next t ∧ SameBytes s t ∧ t.warp = s.warp ∧
        t.opAt n = some { o with work := .copy { c with syncAt := none, ready := true, units } } ∧
        t.agenda = s.agenda ++ if units = [] then [Instr.copyOperationEnd n] else units.map (.arrivalUnit n)) ∧
    (∀ a b k, o.suspended = false → c.list = none → c.rows = 1 → c.planes = 1 → c.len = 64 → a % 64 = 0 → b % 64 = 0 →
      a + 64 ≤ 8 * spad → b + 64 ≤ 8 * spad → 8 * spad ≤ 2 ^ 32 → c.src = 2 ^ 59 + a → c.dst = 2 ^ 59 + b → c.units = [c.dst] →
      c.syncAt = some (some o.warp.block, k, 0) → (k % 64 = 0 ∧ k ≠ b) → (s.coreAt die core).watches = [] →
      (s.dieAt die).l2 = [] → s.holders = [] → s.forwarding = false →
      ∃ t : State, exec (.arrivalUnit n c.dst) s = .next t ∧
        (t.blockAt o.warp.block).spadRead b 64 = (s.blockAt o.warp.block).spadRead a 64 ∧
        (t.blockAt o.warp.block).spadRead k 64 = syncAdd 64 ((s.blockAt o.warp.block).spadRead k 64) ∧
        (∀ i, i / 8 ≠ b / 64 → i / 8 ≠ k / 64 →
          tget 0 (t.blockAt o.warp.block).spad i = tget 0 (s.blockAt o.warp.block).spad i) ∧
        (∀ d i, t.dieByte d i = s.dieByte d i) ∧ t.opAt n = some { o with work := .copy { c with units := [] } } ∧
        t.agenda = s.agenda ++ [Instr.copyOperationEnd n] ∧ t.warp = s.warp) ∧
    ((s.blockAt o.warp.block).place ≠ .saved →
      (c.ready = true → c.units = [] → c.mm = none ∨ c.len = 0 ∨ c.rows = 0 ∨ c.planes = 0 → ∃ t : State, exec (.copyOperationEnd n) s = .next t ∧ OpEnds s t n o .doneOk 0) ∧
      (o.cancel = true → ∃ t : State, exec (.cancelHonoured n) s = .next t ∧ OpEnds s t n o .cancelled 0)) ∧
    (o.cancel = false → exec (.cancelHonoured n) s = .next s) ∧
    (∀ resolved, ∃ t : State, exec (.engineMissResume n resolved) s = .next t ∧ t = { s with ops := t.ops } ∧
      t.opAt n = some { o with suspended := false, unresolved := !resolved } ∧ ∀ k, k ≠ n → t.opAt k = s.opAt k) ∧
    (∀ id engine handle pid va mask time k (w : Watch), (s.coreAt id.die id.core).watches = [(k, w)] →
      w.maskBits pid va mask ≠ [] → w.ctl.getLsbD 3 = false →
      ∃ t : State, exec (.engineWatchReport id engine handle pid va mask time) s = .next t ∧ t = { s with dies := t.dies, agenda := t.agenda } ∧
        t.agenda = s.agenda ++ [Instr.faultRecordEnqueue id.die] ∧ ∃ r : FaultRecord, r.kind = 7 ∧
          r.addr = BitVec.ofNat 64 ((w.maskBits pid va mask).headD 0) ∧ r.process = BitVec.ofNat 16 pid ∧
          (t.dieAt id.die).waiting = (s.dieAt id.die).waiting ++ [⟨r, none, none, false⟩])

/-! ## Matrix engines -/

/-- R304, R305, R315, R320, R321: a matrix instruction takes the last place in the queue of its engine and claims the
accumulator store for its block; MMA, MMA.SM, ACCLD, ACCST, QUANT and DEQ give a handle; ACCZ gives none; ACCSIDE.rd owes
its two registers. -/
def Obligations.MatrixIssue : Prop :=
  ∀ (f : Fields) (s : State) (idx : Nat), s.canonical = true → s.acts f = true →
    let id := s.warp.id
    let pair (r : BitVec 8) := s.regs .s r.toNat 0 2
    let word (r : BitVec 8) := s.reg (.s r.toNat) 0
    let places (t : State) (engine : Nat) (m : MatOp) (handle : Option Nat) : Prop :=
      t.nextOp = s.nextOp + 1 ∧ (t.coreAt id.die id.core).matrix = some id.block ∧
      t.engineQueue id.die id.core engine = s.engineQueue id.die id.core engine ++ [s.nextOp] ∧
      (∃ o m', t.opAt s.nextOp = some o ∧ o.work = .matrix m' ∧ { m' with descs := [], ends := none } = m ∧ o.warp = id ∧
        o.engine = engine ∧ o.handle = handle ∧ o.started = false) ∧
      .matrixCommandStart id.die id.core engine ∈ t.agenda
    let issues (i : Instr) (me : Bool) (m : MatOp) : Prop :=
      let engine := if me then 3 else 2
      s.myBlock.freeHandle = some idx → s.matrixFree engine (m.kind == .mma || m.kind == .mmaSm || m.kind == .quant || m.kind == .deq) = true →
        ∃ t : State, exec i s = .next t ∧ places t engine m (some idx) ∧
          MovesOwing s t f [.h f.fh.toNat] [⟨.h f.fh.toNat, 0, (nextHandleSeq (s.myBlock.handle idx).seq).toNat * 64 + idx⟩] ∧
          (t.myBlock.handle idx).state = .pending
    let acc (k : MatKind) : MatOp := { MatOp.none with
      kind := k, tile := f.xn 1 0, fmt := f.xn 5 3, rnd := f.xn 7 6, sat := f.xb 8, a := pair f.a, stride := word f.b
      region := word f.c }
    let me := f.mb 3
    issues (.mma f) me { MatOp.none with kind := .mma, tile := f.xn 1 0, ovr := f.mb 2, a := pair f.a, b := pair f.b } ∧
    issues (.mmaSm f) me { MatOp.none with
      kind := .mmaSm, tile := f.xn 1 0, otile := f.xn 3 2, ovr := true, a := pair f.a, b := pair f.b, sigma := word f.c
      pAddr := pair f.e, fmt := f.xn 6 4, rnd := f.xn 8 7, sat := f.xb 9 } ∧
    issues (.accld f) (f.xb 2) (acc .accld) ∧ issues (.accst f) (f.xb 2) (acc .accst) ∧
    issues (.quant f) me { MatOp.none with
      kind := .quant, a := pair f.a, b := pair f.b, elems := word f.c, rows := word f.e, fmt := f.xn 2 0, thresh := f.xn 10 3
      stride := f.imm32.toNat } ∧
    issues (.deq f) me { MatOp.none with
      kind := .deq, a := pair f.a, b := pair f.b, elems := word f.c, rows := word f.e, fmt := f.xn 2 0, rnd := f.xn 4 3
      sat := f.xb 5, stride := f.imm32.toNat } ∧
    let engine := if me then 3 else 2
    let row0 := (if f.isImm16 then f.imm16.toNat else f.imm32.toNat) % 128
    let side (e : Option Nat) : MatOp := { MatOp.none with
      kind := .accside, tile := f.mn 1 0, read := !f.mb 2, reg := f.d.toNat, row0, entry := e
      lanes := (s.actLanes f).map fun l => (l, s.reg (.v f.d.toNat) l, s.reg (.v (f.d.toNat + 1)) l) }
    (s.matrixFree engine false = true →
      (∃ t : State, exec (.accz f) s = .next t ∧ places t engine { MatOp.none with kind := .accz, tile := f.mn 1 0 } none ∧ MovesOn s t f ∧
        SameBytes s t) ∧
      (f.mb 2 = true → ∃ t : State, exec (.accside f) s = .next t ∧ places t engine (side none) none ∧ MovesOn s t f ∧ SameBytes s t) ∧
      (f.mb 2 = false → ∃ t : State, exec (.accside f) s = .next t ∧ places t engine (side (some s.warp.nextId)) none ∧ SameBytes s t ∧
        t.warp.regs = s.warp.regs ∧ CountersPast s t f.slot ∧ ∃ e : ScoreEntry, t.warp.score = s.warp.score ++ [e] ∧
          e.id = s.warp.nextId ∧ e.kind = .wait ∧ e.covers = [.v f.d.toNat, .v (f.d.toNat + 1)]))

/-- R119, R120, R125, R310, R314, R316, R317, R320 to R323, R325: an idle engine takes the command at the head of its queue. What
commands do when an engine performs them: MMA adds the products of its rows to the tile, or to zero, group by group, each group's
exact sum with one rounding; MMA.SM makes a softmax step of the product; ACCLD decodes the rows of its region into a tile; ACCST
and DEQ write a row after the other; ACCZ and ACCSIDE set side registers, or read them for the warp. Each ends its operation, a
command whose checks failed with their status. -/
def Obligations.MatrixEvents : Prop :=
  ∀ (s : State) (n : Nat) (o : EngineOp) (m : MatOp), s.canonical = true → s.opAt n = some o → o.work = .matrix m →
    let die := o.warp.die
    let core := o.warp.core
    let me := o.engine - 2
    let el (t : State) (i j : Nat) : Nat := ((t.coreAt die core).tileRow me m.tile i).getD j 0
    let side (t : State) (i : Nat) := (t.coreAt die core).sideOf me m.tile i
    let start := Instr.matrixCommandStart die core o.engine
    let finish := Instr.matrixCommandEnd die core o.engine
    let u := (s.engineQueue die core o.engine).foldl State.enterMatrix s
    let allRead := ∀ k ∈ s.engineQueue die core o.engine, ∀ p w, s.opAt k = some p → p.work = .matrix w →
      p.suspended = true ∨ w.toRead = []
    (allRead → u = s) ∧
    (∀ rest, u.engineQueue die core o.engine = n :: rest → u.runningMatrix die core o.engine = none →
      ∃ t : State, exec start s = .next t ∧ t.engineQueue die core o.engine = rest ∧
        t.opAt n = (u.opAt n).map (fun o => { o with started := true }) ∧ SameBytes u t ∧ t.warp = u.warp ∧
        t.agenda = u.agenda ++ [finish] ++ if rest.any (fun k => u.descHeld k) then [start] else []) ∧
    (∀ x, u.runningMatrix die core o.engine = some x → (∀ k ∈ u.engineQueue die core o.engine, u.descHeld k = false) →
      exec start s = .next u) ∧
    (s.runningMatrix die core o.engine = some (n, o) → o.suspended = false → s.opReady o = true → m.toRead = [] →
      (s.blockAt o.warp.block).place ≠ .saved →
      ∀ st, m.ends = some st → ∃ t : State, exec finish s = .next t ∧ OpEnds s t n o .doneErr st ∧ SameBytes s t) ∧
    (s.runningMatrix die core o.engine = some (n, o) → o.suspended = false → s.opReady o = true → m.ends = none → m.toRead = [] →
      m.tile < 4 → me < 2 → (s.blockAt o.warp.block).place ≠ .saved →
      (m.kind = .mma ∨ m.kind = .mmaSm → m.mismatched = true →
        ∃ t : State, exec finish s = .next t ∧ OpEnds s t n o .doneErr 0x21 ∧ SameBytes s t) ∧
      (∀ a b g, m.kind = .mmaSm → m.mismatched = false → m.otile < 4 → m.otile ≠ m.tile →
        let w := (formatOf m.fmt).width
        let off := m.pAddr % 2 ^ 56
        let blk := o.warp.block
        let mul (x y : Nat) := (fMul f32 rne (f32.decode x) (f32.decode y)).1
        let score i j := mul m.sigma (dotFrom g 0 (a.getD i []) (b.getD j []))
        let out (t : State) (i j : Nat) : Nat := ((t.coreAt die core).tileRow me m.otile i).getD j 0
        let sides (t : State) (i : Nat) := (t.coreAt die core).sideOf me m.otile i
        let row i := softRow (sides s i).1 (sides s i).2 ((List.range 128).map (score i))
        m.pAddr / 2 ^ 56 = 8 → off + 16384 * w ≤ 8 * (s.blockAt blk).header.spad → s.mmaOperands o m = (s, .ok (a, b, g)) →
        a.length = 128 → b.length = 128 →
        ∃ t : State, exec finish s = .next t ∧ OpEnds s t n o .doneOk 0 ∧ (∀ d x, t.dieByte d x = s.dieByte d x) ∧
          (∀ k, k ≠ blk → (t.blockAt k).spad = (s.blockAt k).spad) ∧
          (∀ x, x ∉ bytesTouched off (16384 * w) → tget 0 (t.blockAt blk).spad x = tget 0 (s.blockAt blk).spad x) ∧
          ∀ i < 128, sides t i = ((row i).m % 2 ^ 32, (row i).l % 2 ^ 32) ∧ ∀ j < 128,
            el t i j = score i j % 2 ^ 32 ∧ out t i j = mul (out s i j) (row i).alpha % 2 ^ 32 ∧
            (t.blockAt blk).spadRead (off + (128 * i + j) * w) w =
              ((formatOf m.fmt).round ⟨m.rnd, m.sat⟩ (f32.decode ((row i).p.getD j 0))).1 % 2 ^ w) ∧
      (m.kind = .mmaSm → m.mismatched = false → m.pAddr / 2 ^ 56 ≠ 8 →
        ∃ t : State, exec finish s = .next t ∧ OpEnds s t n o .doneErr 0x22 ∧ SameBytes s t) ∧
      (m.kind = .quant ∨ m.kind = .deq → (m.kind = .quant → 2 < (descOf (m.descs.getD 0 0)).fmt) → m.rows = 0 ∨ m.elems = 0 →
        ∃ t : State, exec finish s = .next t ∧ OpEnds s t n o .doneOk 0 ∧ SameBytes s t) ∧
      (m.kind = .quant → (descOf (m.descs.getD 0 0)).fmt ≤ 2 →
        ∃ t : State, exec finish s = .next t ∧ OpEnds s t n o .doneErr 0x25 ∧ SameBytes s t) ∧
      (let w := (formatOf m.fmt).width
       let writes (a rows : Nat) (vs : List Nat) : Prop :=
         let v := (vs.zipIdx.map fun (x, j) => x % 2 ^ w * 2 ^ (j * w)).sum
         ∀ v' k, s.writeUnits o (a % 2 ^ 64) (vs.length * w) v (runUnits (a % 2 ^ 64) (vs.length * w)) 0 = (v', k, none) →
           v'.opAt n = some o →
           ∃ t : State, exec finish s = .next t ∧ (rows ≤ m.row + 1 → OpEnds v' t n o .doneOk 0) ∧
             (m.row + 1 < rows → t.opAt n = some { o with work := .matrix { m with row := m.row + 1, row0 := 0, rowVal := none } } ∧
               t.agenda = v'.agenda ++ [finish] ∧ SameBytes v' t ∧ t.warp = v'.warp)
       (m.kind = .accst → regionStatus m.region = none → m.row0 = 0 →
         writes (m.a + m.row * m.stride) (m.region / 2 ^ 8 % 128 + 1) ((List.range (m.region / 2 ^ 24 % 128 + 1)).map fun j =>
           ((formatOf m.fmt).round ⟨m.rnd, m.sat⟩ (f32.decode (el s (m.region % 128 + m.row) (m.region / 2 ^ 16 % 128 + j)))).1)) ∧
       (∀ xs, m.kind = .deq → m.rows ≠ 0 → m.elems ≠ 0 → m.row0 = 0 → m.rowVal = none → xs.length = m.elems →
         s.readOperandRow o (descOf (m.descs.getD 0 0)) m.elems m.row = (s, .ok xs) →
         writes (m.b + m.row * m.stride) m.rows (xs.map fun x => ((formatOf m.fmt).round ⟨m.rnd, m.sat⟩ x).1))) ∧
      (∀ a b g, m.kind = .mma → m.mismatched = false → a.length = 128 → b.length = 128 → s.mmaOperands o m = (s, .ok (a, b, g)) →
        ∃ t : State, exec finish s = .next t ∧ OpEnds s t n o .doneOk 0 ∧ SameBytes s t ∧
          ∀ i < 128, ∀ j < 128, el t i j = dotFrom g (if m.ovr then 0 else el s i j) (a.getD i []) (b.getD j []) % 2 ^ 32) ∧
      (∀ vs, m.kind = .accld → regionStatus m.region = none →
        let r0 := m.region % 128
        let nr := m.region / 2 ^ 8 % 128 + 1
        let c0 := m.region / 2 ^ 16 % 128
        let nc := m.region / 2 ^ 24 % 128 + 1
        let w := (formatOf m.fmt).width
        s.matLoads o ((List.range nr).map fun i => ((m.a + i * m.stride) % 2 ^ 64, nc * w)) = (s, .ok vs) →
        ∃ t : State, exec finish s = .next t ∧ OpEnds s t n o .doneOk 0 ∧ SameBytes s t ∧
          ∀ i < 128, ∀ j < 128, el t i j =
            if r0 ≤ i ∧ i < r0 + nr ∧ c0 ≤ j ∧ j < c0 + nc then
              encodeExact f32 ((formatOf m.fmt).decode (vs.getD (i - r0) 0 / 2 ^ ((j - c0) * w) % 2 ^ w)) % 2 ^ 32
            else el s i j) ∧
      (m.kind = .accz → ∃ t : State, exec finish s = .next t ∧ OpEnds s t n o .doneOk 0 ∧ SameBytes s t ∧
        ∀ i < 128, side t i = (0xFF800000, 0) ∧ ∀ j < 128, el t i j = 0) ∧
      (m.kind = .accside → m.read = false → (∀ x ∈ m.lanes, x.1 < 64) → (m.lanes.map (·.1)).Nodup →
        ∃ t : State, exec finish s = .next t ∧ OpEnds s t n o .doneOk 0 ∧ SameBytes s t ∧
          (∀ x ∈ m.lanes, side t ((m.row0 + x.1) % 128) = (x.2.1 % 2 ^ 32, x.2.2 % 2 ^ 32)) ∧
          ∀ i < 128, (∀ x ∈ m.lanes, (m.row0 + x.1) % 128 ≠ i) → side t i = side s i) ∧
      (∀ e before after, m.kind = .accside → m.read = true → m.entry = some e.id → s.warp.live = true → s.warp.id = o.warp →
        s.warp.score = before ++ e :: after → (∀ y ∈ before ++ after, y.id ≠ e.id) →
        ∃ t : State, exec finish s = .next t ∧ OpEnds s t n o .doneOk 0 ∧ SameBytes s t ∧
          .longLatencyResult o.warp e.id ∈ t.agenda ∧
          t.warp.score = before ++ { e with results := m.lanes.flatMap fun x =>
            [⟨.v m.reg, x.1, (side s ((m.row0 + x.1) % 128)).1⟩, ⟨.v (m.reg + 1), x.1, (side s ((m.row0 + x.1) % 128)).2⟩] } :: after)) ∧
    (∀ (d : Desc) (k r v : Nat), d.bmode = 0 → 0 < k →
      let w := matWidth d.fmt
      s.matLoad o ((d.base + r * d.rstride) % 2 ^ 64) (k * w) = (s, .ok v) →
      s.readOperandRow o d k r = (s, .ok ((List.range k).map fun i => matDecode d.fmt (v / 2 ^ (i * w) % 2 ^ w)))) ∧
    (∀ fmt spec word x d, (fmt = 7 → spec = true → x ≠ 8) → matDecode fmt x = .num d → word % 256 ≠ 255 →
      (matDecodeScaled fmt spec word x).value = some (Dyad.val d * (2 : Rat) ^ ((word % 256 : Nat) - 127 : Int))) ∧
    (∀ fmt spec word x, word % 256 = 255 → matDecodeScaled fmt spec word x = .nan false 2) ∧
    (∀ g c xs ys, 0 < g → xs.length = ys.length →
      let ps := List.zipWith productVal xs ys
      dotFrom g c xs ys = (List.range ((ps.length + g - 1) / g)).foldl (fun c k => groupAdd c ((ps.drop (k * g)).take g)) c) ∧
    (∀ a b k x y p q, productVal (.nan a k) y = .nan a k ∧ (x.isNan = false → productVal x (.nan a k) = .nan a k) ∧
      productVal (.zero a) (.inf b) = .nan false 4 ∧ productVal (.inf a) (.zero b) = .nan false 4 ∧
      productVal (.inf a) (.inf b) = .inf (a != b) ∧ productVal (.zero a) (.zero b) = .zero (a != b) ∧
      productVal (.inf a) (.num p) = .inf (a != decide (p.m < 0)) ∧ productVal (.num p) (.inf a) = .inf (decide (p.m < 0) != a) ∧
      productVal (.zero a) (.num p) = .zero (a != decide (p.m < 0)) ∧
      productVal (.num p) (.zero a) = .zero (decide (p.m < 0) != a) ∧
      (productVal (.num p) (.num q)).value = some (Dyad.val p * Dyad.val q)) ∧
    ∀ c ps, (∀ d, .num d ∈ ps → d.m ≠ 0) →
      let x := f32.decode c
      let finite := ∀ p ∈ ps, p.isNan = false ∧ p ≠ .inf true ∧ p ≠ .inf false
      let inf (a : Bool) := f32.withSign a f32.infCode
      let sum := (ps.filterMap FVal.value).sum
      (∀ a k, x = .nan a k → groupAdd c ps = f32.nanCode a k) ∧
      (∀ a k us vs, x.isNan = false → ps = us ++ .nan a k :: vs → (∀ v ∈ us, v.isNan = false) → groupAdd c ps = f32.nanCode a k) ∧
      (x.isNan = false → (∀ p ∈ ps, p.isNan = false) →
        (.inf true ∈ ps → .inf false ∈ ps → groupAdd c ps = (f32.genNan 3).1) ∧
        (∀ a, .inf a ∈ ps → .inf (!a) ∉ ps → groupAdd c ps = if x = .inf (!a) then (f32.genNan 3).1 else inf a)) ∧
      (finite → (∀ a, x = .inf a → groupAdd c ps = inf a) ∧
        ∀ v, x.value = some v →
          (v + sum = 0 → groupAdd c ps = f32.withSign (decide (x = .zero true ∧ ps ≠ [] ∧ ∀ p ∈ ps, p = .zero true)) 0) ∧
          (v + sum ≠ 0 → ∀ d, Dyad.val d = v + sum → groupAdd c ps = (f32.roundNum rne d).1))

/-! ## Placement -/

/-- R326 to R330, R335, R346 to R353: the placement instructions. PLDEF, PLSET and PLDROP change the entry, in the engines and in
the process's table, and answer with a status; PLQRY and PLWAIT read it; PLCONV starts an operation that ends at once where
nothing is to be converted or a check fails, and else with the conversion that its member has joined; LD.PL loads the elements
that its lanes name where the entry stands in the demanded state. -/
def Obligations.PlacementInstructions : Prop :=
  ∀ (f : Fields) (s : State), s.canonical = true → s.acts f = true → s.warp.parked = none →
    let pid := s.processOf s.warp
    let die := s.warp.id.die
    let word (x : BitVec 8) := s.reg (.s x.toNat) 0
    let idx := word f.a
    let e := s.plAt pid idx
    let member := e.memberOf s.device die
    let answers (u t : State) (status : Nat) : Prop := t.agenda = u.agenda ++ [u.resultDue] ∧
      MovesOwing u t f (coversD f 1) ((u.actLanes f).flatMap fun l => dest f 1 l status)
    (idx < 4096 → s.Rests (s.tableAt pid idx) 512 → e.valid = true → member.isSome = true →
      (∀ st v, s.release 5 = (s, true) → word f.b = st → word f.c = v →
        (e.busy = true → ∃ t : State, exec (.plset f) s = .next t ∧ answers s t 0x34 ∧ t.placements = s.placements) ∧
        (e.busy = false → e.validState st = true → e.reachable st = true →
          (v = (e.gen + 1) % 2 ^ 32 → ∃ t : State, exec (.plset f) s = .next t ∧ answers s t 0 ∧
            EntrySet s t pid idx { e with state := st, gen := v, failed := false, cause := 0, failStatus := 0 } ∧
            ∀ x ∈ t.dstMarks, x.key ≠ pid * 4096 + idx) ∧
          (v = e.gen → e.state = st → v ≠ (e.gen + 1) % 2 ^ 32 → ∃ t : State, exec (.plset f) s = .next t ∧ answers s t 0 ∧
            t.placements = s.placements) ∧
          (v ≠ e.gen → v ≠ (e.gen + 1) % 2 ^ 32 → ∃ t : State, exec (.plset f) s = .next t ∧ answers s t 0x36 ∧
            t.placements = s.placements))) ∧
      (e.busy = false → (∀ x ∈ s.srcMarks ++ s.dstMarks, x.key ≠ pid * 4096 + idx) →
        ∃ t : State, exec (.pldrop f) s = .next t ∧ answers s t 0 ∧ EntrySet s t pid idx { e with valid := false }) ∧
      (e.busy = true ∨ (∃ x ∈ s.srcMarks ++ s.dstMarks, x.key = pid * 4096 + idx) →
        ∃ t : State, exec (.pldrop f) s = .next t ∧ answers s t 0x34 ∧ t.placements = s.placements) ∧
      (e.failed = false → (e.gen = word f.b → ∃ t : State, exec (.plwait f) s = .next t ∧ Blocks s t .plwait 0) ∧
        (e.gen ≠ word f.b → (s.dieAt die).l2 = [] →
          ∃ t : State, exec (.plwait f) s = .next t ∧ answers s t e.gen ∧ SameBytes s t)) ∧
      (∃ t : State, exec (.plqry f) s = .next t ∧ t.agenda = s.agenda ++ [s.resultDue] ∧
        MovesOwing s t f (coversD f 2) ((s.actLanes f).flatMap fun l => dest f 2 l
          ([e.cur, e.alt, e.state, e.gen, e.word7 % 2 ^ 32, e.localCount e.state, member.getD (2 ^ 64 - 1),
            (member.map fun m => (e.cur + m * e.bstride) % 2 ^ 64).getD (2 ^ 64 - 1)].getD (f.mn 2 0) 0))) ∧
      (∀ h, s.myBlock.freeHandle = some h → s.myBlock.place ≠ .saved →
        let target := word f.b
        let starts (u : State) (st : HandleState) (status : Nat) : Prop :=
          ∃ t : State, exec (.plconv f) s = .next t ∧ t.warp.gang = [] ∧
            MovesOwing u t f [.h f.d.toNat] [⟨.h f.d.toNat, 0, (nextHandleSeq (u.myBlock.handle h).seq).toNat * 64 + h⟩] ∧
            (t.myBlock.handle h).state = st ∧ (t.myBlock.handle h).status = BitVec.ofNat 16 status
        (∀ c st, s.plCheck pid idx die target = some (c, st) → starts s .doneErr st) ∧
        (s.plCheck pid idx die target = none →
          (e.state = target → starts s .doneOk 0) ∧
          (s.demandOf pid idx die (member.getD 0) target = .joined → s.marksSet pid idx (member.getD 0) = true → starts s .pending 0) ∧
          ∀ u, s.demandOf pid idx die (member.getD 0) target = .join → s.release 5 = (s, true) →
            s.joinLocal pid idx die (member.getD 0) target f.hint.toNat s.warp.user = u →
            u.marksSet pid idx (member.getD 0) = true → u.canonical = true → u.blocks = s.blocks → starts u .pending 0))) ∧
    (∀ u v x l, s.release 4 = (s, true) → s.readOnce f (s.upair f.b) 512 = (u, .ok x) → u.pldefFirst f pid idx x = none →
      u.readOnce f (entryOf x).mlist (16 * (entryOf x).count) = (v, .ok l) → v.Rests (v.tableAt pid idx) 512 → v.warp.parked = none →
      let new := { entryOf x with members := membersOf (listWords (entryOf x).count l) }
      v.pldefLast new (listWords (entryOf x).count l) = none →
      ∃ t : State, exec (.pldef f) s = .next t ∧ answers v t 0 ∧ EntrySet v t pid idx new ∧
        (∀ x ∈ t.srcMarks ++ t.dstMarks, x.key ≠ pid * 4096 + idx) ∧ new.cur = x % 2 ^ 64 ∧
        new.alt = x / 2 ^ 64 % 2 ^ 64 ∧ new.bstride = x / 2 ^ 128 % 2 ^ 64 ∧ new.state = x / 2 ^ 384 % 2 ^ 12 ∧
        new.gen = x / 2 ^ 480 % 2 ^ 32 ∧ new.fmt = x / 2 ^ 448 % 16) ∧
    (∀ u r, s.warp.resuming = none → s.indirectBreach (.ldPl f) f = none → s.plCheck pid idx die (word f.c) = none →
      e.state = word f.c →
      let n := if f.form = .w128 then f.xn 3 0 + 1 else 1
      let i l : Int := (if f.mb 3 then sintOf 64 (s.srcBReg f 2 l) else ((s.srcBReg f 1 l : Nat) : Int)) + sintOf 32 f.imm32.toNat
      let addrs := (s.activeLanes f).map fun l => (l, (e.cur + member.getD 0 * e.bstride + (i l).toNat * e.width) % 2 ^ 64)
      s.activeLanes f ≠ [] → (∀ l ∈ s.activeLanes f, 0 ≤ i l ∧ i l + n ≤ e.localCount e.state) →
      s.windowBreach s.warp (n * e.width) addrs = none → s.reachAll s.warp ⟨.load, needR, n * e.width, none⟩ addrs = (u, r) →
      r.bad = [] → u.noRoom r.parts = none → (s.activeLanes f).Nodup →
      ∃ t : State, exec (.ldPl f) s = .next t ∧ AccessFrame u t f ∧
        Awaits u t .load ((List.range n).map fun j => .v (f.d.toNat + j)) (some ⟨false, f.d.toNat, n, e.width, false⟩)
          (if e.arrived then some 5 else none) (r.good.map fun x => ⟨x.1, (i x.1).toNat, x.2.2.length, 0⟩)
          (r.parts.filterMap fun p => match p.spot with
            | .mem fa leaf => some ⟨u.warp.nextId, p.lane, fa, p.width, p.at_, leafMode leaf f.hint.toNat, p.va, p.packed⟩
            | _ => none))

/-- R333 to R342: the events of a conversion. A matching request joins, once the member's sectors bear their marks; any other
aborts, and so does one that finds a member's die lost; each source sector is read and each destination sector written once, and
its mark goes; the end swaps the buffers and counts the generation; an abort marks the entry failed with its cause; the
coordinator's limit aborts. -/
def Obligations.ConversionEvents : Prop :=
  ∀ (s : State) (pid idx m : Nat) (c : Conv), s.canonical = true → idx < 4096 →
    let e := s.plAt pid idx
    let key := pid * 4096 + idx
    let quiet := ∀ x ∈ s.ops, ∀ o : EngineOp, x.2 = some o → (∀ j t, o.work ≠ .conv j t) ∨ o.handle = none
    (∀ gen cur demanded, m < e.members.length → s.localMember e 0 = true →
      let c0 := (s.convAt pid idx).getD (Conv.start gen cur demanded s.timer)
      (s.localMember e m = true → s.convAt pid idx = some c0 ∧ m ∈ c0.marked) →
      (e.gen ≠ gen ∨ c0.source ≠ cur ∨ c0.target ≠ demanded → ∃ t : State, exec (.joinRequest pid idx m gen cur demanded) s = .next t ∧
        t = { s with agenda := s.agenda ++ [Instr.conversionAbort pid idx .mismatch] }) ∧
      (e.gen = gen → c0.gen = gen → c0.source = cur → c0.target = demanded → s.memberLost e = true →
        ∃ t : State, exec (.joinRequest pid idx m gen cur demanded) s = .next t ∧ t.convAt pid idx = some c0 ∧
          t = { s with convs := t.convs, agenda := s.agenda ++ [Instr.conversionAbort pid idx .lostDie] }) ∧
      (e.gen = gen → c0.gen = gen → c0.source = cur → c0.target = demanded → s.memberLost e = false → m ∉ c0.joined →
        ∃ (t : State) (c' : _), exec (.joinRequest pid idx m gen cur demanded) s = .next t ∧ t.convAt pid idx = some c' ∧
          c'.joined = m :: c0.joined ∧ c'.gen = gen ∧ c'.source = cur ∧ c'.target = demanded ∧
          (c0.joined = [] → .placementTimeout pid idx ∈ t.agenda) ∧
          (s.localMember e m = true → ∀ x ∈ e.sourceSectors cur m, .sourceSectorRead pid idx m x.1 ∈ t.agenda) ∧
          SameBytes s t ∧ t.warp = s.warp)) ∧
    (∀ i n o lo w u fa leaf, s.convAt pid idx = some c → (m, i) ∈ c.unread → s.agentOf c m = some (n, o) → o.suspended = false →
      (e.sourceSectors c.source m).find? (fun x => x.1 == i) = some (i, lo, w) →
      s.meridianReach o .load needR ((e.cur + m * e.bstride % 2 ^ 64 + lo) % 2 ^ 64) w = (u, .ok (fa, leaf)) → u.canonical = true →
      u.convHeld (·.key == key) fa w false = false → u.planeHeld fa = false → u.poisonOf fa w = none → dieOf fa = o.warp.die →
      u.plainLine (lineOf fa) → (u.dirAt (lineOf fa)).busy = none → (∀ d, (u.dirAt (lineOf fa)).st ≠ .o d) →
      u.hasRoom (dieOf fa) (lineOf fa) → bitOf leaf 13 = false →
      ∃ (t : State) (c' : _), exec (.sourceSectorRead pid idx m i) s = .next t ∧ t.convAt pid idx = some c' ∧
        tget 0 c'.captured m / 2 ^ lo % 2 ^ w = u.dieRead o.warp.die fa w ∧
        c'.unread = c.unread.filter (fun x => x != (m, i)) ∧ SameBytes u t ∧ t.warp = u.warp ∧
        ∀ x, x ∈ t.srcMarks ↔ x ∈ u.srcMarks ∧ ¬(x.key = key ∧ x.member = m ∧ x.part = i)) ∧
    (∀ i n o lo w u fa leaf, s.convAt pid idx = some c → (m, i) ∈ c.unwritten → s.agentOf c m = some (n, o) → o.suspended = false →
      (e.destSectors c.target m).find? (fun x => x.1 == i) = some (i, lo, w) →
      s.meridianReach o .store needW ((e.alt + m * e.bstride % 2 ^ 64 + lo) % 2 ^ 64) w = (u, .ok (fa, leaf)) → u.canonical = true →
      u.convHeld (·.key == key) fa w true = false → u.planeHeld fa = false → dieOf fa = o.warp.die → u.forwarding = false →
      bitOf leaf 7 = false → u.plainLine (lineOf fa) → (u.dirAt (lineOf fa)).busy = none → (u.dirAt (lineOf fa)).st = .u →
      (∀ d, u.l2At d (lineOf fa) = none) → u.hasRoom (dieOf fa) (lineOf fa) → (∀ w : Nat, u.poisonOf fa w = none) →
      fa % 2048 + w ≤ 2048 → 0 < w →
      ∃ (t : State) (c' : _), exec (.destinationSectorWritten pid idx m i) s = .next t ∧
        readBits t.homeByte fa w = u.targetBits key e c m / 2 ^ lo % 2 ^ w ∧ OtherBytes u t fa w ∧
        (∀ x, x ∈ t.dstMarks ↔ x ∈ u.dstMarks ∧ ¬(x.key = key ∧ x.member = m ∧ x.part = i)) ∧ t.convAt pid idx = some c' ∧
        c'.unwritten = c.unwritten.filter (fun x => x != (m, i)) ∧
        (c'.unwritten = [] → .conversionComplete pid idx ∈ t.agenda)) ∧
    (s.convAt pid idx = some c → quiet → s.Rests (s.tableAt pid idx) 512 →
      (c.unwritten = [] → c.unread = [] → s.allJoined e c = true →
        ∃ t : State, exec (.conversionComplete pid idx) s = .next t ∧ t.convAt pid idx = none ∧
          EntrySet s t pid idx { e with
            cur := e.alt, alt := e.cur, state := c.target, gen := (e.gen + 1) % 2 ^ 32, busy := false, arrived := true }) ∧
      (c.agents ≠ [] → ∀ cause, ∃ t : State, exec (.conversionAbort pid idx cause) s = .next t ∧ t.convAt pid idx = none ∧
        (∀ x ∈ t.srcMarks, x.key ≠ key) ∧ t.dstMarks = s.dstMarks ∧
        EntrySet s t pid idx { e with
          failed := true, busy := false, cause := match cause with | .mismatch => 0x0B | .lostDie => 0x12 | _ => 0x0C
          failStatus := match cause with | .mismatch => 0x30 | .timeout => 0x31 | .lostDie => 0x07 | .engine st => st })) ∧
    (s.convAt pid idx = some c → s.allJoined e c = false →
      exec (.placementTimeout pid idx) s = .next { s with
        agenda := s.agenda ++ [if s.timer < c.since + (s.procAt pid).pltimeout.toNat then .placementTimeout pid idx
          else .conversionAbort pid idx .timeout] })

/-! ## Contexts and launches -/

/-- R198 to R204: SPAWN starts a warp in the lowest reserved context; LAUNCH posts its record in a device queue or says why not;
PRODUCE counts its block once; AWAIT waits for the producers; SLEEP waits for a time, and is complete for the quads that have
waited; SETPRIO sets the priority from the next selection point on. -/
def Obligations.ContextInstructions : Prop :=
  ∀ (f : Fields) (s : State), s.canonical = true →
    let id := s.warp.id
    let blk := s.myBlock
    let lane := (s.actLanes f).headD 0
    let n := s.srcB f false 32 1 lane
    let pred (v : Bool) := (s.actLanes f).map fun l => destPred f f.d l v
    let pid := s.processOf s.warp
    let owesPred (t : State) (v : Bool) : Prop := MovesOwing s t f [predName f.k f.d.toNat] (pred v)
    let launch := s.launchAt blk.process blk.launch
    (s.acts f = false → s.warp.ended .sleep = [] → ∀ i ∈ [Instr.spawn f, .launch f, .produce f, .await f, .sleep f, .setprio f],
      ∃ t : State, exec i s = .next t ∧ OnlyMoves s t f) ∧
    (s.acts f = true → s.release 1 = (s, true) →
      (blk.reserved = [] → ∃ t : State, exec (.spawn f) s = .next t ∧ owesPred t false ∧ t.others = s.others ∧ t.blocks = s.blocks) ∧
      (∀ j ∈ blk.reserved, (∀ k ∈ blk.reserved, j ≤ k) →
        ∃ (t : State) (w : _), exec (.spawn f) s = .next t ∧ owesPred t true ∧ t.others = w :: s.others ∧
          t.myBlock.reserved = blk.reserved.filter (· != j) ∧ t.myBlock.extra = blk.extra ||| 1#64 <<< j ∧
          w.id = { id with warp := j } ∧ w.live = true ∧ w.info.spawned = true ∧ w.prio = s.warp.prio ∧
          w.quads = List.replicate (blk.header.width / 4)
            ⟨s.warp.pc + BitVec.ofInt 64 (64 * sintOf 16 f.imm16.toNat), 0, 15, .none, 0, false, 0⟩ ∧
          (∀ k, w.regs.get (.s k) 0 = if k < 8 ∧ k < blk.header.kregs then s.reg (.s (f.a.toNat + k)) 0 % 2 ^ 32 else 0) ∧
          ∀ k l, w.regs.get (.v k) l = 0)) ∧
    (∀ u x, s.acts f = true → s.indirectBreach (.launch f) f = none → s.regs .s f.a.toNat 0 2 % 1024 = 0 →
      s.release 4 = (s, true) → s.readOnce f (s.regs .s f.a.toNat 0 2) 1024 = (u, .ok x) →
      let k := u.queueAt pid n
      let gives (t : State) (v : Nat) : Prop := MovesOwing u t f (coversD f 1) ((u.actLanes f).flatMap fun l => dest f 1 l v)
      let at_ := u.queueAddr pid n
      let place := u.recordAddr k k.tail
      (64 ≤ n ∨ k.enable = false ∨ k.device = false → ∃ t : State, exec (.launch f) s = .next t ∧ gives t 0xFFFFFFFE ∧ t.mem = u.mem) ∧
      (n < 64 → k.enable = true → k.device = true → u.NoTransactions →
        ((k.tail + 2 ^ 32 - k.head) % 2 ^ 32 = 2 ^ k.lsize →
          ∃ t : State, exec (.launch f) s = .next t ∧ gives t 0xFFFFFFFF ∧ t.mem = u.mem) ∧
        ((k.tail + 2 ^ 32 - k.head) % 2 ^ 32 ≠ 2 ^ k.lsize →
          ∃ t : State, exec (.launch f) s = .next t ∧ gives t (n * 2 ^ 25 + k.tail % 2 ^ 25) ∧ .launchIntake pid n ∈ t.agenda ∧
            (u.Rests at_ 256 → u.Rests place 1024 → lineOf at_ ≠ lineOf place → (∀ d, (u.l2Lines d).length < 15) →
              readBits t.homeByte (at_ + 96) 32 = (k.tail + 1) % 2 ^ 32 ∧ readBits t.homeByte place 1024 = x % 2 ^ 1024)))) ∧
    (s.acts f = true → s.release 4 = (s, true) → s.warp.isVesper = false →
      (blk.produced = true → ∃ t : State, exec (.produce f) s = .next t ∧ OnlyMoves s t f) ∧
      (blk.produced = false → ∃ t : State, exec (.produce f) s = .next t ∧ MovesOn s t f ∧ t.myBlock.produced = true ∧
        t.myBlock.clean = true ∧ (t.launchAt blk.process blk.launch).produced = launch.produced + 1)) ∧
    (s.acts f = true → (s.producersDone s.warp = none → ∃ t : State, exec (.await f) s = .next t ∧ Blocks s t .await 0) ∧
      ∀ v, s.producersDone s.warp = some v → (s.dieAt id.die).l2 = [] →
        ∃ t : State, exec (.await f) s = .next t ∧ owesPred t v ∧ SameBytes s t ∧ t.warp.gang = []) ∧
    (s.warp.live = true → (s.producersDone s.warp).isSome = true →
      ∃ t : State, exec (.awaitWake id) s = .next t ∧ t = { s with warp := { s.warp with quads := s.warp.quads.map fun q =>
        if q.wait = .await then { q with wait := .none, operand := 0 } else q } }) ∧
    (s.acts f = true → s.indirectBreach (.sleep f) f = none →
      (s.warp.ended .sleep = [] → n ≠ 0 → ∃ t : State, exec (.sleep f) s = .next t ∧ Blocks s t .sleep (s.timer + n)) ∧
      (s.warp.ended .sleep = [] → n = 0 → ∃ t : State, exec (.sleep f) s = .next t ∧ OnlyMoves s t f)) ∧
    (s.warp.ended .sleep ≠ [] →
      ((∀ q ∈ s.warp.gang, q ∈ s.warp.ended .sleep) → ∃ t : State, exec (.sleep f) s = .next t ∧ OnlyMoves s t f) ∧
      ((∃ q ∈ s.warp.gang, q ∉ s.warp.ended .sleep) → exec (.sleep f) s =
        exec (.sleep f) { s with warp := s.warp.passQuads f.slot (s.warp.ended .sleep) })) ∧
    (s.warp.live = true → ∃ t : State, exec (.sleepWake id) s = .next t ∧ t = { s with warp := { s.warp with
      quads := s.warp.quads.map fun q => if q.wait = .sleep ∧ q.operand ≤ s.timer then { q with operand := 0 } else q } }) ∧
    (s.acts f = true → s.indirectBreach (.setprio f) f = none → ∃ t : State, exec (.setprio f) s = .next t ∧
      OnlyMoves { s with warp := { s.warp with prioNext := some (min n s.warp.info.maxPrio) } } t f)

/-- R175 to R190, R195, R196, R413: a doorbell makes a queue's records known, intake takes the next record and starts or refuses
its launch, or waits for a producer that another queue has still to give; a cluster is dispatched, a warp that has waited for
4,096 cycles is promoted, and a block whose work is over retires. -/
def Obligations.LaunchEvents : Prop :=
  ∀ (s : State), s.canonical = true →
    (∀ host (value : DWord),
      let pid := value.toNat / 2 ^ 48
      let q := value.toNat % 64
      let k := s.queueAt pid q
      let good := s.platform.endStep6.serving && (s.procAt pid).dbhost.getLsbD host && (s.procAt pid).context && k.enable &&
        !k.device && value.toNat / 64 % 2 ^ 42 == 0
      ∃ t : State, exec (.doorbell host value) s = .next t ∧ t.warp = s.warp ∧ t.mem = s.mem ∧
        if good then t.agenda = s.agenda ++ [Instr.launchIntake pid q] ∧ tget 0 t.rung (pid * 64 + q) = k.tail ∧ t.hostDrop = s.hostDrop
        else t.agenda = s.agenda ∧ t.rung = s.rung ∧ t.hostDrop = s.hostDrop + 1) ∧
    (∀ pid q,
      let k := s.queueAt pid q
      let waiting := ((if k.device then k.tail else tget 0 s.rung (pid * 64 + q)) + 2 ^ 32 - k.head) % 2 ^ 32
      let ident := q * 2 ^ 25 + k.head % 2 ^ 25
      let at_ := s.queueAddr pid q
      s.platform.serving = true → k.enable = true → waiting ≠ 0 → waiting ≤ 2 ^ k.lsize →
      (∀ h x, s.checkRecord pid ident (s.recordAddr k k.head) = .ok (h, x) →
        (∃ p ∈ (recordLaunch pid ident 0 x).prods, p / 2 ^ 25 ≠ q ∧ s.producer pid p = .unstarted) →
        exec (.launchIntake pid q) s = .next { s with agenda := s.agenda ++ [.launchIntake pid q] }) ∧
      (∀ h x, s.checkRecord pid ident (s.recordAddr k k.head) = .ok (h, x) → s.Rests at_ 256 →
        (∀ p ∈ (recordLaunch pid ident 0 x).prods, p / 2 ^ 25 = q ∨ s.producer pid p ≠ .unstarted) →
        ∃ t : State, exec (.launchIntake pid q) s = .next t ∧
          t.launchAt pid ident = { recordLaunch pid ident s.nextSeq x with header := h, started := true } ∧
          readBits t.homeByte (at_ + 64) 32 = (k.head + 1) % 2 ^ 32 ∧ OtherBytes s t (at_ + 64) 32 ∧
          t.agenda = s.agenda ++ (if 1 < waiting then [Instr.launchIntake pid q] else []) ∧ t.warp = s.warp) ∧
      (∀ r, s.checkRecord pid ident (s.recordAddr k k.head) = .error r → s.NoTransactions →
        ∃ t : State, exec (.launchIntake pid q) s = .next t ∧ (t.launchAt pid ident).status = some r.status ∧
          (t.launchAt pid ident).started = false ∧ t.warp = s.warp)) ∧
    (∀ l cluster bay core, s.nextLaunch = some l → l.next = cluster → l.clusterSize = 1 → core / 8 = bay % 8 →
      (∃ b cs, s.dispatchDie l cluster l.needs = some (bay / 8, b, cs)) → s.fitCores (bay / 8) [] ([core].zip l.needs) = true →
      let num := s.blockNumber (bay / 8) core
      ∃ t : State, exec (.clusterDispatch (launchKey l.process l.ident) cluster bay [core]) s = .next t ∧ t.warp = s.warp ∧
        (t.launchAt l.process l.ident).next = (s.launchAt l.process l.ident).next + 1 ∧
        t.others.length = s.others.length + l.warps ∧
        let b := t.blockAt num
        b.place = .resident ∧ b.die = bay / 8 ∧ b.core = core ∧ b.process = l.process ∧ b.launch = l.ident ∧
        b.cluster = cluster ∧ b.rank = 0 ∧ b.initial = BitVec.ofNat 64 (2 ^ l.warps - 1) ∧ b.spad = [] ∧
        ∀ w ∈ t.others, w ∉ s.others → w.id.block = num ∧ w.live = true ∧ w.quads = freshQuads l.header.width l.header.start) ∧
    (s.warp.live = true → s.warp.halted = false → 4096 ≤ s.warp.waited → ∃ t : State,
      exec (.warpPromotion s.warp.id) s = .next t ∧ t = { s with nextSeq := s.nextSeq + 1, warp := { s.warp with
        waited := s.warp.waited - 4096, promoted := some (match s.warp.promoted with | some (o, k) => (o, min 7 (k + 1)) | none => (s.nextSeq, 0)) } }) ∧
    (∀ num, let b := s.blockAt num
      (b.discarded = false ∧ b.place = .resident ∧ b.initial = 0 ∧ b.extra = 0) ∨ (b.discarded = true ∧ b.place = .retired) →
      b.counted = false →
      (s.blockBusy num true = true → exec (.blockRetirement num) s =
        .next { s with agenda := s.agenda ++ [Instr.blockRetirement num] }) ∧
      (s.blockBusy num true = false → s.NoTransactions → ∃ t : State, exec (.blockRetirement num) s = .next t ∧ t.warp = s.warp ∧
        (t.blockAt num).place = .retired ∧ (t.blockAt num).counted = true ∧ (t.blockAt num).produced = true ∧
        (b.discarded = false → (t.blockAt num).handles = []) ∧
        (b.produced = false → (t.blockAt num).clean = !b.discarded) ∧
        (t.launchAt b.process b.launch).ended = (s.launchAt b.process b.launch).ended + 1))

/-! ## Traps and the system instructions -/

/-- R58, R415 to R418, R430: taking a trap. On a compute core the warp halts, the core counts as trapped, and a record goes to
the fault queue; on a Vesper core the trap registers are loaded and the warp goes on at TVEC in supervisor mode, or, when
ECAUSE[15] is 1, halts with a record. -/
def Obligations.TrapTaken : Prop :=
  ∀ (s : State) (x : Trap), s.canonical = true →
    let id := s.warp.id
    let c := s.coreAt id.die id.core
    let v := c.ves
    let t := s.trap x
    (s.warp.isVesper = false →
      t.warp.halted = true ∧ t.warp.id = id ∧ (t.coreAt id.die id.core).trapped = true ∧
      t.agenda = s.agenda ++ [Instr.haltCompletion id.die id.core, .faultRecordEnqueue id.die] ∧
      (∀ b, t.homeByte b = s.homeByte b) ∧
      ∃ r : FaultRecord, (t.dieAt id.die).waiting = (s.dieAt id.die).waiting ++ [⟨r, some id.core, none, false⟩] ∧
        r.kind = 1 ∧ r.code = BitVec.ofNat 8 x.code ∧ r.pc = s.warp.pc ∧ r.addr = BitVec.ofNat 64 x.addr ∧
        r.info0 = BitVec.ofNat 64 x.info0 ∧ r.lane = BitVec.ofNat 6 x.lane ∧ r.process = BitVec.ofNat 16 s.warp.info.process ∧
        r.warp = BitVec.ofNat 6 id.warp ∧ r.core = BitVec.ofNat 6 id.core ∧ r.die = BitVec.ofNat 2 id.die) ∧
    (s.warp.isVesper = true → v.ecause.getLsbD 15 = false →
      (t.coreAt id.die id.core).ves = { v with
        epc := s.warp.pc, ecause := (v.ecause &&& 0xFFFFFFFFFFFF7F00#64) ||| BitVec.ofNat 64 x.code ||| 0x8000#64
        eaddr := BitVec.ofNat 64 x.addr, emode := if s.warp.user then 1 else 0 } ∧
      t.warp.user = false ∧ t.warp.halted = s.warp.halted ∧ (∀ q ∈ t.warp.quads, q.pc = v.tvec ∧ q.wait = .none) ∧
      t.agenda = s.agenda ∧ ∀ b, t.homeByte b = s.homeByte b) ∧
    (s.warp.isVesper = true → v.ecause.getLsbD 15 = true →
      (t.coreAt id.die id.core).ves = { v with down := true } ∧ t.warp.halted = true ∧
      t.agenda = s.agenda ++ [Instr.faultRecordEnqueue id.die] ∧
      ∃ r : FaultRecord, (t.dieAt id.die).waiting = (s.dieAt id.die).waiting ++ [⟨r, none, none, false⟩] ∧
        r.kind = 8 ∧ r.info0 = v.ecause ∧ r.info1 = v.epc)

/-- R59, R60, R391, R431: what is checked before the meaning: a word that does not decode, an opcode that a Vesper core lacks, a
privileged opcode in user mode and a register beyond the allotment trap; an instruction whose registers a pending result
covers waits, and so does one that needs an entry of a scoreboard whose 32 are taken; any other is executed. -/
def Obligations.ChecksBeforeMeaning : Prop :=
  ∀ (s : State) (x : Nat) (i : Instr),
    (∀ e, decode (BitVec.ofNat 256 x) = .error e → s.issueWord x = .next (s.trap { code := 0x01, info0 := x % 2 ^ 64 })) ∧
    (decode (BitVec.ofNat 256 x) = .ok i →
      let lacks := s.warp.isVesper && Instr.noVesper i
      let barred := Sys2Proof.Machine.Instr.privileged i && s.warp.user
      (lacks = true → s.issueWord x = .next (s.trap { code := 0x01, info0 := (encode i).toNat % 2 ^ 64 })) ∧
      (lacks = false → barred = true → s.issueWord x = .next (s.trap { code := 0x0E })) ∧
      (lacks = false → barred = false → ∀ n, s.warp.boundBreach i = some n →
        s.issueWord x = .next (s.trap { code := 0x03, info0 := n })) ∧
      (lacks = false → barred = false → s.warp.boundBreach i = none →
        (s.scoreWait i = true → ∃ t : State, s.issueWord x = .next t ∧ t = { s with warp := { s.warp with stall := 2, blame := t.warp.blame } }) ∧
        (s.scoreWait i = false →
          ((∀ t, exec i s = .next t → t.warp.entries.length ≤ 32) → s.issueWord x = exec i s) ∧
          ∀ v, exec i s = .next v → v.warp.id = s.warp.id → 32 < v.warp.entries.length → s.warp.entries.length < v.warp.entries.length →
            ∃ t : State, s.issueWord x = .next t ∧ t = { s with warp := { s.warp with stall := 2, blame := t.warp.blame } })))

/-- R431 to R436, R441: TRAP, BKPT, RTE, SYSRD, SYSWR, HALT and PMARK. -/
def Obligations.SystemInstructions : Prop :=
  ∀ (f : Fields) (s : State), s.canonical = true →
    let id := s.warp.id
    let lane := (s.actLanes f).headD 0
    let n := s.srcB f false 32 1 lane
    let v := (s.coreAt id.die id.core).ves
    let value := BitVec.ofNat 64 (s.srcA f 2 lane)
    let pc := s.warp.pc
    let waited := s.warp.ended .vesperHalt
    let held := value &&& 0x007FFFFFFFFFFFFF#64
    let stops (t : State) (code info : Nat) : Prop := t.warp.halted = true ∧ (t.coreAt id.die id.core).trapped = true ∧
      t.agenda = s.agenda ++ [Instr.haltCompletion id.die id.core, .faultRecordEnqueue id.die] ∧
      ∃ r : FaultRecord, (t.dieAt id.die).waiting = (s.dieAt id.die).waiting ++ [⟨r, some id.core, none, false⟩] ∧
        r.kind = 1 ∧ r.code = BitVec.ofNat 8 code ∧ r.pc = pc ∧ r.info0 = BitVec.ofNat 64 info
    let enters (t : State) (code : Nat) : Prop :=
      (t.coreAt id.die id.core).ves = { v with
        epc := pc + 64, ecause := (v.ecause &&& 0xFFFFFFFFFFFF7F00#64) ||| BitVec.ofNat 64 code ||| 0x8000#64, eaddr := 0
        emode := if s.warp.user then 1 else 0 } ∧ t.warp.user = false ∧ ∀ q ∈ t.warp.quads, q.pc = v.tvec
    (s.acts f = false → (∀ i ∈ [Instr.trap f, .rte f, .sysrd f, .syswr f, .bkpt f, .pmark f],
      ∃ t : State, exec i s = .next t ∧ OnlyMoves s t f) ∧
      (waited = [] → ∃ t : State, exec (.halt f) s = .next t ∧ OnlyMoves s t f)) ∧
    (s.acts f = true →
      (n < 2 ^ 16 → s.warp.isVesper = false → ∃ t : State, exec (.trap f) s = .next t ∧ stops t 0x11 n) ∧
      (n < 2 ^ 16 → s.warp.isVesper = true → v.ecause.getLsbD 15 = false → ∃ t : State, exec (.trap f) s = .next t ∧ enters t 0x11) ∧
      (2 ^ 16 ≤ n → exec (.trap f) s = .next (s.trap { code := 0x01, info0 := (encode (.trap f)).toNat % 2 ^ 64 })) ∧
      (s.warp.isVesper = false → (s.coreAt id.die id.core).dbgctl.getLsbD 2 = false →
        ∃ t : State, exec (.bkpt f) s = .next t ∧ OnlyMoves s t f) ∧
      (s.warp.isVesper = false → (s.coreAt id.die id.core).dbgctl.getLsbD 2 = true →
        ∃ t : State, exec (.bkpt f) s = .next t ∧ stops t 0x10 f.imm16.toNat) ∧
      (s.warp.isVesper = true → v.ecause.getLsbD 15 = false → ∃ t : State, exec (.bkpt f) s = .next t ∧ enters t 0x10) ∧
      (∃ t : State, exec (.rte f) s = .next t ∧ t = { s with warp := t.warp, cores := t.cores } ∧
        (t.coreAt id.die id.core).ves = { v with ecause := v.ecause &&& ~~~0x8000#64 } ∧ t.warp.user = v.emode.getLsbD 0 ∧
        t.warp.regs = s.warp.regs ∧ t.warp.gang = [] ∧ ∀ (q : Nat) (u : Quad), s.warp.quads[q]? = some u →
          ∃ w : Quad, t.warp.quads[q]? = some w ∧ w.live = u.live ∧ w.ctr = u.ctr ∧
            w.pc = if s.warp.gang.contains q then v.epc else u.pc) ∧
      (∀ r w, n < 2 ^ 16 → sysReg n = some r → s.sysRead r = some w → s.release 3 = (s, true) →
        ∃ t : State, exec (.sysrd f) s = .next t ∧ SameBytes s t ∧ t.agenda = s.agenda ++ [s.resultDue] ∧
          MovesOwing s t f (coversD f 2) ((s.actLanes f).flatMap fun l => dest f 2 l w.toNat)) ∧
      ((n < 2 ^ 16 → sysReg n = none ∨ ∃ r, sysReg n = some r ∧ s.sysRead r = none) →
        exec (.sysrd f) s = .next (s.trap { code := 0x01, info0 := (encode (.sysrd f)).toNat % 2 ^ 64 })) ∧
      (∀ r w, n < 2 ^ 16 → sysReg n = some r → s.sysWrite r value = some w → s.release 3 = (s, true) →
        ∃ t : State, exec (.syswr f) s = .next t ∧ SameBytes s t ∧ MovesOn s t f ∧
          (∀ p ∈ [(SysReg.procsel, value &&& 0xFFFF#64), (.userroot, held), (.hostroot, held), (.lqtable, held), (.pltable, held),
              (.savepool, held), (.dbhost, value), (.fqbase, held), (.fqsync, held), (.dmap, held), (.tvec, value),
              (.fqctl, BitVec.ofNat 64 (max 4 (min 16 (value.toNat % 32)))),
              (.epc, value), (.ecause, value &&& 0x80FF#64), (.eaddr, value), (.emode, value &&& 1#64), (.fqhead, value &&& 0xFFFFFFFF#64),
              (.rotthresh, BitVec.ofNat 64 (max (10 ^ 4) (min (10 ^ 10) value.toNat))),
              (.pltimeout, BitVec.ofNat 64 (max (10 ^ 6) (min (10 ^ 11) value.toNat))),
              (.migthresh, BitVec.ofNat 64 (max 64 (min 65535 value.toNat))),
              (.leaseper, BitVec.ofNat 64 (max (10 ^ 7) (min (10 ^ 10) value.toNat)))], r = p.1 → t.sysRead r = some p.2) ∧
          (∀ l, r = .wlthresh l → t.sysRead r = some (BitVec.ofNat 64 (max 1000 (min (10 ^ 9) value.toNat)))) ∧
          (r = .suproot → t.agenda = s.agenda ++ [Instr.suproot id.die value]) ∧
          (r = .wake → t.agenda = s.agenda ++ [Instr.wake id.die (BitVec.ofNat 4 value.toNat &&& ~~~(1#4 <<< (id.core - 64)))]) ∧
          (∀ core, r = .corectl core → t.agenda = s.agenda ++ [[], [Instr.corectlHalt id.die core], [.corectlResume id.die core],
            [.corectlDiscard id.die core (value.toNat / 16 % 16) (value.getLsbD 8)]].getD (value.toNat % 8) [])) ∧
      ((n < 2 ^ 16 → sysReg n = none ∨ ∃ r, sysReg n = some r ∧ s.sysWrite r value = none) →
        exec (.syswr f) s = .next (s.trap { code := 0x01, info0 := (encode (.syswr f)).toNat % 2 ^ 64 })) ∧
      (waited = [] →
        (v.woken = false → ∃ t : State, exec (.halt f) s = .next t ∧ Blocks s t .vesperHalt 1) ∧
        (v.woken = true → ∃ t : State, exec (.halt f) s = .next t ∧ MovesOn s t f ∧ t = { s with warp := t.warp, cores := t.cores } ∧
          (t.coreAt id.die id.core).ves = { v with woken := false })) ∧
      (waited ≠ [] →
        ((∀ q ∈ s.warp.gang, q ∈ waited) → ∃ t : State, exec (.halt f) s = .next t ∧ OnlyMoves s t f) ∧
        ((∃ q ∈ s.warp.gang, q ∉ waited) →
          exec (.halt f) s = exec (.halt f) { s with warp := s.warp.passQuads f.slot waited })) ∧
      let d := (s.dieAt id.die).regs
      let ring := s.device * 2 ^ 55 + d.smpbase.toNat + 256 * (d.smptail.toNat % 2 ^ (d.smpctl.toNat / 256 % 32))
      ((s.coreAt id.die id.core).dbgctl.getLsbD 1 = false → ∃ t : State, exec (.pmark f) s = .next t ∧ OnlyMoves s t f) ∧
      ((s.coreAt id.die id.core).dbgctl.getLsbD 1 = true → s.indirectBreach (.pmark f) f = none →
        ((d.smptail.toNat + 2 ^ 32 - d.smphead.toNat) % 2 ^ 32 = 2 ^ (d.smpctl.toNat / 256 % 32) →
          ∃ t : State, exec (.pmark f) s = .next t ∧ MovesOn s t f ∧ SameBytes s t ∧
            (t.dieAt id.die).regs = { d with smplost := d.smplost + 1 }) ∧
        ((d.smptail.toNat + 2 ^ 32 - d.smphead.toNat) % 2 ^ 32 ≠ 2 ^ (d.smpctl.toNat / 256 % 32) →
          s.Rests ring 256 → ring % 64 = 0 →
          ∃ t : State, exec (.pmark f) s = .next t ∧ MovesOn s t f ∧ OtherBytes s t ring 256 ∧
            readBits t.homeByte ring 256 = (s.sampleOf s.warp pc (BitVec.ofNat 64 n)).bits.toNat ∧
            (t.dieAt id.die).regs = { d with smptail := (d.smptail + 1) &&& 0xFFFFFFFF#64 })))

/-! ## LOOPNEST -/

/-- R149 to R154: LOOPNEST waits, with stall reason 26, for the warp's earlier accesses, then begins its nest or, where the
recorded nest is that of the LOOPNEST at this PC, goes on from the recorded chunk. A chunk takes up to 32 elements, in linear
order and within one run of a reduction; each element's addresses are base plus index times stride; its source lines come into
the caches as a load's would; an element-wise chunk stores each element's result, and a reduction joins the chunk to its
accumulator, which it stores, rounded, at the end of a run. Of memory those bits alone are stored. The nest state then stands at
the next chunk, or the sub-gang past the instruction. A chunk that a conversion holds back, or whose turn in the scratchpad
queues has not come, waits whole; an element whose access is refused traps with its index vector in the record. -/
def Obligations.LoopNest : Prop :=
  ∀ (f : NestFields) (s : State), s.canonical = true →
    let id := s.warp.id
    let n := s.warp.nest
    let exts := nestExts f
    let reduces := decide (16 ≤ f.xop.toNat)
    let total := exts.foldr (· * ·) 1
    let run := (exts.take f.r.toNat).foldr (· * ·) 1
    let start : Word := if f.xop = 17 then 0xFF800000 else if f.xop = 18 then 0x7F800000 else 0
    let again (u : State) : State := { u with agenda := u.agenda ++ [Instr.loopnestChunk id] }
    (s.nestWaits = true → exec (.loopnest f) s = .next { s with warp := { s.warp with stall := 26 } }) ∧
    (s.nestWaits = false → exec (.loopnest f) s = .next { s with
      nextSeq := s.nextSeq + 1
      warp := { s.warp with nest := if n.valid ∧ n.pc = s.warp.pc then { n with asked := s.nextSeq, running := some f }
        else ⟨true, s.warp.pc, exts.map fun _ => 0, start, s.nextSeq, some f⟩ }
      agenda := s.agenda ++ [Instr.loopnestChunk id] }) ∧
    (s.warp.live = true → n.running = some f →
      let lin := nestLinear exts n.idx
      let stop := if reduces then (lin / run + 1) * run else total
      let next := lin + min 32 (stop - lin)
      let checked := s.nestElems f ((List.range (min 32 (stop - lin))).map (lin + ·))
      (s.nestWaits = true → exec (.loopnestChunk id) s = .next (again s)) ∧
      (∀ u e c x, s.nestWaits = false → checked = (u, .error e) → e.bar = .trap c x →
        exec (.loopnestChunk id) s = .next ({ u with warp := { u.warp with nest := { u.warp.nest with running := none } } }.trap
          { code := c, addr := e.va, info0 := x, flags := if e.write then 18 else 17
            info1 := ((e.iv.take 4).zipIdx.map fun (y : Nat × Nat) => y.1 * 2 ^ (16 * y.2)).sum, aux := e.iv.getD 4 0 })) ∧
      (∀ u es, s.nestWaits = false → checked = (u, .ok es) → u.nestMarked es = true ∨ u.nestTurn es = false →
        exec (.loopnestChunk id) s = .next (again u)) ∧
      ∀ u es, s.nestWaits = false → checked = (u, .ok es) → u.nestMarked es = false → u.nestTurn es = true →
        (u.coreAt id.die id.core).watches = [] → u.free = s.free → u.NoTransactions →
        let t := resultFormat f
        let c := nestRounding f
        let near := (es.flatMap fun e => e.srcs.flatten).foldl State.nestFetch u
        let src (e : NestElem) (k : Nat) : FVal := match e.srcs[k]? with
          | some ps => (sourceFormat f).decode (ps.foldl (fun x p => x + near.readSpot p <<< p.at_) 0)
          | none => .zero false
        let exp2 (z : FVal) : FVal := f32.decode (specialCode .ex2 0 (encodeExact f32 z)).1
        let less (e : NestElem) : FVal := f32.decode (specialCode .ex2 0 (fSub f32 rne (src e 0) (src e 1)).1).1
        let one (e : NestElem) : Nat :=
          let x := src e 0
          let y := src e 1
          ([t.round c x, fAdd t c x y, fSub t c x y, fMul t c x y, fFma t c x y (src e 2), t.round c (minMaxVal false false x y),
            t.round c (minMaxVal true false x y), t.round c (exp2 x)].getD f.xop.toNat (t.round c (less e))).1
        let acc : Word := BitVec.ofNat 32 (
          if f.xop = 16 then groupAdd n.acc.toNat (es.map (src · 0))
          else if f.xop = 19 then groupAdd n.acc.toNat (es.map less)
          else es.foldl (fun z e => encodeExact f32 (minMaxVal (f.xop == 17) true (f32.decode z) (src e 0))) n.acc.toNat)
        let outs : List (List PartAt × Nat) := es.filterMap fun e => e.dst.map fun d =>
          (d.2, if reduces then (t.round c (f32.decode acc.toNat)).1 else one e)
        let bitsOf (v : Nat) (p : PartAt) : Nat := v / 2 ^ p.at_ % 2 ^ p.width
        let address (base strides : BitVec 8) (from_ : Nat) (iv : List Nat) : Int :=
          ((s.regs .s base.toNat 0 2 : Nat) : Int) +
            ((iv.zipIdx.drop from_).map fun x => (x.1 : Int) * sintOf 32 (s.reg (.s (strides.toNat + x.2)) 0)).sum
        es.length = min 32 (stop - lin) ∧
        (∀ (i : Nat) (e : NestElem), es[i]? = some e →
          let iv := nestVector exts (lin + i)
          (e.dst.isSome = true ↔ reduces = false ∨ (lin + i + 1) % run = 0) ∧
          (∀ d, e.dst = some d → (d.1 : Int) = address f.d f.tD (if reduces then f.r.toNat else 0) iv % 2 ^ 64 ∧
            (d.2.map (·.width)).sum = t.width) ∧
          e.srcs.length = (nestSources f).length ∧
          ∀ (k : Nat) (ps : List PartAt) (o : BitVec 8 × BitVec 8), e.srcs[k]? = some ps → (nestSources f)[k]? = some o → (ps.map (·.width)).sum = (sourceFormat f).width ∧
            ∀ p ∈ ps, (p.va : Int) % 2 ^ 64 = (address o.1 o.2 0 iv + p.at_) % 2 ^ 64) ∧
        u.warp = s.warp ∧
        ∃ v news seq, exec (.loopnestChunk id) s = .next v ∧ SameBytes near v ∧ v.warp.regs = s.warp.regs ∧
          v.agenda = near.agenda ++ news ++ (if next < total then [Instr.loopnestChunk id] else []) ∧
          (∀ x, x ∈ news.flatMap Instr.stored ↔ ∃ o ∈ outs, ∃ p ∈ o.1, ∃ fa leaf, p.spot = .mem fa leaf ∧
            x = ⟨fa, p.width, bitsOf o.2 p, p.packed⟩) ∧
          (∃ q, v.slotQueue id.die id.core (id.warp % 4) = near.slotQueue id.die id.core (id.warp % 4) ++ q ∧
            ∀ x, x ∈ q.flatMap (·.parts) ↔ ∃ (k : Nat) (o : List PartAt × Nat), outs[k]? = some o ∧ ∃ p ∈ o.1, ∃ off, p.spot = .own off ∧
              x = ⟨k, off, p.width, p.at_, bitsOf o.2 p, 0⟩) ∧
          (next < total → v.warp = { s.warp with
            nest := ⟨true, n.pc, nestVector exts next, if outs = [] then (if reduces then acc else 0) else start, seq, some f⟩ }) ∧
          (total ≤ next → v.warp.nest = ⟨false, 0, [], 0, 0, none⟩ ∧ CountersPast s v 256))

/-! ## Wakes, debug, the fault queue and pre-emption -/

/-- R363, R416, R418 to R423, R430, R435, R439, R442 to R444, R448, R459: what the events around a core do. A wake event ends a
HALT or is kept; a write to WAKE sends wake events and starts a core again that a double trap halted; SUPROOT is set; a park
ends; a stop request writes DBGCTL; the sampler writes a record; a home watchpoint reports; the oldest waiting record enters the
fault queue; and CORECTL halts, resumes and discards. -/
def Obligations.SystemEvents : Prop :=
  ∀ (s : State) (die : Nat), s.canonical = true →
    let d := s.dieAt die
    let on (core : Nat) (w : Warp) : Prop := w.id.die = die ∧ w.id.core = core
    (∀ v, let asleep (q : Quad) : Prop := q.wait = .vesperHalt ∧ q.operand ≠ 0
      let wake (q : Quad) : Quad := if q.wait = .vesperHalt ∧ q.operand ≠ 0 then
        { q with operand := 0, wait := if q.operand = 2 then .none else .vesperHalt } else q
      ((∃ w ∈ s.warps, on (64 + v) w ∧ ∃ q ∈ w.quads, asleep q) →
        ∃ t : State, exec (.wakeEvent die v) s = .next t ∧ t = { s with warp := t.warp, others := t.others } ∧
          ((s.warp.live = true ∧ on (64 + v) s.warp) → t.warp = { s.warp with quads := s.warp.quads.map wake }) ∧
          (¬ (s.warp.live = true ∧ on (64 + v) s.warp) → t.warp = s.warp) ∧
          ∀ w ∈ s.others, w.live = true → on (64 + v) w → { w with quads := w.quads.map wake } ∈ t.others) ∧
      ((∀ w ∈ s.warps, on (64 + v) w → ∀ q ∈ w.quads, ¬ asleep q) →
        ∃ t : State, exec (.wakeEvent die v) s = .next t ∧ t = { s with cores := t.cores } ∧
          (t.coreAt die (64 + v)).ves = { (s.coreAt die (64 + v)).ves with woken := true })) ∧
    (∀ mask : BitVec 4, (∀ v < 4, mask.getLsbD v = true → (s.coreAt die (64 + v)).ves.down = false) →
      exec (.wake die mask) s = .next { s with
        agenda := s.agenda ++ ((List.range 4).filter mask.getLsbD).map fun v => Instr.wakeEvent die v }) ∧
    (∀ v < 4, (s.coreAt die (64 + v)).ves.down = true → ∃ t : State, exec (.wake die (BitVec.ofNat 4 (2 ^ v))) s = .next t ∧
      t.agenda = s.agenda ∧ (t.coreAt die (64 + v)).ves = { (s.coreAt die (64 + v)).ves with down := false } ∧
      ∀ w ∈ t.warps, on (64 + v) w → w.halted = false ∧ w.user = false ∧
        ∀ q ∈ w.quads, q.pc = (s.coreAt die (64 + v)).ves.tvec ∧ q.wait = .none) ∧
    (∀ value, ∃ t : State, exec (.suproot die value) s = .next t ∧ t = { s with dies := t.dies } ∧
      t.dieAt die = { d with regs := { d.regs with suproot := value &&& 0x007FFFFFFFFFFFFF#64 } } ∧ ∀ k, k ≠ die → t.dieAt k = s.dieAt k) ∧
    (∀ resolved, s.warp.live = true →
      let id := s.warp.id
      let clear (q : Quad) : Quad := if q.wait = .pagePark then { q with wait := .none, operand := 0 } else q
      ((∃ r ∈ (s.dieAt id.die).waiting, r.warp = some id) → exec (.parkReplay id resolved) s =
        .next { s with agenda := s.agenda ++ [Instr.parkReplay id resolved] }) ∧
      ((∀ r ∈ (s.dieAt id.die).waiting, r.warp ≠ some id) → exec (.parkReplay id resolved) s = .next { s with
        warp := match s.warp.parked with
          | none => { s.warp with quads := s.warp.quads.map clear }
          | some r =>
            if r.park then { s.warp with quads := s.warp.quads.map clear, parked := some { r with unresolved := !resolved } }
            else { s.warp with parked := none, replays := { r with unresolved := !resolved } :: s.warp.replays } })) ∧
    (∀ core v, core < 64 → ∃ t : State, exec (.stopRequest die core v) s = .next t ∧ t = { s with cores := t.cores } ∧
      t.coreAt die core = { s.coreAt die core with dbgctl := v &&& 0xFFFF001F#64 } ∧
      ∀ e c, coreKey e c ≠ coreKey die core → t.coreAt e c = s.coreAt e c) ∧
    ((d.regs.smpctl.getLsbD 16 = false ∨ ∀ n < 64, (s.coreAt die n).dbgctl.getLsbD 0 = false) →
      exec (.samplingCycle die) s = .next s) ∧
    (∀ n k w, d.regs.smpctl.getLsbD 16 = true → n < 64 → k < 4 → (∀ m < 64, (s.coreAt die m).dbgctl.getLsbD 0 = (m == n)) →
      s.rotationPick die n k = some w → (∀ j < 4, j ≠ k → s.rotationPick die n j = none) →
      let size := 2 ^ (d.regs.smpctl.toNat / 256 % 32)
      let ring := s.device * 2 ^ 55 + d.regs.smpbase.toNat + 256 * (d.regs.smptail.toNat % size)
      (d.regs.smptail.toNat + 2 ^ 32 - d.regs.smphead.toNat) % 2 ^ 32 ≠ size →
      s.Rests ring 256 → ring % 64 = 0 →
      ∃ (t : State) (x : _), exec (.samplingCycle die) s = .next t ∧ readBits t.homeByte ring 256 = (Sample.bits x).toNat ∧ OtherBytes s t ring 256 ∧
        x.mark = false ∧ x.issued = w.issued ∧ x.reason = BitVec.ofNat 5 (s.sampleReason w) ∧
        x.blamed = decide (s.sampleReason w = 2) ∧ x.blame = (if s.sampleReason w = 2 then w.blame else 0) ∧
        x.process = BitVec.ofNat 16 w.info.process ∧ x.warp = BitVec.ofNat 6 w.id.warp ∧ x.core = BitVec.ofNat 6 n ∧
        x.sched = BitVec.ofNat 2 k ∧ x.slot = BitVec.ofNat 4 (w.id.block % 16) ∧
        x.regions = w.regions.getD 2 0 ++ w.regions.getD 1 0 ++ w.regions.getD 0 0 ∧
        (t.dieAt die).regs = { d.regs with smptail := (d.regs.smptail + 1) &&& 0xFFFFFFFF#64 } ∧ t.free = s.free + 1) ∧
    (∀ pa mask kind slot srcDev srcDie pid,
      let c := Config.controllerOf (lineOf pa) % 3
      let watched (w : Watch) (x : Nat) : Prop := w.ctl.getLsbD 0 = true ∧ (∃ i < 128, mask.testBit i = true ∧ x = pa + i) ∧
        w.lo.toNat ≤ x ∧ x < w.hi.toNat ∧ w.mask.getLsbD (x % 64) = true
      let run := Instr.homeWatchReport die pa mask kind slot srcDev srcDie pid
      ((∀ k w, (k, w) ∈ d.homeWatches → k / 4 = c → ∀ x, ¬ watched w x) → exec run s = .next s) ∧
      (∀ k w lo hi, k < 4 → d.homeWatches = [(c * 4 + k, w)] → watched w lo → watched w hi → (∀ x, watched w x → lo ≤ x ∧ x ≤ hi) →
        ∃ (t : State) (r : FaultRecord), exec run s = .next t ∧ t = { s with dies := t.dies, agenda := s.agenda ++ [Instr.faultRecordEnqueue die] } ∧
          t.dieAt die = { d with waiting := d.waiting ++ [⟨r, none, none, false⟩] } ∧ r.kind = 7 ∧ r.addr = BitVec.ofNat 64 lo ∧
          r.info1 = BitVec.ofNat 64 (hi + 1) ∧ r.process = BitVec.ofNat 16 pid ∧ r.die = BitVec.ofNat 2 die ∧
          r.info0 = BitVec.ofNat 64 (k + 16 + c * 2 ^ 8 + kind * 2 ^ 10 + slot * 2 ^ 16 + srcDev * 2 ^ 21 + srcDie * 2 ^ 30))) ∧
    (d.waiting = [] → exec (.faultRecordEnqueue die) s = .next s) ∧
    (∀ r rest, d.waiting = r :: rest →
      let size := 2 ^ (d.regs.fqctl.toNat % 32)
      let used := (d.regs.fqtail.toNat + 2 ^ 32 - d.regs.fqhead.toNat) % 2 ^ 32
      let place := s.device * 2 ^ 55 + (d.regs.fqbase.toNat + 512 * (d.regs.fqtail.toNat % size)) % 2 ^ 55
      let sync := s.device * 2 ^ 55 + d.regs.fqsync.toNat % 2 ^ 55
      let ready := d.regs.fqSet = true ∧ d.regs.fqCtlSet = true
      (¬ ready → exec (.faultRecordEnqueue die) s = .next { s with agenda := s.agenda ++ [Instr.faultRecordEnqueue die] }) ∧
      (ready → size ≤ used → ∃ t : State, exec (.faultRecordEnqueue die) s = .next t ∧
        t = { s with dies := t.dies, agenda := s.agenda ++ [Instr.faultRecordEnqueue die] } ∧
        t.dieAt die = { d with
          waiting := d.waiting.map fun x => { x with late := true }
          regs := { d.regs with fqfull := d.regs.fqfull + BitVec.ofNat 64 (d.waiting.filter fun x => !x.late).length } }) ∧
      (ready → used < size → s.Rests place 512 → place % 512 = 0 → s.Rests sync 64 → sync % 64 = 0 → place / 512 ≠ sync / 512 →
        (∀ k, (s.l2Lines k).length < 15) → (∀ k, (s.dieAt k).homeWatches = []) →
        ∃ t : State, exec (.faultRecordEnqueue die) s = .next t ∧ readBits t.homeByte place 512 = r.body.bits.toNat ∧
          readBits t.homeByte sync 64 = syncAdd 1 (readBits s.homeByte sync 64) ∧
          (∀ b, b < 2 ^ 61 → b ∉ bytesTouched place 512 → b ∉ bytesTouched sync 64 → t.homeByte b = s.homeByte b) ∧
          t.dieAt die = { d with waiting := rest, regs := { d.regs with fqtail := (d.regs.fqtail + 1) &&& 0xFFFFFFFF#64 } } ∧
          t.agenda = s.agenda ++ [Instr.wakeEvent die 0, .wakeEvent die 1, .wakeEvent die 2, .wakeEvent die 3] ∧ t.warp = s.warp ∧
          ∀ c, r.stops = some c → t.coreAt die c =
            { s.coreAt die c with byTrap := (s.coreAt die c).byTrap || (s.coreAt die c).trapped })) ∧
    ∀ core,
      let c := s.coreAt die core
      let stands := c.halt = .halted ∨ c.byTrap = true
      (c.trapped = true ∨ c.halt ≠ .running → exec (.corectlHalt die core) s = .next s) ∧
      (c.trapped = false → c.halt = .running → ∃ t : State, exec (.corectlHalt die core) s = .next t ∧
        t = { s with cores := t.cores, agenda := s.agenda ++ [Instr.haltCompletion die core] } ∧
        t.coreAt die core = { c with halt := .halting, cause := .preempt }) ∧
      (c.trapped = false → c.halt ≠ .halting → exec (.haltCompletion die core) s = .next s) ∧
      (c.trapped = true ∨ c.halt = .halting → ∃ t : State, exec (.haltCompletion die core) s = .next t ∧
        (∀ w ∈ t.warps, on core w → w.halted = true) ∧ (∀ b, t.homeByte b = s.homeByte b) ∧
        (s.warp.live = true → on core s.warp → s.warp.halted = false →
          t.warp.gang = [] ∧ t.warp.parked = none ∧ ∀ e ∈ t.warp.score, e.kind = .wait ∨ e.id ∈ s.lateLoads s.warp) ∧
        (c.halt ≠ .halting → t.coreAt die core = { c with haltAt := s.timer, grace := 0 } ∧ t.agenda = s.agenda ∧ t.dies = s.dies) ∧
        (c.halt = .halting → t.coreAt die core = { c with haltAt := s.timer, grace := 0, halt := .halted } ∧
          t.agenda = s.agenda ++ [Instr.faultRecordEnqueue die] ∧
          ∃ r : FaultRecord, t.dieAt die = { d with waiting := d.waiting ++ [⟨r, none, none, false⟩] } ∧ r.kind = 6 ∧
            r.core = BitVec.ofNat 6 core ∧ r.die = BitVec.ofNat 2 die ∧ r.info0 = BitVec.ofNat 64 (s.slotMask die core))) ∧
      (¬ stands → exec (.corectlResume die core) s = .next s ∧
        ∀ slot whole, exec (.corectlDiscard die core slot whole) s = .next s) ∧
      (stands → (∀ w ∈ s.warps, on core w → w.halted = true) →
        let kept (w : Warp) : Bool := (s.blockAt w.id.block).rotating
        ((∃ w ∈ s.warps, on core w ∧ kept w = false ∧ w.score ≠ []) → exec (.corectlResume die core) s =
          .next { s with agenda := s.agenda ++ [Instr.corectlResume die core] }) ∧
        ((∀ w ∈ s.warps, on core w → kept w = false → w.score = []) → ∃ t : State, exec (.corectlResume die core) s = .next t ∧
          t = { s with cores := t.cores, warp := t.warp, others := t.others } ∧
          t.coreAt die core = { c with trapped := false, byTrap := false, grace := 0, cause := .none, halt := .running } ∧
          (∀ w ∈ t.warps, on core w → w.halted = kept w) ∧
          (on core s.warp → s.warp.live = true → t.warp = { s.warp with halted := kept s.warp }))) ∧
      (stands → ∀ slot num whole, s.slotBlock die core slot = some num →
        let b := s.blockAt num
        ∃ t : State, exec (.corectlDiscard die core slot whole) s = .next t ∧ (t.blockAt num).place = .retired ∧
          (t.blockAt num).discarded = true ∧ (∀ w ∈ t.warps, w.id.block = num → w.isVesper = true) ∧
          (t.launchAt b.process b.launch).first = (s.launchAt b.process b.launch).first.or (some 4) ∧
          (whole = false → .blockRetirement num ∈ t.agenda ∧
            (t.launchAt b.process b.launch).ended = (s.launchAt b.process b.launch).ended) ∧
          (whole = true → ∀ n, (t.blockAt n).process = b.process → (t.blockAt n).launch = b.launch → (t.blockAt n).header.width ≠ 0 →
            (t.blockAt n).place = .retired)) ∧
      ((∀ slot whole, s.slotBlock die core slot = none → exec (.corectlDiscard die core slot whole) s = .next s))

/-! ## The Dusk engine -/

/-- R192, R193, R389, R424 to R429: a context command is carried out in its turn. A save writes the block's image, whose
registers and sequencers lie where R427 says, and the block leaves its core; a refused command gives only its status; a restore
makes a saved block resident again with the registers of its image. A checkpoint copies a granule's sectors that are not
poisoned, an incremental one only when the dirty map names the granule. A rotation halts a cluster whose time is up, and saves it
once what it has sent is over; a restore brings back the swapped-out cluster whose turn it is. -/
def Obligations.DuskEvents : Prop :=
  ∀ (s : State) (die at_ : Nat), s.canonical = true →
    let d := s.dieAt die
    let c := s.contextCommand at_
    let sync := s.device * 2 ^ 55 + c.sync % 2 ^ 55
    let ends (u t : State) (slot status : Nat) : Prop := (t.dieAt die).dusk = d.dusk.tail ∧ t.warp = u.warp ∧
      (c.sync = 0 → t.agenda = u.agenda ∧ ∀ b, t.homeByte b = u.homeByte b) ∧
      (c.sync ≠ 0 → c.sync % 128 = 0 → u.Rests sync 128 →
        t.agenda = u.agenda ∧ readBits t.homeByte (sync + 64) 64 = slot * 2 ^ 32 + status ∧
        readBits t.homeByte sync 64 = syncAdd 1 (readBits u.homeByte sync 64))
    let early (st : Nat) : Prop := (∀ k, (s.dieAt k).homeWatches = []) → d.dusk.head? = some at_ →
      c.slot < 16 → st < 2 ^ 16 →
      (s.saveRefused die c = some st → ∃ t : State, exec (.contextSave die at_) s = .next t ∧ ends s t c.slot st ∧ t.blocks = s.blocks) ∧
      (c.clean = false ∨ c.op ≠ 2 → ∃ t : State, exec (.contextRestore die at_) s = .next t ∧ ends s t 0 0x23 ∧ t.blocks = s.blocks)
    (d.dusk.head? ≠ some at_ → ∀ i ∈ [Instr.contextSave die at_, .contextRestore die at_],
      exec i s = .next (if d.dusk.contains at_ then { s with agenda := s.agenda ++ [i] } else s)) ∧
    (∀ st, early st) ∧
    (c.op = 1 → c.clean = true → (s.coreAt die c.core).halt ≠ .halted → (s.coreAt die c.core).byTrap = false →
      s.saveRefused die c = some 0x40) ∧
    (∀ num, d.dusk.head? = some at_ → s.saveRefused die c = none → s.slotBlock die c.core c.slot = some num →
      let u := s.haltWarps die c.core
      let b := u.blockAt num
      let area := s.device * 2 ^ 55 + c.area % 2 ^ 55
      (u.blockQuiet num = false → exec (.contextSave die at_) s = .next { u with agenda := u.agenda ++ [Instr.contextSave die at_] }) ∧
      (u.blockQuiet num = true → (s.coreAt die c.core).matrix ≠ some num → c.sync = 0 → (∀ k, (s.dieAt k).l2 = []) →
        (∀ x < 8 * b.areaSize, u.plainLine (lineOf (area + x)) ∧ (u.dirAt (lineOf (area + x))).st = .u ∧
          (u.dirAt (lineOf (area + x))).busy = none) →
        ∃ t : State, exec (.contextSave die at_) s = .next t ∧ (t.dieAt die).dusk = d.dusk.tail ∧
          t.blockAt num = { b with place := .saved, area := some c.area, matArea := none, held := false } ∧
          (∀ w ∈ t.warps, w.id.block = num → w.isVesper = true) ∧
          readBits t.homeByte area (8 * b.areaSize) = u.blockImage num % 2 ^ (8 * b.areaSize))) ∧
    (∀ (w : Warp) (haltAt : Nat), w.wf = true → w.quads.length ≤ 16 → w.regions.length ≤ 8 → w.nest.idx.length ≤ 5 →
      w.replays.length ≤ 32 → w.info.width ≤ 64 → (∀ r ∈ w.replays, ∀ l ∈ r.lanes, l.1 < w.info.width) →
      let x := w.image haltAt
      let W := w.info.width
      (∀ n < 128, imgBits x (512 + 4 * n) 32 = w.regs.get (.s n) 0) ∧
      (∀ n < w.info.vregs, ∀ i < W, imgBits x (1536 + 256 * W + 4 * (n * W + i)) 32 = w.regs.get (.v n) i) ∧
      (∀ n < 4, imgBits x (288 + 4 * n) 32 = w.regs.get (.x n) 0) ∧ (∀ n < 16, imgBits x (304 + 2 * n) 16 = w.regs.get (.h n) 0) ∧
      (∀ n < 7, ∀ i < W, imgBits x (448 + i) 8 / 2 ^ n % 2 = w.regs.get (.p n) i) ∧
      imgBits x 272 32 = w.fmode.toNat ∧
      ∀ (q : Nat) (v : Quad), w.quads[q]? = some v → imgBits x (16 * q) 64 = v.pc.toNat ∧ imgBits x (16 * q + 8) 16 = v.ctr.toNat ∧
        imgBits x (16 * q + 10) 8 % 16 = v.live.toNat ∧ imgBits x (16 * q + 11) 1 = b2n v.yielded) ∧
    (∀ num, d.dusk.head? = some at_ → c.clean = true → c.op = 2 →
      s.savedBlock c.process (s.cohRead (s.device * 2 ^ 55 + c.area % 2 ^ 55) 4096) = some num → s.restoreRefused die c num = none →
      let b := s.blockAt num
      let x := s.cohRead (s.device * 2 ^ 55 + c.area % 2 ^ 55) (8 * b.areaSize)
      let new := s.blockNumber die c.core
      (s.moveBusy num = true → exec (.contextRestore die at_) s =
        .next { s with agenda := s.agenda ++ [Instr.contextRestore die at_] }) ∧
      (s.moveBusy num = false → b.header.cluster = 1 → c.sync = 0 →
      ∃ t : State, exec (.contextRestore die at_) s = .next t ∧ (t.dieAt die).dusk = d.dusk.tail ∧ t.warp = s.warp ∧
        (t.blockAt num).place = .retired ∧
        (let r := t.blockAt new
         r.place = .resident ∧ r.die = die ∧ r.core = c.core ∧ r.held = false ∧ r.process = b.process ∧ r.launch = b.launch ∧
         r.pos = b.pos ∧ r.initial = b.initial ∧ r.extra = b.extra) ∧
        t.others.length = s.others.length + (setBits 64 (x / 2 ^ 192 % 2 ^ 64)).length ∧
        ∀ j ∈ setBits 64 (x / 2 ^ 192 % 2 ^ 64), ∃ w ∈ t.others, w.id = ⟨die, c.core, new, j⟩ ∧ w.live = true ∧
          (∀ n < 128, w.regs.get (.s n) 0 = imgBits x (b.contextAt j + 512 + 4 * n) 32) ∧
          w.quads.map (fun q => q.pc.toNat) = (List.range (b.header.width / 4)).map fun q => imgBits x (b.contextAt j + 16 * q) 64)) ∧
    (∀ full : Bool, let i := if full then Instr.fullCheckpoint die at_ else .incrementalCheckpoint die at_
      let k := s.checkpointAt die at_
      let step (u t : State) (g : Nat) (skipped : Bool) : Prop :=
        if g + 1 = k.count then (t.dieAt die).ckpts = d.ckpts.tail ∧ t.agenda = u.agenda
        else (t.dieAt die).ckpts = (at_, g + 1, skipped) :: d.ckpts.tail ∧ t.agenda = u.agenda ++ [i]
      (d.ckpts = [] → exec i s = .next s) ∧
      (∀ g skipped rest, d.ckpts = (at_, g, skipped) :: rest → k.sync = 0 →
        (k.clean = false ∨ k.mode ≠ (if full then 0 else 1) → exec i s = .next { s with
          dies := tput Die.reset s.dies die { d with ckpts := rest } }) ∧
        (k.clean = true → k.mode = (if full then 0 else 1) → frameOk (k.src + 32768 * g) 32768 = true →
          dieOf (k.src + 32768 * g) = die →
          let src := s.device * 2 ^ 55 + (k.src + 32768 * g) % 2 ^ 55
          let dst := s.device * 2 ^ 55 + (k.dst + 32768 * g) % 2 ^ 55
          let map := d.regs.dmap.toNat
          let bit := s.device * 2 ^ 55 + (map + src % 2 ^ 41 / 2 ^ 15) % 2 ^ 55
          (s.hostRange dst 32768 (·.w)).isSome = true → s.device < 512 →
          (full = false → map = 0 ∨ s.cohRead bit 1 = 0 →
            ∃ t : State, exec i s = .next t ∧ step s t g skipped ∧ SameBytes s t) ∧
          (full = true ∨ map ≠ 0 ∧ s.cohRead bit 1 = 1 →
            (∀ o < 32768, (∀ h ∈ s.holders, h.1 ≠ lineOf (dst + o)) ∧ (s.dirAt (lineOf (dst + o))).st = .u ∧
              (s.dirAt (lineOf (dst + o))).busy = none) →
            (map ≠ 0 → s.isLocal bit = true ∧ (∀ h ∈ s.holders, h.1 ≠ lineOf bit) ∧ (s.dirAt (lineOf bit)).st = .u ∧
              (s.dirAt (lineOf bit)).busy = none ∧ s.hasRoom (dieOf bit) (lineOf bit) ∧ ∀ o < 32768, lineOf bit ≠ lineOf (src + o)) →
            ∃ t : State, exec i s = .next t ∧
              step s t g (skipped || (List.range 64).any fun j => (tget none s.poison (sectorOf src + j)).isSome) ∧
              (map ≠ 0 → readBits t.homeByte bit 1 = 0) ∧
              ∀ j < 64, readBits t.homeByte (dst + 512 * j) 512 =
                readBits s.homeByte (if (tget none s.poison (sectorOf src + j)).isSome then dst + 512 * j else src + 512 * j) 512)))) ∧
    ∀ launch cluster,
      let pid := launch / 2 ^ 32
      let ident := launch % 2 ^ 32
      let bs := s.liveBlocks pid ident cluster
      let all := s.rotatingBlocks pid ident cluster
      let halted := ∀ x ∈ bs, x.2.place = .resident ∧ x.2.held = true ∧ x.2.area.isSome = true ∧
        ∀ w ∈ s.warps, w.isVesper = true ∨ w.id.block ≠ x.1 ∨ w.halted = true
      ((bs = [] ∨ ¬ halted) → s.rotatable pid ident cluster = false ∨ s.clusterAwaits pid ident cluster = false ∨ s.takeAreas all = none →
        exec (.rotation launch cluster) s = .next s) ∧
      ((bs = [] ∨ ¬ halted) → ∀ u, s.rotatable pid ident cluster = true → s.clusterAwaits pid ident cluster = true → s.takeAreas all = some u →
        ∃ t : State, exec (.rotation launch cluster) s = .next t ∧ t.agenda = s.agenda ++ [Instr.rotation launch cluster] ∧
          (∀ x ∈ bs, (t.blockAt x.1).held = true ∧ (t.blockAt x.1).area.isSome = true ∧ ∀ w ∈ t.warps, w.isVesper = false → w.id.block = x.1 → w.halted = true) ∧
          ∀ b, t.homeByte b = s.homeByte b) ∧
      (bs ≠ [] → halted → (∃ x ∈ bs, s.blockQuiet x.1 = false) → exec (.rotation launch cluster) s =
        .next { s with agenda := s.agenda ++ [Instr.rotation launch cluster] }) ∧
      (bs ≠ [] → halted → (∀ x ∈ bs, s.blockQuiet x.1 = true) → ∃ t : State, exec (.rotation launch cluster) s = .next t ∧
        (∀ x ∈ bs, (t.blockAt x.1).place = .saved ∧ (t.blockAt x.1).area = x.2.area ∧
          ∀ w ∈ t.warps, w.id.block = x.1 → w.isVesper = true) ∧
        (∀ x ∈ all, x.2.place = .retired → x.2.area.isSome = true → (t.blockAt x.1).held = true) ∧
        ∃ k, (t.launchAt pid ident).swapped = (s.launchAt pid ident).swapped ++ [(cluster, k)]) ∧
      ∀ bay cores,
        (s.nextSwapped = none → exec (.clusterRestore launch cluster die bay cores) s = .next s) ∧
        (∀ l n b core, s.nextSwapped = some (l, cluster) → launchKey l.process l.ident = launch → s.savedRanks l cluster = [(n, b)] →
          cores = [core] → core / 8 = bay → s.restoreFits die [(n, b)] cores = true → b.place = .saved →
          (s.moveBusy n = true → exec (.clusterRestore launch cluster die bay cores) s = .next s) ∧
          (s.moveBusy n = false → ∃ t : State, exec (.clusterRestore launch cluster die bay cores) s = .next t ∧ t.warp = s.warp ∧
            (t.launchAt l.process l.ident).swapped = (s.launchAt l.process l.ident).swapped.filter (fun x => x.1 != cluster) ∧
            (let r := t.blockAt (s.blockNumber die core)
             r.place = .resident ∧ r.die = die ∧ r.core = core ∧ r.held = false ∧ r.process = b.process ∧ r.launch = b.launch ∧
             r.cluster = b.cluster ∧ r.rank = b.rank ∧ r.initial = b.initial)))

/-! ## The Angelus channels -/

/-- R366 to R368, R381 to R387, R391 to R393: shoot-downs, messages and membership. TLBINV and AMSG send a message, or say why
not; ARECV takes the oldest message; the sequencer stamps a message and sends it to every survivor, unless a queue is full; a
die takes the messages in order, each once; INVALIDATE, COMMIT and PAGEFLUSH are answered, the last answer gives the instruction
its value; heartbeats are heard, and a silent die is removed. -/
def Obligations.AngelusEvents : Prop :=
  ∀ (s : State), s.canonical = true →
    (∀ (f : Fields), s.acts f = true →
      let id := s.warp.id
      let die := id.die
      let lane := (s.actLanes f).headD 0
      let a := s.srcA f 2 lane
      let n := s.srcB f false 32 1 lane
      let grp := f.mb 0
      let gives (t : State) (v : Nat) : Prop := t.agenda = s.agenda ++ [s.resultDue] ∧
        MovesOwing s t f (coversD f 1) ((s.actLanes f).flatMap fun l => dest f 1 l v)
      let sends (u t : State) (g : Bool) (m : AngelusMsg) : Prop := t.agenda = u.agenda ++ [Instr.submittedMessage g m] ∧
        (t.channel g).backlog = (u.channel g).backlog ++ [(m, some (id, s.warp.nextId))] ∧ t.warp.regs = s.warp.regs ∧
        t.warp.nextId = s.warp.nextId + 1 ∧ CountersPast s t f.slot ∧
        ∃ e : ScoreEntry, t.warp.score = s.warp.score ++ [e] ∧ e.id = s.warp.nextId ∧ e.kind = .wait ∧ e.covers = coversD f 1 ∧
          e.pc = s.warp.pc ∧ e.parts = []
      let message (kind payload : Nat) : AngelusMsg := ⟨0, BitVec.ofNat 16 (s.dieAt die).regs.epoch.toNat, BitVec.ofNat 8 kind,
        BitVec.ofNat 9 s.device, BitVec.ofNat 2 die, BitVec.ofNat 384 payload⟩
      let badLines := f.mb 1 = false ∧ (a % 2048 ≠ 0 ∨ 2 ^ 55 ≤ a ∨ regionOf a ≠ 0 ∨ n = 0 ∨ 4096 < n)
      (s.release 4 = (s, true) →
        (badLines → ∃ t : State, exec (.tlbinvInv f) s = .next t ∧ gives t 0xFFFFFFFE) ∧
        (¬ badLines → s.shootdownsFull die = true → ∃ t : State, exec (.tlbinvInv f) s = .next t ∧ gives t 0xFFFFFFFF) ∧
        (¬ badLines → s.shootdownsFull die = false → ∃ t : State, exec (.tlbinvInv f) s = .next t ∧ sends s t false
          (message 4 ((if f.mb 1 then 2 ^ 77 else a + (n - 1) * 2 ^ 64) + s.processOf s.warp * 2 ^ 80)))) ∧
      ((die, n) ∉ s.package.tickets → ∃ t : State, exec (.tlbinvCommit f) s = .next t ∧ gives t 0xFFFFFFFE) ∧
      ((die, n) ∈ s.package.tickets → ∃ t : State, exec (.tlbinvCommit f) s = .next t ∧ sends s t false (message 5 n) ∧
        t.package.tickets = s.package.tickets.erase (die, n)) ∧
      (∀ u x, s.readOnce f a 384 = (u, .ok x) →
        (n ≠ 1 → n ≠ 7 → ∃ t : State, exec (.amsg f) s = .next t ∧ MovesOwing s t f (coversD f 1)
          ((u.actLanes f).flatMap fun l => dest f 1 l 0xFFFFFFFE)) ∧
        (n = 1 ∨ n = 7 → u.release (if grp then 5 else 4) = (u, true) →
          ∃ t : State, exec (.amsg f) s = .next t ∧ sends u t grp (message n x))) ∧
      ((s.channel grp).queues.getD die [] = [] →
        (f.mb 1 = true → ∃ t : State, exec (.arecv f) s = .next t ∧ Blocks s t .arecv 0) ∧
        (f.mb 1 = false → ∃ t : State, exec (.arecv f) s = .next t ∧ gives t 0xFFFFFFFF)) ∧
      (∀ m rest u r, (s.channel grp).queues.getD die [] = m :: rest → a % 512 = 0 → s.place s.warp a 512 = .ok .mem →
        spaceOf a = 2 → s.reachAll s.warp ⟨.store, needW, 512, none⟩ [(lane, a)] = (u, r) → r.bad = [] → (u.dieAt die).l2 = [] →
        ∃ t news, exec (.arecv f) s = .next t ∧ (t.channel grp).queues = (u.channel grp).queues.set die rest ∧
          t.agenda = u.agenda ++ news ++ [s.resultDue] ∧ SameBytes u t ∧
          (∀ x, x ∈ news.flatMap Instr.stored ↔ ∃ p ∈ r.parts, ∃ fa leaf, p.spot = .mem fa leaf ∧
            x = ⟨fa, p.width, (messageBits m).toNat / 2 ^ p.at_ % 2 ^ p.width, p.packed⟩) ∧
          MovesOwing s t f (coversD f 1) ((u.actLanes f).flatMap fun l => dest f 1 l (m.seq % 2 ^ 31)))) ∧
    (∀ (grp : Bool) (m : AngelusMsg), m.kind ≠ 3 →
      let c := s.channel grp
      let full := s.fullDies grp
      let stamped := { m with seq := c.next }
      let entry := (c.backlog.find? fun x => x.1 == m).bind (·.2)
      let run := Instr.submittedMessage grp m
      (full ≠ [] → ∃ t : State, exec run s = .next t ∧ t.agenda = s.agenda ++ [run] ∧ (t.channel grp).next = c.next ∧
        (t.channel grp).stamped = c.stamped ∧
        ∀ d < 4, (t.dieAt d).regs.angstall = (s.dieAt d).regs.angstall + (if d ∈ full ∧ d ∉ c.stalled then 1 else 0)) ∧
      (full = [] → ∃ t : State, exec run s = .next t ∧ (t.channel grp).next = c.next + 1 ∧ (t.channel grp).stamped = c.stamped ++ [stamped] ∧
        (t.channel grp).backlog = c.backlog.eraseP (fun x => x.1 == m) ∧
        (entry = none → t.agenda = s.agenda ++ s.survivors.filterMap (fun d => deliveryOf grp d stamped)) ∧
        ∀ id k, entry = some (id, k) →
          (m.kind = 4 ∨ m.kind = 5 ∨ m.kind = 7 → t.agenda = s.agenda ++ s.survivors.filterMap (fun d => deliveryOf grp d stamped)) ∧
          (m.kind = 4 ∨ m.kind = 5 → (t.channel grp).waits = c.waits ++
            [⟨c.next, m.kind.toNat, m.srcDie.toNat, s.survivors, id, k, if m.kind = 4 then c.next % 2 ^ 31 else 0⟩]) ∧
          (m.kind = 1 → t.agenda = s.agenda ++ s.survivors.map (fun d => Instr.user grp d stamped) ++ [Instr.longLatencyResult id k]))) ∧
    (∀ (grp : Bool) (die : Nat) (m : AngelusMsg),
      let c := s.channel grp
      let got := c.delivered.getD die 0
      let deliveries := [Instr.user grp die m, .membership grp die m, .pageflush grp die m] ++
        (if grp then [] else [Instr.invalidate die m, .commit die m])
      let now := s.alive die = true ∧ m.seq = got
      let passed (t : State) : Prop := (t.channel grp).delivered = c.delivered.set die (m.seq + 1)
      (s.alive die = false ∨ m.seq < got → ∀ i ∈ deliveries, exec i s = .next s) ∧
      (s.alive die = true → got < m.seq → ∀ i ∈ deliveries, exec i s = .next { s with agenda := s.agenda ++ [i] }) ∧
      (now → ∃ t : State, exec (.user grp die m) s = .next t ∧ passed t ∧
        (t.channel grp).queues = c.queues.set die (c.queues.getD die [] ++ [m]) ∧
        t.agenda = s.agenda ++ [Instr.wakeEvent die 0, .wakeEvent die 1, .wakeEvent die 2, .wakeEvent die 3] ∧
        (∀ w ∈ t.warps, w.id.die = die → w.isVesper = true → ∀ q ∈ w.quads, q.wait ≠ .arecv) ∧ t.warp.regs = s.warp.regs) ∧
      (now → grp = false →
        let lines := (List.range (m.payload.toNat / 2 ^ 64 % 2 ^ 13 + 1)).map fun i =>
          lineOf (s.device * 2 ^ 55 + (m.payload.toNat % 2 ^ 64 + 2048 * i) % 2 ^ 55)
        let mine := lines.filter fun l => dieOf (l * 2048) == die
        let all := m.payload.getLsbD 77
        ∃ t : State, exec (.invalidate die m) s = .next t ∧ passed t ∧
          (all = true → (t.dieAt die).lineDir = [] ∧ ∀ k < 65, .translationInvalidation die (die * 65 + k) m.seq [] true ∈ t.agenda) ∧
          (all = false → (t.dieAt die).lineDir = (s.dieAt die).lineDir.filter (fun x => !mine.contains x.1) ∧
            ∀ l ∈ mine, ∀ mask, (s.dieAt die).lineDir.find? (fun x => x.1 == l) = some (l, mask) →
              ∀ k < 260, mask.testBit k = true → .translationInvalidation die k m.seq mine false ∈ t.agenda)) ∧
      (now → grp = false →
        let limit := tget 0 s.package.drops (m.payload.toNat % 2 ^ 31 * 4 + die)
        let early := (∃ p ∈ s.pendings, p.die = die ∧ p.line ≠ noLine ∧ p.seq < limit) ∨
          ∃ x ∈ s.ops, ∃ o y, x.2 = some o ∧ o.work = .msg y ∧ o.warp.die = die ∧ o.seq < limit
        (early → exec (.commit die m) s = .next { s with agenda := s.agenda ++ [Instr.commit die m] }) ∧
        (¬ early → ∃ t : State, exec (.commit die m) s = .next t ∧ passed t ∧ t.agenda = s.agenda ++ [Instr.angelusAck false m.seq die] ∧
          t.warp = s.warp)) ∧
      (now →
        let ack := Instr.angelusAck grp m.seq (if grp then s.device * 4 + die else die)
        let lo := m.srcDev.toNat * 2 ^ 55 + m.payload.toNat % 2 ^ 64
        let hi := lo + m.payload.toNat / 2 ^ 64 % 2 ^ 32 * 2 ^ 19
        let ok := m.payload.toNat % 2 ^ 19 = 0 ∧ m.payload.toNat / 2 ^ 64 % 2 ^ 32 ≠ 0 ∧ m.payload.toNat / 2 ^ 96 = 0
        let homed (l : Nat) : Prop := lo ≤ l * 2048 ∧ l * 2048 < hi ∧ s.isLocal (l * 2048) = true ∧ dieOf (l * 2048) = die
        (¬ ok → ∃ t : State, exec (.pageflush grp die m) s = .next t ∧ passed t ∧ t.agenda = s.agenda ++ [ack] ∧ SameBytes s t) ∧
        (ok → ∃ t : State, exec (.pageflush grp die m) s = .next t ∧ passed t ∧ ack ∈ t.agenda ∧
          ((∀ x ∈ s.dir, homed x.1 → x.2.busy = none) → (∀ l, lo ≤ l * 2048 → l * 2048 < hi → t.l2At die l = none) ∧ (∀ l, homed l → (t.dirAt l).st = .u)))) ∧
      (now → grp = false → ∀ x < 4, m.payload.toNat % 2 ^ 11 = s.device * 4 + x → s.device < 512 →
        (∀ b ∈ s.blocks, b.2.place = .resident → b.2.die ≠ x) → s.convs = [] → s.ops = [] → c.waits = [] → s.group.waits = [] →
        s.forwarding = false → (∀ k, (s.dieAt k).regs.dmap = 0) →
        ∃ t : State, exec (.membership grp die m) s = .next t ∧ t.members = s.members &&& ~~~(1#4 <<< x) ∧
          (t.channel grp).delivered = c.delivered.set die (m.seq + 1) ∧
          (t.channel grp).queues = c.queues.set die (c.queues.getD die [] ++ [m]) ∧
          (t.dieAt die).regs.epoch = (((s.dieAt die).regs.epoch + 1) &&& 0xFFFF#64) ∧
          ∀ l, s.isLocal (l * 2048) = true → dieOf (l * 2048) = die → (t.dirAt l).st = match (s.dirAt l).st with
            | .u => .u
            | .s mask => if mask - (mask &&& 1 <<< x) = 0 then .u else .s (mask - (mask &&& 1 <<< x))
            | .o o => if o = x then .u else .o o)) ∧
    (∀ die agent seq lines all, ∃ t : State, exec (.translationInvalidation die agent seq lines all) s = .next t ∧
      t.agenda = s.agenda ++ [Instr.angelusAck false seq (4 + die * 260 + agent)] ∧ SameBytes s t ∧
      ∀ core < 68, (t.coreAt (agent / 65) core).tlb =
        if core = agent % 65 ∧ core < 64 ∨ agent % 65 = 64 ∧ 64 ≤ core then
          (s.coreAt (agent / 65) core).tlb.filter fun e => !(all || lines.contains e.line)
        else (s.coreAt (agent / 65) core).tlb) ∧
    (∀ (grp : Bool) (before after : List AckWait) (w : AckWait) (x : Nat), (s.channel grp).waits = before ++ w :: after →
      (∀ u ∈ before ++ after, u.seq ≠ w.seq) → x ∈ w.waiting →
      let left := w.waiting.filter (· != x)
      ∃ t : State, exec (.angelusAck grp w.seq x) s = .next t ∧
        (left ≠ [] → (t.channel grp).waits = before ++ { w with waiting := left } :: after ∧ t.agenda = s.agenda) ∧
        (left = [] → (t.channel grp).waits = before ++ after ∧
          (t.channel grp).tickets = (s.channel grp).tickets ++ (if w.kind = 4 then [(w.die, w.value)] else []) ∧
          .longLatencyResult w.warp w.entry ∈ t.agenda ∧
          (s.warp.live = true → s.warp.id = w.warp → ∀ e ∈ t.warp.score, e.id = w.entry → e.kind = .known ∧
            ∀ r ∈ e.results, r.value = w.value))) ∧
    ∀ die,
      let others := s.survivors.filter (· != die)
      let since r d := s.timer - tget 0 s.heard (r * 4 + d)
      (s.alive die = false → exec (.heartbeat die) s = .next s ∧ exec (.selfRemoval die) s = .next s) ∧
      (s.alive die = true → die < 4 → ∃ t : State, exec (.heartbeat die) s = .next t ∧ t = { s with heard := t.heard, dies := t.dies } ∧
        (∀ d ∈ others, tget 0 t.heard (d * 4 + die) = s.timer) ∧
        (t.dieAt die).regs.hbmiss = (s.dieAt die).regs.hbmiss +
          (if others.any fun d => decide (10000 < since die d) then 1 else 0)) ∧
      (s.alive die = true → die < 4 → (∀ d ∈ others, 30000 ≤ since die d) → ∃ t : State, exec (.selfRemoval die) s = .next t ∧
        t.members = s.members &&& ~~~(1#4 <<< die) ∧ (∀ w ∈ t.warps, w.id.die = die → w.halted = true) ∧ SameBytes s t) ∧
      (s.alive die = true → (∃ d ∈ others, since die d < 30000) → exec (.selfRemoval die) s = .next s) ∧
      (∀ q rest, s.packageMembers.filter (· != die) = q :: rest → s.device < 512 → die < 4 →
        (die ∉ s.packageMembers ∨ s.alive q = false ∨ since q die < 30000 → exec (.memberRemoval die) s = .next s) ∧
        (die ∈ s.packageMembers → s.alive q = true → 30000 ≤ since q die →
          (s.packageMembers.head? = some die → exec (.memberRemoval die) s = .next { s with
            agenda := s.agenda ++ [Instr.sequencerTakeover false] }) ∧
          (s.packageMembers.head? ≠ some die → s.device * 4 + die ∉ s.gmembers → ∃ (t : State) (m : _), exec (.memberRemoval die) s = .next t ∧
            t.package.backlog = s.package.backlog ++ [(m, none)] ∧ t.agenda = s.agenda ++ [Instr.submittedMessage false m] ∧
            m.kind = 3 ∧ m.srcDie = BitVec.ofNat 2 q ∧ m.payload.toNat % 2 ^ 11 = s.device * 4 + die))) ∧
      (∀ old new rest, s.packageMembers = old :: new :: rest → s.device < 512 →
        (since new old < 30000 → exec (.sequencerTakeover false) s = .next s) ∧
        (30000 ≤ since new old → ∃ (t : State) (m : _), exec (.sequencerTakeover false) s = .next t ∧
          t.package.backlog = s.package.backlog ++ [(m, none)] ∧ .submittedMessage false m ∈ t.agenda ∧ m.kind = 3 ∧
          m.srcDie = BitVec.ofNat 2 new ∧ m.payload.toNat % 2 ^ 11 = s.device * 4 + old ∧
          ∀ d ∈ s.survivors, ∀ x ∈ s.package.stamped, s.package.delivered.getD d 0 ≤ x.seq →
            ∀ e, deliveryOf false d x = some e → e ∈ t.agenda))

/-! ## Links and planes -/

/-- R395 to R403: a link. An error window that ends too bad starts a retraining, which the removal and hand-back control flits
and the training attempts carry on; a direction without an active wavelength fails the link; a flit is counted, delivered in order
and once, and answered; acknowledgements clear and negative ones resend; a link that fails drains its plane, which goes down and
rejoins. The distance after which a wavelength returns is the model's free value (log entry 6). -/
def Obligations.LinksAndPlanes : Prop :=
  ∀ (s : State) (k w : Nat), s.canonical = true → w < 8 →
    let l := s.linkAt k
    let x := l.wave w
    let bit : BitVec 8 := 1#8 <<< w
    let links (t : State) : Prop := t = { s with links := t.links, sent := t.sent, agenda := t.agenda, free := t.free } ∧
      ∀ j, j ≠ k → t.linkAt j = s.linkAt j
    let only (t : State) : Prop := links t ∧ t.agenda = s.agenda
    let failsIf (t : State) (c : Prop) : Prop := (c → t.agenda = s.agenda ++ [Instr.linkFailure k]) ∧ (¬ c → t.agenda = s.agenda)
    (2 ^ 30 ≤ (x.rxBits - x.winBits).toNat →
      let above := l.thresh.toNat * 2 ^ 30 < (x.corrBits - x.winCorr).toNat * 10 ^ 12
      ∃ t : State, exec (.errorWindowEnd k w) s = .next t ∧ links t ∧
        (let y := (t.linkAt k).wave w
         y.winBits = x.rxBits ∧ y.winCorr = x.corrBits ∧ y.winUncorr = 0 ∧
         (¬ above → t.sent = s.sent ∧ (t.linkAt k).active = l.active ∧ t.agenda = s.agenda) ∧
         (above → l.active &&& bit ≠ 0 → l.training = 0 → t.sent = s.sent ++ [Sent.removal k w] ∧
           (∃ f : Flit, (t.linkAt k).unacked = l.unacked ++ [f] ∧ f.seq = l.txNext ∧ f.vc = 4 ∧ f.kind = 2) ∧ (t.linkAt k).active = l.active &&& ~~~bit ∧
           (t.linkAt k).training = bit ∧ y.retrain = x.retrain + 1 ∧ y.attempts = 0 ∧ y.pending = false ∧
           failsIf t (l.active &&& ~~~bit = 0 ∨ l.txActive = 0)) ∧
         (above → l.active &&& bit ≠ 0 → l.training ≠ 0 → t.sent = s.sent ∧ (t.linkAt k).active = l.active ∧ y.pending = true ∧
           t.agenda = s.agenda))) ∧
    ((x.rxBits - x.winBits).toNat < 2 ^ 30 → exec (.errorWindowEnd k w) s = .next s) ∧
    (∃ t : State, exec (.wavelengthRemoval k w) s = .next t ∧ links t ∧ t.linkAt k = { l with txActive := l.txActive &&& ~~~bit } ∧
      failsIf t (l.active = 0 ∨ l.txActive &&& ~~~bit = 0)) ∧
    (l.training &&& bit ≠ 0 → x.retryAt = none →
      exec (.trainingAttemptEnd k w true) s = .next s ∧
      (x.attempts ≠ 2 → ∃ t : State, exec (.trainingAttemptEnd k w false) s = .next t ∧ t.agenda = s.agenda ++ [Instr.trainingRetry k w] ∧
        (t.linkAt k).wave w = { x with attempts := x.attempts + 1, retryAt := some (s.timer + 10 ^ 7) } ∧
        (t.linkAt k).training = l.training ∧ (t.linkAt k).active = l.active) ∧
      (x.attempts = 2 → (∀ v < 8, (l.wave v).pending = false) → ∃ t : State, exec (.trainingAttemptEnd k w false) s = .next t ∧
        (t.linkAt k).wave w = { x with fail := x.fail + 1, attempts := 0 } ∧ (t.linkAt k).training = l.training &&& ~~~bit ∧
        (t.linkAt k).disabled = l.disabled ||| bit ∧ (t.linkAt k).active = l.active ∧
        t.agenda = s.agenda)) ∧
    (l.training &&& bit = 0 → l.txActive &&& bit = 0 → l.back = none → ∃ (t : State) (y : _) (f : Flit),
      exec (.trainingAttemptEnd k w true) s = .next t ∧
      (1 ≤ y ∧ y ≤ 4096) ∧ (t.linkAt k).back = some (w, l.txNext + BitVec.ofNat 16 y) ∧ (t.linkAt k).txNext = l.txNext + 1 ∧
      (t.linkAt k).unacked = l.unacked ++ [f] ∧ f.seq = l.txNext ∧ f.vc = 4 ∧ f.kind = 2 ∧
      t.sent = s.sent ++ [Sent.handBack k w (l.txNext + BitVec.ofNat 16 y)] ∧
      t.agenda = s.agenda ++ [Instr.handBack k w (l.txNext + BitVec.ofNat 16 y)]) ∧
    (∀ at_, x.retryAt = some at_ →
      (s.timer < at_ → exec (.trainingRetry k w) s = .next { s with agenda := s.agenda ++ [Instr.trainingRetry k w] }) ∧
      (at_ ≤ s.timer → ∃ t : State, exec (.trainingRetry k w) s = .next t ∧ only t ∧ (t.linkAt k).wave w = { x with retryAt := none })) ∧
    (∀ at_, (l.back = some (w, at_) → ∃ t : State, exec (.handBack k w at_) s = .next t ∧ only t ∧
        t.linkAt k = { l with back := none, txActive := l.txActive ||| bit, txNext := at_ }) ∧
      (l.back ≠ some (w, at_) → l.training = bit → (∀ v < 8, (l.wave v).pending = false) →
        ∃ t : State, exec (.handBack k w at_) s = .next t ∧ only t ∧ (t.linkAt k).active = l.active ||| bit ∧ (t.linkAt k).training = 0 ∧
          t.sent = s.sent)) ∧
    (∀ (f : Flit) (corrected : Nat),
      let dist := (f.seq - l.expect).toNat
      let window (t : State) : Prop := t.agenda = s.agenda ++
        (if 2 ^ 30 ≤ (x.rxBits + 640 - x.winBits).toNat then [Instr.errorWindowEnd k w] else [])
      (dist = 0 → l.early = [] → ∃ t : State, exec (.flit k w f corrected false) s = .next t ∧ window t ∧
        t.sent = s.sent ++ [Sent.ack k (l.expect + 1)] ∧ (t.linkAt k).got = l.got ++ [f] ∧ (t.linkAt k).expect = l.expect + 1 ∧
        ((t.linkAt k).wave w).rxBits = x.rxBits + 640 ∧ ((t.linkAt k).wave w).corrBits = x.corrBits + BitVec.ofNat 64 corrected) ∧
      (∀ g, dist = 0 → l.early = [g] → g.seq = l.expect + 1 → ∃ t : State, exec (.flit k w f corrected false) s = .next t ∧
        t.sent = s.sent ++ [Sent.ack k (l.expect + 2)] ∧ (t.linkAt k).got = l.got ++ [f, g] ∧ (t.linkAt k).early = []) ∧
      (0 < dist → dist < 2 ^ 15 → ∃ t : State, exec (.flit k w f corrected false) s = .next t ∧ window t ∧
        t.sent = s.sent ++ [Sent.nak k l.expect] ∧ (t.linkAt k).got = l.got ∧ (t.linkAt k).expect = l.expect ∧
        ∃ g ∈ (t.linkAt k).early, g.seq = f.seq) ∧
      (2 ^ 15 ≤ dist → ∃ t : State, exec (.flit k w f corrected false) s = .next t ∧ window t ∧ t.sent = s.sent ∧
        (t.linkAt k).got = l.got ∧ (t.linkAt k).expect = l.expect) ∧
      (x.winUncorr ≠ 2 → ∃ t : State, exec (.flit k w f corrected true) s = .next t ∧ window t ∧ t.sent = s.sent ++ [Sent.nak k l.expect] ∧
        (t.linkAt k).got = l.got ∧ (t.linkAt k).expect = l.expect ∧ ((t.linkAt k).wave w).uncorr = x.uncorr + 1 ∧
        ((t.linkAt k).wave w).corrBits = x.corrBits ∧ ((t.linkAt k).wave w).winUncorr = x.winUncorr + 1) ∧
      (x.winUncorr = 2 → l.active &&& bit ≠ 0 → l.training = 0 → ∃ t : State, exec (.flit k w f corrected true) s = .next t ∧
        t.sent = s.sent ++ [Sent.removal k w, .nak k l.expect] ∧ (t.linkAt k).training = bit)) ∧
    (∀ (first : BitVec 16) (before : List Flit) (f : Flit) (after : List Flit), l.unacked = before ++ f :: after → f.seq = first →
      (∀ g ∈ before, g.seq ≠ first) → ∃ t : State, exec (.negativeAcknowledgement k first) s = .next t ∧ only t ∧
        t.sent = s.sent ++ (f :: after).map (fun g => Sent.resend k g) ∧
        t.linkAt k = { l with replay := l.replay + BitVec.ofNat 64 (after.length + 1) }) ∧
    (∀ upTo : BitVec 16, ∃ t : State, exec (.flitAcknowledgement k upTo) s = .next t ∧ only t ∧
      t.linkAt k = { l with unacked := l.unacked.filter fun f => decide ((f.seq - upTo).toNat < 2 ^ 15) }) ∧
    (∃ t : State, exec (.linkFailure k) s = .next t ∧ t.linkAt k = { l with active := 0, training := 0, txActive := 0 } ∧
      (k < 48 → s.planes[k]? = some .up → t.planes = s.planes.set k .draining ∧ t.agenda = s.agenda ++ [Instr.planeDrainTimeout k]) ∧
      (48 ≤ k ∨ s.planes[k]? ≠ some .up → t.planes = s.planes ∧ t.agenda = s.agenda)) ∧
    (exec (.planeDrainTimeout k) s = .next { s with
      planes := if s.planes[k]? = some .draining then s.planes.set k .down else s.planes }) ∧
    (s.planes[k]? = some .down → ∃ t : State, exec (.planeRejoin k) s = .next t ∧ t.planes = s.planes.set k .up ∧
      t.linkAt k = { l with active := 0xFF, training := 0, disabled := 0, txActive := 0xFF, back := none }) ∧
    (s.planes[k]? ≠ some .down → exec (.planeRejoin k) s = .next s)

/-! ## Hosts, other devices and the platform -/

/-- R262, R281, R339, R403, R408 to R411, R449 to R460: requests from outside are performed at their homes and answered, each tag
once, held back by a conversion, or refused; a host's own requests reach the memory that the device sees in region 01; range-table entries go to both copies; leases are renewed and run out; the security controller checks and measures what
it is given; the boot image starts the Vesper cores; an island that is too hot slows down, and at last the package stops. -/
def Obligations.OutsideRequests : Prop :=
  ∀ (s : State), s.canonical = true →
    let p := s.platform
    let there (a : Nat) : Nat := s.device * 2 ^ 55 + a % 2 ^ 55
    let idle (a : Nat) : Prop := (s.dirAt (lineOf (there a))).st = .u ∧ (s.dirAt (lineOf (there a))).busy = none
    let open_ (a : Nat) : Prop := s.plainLine (lineOf (there a)) ∧ s.alive (dieOf (there a)) = true ∧ idle a ∧
      s.hasRoom (dieOf (there a)) (lineOf (there a))
    let value (a w : Nat) : Nat := readBits s.homeByte (there a) w
    let rejects (i : Instr) (what : Nat) : Prop := exec i s = .next { s with sent := s.sent ++ [Sent.rejected what] }
    let fails (i : Instr) (what : Nat) : Prop := ∃ t : State, exec i s = .next t ∧ t = { s with platform := t.platform, sent := t.sent } ∧
      t.sent = s.sent ++ [Sent.rejected what] ∧ t.platform.recovery = true ∧ t.platform.configM = p.configM ∧ t.platform.slots = p.slots
    let wrote (t : State) (a w v : Nat) : Prop := readBits t.homeByte (there a) w = v ∧ OtherBytes s t (there a) w
    (∀ dev tag op,
      let kept := s.saved.filter fun x => decide (s.timer ≤ x.2.2.1 + 64000)
      let run := Instr.fabricRequest dev tag op
      (∀ x, kept.find? (fun x => x.1 == dev && x.2.1 == tag) = some x → exec run s = .next { s with
        saved := kept, sent := s.sent ++ [x.2.2.2] }) ∧
      (kept.find? (fun x => x.1 == dev && x.2.1 == tag) = none → s.remoteHeld op = true →
        exec run s = .next { s with agenda := s.agenda ++ [run] }) ∧
      (kept.find? (fun x => x.1 == dev && x.2.1 == tag) = none → s.remoteHeld op = false →
        (∀ a w, op = .load a w → open_ a → (there a) % 2048 + w ≤ 2048 → s.poisonOf (there a) w = none → ∃ t : State, exec run s = .next t ∧ SameBytes s t ∧
          t.saved = (dev, tag, s.timer, Sent.response dev tag (value a w)) :: kept ∧ t.sent = s.sent ++ [Sent.response dev tag (value a w)]) ∧
        (∀ a w k, op = .load a w → open_ a → s.poisonOf (there a) w = some k →
          ∃ t : State, exec run s = .next t ∧ t.sent = s.sent ++ [Sent.poisoned dev tag k] ∧ SameBytes s t ∧
            t.saved = (dev, tag, s.timer, Sent.poisoned dev tag k) :: kept) ∧
        (∀ a w v, op = .store a w v → open_ a → (there a) % 2048 + w ≤ 2048 → 0 < w → ∃ t : State, exec run s = .next t ∧ wrote t a w (v % 2 ^ w) ∧
          t.sent = s.sent ++ [Sent.response dev tag 0]) ∧
        (∀ slot a w x y, op = .atomic slot a w x y → slot < 24 → open_ a → s.poisonOf (there a) w = none →
          (there a) % 2048 + w ≤ 2048 → 0 < w → ∃ t : State, exec run s = .next t ∧
          wrote t a w (slotValue slot w (value a w) x y % 2 ^ w) ∧ t.sent = s.sent ++ [Sent.response dev tag (value a w)]))) ∧
    (∀ host op,
      let run := Instr.hostRequest host op false
      let granted := (s.partition host (opSpan op).1 (opSpan op).2 (opGranted op)).isSome = true
      let serving := 6 ≤ p.stage ∧ p.recovery = false ∧ p.stopped = false
      let owns := s.hostOwns host (opSpan op).1 (opSpan op).2
      (owns = true → idle (opSpan op).1 → (∀ h ∈ s.holders, h.1 ≠ lineOf (there (opSpan op).1)) →
        (∀ a w, op = .load a w → s.poisonOf (there a) w = none → ∃ t : State, exec run s = .next t ∧ SameBytes s t ∧
          t.sent = s.sent ++ [Sent.hostData host a (value a w)]) ∧
        (∀ a w v, op = .store a w v → (there a) % 2048 + w ≤ 2048 → 0 < w → ∃ t : State, exec run s = .next t ∧
          wrote t a w (v % 2 ^ w) ∧ t.sent = s.sent ++ [Sent.hostDone host])) ∧
      (owns = false → ¬ serving ∨ ¬ granted → ∃ t : State, exec run s = .next t ∧ t.sent = s.sent ++ [Sent.hostRefused host] ∧ SameBytes s t) ∧
      (owns = false → serving → granted → s.remoteHeld op = true → ∃ t : State, exec run s = .next t ∧
        t = { s with platform := t.platform, agenda := s.agenda ++ [run] }) ∧
      (owns = false → serving → granted → s.remoteHeld op = false →
        (∀ a w, op = .load a w → open_ a → (there a) % 2048 + w ≤ 2048 → s.poisonOf (there a) w = none → ∃ t : State, exec run s = .next t ∧ SameBytes s t ∧
          t.sent = s.sent ++ [Sent.hostData host a (value a w)]) ∧
        (∀ a w v, op = .store a w v → open_ a → (there a) % 2048 + w ≤ 2048 → 0 < w → ∃ t : State, exec run s = .next t ∧
          wrote t a w (v % 2 ^ w) ∧ t.sent = s.sent ++ [Sent.hostDone host]))) ∧
    (∀ index entry,
      let run := Instr.rangeTableUpdate index entry
      let e := rangeOf entry
      (s.entryOk index entry = true → ∃ t : State, exec run s = .next t ∧ t = { s with ranges := t.ranges, tray := t.tray } ∧
        ∀ k, tget 0 t.ranges k = (if k = index then entry else tget 0 s.ranges k) ∧
          tget 0 t.tray k = if k = index then entry else tget 0 s.tray k) ∧
      (s.entryOk index entry = false → rejects run index) ∧
      (entry.toNat % 2 ^ 83 ≠ 0 ∨ 64 ≤ index ∨ 2 ≤ e.kind ∨ e.units = 0 ∨ e.dbase % 2 ^ 19 ≠ 0 ∨
        (e.kind = 1 ∧ e.valid = true ∧ ∃ k o, (k, o) ∈ s.ranges ∧ k ≠ index ∧ (rangeOf o).valid = true ∧ (rangeOf o).kind = 1 ∧
          (rangeOf o).hostId ≠ e.hostId ∧ ∃ a, e.covers a 1 = true ∧ (rangeOf o).covers a 1 = true) →
        s.entryOk index entry = false)) ∧
    (∀ host,
      let deadline := tget 0 s.leases host
      (s.extentsOf host 1 = [] → exec (.leaseRenewal host) s = .next s) ∧
      (s.extentsOf host 1 ≠ [] → ∃ t : State, exec (.leaseRenewal host) s = .next t ∧ t = { s with leases := t.leases } ∧
        ∀ h, tget 0 t.leases h = if h = host then s.timer + 3 * s.leasePer.toNat else tget 0 s.leases h) ∧
      (deadline = 0 ∨ s.timer < deadline → exec (.leaseExpiry host) s = .next s) ∧
      (deadline ≠ 0 → deadline ≤ s.timer → s.device < 512 → s.NoTransactions → (∀ d, (s.dieAt d).regs.dmap = 0) →
        ∃ t : State, exec (.leaseExpiry host) s = .next t ∧
        tget 0 t.leases host = 0 ∧ t.leaseLost = s.leaseLost + 1 ∧ (∀ x ∈ t.holders, x.2.1 ≠ host) ∧
        (∀ k, (rangeOf (tget 0 t.ranges k)).hostId = host → (rangeOf (tget 0 t.ranges k)).valid = false) ∧
        (∀ k, (rangeOf (tget 0 t.tray k)).hostId = host → (rangeOf (tget 0 t.tray k)).valid = false) ∧
        (∀ l, (l, host, true) ∈ s.holders → (∀ x ∈ s.holders, x.1 = l → x.2.1 = host) → (s.dirAt l).st = .u →
          ∀ i < 4, tget none t.poison (l * 4 + i) = some ⟨2, 0⟩) ∧
        (∀ e ∈ s.extentsOf host 1, ∀ b, there e.dbase ≤ b * 8 → b * 8 < there e.dbase + e.units * 2 ^ 19 → s.isLocal (b * 8) = true →
          b < 2 ^ 61 → (lineOf (b * 8), host, true) ∉ s.holders → t.homeByte b = 0) ∧
        ∀ d ∈ s.survivors, ∃ r : FaultRecord, (t.dieAt d).waiting = (s.dieAt d).waiting ++ [⟨r, none, none, false⟩] ∧ r.kind = 5 ∧
          r.info0 = BitVec.ofNat 64 host)) ∧
    (∃ t : State, exec .packageReset s = .next t ∧ t.warps = [] ∧ t.blocks = [] ∧ t.cores = [] ∧ t.dies = [] ∧ t.mem = [] ∧ t.ranges = [] ∧
      t.members = 15 ∧ t.platform.stage = 1 ∧ t.platform.recovery = false ∧ t.platform.anySeq = false ∧ t.platform.keys = [] ∧
      t.hostMem = s.hostMem ∧ t.device = s.device) ∧
    (∀ b : List Byte,
      let run := Instr.configurationRecord b
      let type := leAt b 0 2
      let length := leAt b 2 2
      let seq := leAt b 4 4
      let payload := (b.drop 8).take length
      let shut := 7 ≤ p.stage ∨ p.stopped = true
      let fresh := p.anySeq = false ∨ p.lastSeq < seq
      (shut → rejects run type) ∧
      (¬ shut → signedByPlovem b = false ∨ type = 0 ∨ 3 < type ∨ 4032 < length ∨ b.length ≠ length + 72 ∨ ¬ fresh ∨
        payloadOk type payload = false → fails run type) ∧
      (¬ shut → signedByPlovem b = true → 1 ≤ type → type ≤ 3 → length ≤ 4032 → b.length = length + 72 → fresh → payloadOk type payload = true →
        ∃ t : State, exec run s = .next t ∧ t = { s with platform := t.platform } ∧
          (let q := t.platform
           q.recovery = false ∧ q.lastSeq = seq ∧ q.anySeq = true ∧ q.configM = Config.sha256 (p.configM ++ Config.sha256 b) ∧
           (type = 1 → q.features = payload ∧ q.islands = p.islands) ∧
           (type = 2 → ∀ l, Config.islandPayload payload = some l → ∀ (i : Nat) (x : Nat × Nat × Nat), l[i]? = some x →
             let y := tget Island.reset q.islands i
             y.floor = x.1 ∧ y.ceiling = x.2.1 ∧ y.clock = x.2.2 ∧ y.tlim = (tget Island.reset p.islands i).tlim) ∧
           (type = 3 → ∀ l, Config.thermalPayload payload = some l → ∀ (i : Nat) (c : Nat), l[i]? = some c →
             (tget Island.reset q.islands i).tlim = c)))) ∧
    (∀ b : List Byte,
      let run := Instr.vesperBootImage b
      let shut := 2 < p.stage ∨ p.stopped = true
      let length := leAt b 32 4
      let load := leAt b 8 8
      (shut → rejects run 0x100) ∧
      (¬ shut → imageFits b = false → fails run 0x100) ∧
      (¬ shut → imageFits b = true → ∃ t : State, exec run s = .next t ∧ t.platform.stage = 6 ∧ t.platform.recovery = false ∧
        (∀ d ∈ s.survivors, ∀ i < length, tget 0 t.mem ((d * 2 ^ 41 + load) / 8 + i) = (b.drop 64).getD i 0) ∧
        ∀ d ∈ s.survivors, ∀ v < 4,
          let at_ (o : Nat) : DWord := BitVec.ofNat 64 (0xF800000000000000 + d * 2 ^ 41 + load + o)
          (t.coreAt d (64 + v)).ves.tvec = at_ (leAt b 24 8) ∧ (t.coreAt d (64 + v)).ves.ecause = 0 ∧
          ∃ w ∈ t.others, w.id = ⟨d, 64 + v, 0, 0⟩ ∧ w.live = true ∧ w.user = false ∧ w.regs.get (.s 0) 0 = d ∧
            w.quads = [if v = 0 then ⟨at_ (leAt b 16 8), 0, 15, .none, 0, false, 0⟩ else ⟨at_ (leAt b 24 8), 0, 15, .vesperHalt, 2, false, 0⟩])) ∧
    (∀ slot code sig,
      let run := Instr.extensionHandlerLoad slot code sig
      let shut := p.stage ≠ 6 ∨ p.recovery = true ∨ p.stopped = true ∨ slot < 24 ∨ 31 < slot
      (shut → rejects run slot) ∧ (¬ shut → Config.plovemSignatureOk code sig = false → fails run slot) ∧
      (¬ shut → Config.plovemSignatureOk code sig = true → ∃ t : State, exec run s = .next t ∧ t = { s with platform := t.platform } ∧
        tget none t.platform.slots slot = some code ∧ (∀ k, k ≠ slot → tget none t.platform.slots k = tget none p.slots k) ∧
        t.platform.firmM = Config.sha256 (p.firmM ++ Config.sha256 (code ++ sig)))) ∧
    (∀ request key pid,
      let run := Instr.tenantKeyRequest request key pid
      (Config.tenantSignatureOk request = false → rejects run 0x200) ∧
      (∀ h, Config.tenantSignatureOk request = true → 1 ≤ h → h ≤ 4096 → tget none p.keys h = none →
        (∀ k, 1 ≤ k → k < h → tget none p.keys k ≠ none) → ∃ t : State, exec run s = .next t ∧ t.sent = s.sent ++ [Sent.keyHandle h] ∧
          tget none t.platform.keys h = some ⟨key, true⟩ ∧ t.procAt pid = { s.procAt pid with keyHandle := h })) ∧
    (∀ handle, ∃ t : State, exec (.keyHandleRevoke handle) s = .next t ∧ t = { s with platform := t.platform } ∧
      ∀ k, tget none t.platform.keys k = if k = handle then (tget none p.keys k).map fun x => { x with valid := false }
        else tget none p.keys k) ∧
    (∀ nonce pid, (nonce.length ≠ 32 → ∃ t : State, exec (.attestationRequest nonce pid) s = .next t ∧ t.sent = s.sent ++ [Sent.rejected 0x300]) ∧
      (nonce.length = 32 → 2 ≤ p.stage →
        let body := nonce ++ p.firmM ++ p.configM ++ bytesOf 2 (s.procAt pid).keyHandle ++ bytesOf 2 s.device ++ List.replicate 28 0
        exec (.attestationRequest nonce pid) s = .next { s with sent := s.sent ++ [Sent.report (body ++ Config.identitySign body)] })) ∧
    ∀ island celsius,
      let x := tget Island.reset p.islands island
      (32 ≤ island → exec (.thermalThrottle island celsius) s = .next s) ∧
      (island < 32 → ∃ t : State, exec (.thermalThrottle island celsius) s = .next t ∧ t = { s with platform := t.platform } ∧
        tget Island.reset t.platform.islands island = { x with drop := min 8 ((celsius - x.tlim) / 2) }) ∧
      (celsius < x.tlim + 15 → exec (.thermalShutdown island celsius) s = .next s) ∧
      (x.tlim + 15 ≤ celsius → exec (.thermalShutdown island celsius) s = .next { s with platform := { p with stopped := true } })

/-! ## Encoding, stepping, invariants -/

/-- R35 to R39, R61: every instruction with a word is read back from it, whatever its operands; a word that decodes is the word
of its instruction, in a slot whose length its low bits give; the decoder reads no bit above the slot; an opcode that the
map does not assign, and a 96-bit word with a tail, are refused. -/
def Obligations.DecodeEncode : Prop :=
  (∀ i : Instr, i.WellFormed → decode (encode i) = .ok i) ∧
  (∀ (w : BitVec 256) (i : Instr), decode w = .ok i →
    i.WellFormed ∧ (encode i).toNat = w.toNat % 2 ^ i.slot ∧ i.slot = 8 * slotBytes (w.extractLsb' 0 2) ∧
    ∀ v : BitVec 256, v.toNat % 2 ^ i.slot = w.toNat % 2 ^ i.slot → decode v = .ok i) ∧
  (∀ w : BitVec 256, let op := (w.extractLsb' 2 10).toNat
    (∀ r ∈ opcodeRanges, op < r.1 ∨ r.2 < op) → decode w = .error (.unassignedOp op) ∨ decode w = .error .tailNotZero) ∧
  (∀ w : BitVec 256, w.extractLsb' 0 2 = 2 → w.extractLsb' 96 32 ≠ 0 → decode w = .error .tailNotZero)

/-- The words that the spec writes out, one or more for most groups of the opcode map, decode to the instructions they stand
for. -/
def Obligations.DecodedWords : Prop :=
  decode 0x2040_0000_0071_0009 =
    .ok (.bra { Fields.plain false 0 0 0 0 4 0 2 .none with guard := ⟨1, false, 7, false⟩ }) ∧                        -- (p1) BRA
  decode 0x0010_C0B0_A077_A101 = .ok (.iadd (.plain false 10 10 11 12 1 0 0 .none)) ∧                -- IADD.i4.sat v10, v11, v12
  decode 0x0040_0000_0200_0030_7077_0402 = .ok (.f2f (.plain false 0 7 3 0 0x20 0 0 (.extE 0x40 0 0))) ∧   -- F2F v7[2], v3[0]
  decode 0x0001_0000_0080_0050_6020_4077_1602 = .error .tailNotZero ∧
  decode 0x0000_0080_0050_6020_4077_1602 = .ok (.lea (.plain false 1 4 2 6 5 0 0 (.immI 0x80))) ∧         -- LEA.n32
  decode 0x0050_0040_61A1_0609 =
    .ok (.alignup { Fields.plain false 0 6 4 0 5 0 0 .none with guard := ⟨1, false, 2, true⟩, drain := true }) ∧   -- ALIGNUP drain
  decode 0x4850_0040_0077_4705 = .ok (.st (.plain false 4 0 4 0 0x85 1 0 .none)) ∧                            -- ST.n6
  decode 0x0020_0000_0077_4721 = .ok (.fence (.plain false 4 0 0 0 2 0 0 .none)) ∧                            -- FENCE.rel.pkg
  decode 0x6010_0040_0877_2845 = .ok (.syncadd (.plain true 2 0 4 0 1 1 2 .none)) ∧                           -- SYNCADD.cls
  decode 0x00B4_0000_0000_003A_0890_7020_5077_0903 =
    .ok (.atom (.plain false 0 5 2 7 0x89 0 0 (.full 0xB4 0 0 0x3A))) ∧                                       -- ATOM.or.b6.rel.pkg
  decode 0x0000_0030_1077_0A41 = .ok (.fwait (.plain false 0 1 3 0 0 0 0 .none)) ∧                            -- FWAIT v1, h3
  decode 0x0003_0200_0000_0000_5000_6040_0877_CB03 =
    .ok (.mma (.plain true 12 0 4 6 0 1 1 (.full 3 2 0 0))) ∧                                                 -- MMA.me1.ovr h2, t3
  decode 0x0000_0000_4030_4020_8077_0C0A = .ok (.ldPl (.plain false 0 8 2 4 3 1 0 (.immI 0))) ∧               -- LD.PL v8, s2, s3
  decode 0x6100_0080_1877_0D01 = .ok (.spawn (.plain true 0 1 8 0 16 1 2 .none)) ∧                            -- SPAWN q1, s8
  decode 0x22A0_0000_0077_0E01 = .ok (.trap (.plain false 0 0 0 0 0x2A 0 2 .none)) ∧                          -- TRAP 0x2A
  decode 0x0000_0000_0000_0000_0000_0000_0001_0003_000C_0A08_0000_4028_5000_2000_4077_03C0 =
    .ok (.loopnest { drain := false, d := 4, a := 0, b := 2, c := 0, ext0 := 3, ext1 := 1, ext2 := 0, ext3 := 0, ext4 := 0,
                     tC := 0, tB := 12, tA := 10, tD := 8, rnd := 0, fd := 1, fs := 0, r := 0, lv := 1, xop := 8 })

/-- R19, R37, R187, R188: a turn of a scheduler. The first of the warps that may issue is the one that issues; where its code
is readable, stands in its core's instruction cache as memory has it, and decodes to an instruction that no check stops, the step
is `exec` of that instruction, with the scheduler's note of the issue added; a warp that has to wait at its instruction lets the
next one try. A turn of an event or of an input runs that event. -/
def Obligations.StepRunsDecoded : Prop :=
  ∀ (s : State) (ts : List Turn),
    (∀ (die core sched : Nat) (w : Warp) (ws : List Warp), s.turns = .issue die core sched :: ts →
      let s0 := { s with turns := ts }
      s0.candidates (fun w => w.id.die == die && w.id.core == core && w.sched == sched) = w :: ws →
      let s1 := ((s0.focus w.id).modWarp fun w => { w with stall := 0 }).payAcquire
      let u := if s1.warp.gang = [] then s1.modWarp s1.select else s1
      let me := u.warp
      s1.warp.trapCode = none → (s1.warp.gang = [] → s1.warp.replays = []) → (s1.warp.gang ≠ [] → s1.warp.parked = none) →
      (s1.warp.gang = [] → s1.regangs s1.warp = false) →
      me.gang ≠ [] → u.ackWait me.id = false → u.mustHold me = false → fetchWindow me.user me.pc.toNat = none →
      ∀ (v : State) (fa fb d : Nat) (leaf : Nat) (i : Instr),
        u.translate me.id.die me.id.core (u.processOf me) me.user me.pc.toNat needX = (v, .ok fa leaf) →
        v.barred (u.processOf me) me.user .load fa leaf 64 none = none → v.served fa (leafMode leaf 0) = some fb →
        let n := 8 * slotBytes (BitVec.ofNat 2 (v.dieRead me.id.die fb 64))
        let holds (m : Nat) : Prop := d / 2 ^ (fb % 512) % 2 ^ m = v.dieRead me.id.die fb m
        me.pc.toNat % 256 + n ≤ 256 → v.poisonOf fb 64 = none → v.poisonOf fb n = none →
        (v.coreAt me.id.die me.id.core).code (sectorOf fb) = some d → holds 64 → holds n →
        decode (BitVec.ofNat 256 (v.dieRead me.id.die fb n)) = .ok i → v.warp.decodeTrap i = none → v.scoreWait i = false →
        (∀ t, exec i v = .next t → (t.warp.id = v.warp.id → t.warp.entries.length ≤ 32) →
          (t.warp.id = w.id ∧ t.warp.live = true ∧ t.warp.stalled = true → step s = (t.issueFirst ws).1) ∧
          (¬ (t.warp.id = w.id ∧ t.warp.live = true ∧ t.warp.stalled = true) → step s = .next (t.noteIssue w))) ∧
        (∀ r, exec i v = .fault r → step s = .fault r) ∧ (∀ r, exec i v = .refused r → step s = .refused r)) ∧
    (∀ w : Warp, s.canonical = true → s.warp.id = w.id → s.warp.live = true →
      let t := s.noteIssue w
      t = { s with
        free := s.free + 1, cores := t.cores, blocks := t.blocks
        warp := { s.warp with promoted := none, issued := true, waited := 0, count := s.warp.count + 1 } } ∧
      (∀ n, t.blockAt n = if n = w.id.block then { s.blockAt n with waitSince := none } else s.blockAt n) ∧
      ∀ die core, t.coreAt die core =
        let c := s.coreAt die core
        if coreKey die core = coreKey w.id.die w.id.core then
          { c with last := tput none c.last w.sched (some (w.id.block, w.id.warp, s.clockOf w)), grace := if c.trapped then c.grace - 1 else c.grace }
        else c) ∧
    (∀ n e, s.turns = .event n :: ts → s.agenda[n]? = some e → step s = exec e { s with turns := ts, agenda := s.agenda.eraseIdx n }) ∧
    (∀ e es, s.inputs = e :: es → (s.turns = .input :: ts → step s = exec e { s with turns := ts, inputs := es }) ∧
      (s.turns = [] → step s = exec e { s with inputs := es }))

/-- Log entry 1: memories and register files keep their canonical form, tables their order, and scoreboard entries their names:
every step from such a state leads to such a state. -/
def Obligations.CanonicalKept : Prop :=
  ∀ s t : State, s.canonical = true → step s = .next t → t.canonical = true

/-- The values that R72, R388, R398, R436, R437 and R457 give for reset. The defaults of R191, R341, R399, R411 and R456 as
values after reset, the zeros of FQFULL, HOSTDROP, LEASELOST and the channels' next numbers, and the canonical state with no
memory listed are the model's choice (log entries 1, 2 and 15). -/
def Obligations.ResetValues : Prop :=
  State.reset.canonical = true ∧ State.reset.mem = [] ∧ State.reset.platform.stage = 1 ∧
  (∀ die : Nat, let d := (State.reset.dieAt die).regs
    d.epoch = 0 ∧ d.dirrecall = 0 ∧ d.dirinval = 0 ∧ d.replfwd = 0 ∧ d.angstall = 0 ∧ d.hbmiss = 0 ∧ d.fqfull = 0 ∧
    d.smpbase = 0 ∧ d.smpctl = 0 ∧ d.smphead = 0 ∧ d.smptail = 0 ∧ d.smplost = 0) ∧
  State.reset.package.next = 0 ∧ State.reset.group.next = 0 ∧
  (∀ link wave : Nat, let l := State.reset.linkAt link
    let x := l.wave wave
    l.thresh = 1000000 ∧ x.rxBits = 0 ∧ x.corrBits = 0 ∧ x.uncorr = 0 ∧ x.retrain = 0 ∧ x.fail = 0) ∧
  (∀ pid : Nat, (State.reset.procAt pid).dbhost = 0 ∧ (State.reset.procAt pid).rotthresh = 100000 ∧
    (State.reset.procAt pid).pltimeout = 100000000) ∧
  State.reset.leasePer = 100000000 ∧ State.reset.hostDrop = 0 ∧ State.reset.leaseLost = 0 ∧
  (∀ n : Nat, (tget Island.reset State.reset.platform.islands n).tlim = 100) ∧
  (∀ island : Nat, tget 0 State.reset.clocks island = 0)
end

