-- ==== Sys2Proof/Laws/Elements.lean ====
section
/-! SUPPORT. Packed elements: an element of a packed register is the one that was put there (R74). -/

namespace Sys2Proof.Machine

/-- `n` fields of `w` bits, lowest first. -/
def fieldsSum (w : Nat) (g : Nat → Nat) (n : Nat) : Nat := (List.range n).foldl (fun acc i => acc + g i <<< (i * w)) 0

theorem fieldsSum_succ (w : Nat) (g : Nat → Nat) (n : Nat) :
    fieldsSum w g (n + 1) = fieldsSum w g n + g n * 2 ^ (n * w) := by
  simp [fieldsSum, List.range_succ, Nat.shiftLeft_eq]

theorem fieldsSum_lt {w : Nat} {g : Nat → Nat} (n : Nat) (h : ∀ k, k < n → g k < 2 ^ w) :
    fieldsSum w g n < 2 ^ (n * w) := by
  induction n with
  | zero => simp [fieldsSum]
  | succ n ih =>
    have h1 := ih fun k hk => h k (by omega)
    have h2 := h n (by omega)
    rw [fieldsSum_succ]
    calc fieldsSum w g n + g n * 2 ^ (n * w) < 2 ^ (n * w) + g n * 2 ^ (n * w) := by omega
      _ = (g n + 1) * 2 ^ (n * w) := by ring
      _ ≤ 2 ^ w * 2 ^ (n * w) := Nat.mul_le_mul_right _ h2
      _ = 2 ^ ((n + 1) * w) := by rw [← pow_add]; ring_nf

theorem fieldsSum_field {w : Nat} {g : Nat → Nat} (n k : Nat) (h : ∀ k, k < n → g k < 2 ^ w) (hk : k < n) :
    (fieldsSum w g n >>> (k * w)) % 2 ^ w = g k := by
  induction n with
  | zero => omega
  | succ n ih =>
    rw [fieldsSum_succ, Nat.shiftRight_eq_div_pow]
    by_cases e : k = n
    · subst e
      rw [Nat.add_mul_div_right _ _ (by positivity), Nat.div_eq_of_lt (fieldsSum_lt k fun j hj => h j (by omega)), zero_add,
        Nat.mod_eq_of_lt (h k hk)]
    · have hkn : k < n := by omega
      have := ih (fun j hj => h j (by omega)) hkn
      rw [Nat.shiftRight_eq_div_pow] at this
      obtain ⟨m, rfl⟩ := Nat.exists_eq_add_of_lt hkn
      have e2 : g (k + m + 1) * 2 ^ ((k + m + 1) * w) = g (k + m + 1) * 2 ^ (m * w) * 2 ^ w * 2 ^ (k * w) := by
        rw [mul_assoc, mul_assoc, ← pow_add, ← pow_add]; congr 2; ring
      rw [e2, Nat.add_mul_div_right _ _ (by positivity), Nat.add_mul_mod_self_right, this]

theorem packElems_eq (t : Nat) (g : Nat → Nat) : packElems t g = fieldsSum (typeWidth t) g (elems t) := rfl

/-- Element `k` of a packed register reads as what was packed there. -/
theorem elt_packElems {t k : Nat} {g : Nat → Nat} (h : ∀ k, g k < 2 ^ typeWidth t) (hk : k < elems t) :
    elt (packElems t g) t k = readAs t (g k) := by
  have := fieldsSum_field (elems t) k (fun j _ => h j) hk
  unfold elt readAs
  rw [packElems_eq]
  simp only [sintOf, this, Nat.mod_eq_of_lt (h k)]

theorem packElems_lt {t : Nat} {g : Nat → Nat} (h : ∀ k, g k < 2 ^ typeWidth t) :
    packElems t g < 2 ^ (elems t * typeWidth t) := fieldsSum_lt _ fun j _ => h j

theorem wrapInt_lt (w : Nat) (z : Int) : wrapInt w z < 2 ^ w := by
  unfold wrapInt
  have h1 : 0 ≤ z % (2 ^ w : Nat) := Int.emod_nonneg _ (by positivity)
  have h2 : z % (2 ^ w : Nat) < (2 ^ w : Nat) := Int.emod_lt_of_pos _ (by positivity)
  omega

/-- A wrapped number is congruent to the exact one. -/
theorem wrapInt_cast (w : Nat) (z : Int) : ((wrapInt w z : Nat) : Int) = z % (2 ^ w : Nat) := by
  unfold wrapInt
  rw [Int.toNat_of_nonneg (Int.emod_nonneg _ (by positivity))]

theorem readAs_wrapInt (t : Nat) (z : Int) : (readAs t (wrapInt (typeWidth t) z) - z) % (2 ^ typeWidth t : Nat) = 0 := by
  have hl := wrapInt_lt (typeWidth t) z
  have hc := wrapInt_cast (typeWidth t) z
  apply Int.emod_eq_zero_of_dvd
  have hd : ((2 ^ typeWidth t : Nat) : Int) ∣ (wrapInt (typeWidth t) z : Int) - z := by
    rw [hc]; exact (Int.dvd_sub_self_of_emod_eq rfl)
  unfold readAs sintOf
  rw [Nat.mod_eq_of_lt hl]
  push_cast at hd ⊢
  split_ifs
  · exact hd
  · have : (wrapInt (typeWidth t) z : Int) - 2 ^ typeWidth t - z = ((wrapInt (typeWidth t) z : Int) - z) - 2 ^ typeWidth t := by ring
    rw [this]; exact dvd_sub hd dvd_rfl
  · exact hd

/-- A number within the type reads back as itself. -/
theorem readAs_of_range {t : Nat} {z : Int} (hw : 0 < typeWidth t) (h1 : typeMin t ≤ z) (h2 : z ≤ typeMax t) :
    readAs t (wrapInt (typeWidth t) z) = z := by
  obtain ⟨m, hm⟩ : ∃ m, typeWidth t = m + 1 := ⟨typeWidth t - 1, by omega⟩
  have hc := wrapInt_cast (typeWidth t) z
  have hl := wrapInt_lt (typeWidth t) z
  unfold typeMin at h1
  unfold typeMax at h2
  unfold readAs sintOf
  rw [Nat.mod_eq_of_lt hl]
  rw [hm] at hc hl h1 h2 ⊢
  obtain ⟨p, hp⟩ : ∃ p : Nat, p = 2 ^ m := ⟨_, rfl⟩
  have hp0 : 0 < p := by rw [hp]; positivity
  have hp1 : (2 ^ (m + 1) : Nat) = 2 * p := by rw [hp, pow_succ]; ring
  have hp2 : (2 : Int) ^ (m + 1) = 2 * (p : Int) := by exact_mod_cast hp1
  simp only [Nat.add_sub_cancel, hp1, hp2, ← hp] at hc hl h1 h2 ⊢
  push_cast at hc h1 h2 ⊢
  by_cases hs : typeSigned t = true
  · simp only [hs, if_true] at h1 h2 ⊢
    by_cases hz : 0 ≤ z
    · rw [Int.emod_eq_of_lt hz (by omega)] at hc
      rw [if_pos (by omega)]; omega
    · have : z % (2 * (p : Int)) = z + 2 * p := by
        rw [← Int.add_emod_right]; exact Int.emod_eq_of_lt (by omega) (by omega)
      rw [this] at hc
      rw [if_neg (by omega)]; omega
  · simp only [hs, Bool.false_eq_true, if_false] at h1 h2 ⊢
    rw [Int.emod_eq_of_lt (by omega) (by omega)] at hc
    exact hc

theorem clamp_range {t : Nat} (z : Int) : typeMin t ≤ clamp z t ∧ clamp z t ≤ typeMax t := by
  have : typeMin t ≤ typeMax t := by
    unfold typeMin typeMax
    have h1 : (0 : Int) < 2 ^ (typeWidth t - 1) := by positivity
    have h2 : (0 : Int) < 2 ^ typeWidth t := by positivity
    split <;> push_cast <;> linarith
  unfold clamp; omega

theorem narrow_lt (t : Nat) (sat : Bool) (z : Int) : narrow t sat z < 2 ^ typeWidth t := wrapInt_lt _ _

/-- Saturated or wrapped (R77): what an element reads as after narrowing. -/
theorem readAs_narrow {t : Nat} (hw : 0 < typeWidth t) (sat : Bool) (z : Int) :
    if sat then readAs t (narrow t sat z) = clamp z t
    else (readAs t (narrow t sat z) - z) % (2 ^ typeWidth t : Nat) = 0 := by
  cases sat
  · simp only [Bool.false_eq_true, if_false, narrow]; exact readAs_wrapInt t z
  · simp only [if_true, narrow]
    exact readAs_of_range hw (clamp_range z).1 (clamp_range z).2

end Sys2Proof.Machine
end

