-- ==== Sys2Proof/Laws/State.lean ====
section
/-! SUPPORT. What each update of the state leaves in each field. -/

namespace Sys2Proof.Machine

section
variable (s : State)

/-! ## modWarp -/

@[simp] theorem State.modWarp_warp (g : Warp → Warp) : (s.modWarp g).warp = g s.warp := rfl
@[simp] theorem State.modWarp_others (g : Warp → Warp) : (s.modWarp g).others = s.others := rfl
@[simp] theorem State.modWarp_blocks (g : Warp → Warp) : (s.modWarp g).blocks = s.blocks := rfl
@[simp] theorem State.modWarp_clusters (g : Warp → Warp) : (s.modWarp g).clusters = s.clusters := rfl
@[simp] theorem State.modWarp_launches (g : Warp → Warp) : (s.modWarp g).launches = s.launches := rfl
@[simp] theorem State.modWarp_admits (g : Warp → Warp) : (s.modWarp g).admits = s.admits := rfl
@[simp] theorem State.modWarp_ops (g : Warp → Warp) : (s.modWarp g).ops = s.ops := rfl
@[simp] theorem State.modWarp_nextOp (g : Warp → Warp) : (s.modWarp g).nextOp = s.nextOp := rfl
@[simp] theorem State.modWarp_cores (g : Warp → Warp) : (s.modWarp g).cores = s.cores := rfl
@[simp] theorem State.modWarp_dies (g : Warp → Warp) : (s.modWarp g).dies = s.dies := rfl
@[simp] theorem State.modWarp_procs (g : Warp → Warp) : (s.modWarp g).procs = s.procs := rfl
@[simp] theorem State.modWarp_placements (g : Warp → Warp) : (s.modWarp g).placements = s.placements := rfl
@[simp] theorem State.modWarp_convs (g : Warp → Warp) : (s.modWarp g).convs = s.convs := rfl
@[simp] theorem State.modWarp_srcMarks (g : Warp → Warp) : (s.modWarp g).srcMarks = s.srcMarks := rfl
@[simp] theorem State.modWarp_dstMarks (g : Warp → Warp) : (s.modWarp g).dstMarks = s.dstMarks := rfl
@[simp] theorem State.modWarp_package (g : Warp → Warp) : (s.modWarp g).package = s.package := rfl
@[simp] theorem State.modWarp_group (g : Warp → Warp) : (s.modWarp g).group = s.group := rfl
@[simp] theorem State.modWarp_gmembers (g : Warp → Warp) : (s.modWarp g).gmembers = s.gmembers := rfl
@[simp] theorem State.modWarp_heard (g : Warp → Warp) : (s.modWarp g).heard = s.heard := rfl
@[simp] theorem State.modWarp_links (g : Warp → Warp) : (s.modWarp g).links = s.links := rfl
@[simp] theorem State.modWarp_planes (g : Warp → Warp) : (s.modWarp g).planes = s.planes := rfl
@[simp] theorem State.modWarp_ranges (g : Warp → Warp) : (s.modWarp g).ranges = s.ranges := rfl
@[simp] theorem State.modWarp_tray (g : Warp → Warp) : (s.modWarp g).tray = s.tray := rfl
@[simp] theorem State.modWarp_holders (g : Warp → Warp) : (s.modWarp g).holders = s.holders := rfl
@[simp] theorem State.modWarp_leases (g : Warp → Warp) : (s.modWarp g).leases = s.leases := rfl
@[simp] theorem State.modWarp_hostDrop (g : Warp → Warp) : (s.modWarp g).hostDrop = s.hostDrop := rfl
@[simp] theorem State.modWarp_leaseLost (g : Warp → Warp) : (s.modWarp g).leaseLost = s.leaseLost := rfl
@[simp] theorem State.modWarp_leasePer (g : Warp → Warp) : (s.modWarp g).leasePer = s.leasePer := rfl
@[simp] theorem State.modWarp_rung (g : Warp → Warp) : (s.modWarp g).rung = s.rung := rfl
@[simp] theorem State.modWarp_mailboxes (g : Warp → Warp) : (s.modWarp g).mailboxes = s.mailboxes := rfl
@[simp] theorem State.modWarp_saved (g : Warp → Warp) : (s.modWarp g).saved = s.saved := rfl
@[simp] theorem State.modWarp_platform (g : Warp → Warp) : (s.modWarp g).platform = s.platform := rfl
@[simp] theorem State.modWarp_sent (g : Warp → Warp) : (s.modWarp g).sent = s.sent := rfl
@[simp] theorem State.modWarp_mem (g : Warp → Warp) : (s.modWarp g).mem = s.mem := rfl
@[simp] theorem State.modWarp_hostMem (g : Warp → Warp) : (s.modWarp g).hostMem = s.hostMem := rfl
@[simp] theorem State.modWarp_peerMem (g : Warp → Warp) : (s.modWarp g).peerMem = s.peerMem := rfl
@[simp] theorem State.modWarp_poison (g : Warp → Warp) : (s.modWarp g).poison = s.poison := rfl
@[simp] theorem State.modWarp_homeLines (g : Warp → Warp) : (s.modWarp g).homeLines = s.homeLines := rfl
@[simp] theorem State.modWarp_dir (g : Warp → Warp) : (s.modWarp g).dir = s.dir := rfl
@[simp] theorem State.modWarp_nextSeq (g : Warp → Warp) : (s.modWarp g).nextSeq = s.nextSeq := rfl
@[simp] theorem State.modWarp_members (g : Warp → Warp) : (s.modWarp g).members = s.members := rfl
@[simp] theorem State.modWarp_device (g : Warp → Warp) : (s.modWarp g).device = s.device := rfl
@[simp] theorem State.modWarp_timer (g : Warp → Warp) : (s.modWarp g).timer = s.timer := rfl
@[simp] theorem State.modWarp_clocks (g : Warp → Warp) : (s.modWarp g).clocks = s.clocks := rfl
@[simp] theorem State.modWarp_free (g : Warp → Warp) : (s.modWarp g).free = s.free := rfl
@[simp] theorem State.modWarp_agenda (g : Warp → Warp) : (s.modWarp g).agenda = s.agenda := rfl
@[simp] theorem State.modWarp_inputs (g : Warp → Warp) : (s.modWarp g).inputs = s.inputs := rfl
@[simp] theorem State.modWarp_turns (g : Warp → Warp) : (s.modWarp g).turns = s.turns := rfl

/-! ## modCore -/

@[simp] theorem State.modCore_warp (die core : Nat) (g : Core → Core) : (s.modCore die core g).warp = s.warp := rfl
@[simp] theorem State.modCore_others (die core : Nat) (g : Core → Core) : (s.modCore die core g).others = s.others := rfl
@[simp] theorem State.modCore_blocks (die core : Nat) (g : Core → Core) : (s.modCore die core g).blocks = s.blocks := rfl
@[simp] theorem State.modCore_clusters (die core : Nat) (g : Core → Core) : (s.modCore die core g).clusters = s.clusters := rfl
@[simp] theorem State.modCore_launches (die core : Nat) (g : Core → Core) : (s.modCore die core g).launches = s.launches := rfl
@[simp] theorem State.modCore_admits (die core : Nat) (g : Core → Core) : (s.modCore die core g).admits = s.admits := rfl
@[simp] theorem State.modCore_ops (die core : Nat) (g : Core → Core) : (s.modCore die core g).ops = s.ops := rfl
@[simp] theorem State.modCore_nextOp (die core : Nat) (g : Core → Core) : (s.modCore die core g).nextOp = s.nextOp := rfl
@[simp] theorem State.modCore_cores (die core : Nat) (g : Core → Core) : (s.modCore die core g).cores = tmod Core.reset s.cores (coreKey die core) g := rfl
@[simp] theorem State.modCore_dies (die core : Nat) (g : Core → Core) : (s.modCore die core g).dies = s.dies := rfl
@[simp] theorem State.modCore_procs (die core : Nat) (g : Core → Core) : (s.modCore die core g).procs = s.procs := rfl
@[simp] theorem State.modCore_placements (die core : Nat) (g : Core → Core) : (s.modCore die core g).placements = s.placements := rfl
@[simp] theorem State.modCore_convs (die core : Nat) (g : Core → Core) : (s.modCore die core g).convs = s.convs := rfl
@[simp] theorem State.modCore_srcMarks (die core : Nat) (g : Core → Core) : (s.modCore die core g).srcMarks = s.srcMarks := rfl
@[simp] theorem State.modCore_dstMarks (die core : Nat) (g : Core → Core) : (s.modCore die core g).dstMarks = s.dstMarks := rfl
@[simp] theorem State.modCore_package (die core : Nat) (g : Core → Core) : (s.modCore die core g).package = s.package := rfl
@[simp] theorem State.modCore_group (die core : Nat) (g : Core → Core) : (s.modCore die core g).group = s.group := rfl
@[simp] theorem State.modCore_gmembers (die core : Nat) (g : Core → Core) : (s.modCore die core g).gmembers = s.gmembers := rfl
@[simp] theorem State.modCore_heard (die core : Nat) (g : Core → Core) : (s.modCore die core g).heard = s.heard := rfl
@[simp] theorem State.modCore_links (die core : Nat) (g : Core → Core) : (s.modCore die core g).links = s.links := rfl
@[simp] theorem State.modCore_planes (die core : Nat) (g : Core → Core) : (s.modCore die core g).planes = s.planes := rfl
@[simp] theorem State.modCore_ranges (die core : Nat) (g : Core → Core) : (s.modCore die core g).ranges = s.ranges := rfl
@[simp] theorem State.modCore_tray (die core : Nat) (g : Core → Core) : (s.modCore die core g).tray = s.tray := rfl
@[simp] theorem State.modCore_holders (die core : Nat) (g : Core → Core) : (s.modCore die core g).holders = s.holders := rfl
@[simp] theorem State.modCore_leases (die core : Nat) (g : Core → Core) : (s.modCore die core g).leases = s.leases := rfl
@[simp] theorem State.modCore_hostDrop (die core : Nat) (g : Core → Core) : (s.modCore die core g).hostDrop = s.hostDrop := rfl
@[simp] theorem State.modCore_leaseLost (die core : Nat) (g : Core → Core) : (s.modCore die core g).leaseLost = s.leaseLost := rfl
@[simp] theorem State.modCore_leasePer (die core : Nat) (g : Core → Core) : (s.modCore die core g).leasePer = s.leasePer := rfl
@[simp] theorem State.modCore_rung (die core : Nat) (g : Core → Core) : (s.modCore die core g).rung = s.rung := rfl
@[simp] theorem State.modCore_mailboxes (die core : Nat) (g : Core → Core) : (s.modCore die core g).mailboxes = s.mailboxes := rfl
@[simp] theorem State.modCore_saved (die core : Nat) (g : Core → Core) : (s.modCore die core g).saved = s.saved := rfl
@[simp] theorem State.modCore_platform (die core : Nat) (g : Core → Core) : (s.modCore die core g).platform = s.platform := rfl
@[simp] theorem State.modCore_sent (die core : Nat) (g : Core → Core) : (s.modCore die core g).sent = s.sent := rfl
@[simp] theorem State.modCore_mem (die core : Nat) (g : Core → Core) : (s.modCore die core g).mem = s.mem := rfl
@[simp] theorem State.modCore_hostMem (die core : Nat) (g : Core → Core) : (s.modCore die core g).hostMem = s.hostMem := rfl
@[simp] theorem State.modCore_peerMem (die core : Nat) (g : Core → Core) : (s.modCore die core g).peerMem = s.peerMem := rfl
@[simp] theorem State.modCore_poison (die core : Nat) (g : Core → Core) : (s.modCore die core g).poison = s.poison := rfl
@[simp] theorem State.modCore_homeLines (die core : Nat) (g : Core → Core) : (s.modCore die core g).homeLines = s.homeLines := rfl
@[simp] theorem State.modCore_dir (die core : Nat) (g : Core → Core) : (s.modCore die core g).dir = s.dir := rfl
@[simp] theorem State.modCore_nextSeq (die core : Nat) (g : Core → Core) : (s.modCore die core g).nextSeq = s.nextSeq := rfl
@[simp] theorem State.modCore_members (die core : Nat) (g : Core → Core) : (s.modCore die core g).members = s.members := rfl
@[simp] theorem State.modCore_device (die core : Nat) (g : Core → Core) : (s.modCore die core g).device = s.device := rfl
@[simp] theorem State.modCore_timer (die core : Nat) (g : Core → Core) : (s.modCore die core g).timer = s.timer := rfl
@[simp] theorem State.modCore_clocks (die core : Nat) (g : Core → Core) : (s.modCore die core g).clocks = s.clocks := rfl
@[simp] theorem State.modCore_free (die core : Nat) (g : Core → Core) : (s.modCore die core g).free = s.free := rfl
@[simp] theorem State.modCore_agenda (die core : Nat) (g : Core → Core) : (s.modCore die core g).agenda = s.agenda := rfl
@[simp] theorem State.modCore_inputs (die core : Nat) (g : Core → Core) : (s.modCore die core g).inputs = s.inputs := rfl
@[simp] theorem State.modCore_turns (die core : Nat) (g : Core → Core) : (s.modCore die core g).turns = s.turns := rfl

/-! ## modDie -/

@[simp] theorem State.modDie_warp (die : Nat) (g : Die → Die) : (s.modDie die g).warp = s.warp := rfl
@[simp] theorem State.modDie_others (die : Nat) (g : Die → Die) : (s.modDie die g).others = s.others := rfl
@[simp] theorem State.modDie_blocks (die : Nat) (g : Die → Die) : (s.modDie die g).blocks = s.blocks := rfl
@[simp] theorem State.modDie_clusters (die : Nat) (g : Die → Die) : (s.modDie die g).clusters = s.clusters := rfl
@[simp] theorem State.modDie_launches (die : Nat) (g : Die → Die) : (s.modDie die g).launches = s.launches := rfl
@[simp] theorem State.modDie_admits (die : Nat) (g : Die → Die) : (s.modDie die g).admits = s.admits := rfl
@[simp] theorem State.modDie_ops (die : Nat) (g : Die → Die) : (s.modDie die g).ops = s.ops := rfl
@[simp] theorem State.modDie_nextOp (die : Nat) (g : Die → Die) : (s.modDie die g).nextOp = s.nextOp := rfl
@[simp] theorem State.modDie_cores (die : Nat) (g : Die → Die) : (s.modDie die g).cores = s.cores := rfl
@[simp] theorem State.modDie_dies (die : Nat) (g : Die → Die) : (s.modDie die g).dies = tmod Die.reset s.dies die g := rfl
@[simp] theorem State.modDie_procs (die : Nat) (g : Die → Die) : (s.modDie die g).procs = s.procs := rfl
@[simp] theorem State.modDie_placements (die : Nat) (g : Die → Die) : (s.modDie die g).placements = s.placements := rfl
@[simp] theorem State.modDie_convs (die : Nat) (g : Die → Die) : (s.modDie die g).convs = s.convs := rfl
@[simp] theorem State.modDie_srcMarks (die : Nat) (g : Die → Die) : (s.modDie die g).srcMarks = s.srcMarks := rfl
@[simp] theorem State.modDie_dstMarks (die : Nat) (g : Die → Die) : (s.modDie die g).dstMarks = s.dstMarks := rfl
@[simp] theorem State.modDie_package (die : Nat) (g : Die → Die) : (s.modDie die g).package = s.package := rfl
@[simp] theorem State.modDie_group (die : Nat) (g : Die → Die) : (s.modDie die g).group = s.group := rfl
@[simp] theorem State.modDie_gmembers (die : Nat) (g : Die → Die) : (s.modDie die g).gmembers = s.gmembers := rfl
@[simp] theorem State.modDie_heard (die : Nat) (g : Die → Die) : (s.modDie die g).heard = s.heard := rfl
@[simp] theorem State.modDie_links (die : Nat) (g : Die → Die) : (s.modDie die g).links = s.links := rfl
@[simp] theorem State.modDie_planes (die : Nat) (g : Die → Die) : (s.modDie die g).planes = s.planes := rfl
@[simp] theorem State.modDie_ranges (die : Nat) (g : Die → Die) : (s.modDie die g).ranges = s.ranges := rfl
@[simp] theorem State.modDie_tray (die : Nat) (g : Die → Die) : (s.modDie die g).tray = s.tray := rfl
@[simp] theorem State.modDie_holders (die : Nat) (g : Die → Die) : (s.modDie die g).holders = s.holders := rfl
@[simp] theorem State.modDie_leases (die : Nat) (g : Die → Die) : (s.modDie die g).leases = s.leases := rfl
@[simp] theorem State.modDie_hostDrop (die : Nat) (g : Die → Die) : (s.modDie die g).hostDrop = s.hostDrop := rfl
@[simp] theorem State.modDie_leaseLost (die : Nat) (g : Die → Die) : (s.modDie die g).leaseLost = s.leaseLost := rfl
@[simp] theorem State.modDie_leasePer (die : Nat) (g : Die → Die) : (s.modDie die g).leasePer = s.leasePer := rfl
@[simp] theorem State.modDie_rung (die : Nat) (g : Die → Die) : (s.modDie die g).rung = s.rung := rfl
@[simp] theorem State.modDie_mailboxes (die : Nat) (g : Die → Die) : (s.modDie die g).mailboxes = s.mailboxes := rfl
@[simp] theorem State.modDie_saved (die : Nat) (g : Die → Die) : (s.modDie die g).saved = s.saved := rfl
@[simp] theorem State.modDie_platform (die : Nat) (g : Die → Die) : (s.modDie die g).platform = s.platform := rfl
@[simp] theorem State.modDie_sent (die : Nat) (g : Die → Die) : (s.modDie die g).sent = s.sent := rfl
@[simp] theorem State.modDie_mem (die : Nat) (g : Die → Die) : (s.modDie die g).mem = s.mem := rfl
@[simp] theorem State.modDie_hostMem (die : Nat) (g : Die → Die) : (s.modDie die g).hostMem = s.hostMem := rfl
@[simp] theorem State.modDie_peerMem (die : Nat) (g : Die → Die) : (s.modDie die g).peerMem = s.peerMem := rfl
@[simp] theorem State.modDie_poison (die : Nat) (g : Die → Die) : (s.modDie die g).poison = s.poison := rfl
@[simp] theorem State.modDie_homeLines (die : Nat) (g : Die → Die) : (s.modDie die g).homeLines = s.homeLines := rfl
@[simp] theorem State.modDie_dir (die : Nat) (g : Die → Die) : (s.modDie die g).dir = s.dir := rfl
@[simp] theorem State.modDie_nextSeq (die : Nat) (g : Die → Die) : (s.modDie die g).nextSeq = s.nextSeq := rfl
@[simp] theorem State.modDie_members (die : Nat) (g : Die → Die) : (s.modDie die g).members = s.members := rfl
@[simp] theorem State.modDie_device (die : Nat) (g : Die → Die) : (s.modDie die g).device = s.device := rfl
@[simp] theorem State.modDie_timer (die : Nat) (g : Die → Die) : (s.modDie die g).timer = s.timer := rfl
@[simp] theorem State.modDie_clocks (die : Nat) (g : Die → Die) : (s.modDie die g).clocks = s.clocks := rfl
@[simp] theorem State.modDie_free (die : Nat) (g : Die → Die) : (s.modDie die g).free = s.free := rfl
@[simp] theorem State.modDie_agenda (die : Nat) (g : Die → Die) : (s.modDie die g).agenda = s.agenda := rfl
@[simp] theorem State.modDie_inputs (die : Nat) (g : Die → Die) : (s.modDie die g).inputs = s.inputs := rfl
@[simp] theorem State.modDie_turns (die : Nat) (g : Die → Die) : (s.modDie die g).turns = s.turns := rfl

/-! ## modBlock -/

@[simp] theorem State.modBlock_warp (b : Nat) (g : Block → Block) : (s.modBlock b g).warp = s.warp := rfl
@[simp] theorem State.modBlock_others (b : Nat) (g : Block → Block) : (s.modBlock b g).others = s.others := rfl
@[simp] theorem State.modBlock_blocks (b : Nat) (g : Block → Block) : (s.modBlock b g).blocks = tmod Block.none s.blocks b g := rfl
@[simp] theorem State.modBlock_clusters (b : Nat) (g : Block → Block) : (s.modBlock b g).clusters = s.clusters := rfl
@[simp] theorem State.modBlock_launches (b : Nat) (g : Block → Block) : (s.modBlock b g).launches = s.launches := rfl
@[simp] theorem State.modBlock_admits (b : Nat) (g : Block → Block) : (s.modBlock b g).admits = s.admits := rfl
@[simp] theorem State.modBlock_ops (b : Nat) (g : Block → Block) : (s.modBlock b g).ops = s.ops := rfl
@[simp] theorem State.modBlock_nextOp (b : Nat) (g : Block → Block) : (s.modBlock b g).nextOp = s.nextOp := rfl
@[simp] theorem State.modBlock_cores (b : Nat) (g : Block → Block) : (s.modBlock b g).cores = s.cores := rfl
@[simp] theorem State.modBlock_dies (b : Nat) (g : Block → Block) : (s.modBlock b g).dies = s.dies := rfl
@[simp] theorem State.modBlock_procs (b : Nat) (g : Block → Block) : (s.modBlock b g).procs = s.procs := rfl
@[simp] theorem State.modBlock_placements (b : Nat) (g : Block → Block) : (s.modBlock b g).placements = s.placements := rfl
@[simp] theorem State.modBlock_convs (b : Nat) (g : Block → Block) : (s.modBlock b g).convs = s.convs := rfl
@[simp] theorem State.modBlock_srcMarks (b : Nat) (g : Block → Block) : (s.modBlock b g).srcMarks = s.srcMarks := rfl
@[simp] theorem State.modBlock_dstMarks (b : Nat) (g : Block → Block) : (s.modBlock b g).dstMarks = s.dstMarks := rfl
@[simp] theorem State.modBlock_package (b : Nat) (g : Block → Block) : (s.modBlock b g).package = s.package := rfl
@[simp] theorem State.modBlock_group (b : Nat) (g : Block → Block) : (s.modBlock b g).group = s.group := rfl
@[simp] theorem State.modBlock_gmembers (b : Nat) (g : Block → Block) : (s.modBlock b g).gmembers = s.gmembers := rfl
@[simp] theorem State.modBlock_heard (b : Nat) (g : Block → Block) : (s.modBlock b g).heard = s.heard := rfl
@[simp] theorem State.modBlock_links (b : Nat) (g : Block → Block) : (s.modBlock b g).links = s.links := rfl
@[simp] theorem State.modBlock_planes (b : Nat) (g : Block → Block) : (s.modBlock b g).planes = s.planes := rfl
@[simp] theorem State.modBlock_ranges (b : Nat) (g : Block → Block) : (s.modBlock b g).ranges = s.ranges := rfl
@[simp] theorem State.modBlock_tray (b : Nat) (g : Block → Block) : (s.modBlock b g).tray = s.tray := rfl
@[simp] theorem State.modBlock_holders (b : Nat) (g : Block → Block) : (s.modBlock b g).holders = s.holders := rfl
@[simp] theorem State.modBlock_leases (b : Nat) (g : Block → Block) : (s.modBlock b g).leases = s.leases := rfl
@[simp] theorem State.modBlock_hostDrop (b : Nat) (g : Block → Block) : (s.modBlock b g).hostDrop = s.hostDrop := rfl
@[simp] theorem State.modBlock_leaseLost (b : Nat) (g : Block → Block) : (s.modBlock b g).leaseLost = s.leaseLost := rfl
@[simp] theorem State.modBlock_leasePer (b : Nat) (g : Block → Block) : (s.modBlock b g).leasePer = s.leasePer := rfl
@[simp] theorem State.modBlock_rung (b : Nat) (g : Block → Block) : (s.modBlock b g).rung = s.rung := rfl
@[simp] theorem State.modBlock_mailboxes (b : Nat) (g : Block → Block) : (s.modBlock b g).mailboxes = s.mailboxes := rfl
@[simp] theorem State.modBlock_saved (b : Nat) (g : Block → Block) : (s.modBlock b g).saved = s.saved := rfl
@[simp] theorem State.modBlock_platform (b : Nat) (g : Block → Block) : (s.modBlock b g).platform = s.platform := rfl
@[simp] theorem State.modBlock_sent (b : Nat) (g : Block → Block) : (s.modBlock b g).sent = s.sent := rfl
@[simp] theorem State.modBlock_mem (b : Nat) (g : Block → Block) : (s.modBlock b g).mem = s.mem := rfl
@[simp] theorem State.modBlock_hostMem (b : Nat) (g : Block → Block) : (s.modBlock b g).hostMem = s.hostMem := rfl
@[simp] theorem State.modBlock_peerMem (b : Nat) (g : Block → Block) : (s.modBlock b g).peerMem = s.peerMem := rfl
@[simp] theorem State.modBlock_poison (b : Nat) (g : Block → Block) : (s.modBlock b g).poison = s.poison := rfl
@[simp] theorem State.modBlock_homeLines (b : Nat) (g : Block → Block) : (s.modBlock b g).homeLines = s.homeLines := rfl
@[simp] theorem State.modBlock_dir (b : Nat) (g : Block → Block) : (s.modBlock b g).dir = s.dir := rfl
@[simp] theorem State.modBlock_nextSeq (b : Nat) (g : Block → Block) : (s.modBlock b g).nextSeq = s.nextSeq := rfl
@[simp] theorem State.modBlock_members (b : Nat) (g : Block → Block) : (s.modBlock b g).members = s.members := rfl
@[simp] theorem State.modBlock_device (b : Nat) (g : Block → Block) : (s.modBlock b g).device = s.device := rfl
@[simp] theorem State.modBlock_timer (b : Nat) (g : Block → Block) : (s.modBlock b g).timer = s.timer := rfl
@[simp] theorem State.modBlock_clocks (b : Nat) (g : Block → Block) : (s.modBlock b g).clocks = s.clocks := rfl
@[simp] theorem State.modBlock_free (b : Nat) (g : Block → Block) : (s.modBlock b g).free = s.free := rfl
@[simp] theorem State.modBlock_agenda (b : Nat) (g : Block → Block) : (s.modBlock b g).agenda = s.agenda := rfl
@[simp] theorem State.modBlock_inputs (b : Nat) (g : Block → Block) : (s.modBlock b g).inputs = s.inputs := rfl
@[simp] theorem State.modBlock_turns (b : Nat) (g : Block → Block) : (s.modBlock b g).turns = s.turns := rfl

/-! ## modLaunch -/

@[simp] theorem State.modLaunch_warp (p n : Nat) (g : Launch → Launch) : (s.modLaunch p n g).warp = s.warp := rfl
@[simp] theorem State.modLaunch_others (p n : Nat) (g : Launch → Launch) : (s.modLaunch p n g).others = s.others := rfl
@[simp] theorem State.modLaunch_blocks (p n : Nat) (g : Launch → Launch) : (s.modLaunch p n g).blocks = s.blocks := rfl
@[simp] theorem State.modLaunch_clusters (p n : Nat) (g : Launch → Launch) : (s.modLaunch p n g).clusters = s.clusters := rfl
@[simp] theorem State.modLaunch_launches (p n : Nat) (g : Launch → Launch) : (s.modLaunch p n g).launches = tmod Launch.none s.launches (launchKey p n) g := rfl
@[simp] theorem State.modLaunch_admits (p n : Nat) (g : Launch → Launch) : (s.modLaunch p n g).admits = s.admits := rfl
@[simp] theorem State.modLaunch_ops (p n : Nat) (g : Launch → Launch) : (s.modLaunch p n g).ops = s.ops := rfl
@[simp] theorem State.modLaunch_nextOp (p n : Nat) (g : Launch → Launch) : (s.modLaunch p n g).nextOp = s.nextOp := rfl
@[simp] theorem State.modLaunch_cores (p n : Nat) (g : Launch → Launch) : (s.modLaunch p n g).cores = s.cores := rfl
@[simp] theorem State.modLaunch_dies (p n : Nat) (g : Launch → Launch) : (s.modLaunch p n g).dies = s.dies := rfl
@[simp] theorem State.modLaunch_procs (p n : Nat) (g : Launch → Launch) : (s.modLaunch p n g).procs = s.procs := rfl
@[simp] theorem State.modLaunch_placements (p n : Nat) (g : Launch → Launch) : (s.modLaunch p n g).placements = s.placements := rfl
@[simp] theorem State.modLaunch_convs (p n : Nat) (g : Launch → Launch) : (s.modLaunch p n g).convs = s.convs := rfl
@[simp] theorem State.modLaunch_srcMarks (p n : Nat) (g : Launch → Launch) : (s.modLaunch p n g).srcMarks = s.srcMarks := rfl
@[simp] theorem State.modLaunch_dstMarks (p n : Nat) (g : Launch → Launch) : (s.modLaunch p n g).dstMarks = s.dstMarks := rfl
@[simp] theorem State.modLaunch_package (p n : Nat) (g : Launch → Launch) : (s.modLaunch p n g).package = s.package := rfl
@[simp] theorem State.modLaunch_group (p n : Nat) (g : Launch → Launch) : (s.modLaunch p n g).group = s.group := rfl
@[simp] theorem State.modLaunch_gmembers (p n : Nat) (g : Launch → Launch) : (s.modLaunch p n g).gmembers = s.gmembers := rfl
@[simp] theorem State.modLaunch_heard (p n : Nat) (g : Launch → Launch) : (s.modLaunch p n g).heard = s.heard := rfl
@[simp] theorem State.modLaunch_links (p n : Nat) (g : Launch → Launch) : (s.modLaunch p n g).links = s.links := rfl
@[simp] theorem State.modLaunch_planes (p n : Nat) (g : Launch → Launch) : (s.modLaunch p n g).planes = s.planes := rfl
@[simp] theorem State.modLaunch_ranges (p n : Nat) (g : Launch → Launch) : (s.modLaunch p n g).ranges = s.ranges := rfl
@[simp] theorem State.modLaunch_tray (p n : Nat) (g : Launch → Launch) : (s.modLaunch p n g).tray = s.tray := rfl
@[simp] theorem State.modLaunch_holders (p n : Nat) (g : Launch → Launch) : (s.modLaunch p n g).holders = s.holders := rfl
@[simp] theorem State.modLaunch_leases (p n : Nat) (g : Launch → Launch) : (s.modLaunch p n g).leases = s.leases := rfl
@[simp] theorem State.modLaunch_hostDrop (p n : Nat) (g : Launch → Launch) : (s.modLaunch p n g).hostDrop = s.hostDrop := rfl
@[simp] theorem State.modLaunch_leaseLost (p n : Nat) (g : Launch → Launch) : (s.modLaunch p n g).leaseLost = s.leaseLost := rfl
@[simp] theorem State.modLaunch_leasePer (p n : Nat) (g : Launch → Launch) : (s.modLaunch p n g).leasePer = s.leasePer := rfl
@[simp] theorem State.modLaunch_rung (p n : Nat) (g : Launch → Launch) : (s.modLaunch p n g).rung = s.rung := rfl
@[simp] theorem State.modLaunch_mailboxes (p n : Nat) (g : Launch → Launch) : (s.modLaunch p n g).mailboxes = s.mailboxes := rfl
@[simp] theorem State.modLaunch_saved (p n : Nat) (g : Launch → Launch) : (s.modLaunch p n g).saved = s.saved := rfl
@[simp] theorem State.modLaunch_platform (p n : Nat) (g : Launch → Launch) : (s.modLaunch p n g).platform = s.platform := rfl
@[simp] theorem State.modLaunch_sent (p n : Nat) (g : Launch → Launch) : (s.modLaunch p n g).sent = s.sent := rfl
@[simp] theorem State.modLaunch_mem (p n : Nat) (g : Launch → Launch) : (s.modLaunch p n g).mem = s.mem := rfl
@[simp] theorem State.modLaunch_hostMem (p n : Nat) (g : Launch → Launch) : (s.modLaunch p n g).hostMem = s.hostMem := rfl
@[simp] theorem State.modLaunch_peerMem (p n : Nat) (g : Launch → Launch) : (s.modLaunch p n g).peerMem = s.peerMem := rfl
@[simp] theorem State.modLaunch_poison (p n : Nat) (g : Launch → Launch) : (s.modLaunch p n g).poison = s.poison := rfl
@[simp] theorem State.modLaunch_homeLines (p n : Nat) (g : Launch → Launch) : (s.modLaunch p n g).homeLines = s.homeLines := rfl
@[simp] theorem State.modLaunch_dir (p n : Nat) (g : Launch → Launch) : (s.modLaunch p n g).dir = s.dir := rfl
@[simp] theorem State.modLaunch_nextSeq (p n : Nat) (g : Launch → Launch) : (s.modLaunch p n g).nextSeq = s.nextSeq := rfl
@[simp] theorem State.modLaunch_members (p n : Nat) (g : Launch → Launch) : (s.modLaunch p n g).members = s.members := rfl
@[simp] theorem State.modLaunch_device (p n : Nat) (g : Launch → Launch) : (s.modLaunch p n g).device = s.device := rfl
@[simp] theorem State.modLaunch_timer (p n : Nat) (g : Launch → Launch) : (s.modLaunch p n g).timer = s.timer := rfl
@[simp] theorem State.modLaunch_clocks (p n : Nat) (g : Launch → Launch) : (s.modLaunch p n g).clocks = s.clocks := rfl
@[simp] theorem State.modLaunch_free (p n : Nat) (g : Launch → Launch) : (s.modLaunch p n g).free = s.free := rfl
@[simp] theorem State.modLaunch_agenda (p n : Nat) (g : Launch → Launch) : (s.modLaunch p n g).agenda = s.agenda := rfl
@[simp] theorem State.modLaunch_inputs (p n : Nat) (g : Launch → Launch) : (s.modLaunch p n g).inputs = s.inputs := rfl
@[simp] theorem State.modLaunch_turns (p n : Nat) (g : Launch → Launch) : (s.modLaunch p n g).turns = s.turns := rfl

/-! ## post -/

@[simp] theorem State.post_warp (e : Instr) : (s.post e).warp = s.warp := rfl
@[simp] theorem State.post_others (e : Instr) : (s.post e).others = s.others := rfl
@[simp] theorem State.post_blocks (e : Instr) : (s.post e).blocks = s.blocks := rfl
@[simp] theorem State.post_clusters (e : Instr) : (s.post e).clusters = s.clusters := rfl
@[simp] theorem State.post_launches (e : Instr) : (s.post e).launches = s.launches := rfl
@[simp] theorem State.post_admits (e : Instr) : (s.post e).admits = s.admits := rfl
@[simp] theorem State.post_ops (e : Instr) : (s.post e).ops = s.ops := rfl
@[simp] theorem State.post_nextOp (e : Instr) : (s.post e).nextOp = s.nextOp := rfl
@[simp] theorem State.post_cores (e : Instr) : (s.post e).cores = s.cores := rfl
@[simp] theorem State.post_dies (e : Instr) : (s.post e).dies = s.dies := rfl
@[simp] theorem State.post_procs (e : Instr) : (s.post e).procs = s.procs := rfl
@[simp] theorem State.post_placements (e : Instr) : (s.post e).placements = s.placements := rfl
@[simp] theorem State.post_convs (e : Instr) : (s.post e).convs = s.convs := rfl
@[simp] theorem State.post_srcMarks (e : Instr) : (s.post e).srcMarks = s.srcMarks := rfl
@[simp] theorem State.post_dstMarks (e : Instr) : (s.post e).dstMarks = s.dstMarks := rfl
@[simp] theorem State.post_package (e : Instr) : (s.post e).package = s.package := rfl
@[simp] theorem State.post_group (e : Instr) : (s.post e).group = s.group := rfl
@[simp] theorem State.post_gmembers (e : Instr) : (s.post e).gmembers = s.gmembers := rfl
@[simp] theorem State.post_heard (e : Instr) : (s.post e).heard = s.heard := rfl
@[simp] theorem State.post_links (e : Instr) : (s.post e).links = s.links := rfl
@[simp] theorem State.post_planes (e : Instr) : (s.post e).planes = s.planes := rfl
@[simp] theorem State.post_ranges (e : Instr) : (s.post e).ranges = s.ranges := rfl
@[simp] theorem State.post_tray (e : Instr) : (s.post e).tray = s.tray := rfl
@[simp] theorem State.post_holders (e : Instr) : (s.post e).holders = s.holders := rfl
@[simp] theorem State.post_leases (e : Instr) : (s.post e).leases = s.leases := rfl
@[simp] theorem State.post_hostDrop (e : Instr) : (s.post e).hostDrop = s.hostDrop := rfl
@[simp] theorem State.post_leaseLost (e : Instr) : (s.post e).leaseLost = s.leaseLost := rfl
@[simp] theorem State.post_leasePer (e : Instr) : (s.post e).leasePer = s.leasePer := rfl
@[simp] theorem State.post_rung (e : Instr) : (s.post e).rung = s.rung := rfl
@[simp] theorem State.post_mailboxes (e : Instr) : (s.post e).mailboxes = s.mailboxes := rfl
@[simp] theorem State.post_saved (e : Instr) : (s.post e).saved = s.saved := rfl
@[simp] theorem State.post_platform (e : Instr) : (s.post e).platform = s.platform := rfl
@[simp] theorem State.post_sent (e : Instr) : (s.post e).sent = s.sent := rfl
@[simp] theorem State.post_mem (e : Instr) : (s.post e).mem = s.mem := rfl
@[simp] theorem State.post_hostMem (e : Instr) : (s.post e).hostMem = s.hostMem := rfl
@[simp] theorem State.post_peerMem (e : Instr) : (s.post e).peerMem = s.peerMem := rfl
@[simp] theorem State.post_poison (e : Instr) : (s.post e).poison = s.poison := rfl
@[simp] theorem State.post_homeLines (e : Instr) : (s.post e).homeLines = s.homeLines := rfl
@[simp] theorem State.post_dir (e : Instr) : (s.post e).dir = s.dir := rfl
@[simp] theorem State.post_nextSeq (e : Instr) : (s.post e).nextSeq = s.nextSeq := rfl
@[simp] theorem State.post_members (e : Instr) : (s.post e).members = s.members := rfl
@[simp] theorem State.post_device (e : Instr) : (s.post e).device = s.device := rfl
@[simp] theorem State.post_timer (e : Instr) : (s.post e).timer = s.timer := rfl
@[simp] theorem State.post_clocks (e : Instr) : (s.post e).clocks = s.clocks := rfl
@[simp] theorem State.post_free (e : Instr) : (s.post e).free = s.free := rfl
@[simp] theorem State.post_agenda (e : Instr) : (s.post e).agenda = s.agenda ++ [e] := rfl
@[simp] theorem State.post_inputs (e : Instr) : (s.post e).inputs = s.inputs := rfl
@[simp] theorem State.post_turns (e : Instr) : (s.post e).turns = s.turns := rfl

/-! ## writeRegs -/

@[simp] theorem State.writeRegs_warp (rs : List RegWrite) : (s.writeRegs rs).warp = (lastWrites rs).foldl (Warp.writeShort s.free) s.warp := rfl
@[simp] theorem State.writeRegs_others (rs : List RegWrite) : (s.writeRegs rs).others = s.others := rfl
@[simp] theorem State.writeRegs_blocks (rs : List RegWrite) : (s.writeRegs rs).blocks = s.blocks := rfl
@[simp] theorem State.writeRegs_clusters (rs : List RegWrite) : (s.writeRegs rs).clusters = s.clusters := rfl
@[simp] theorem State.writeRegs_launches (rs : List RegWrite) : (s.writeRegs rs).launches = s.launches := rfl
@[simp] theorem State.writeRegs_admits (rs : List RegWrite) : (s.writeRegs rs).admits = s.admits := rfl
@[simp] theorem State.writeRegs_ops (rs : List RegWrite) : (s.writeRegs rs).ops = s.ops := rfl
@[simp] theorem State.writeRegs_nextOp (rs : List RegWrite) : (s.writeRegs rs).nextOp = s.nextOp := rfl
@[simp] theorem State.writeRegs_cores (rs : List RegWrite) : (s.writeRegs rs).cores = s.cores := rfl
@[simp] theorem State.writeRegs_dies (rs : List RegWrite) : (s.writeRegs rs).dies = s.dies := rfl
@[simp] theorem State.writeRegs_procs (rs : List RegWrite) : (s.writeRegs rs).procs = s.procs := rfl
@[simp] theorem State.writeRegs_placements (rs : List RegWrite) : (s.writeRegs rs).placements = s.placements := rfl
@[simp] theorem State.writeRegs_convs (rs : List RegWrite) : (s.writeRegs rs).convs = s.convs := rfl
@[simp] theorem State.writeRegs_srcMarks (rs : List RegWrite) : (s.writeRegs rs).srcMarks = s.srcMarks := rfl
@[simp] theorem State.writeRegs_dstMarks (rs : List RegWrite) : (s.writeRegs rs).dstMarks = s.dstMarks := rfl
@[simp] theorem State.writeRegs_package (rs : List RegWrite) : (s.writeRegs rs).package = s.package := rfl
@[simp] theorem State.writeRegs_group (rs : List RegWrite) : (s.writeRegs rs).group = s.group := rfl
@[simp] theorem State.writeRegs_gmembers (rs : List RegWrite) : (s.writeRegs rs).gmembers = s.gmembers := rfl
@[simp] theorem State.writeRegs_heard (rs : List RegWrite) : (s.writeRegs rs).heard = s.heard := rfl
@[simp] theorem State.writeRegs_links (rs : List RegWrite) : (s.writeRegs rs).links = s.links := rfl
@[simp] theorem State.writeRegs_planes (rs : List RegWrite) : (s.writeRegs rs).planes = s.planes := rfl
@[simp] theorem State.writeRegs_ranges (rs : List RegWrite) : (s.writeRegs rs).ranges = s.ranges := rfl
@[simp] theorem State.writeRegs_tray (rs : List RegWrite) : (s.writeRegs rs).tray = s.tray := rfl
@[simp] theorem State.writeRegs_holders (rs : List RegWrite) : (s.writeRegs rs).holders = s.holders := rfl
@[simp] theorem State.writeRegs_leases (rs : List RegWrite) : (s.writeRegs rs).leases = s.leases := rfl
@[simp] theorem State.writeRegs_hostDrop (rs : List RegWrite) : (s.writeRegs rs).hostDrop = s.hostDrop := rfl
@[simp] theorem State.writeRegs_leaseLost (rs : List RegWrite) : (s.writeRegs rs).leaseLost = s.leaseLost := rfl
@[simp] theorem State.writeRegs_leasePer (rs : List RegWrite) : (s.writeRegs rs).leasePer = s.leasePer := rfl
@[simp] theorem State.writeRegs_rung (rs : List RegWrite) : (s.writeRegs rs).rung = s.rung := rfl
@[simp] theorem State.writeRegs_mailboxes (rs : List RegWrite) : (s.writeRegs rs).mailboxes = s.mailboxes := rfl
@[simp] theorem State.writeRegs_saved (rs : List RegWrite) : (s.writeRegs rs).saved = s.saved := rfl
@[simp] theorem State.writeRegs_platform (rs : List RegWrite) : (s.writeRegs rs).platform = s.platform := rfl
@[simp] theorem State.writeRegs_sent (rs : List RegWrite) : (s.writeRegs rs).sent = s.sent := rfl
@[simp] theorem State.writeRegs_mem (rs : List RegWrite) : (s.writeRegs rs).mem = s.mem := rfl
@[simp] theorem State.writeRegs_hostMem (rs : List RegWrite) : (s.writeRegs rs).hostMem = s.hostMem := rfl
@[simp] theorem State.writeRegs_peerMem (rs : List RegWrite) : (s.writeRegs rs).peerMem = s.peerMem := rfl
@[simp] theorem State.writeRegs_poison (rs : List RegWrite) : (s.writeRegs rs).poison = s.poison := rfl
@[simp] theorem State.writeRegs_homeLines (rs : List RegWrite) : (s.writeRegs rs).homeLines = s.homeLines := rfl
@[simp] theorem State.writeRegs_dir (rs : List RegWrite) : (s.writeRegs rs).dir = s.dir := rfl
@[simp] theorem State.writeRegs_nextSeq (rs : List RegWrite) : (s.writeRegs rs).nextSeq = s.nextSeq := rfl
@[simp] theorem State.writeRegs_members (rs : List RegWrite) : (s.writeRegs rs).members = s.members := rfl
@[simp] theorem State.writeRegs_device (rs : List RegWrite) : (s.writeRegs rs).device = s.device := rfl
@[simp] theorem State.writeRegs_timer (rs : List RegWrite) : (s.writeRegs rs).timer = s.timer := rfl
@[simp] theorem State.writeRegs_clocks (rs : List RegWrite) : (s.writeRegs rs).clocks = s.clocks := rfl
@[simp] theorem State.writeRegs_free (rs : List RegWrite) : (s.writeRegs rs).free = s.free := rfl
@[simp] theorem State.writeRegs_agenda (rs : List RegWrite) : (s.writeRegs rs).agenda = s.agenda := rfl
@[simp] theorem State.writeRegs_inputs (rs : List RegWrite) : (s.writeRegs rs).inputs = s.inputs := rfl
@[simp] theorem State.writeRegs_turns (rs : List RegWrite) : (s.writeRegs rs).turns = s.turns := rfl

/-! ## raiseFlags -/

@[simp] theorem State.raiseFlags_warp (fl : Word) : (s.raiseFlags fl).warp = { s.warp with runFlags := s.warp.runFlags ||| fl } := rfl
@[simp] theorem State.raiseFlags_others (fl : Word) : (s.raiseFlags fl).others = s.others := rfl
@[simp] theorem State.raiseFlags_blocks (fl : Word) : (s.raiseFlags fl).blocks = s.blocks := rfl
@[simp] theorem State.raiseFlags_clusters (fl : Word) : (s.raiseFlags fl).clusters = s.clusters := rfl
@[simp] theorem State.raiseFlags_launches (fl : Word) : (s.raiseFlags fl).launches = s.launches := rfl
@[simp] theorem State.raiseFlags_admits (fl : Word) : (s.raiseFlags fl).admits = s.admits := rfl
@[simp] theorem State.raiseFlags_ops (fl : Word) : (s.raiseFlags fl).ops = s.ops := rfl
@[simp] theorem State.raiseFlags_nextOp (fl : Word) : (s.raiseFlags fl).nextOp = s.nextOp := rfl
@[simp] theorem State.raiseFlags_cores (fl : Word) : (s.raiseFlags fl).cores = s.cores := rfl
@[simp] theorem State.raiseFlags_dies (fl : Word) : (s.raiseFlags fl).dies = s.dies := rfl
@[simp] theorem State.raiseFlags_procs (fl : Word) : (s.raiseFlags fl).procs = s.procs := rfl
@[simp] theorem State.raiseFlags_placements (fl : Word) : (s.raiseFlags fl).placements = s.placements := rfl
@[simp] theorem State.raiseFlags_convs (fl : Word) : (s.raiseFlags fl).convs = s.convs := rfl
@[simp] theorem State.raiseFlags_srcMarks (fl : Word) : (s.raiseFlags fl).srcMarks = s.srcMarks := rfl
@[simp] theorem State.raiseFlags_dstMarks (fl : Word) : (s.raiseFlags fl).dstMarks = s.dstMarks := rfl
@[simp] theorem State.raiseFlags_package (fl : Word) : (s.raiseFlags fl).package = s.package := rfl
@[simp] theorem State.raiseFlags_group (fl : Word) : (s.raiseFlags fl).group = s.group := rfl
@[simp] theorem State.raiseFlags_gmembers (fl : Word) : (s.raiseFlags fl).gmembers = s.gmembers := rfl
@[simp] theorem State.raiseFlags_heard (fl : Word) : (s.raiseFlags fl).heard = s.heard := rfl
@[simp] theorem State.raiseFlags_links (fl : Word) : (s.raiseFlags fl).links = s.links := rfl
@[simp] theorem State.raiseFlags_planes (fl : Word) : (s.raiseFlags fl).planes = s.planes := rfl
@[simp] theorem State.raiseFlags_ranges (fl : Word) : (s.raiseFlags fl).ranges = s.ranges := rfl
@[simp] theorem State.raiseFlags_tray (fl : Word) : (s.raiseFlags fl).tray = s.tray := rfl
@[simp] theorem State.raiseFlags_holders (fl : Word) : (s.raiseFlags fl).holders = s.holders := rfl
@[simp] theorem State.raiseFlags_leases (fl : Word) : (s.raiseFlags fl).leases = s.leases := rfl
@[simp] theorem State.raiseFlags_hostDrop (fl : Word) : (s.raiseFlags fl).hostDrop = s.hostDrop := rfl
@[simp] theorem State.raiseFlags_leaseLost (fl : Word) : (s.raiseFlags fl).leaseLost = s.leaseLost := rfl
@[simp] theorem State.raiseFlags_leasePer (fl : Word) : (s.raiseFlags fl).leasePer = s.leasePer := rfl
@[simp] theorem State.raiseFlags_rung (fl : Word) : (s.raiseFlags fl).rung = s.rung := rfl
@[simp] theorem State.raiseFlags_mailboxes (fl : Word) : (s.raiseFlags fl).mailboxes = s.mailboxes := rfl
@[simp] theorem State.raiseFlags_saved (fl : Word) : (s.raiseFlags fl).saved = s.saved := rfl
@[simp] theorem State.raiseFlags_platform (fl : Word) : (s.raiseFlags fl).platform = s.platform := rfl
@[simp] theorem State.raiseFlags_sent (fl : Word) : (s.raiseFlags fl).sent = s.sent := rfl
@[simp] theorem State.raiseFlags_mem (fl : Word) : (s.raiseFlags fl).mem = s.mem := rfl
@[simp] theorem State.raiseFlags_hostMem (fl : Word) : (s.raiseFlags fl).hostMem = s.hostMem := rfl
@[simp] theorem State.raiseFlags_peerMem (fl : Word) : (s.raiseFlags fl).peerMem = s.peerMem := rfl
@[simp] theorem State.raiseFlags_poison (fl : Word) : (s.raiseFlags fl).poison = s.poison := rfl
@[simp] theorem State.raiseFlags_homeLines (fl : Word) : (s.raiseFlags fl).homeLines = s.homeLines := rfl
@[simp] theorem State.raiseFlags_dir (fl : Word) : (s.raiseFlags fl).dir = s.dir := rfl
@[simp] theorem State.raiseFlags_nextSeq (fl : Word) : (s.raiseFlags fl).nextSeq = s.nextSeq := rfl
@[simp] theorem State.raiseFlags_members (fl : Word) : (s.raiseFlags fl).members = s.members := rfl
@[simp] theorem State.raiseFlags_device (fl : Word) : (s.raiseFlags fl).device = s.device := rfl
@[simp] theorem State.raiseFlags_timer (fl : Word) : (s.raiseFlags fl).timer = s.timer := rfl
@[simp] theorem State.raiseFlags_clocks (fl : Word) : (s.raiseFlags fl).clocks = s.clocks := rfl
@[simp] theorem State.raiseFlags_free (fl : Word) : (s.raiseFlags fl).free = s.free := rfl
@[simp] theorem State.raiseFlags_agenda (fl : Word) : (s.raiseFlags fl).agenda = s.agenda := rfl
@[simp] theorem State.raiseFlags_inputs (fl : Word) : (s.raiseFlags fl).inputs = s.inputs := rfl
@[simp] theorem State.raiseFlags_turns (fl : Word) : (s.raiseFlags fl).turns = s.turns := rfl

/-! ## advance -/

@[simp] theorem State.advance_warp (f : Fields) (b : Bool) : (s.advance f b).warp = s.warp.advance f.slot (f.drain || b) := rfl
@[simp] theorem State.advance_others (f : Fields) (b : Bool) : (s.advance f b).others = s.others := rfl
@[simp] theorem State.advance_blocks (f : Fields) (b : Bool) : (s.advance f b).blocks = s.blocks := rfl
@[simp] theorem State.advance_clusters (f : Fields) (b : Bool) : (s.advance f b).clusters = s.clusters := rfl
@[simp] theorem State.advance_launches (f : Fields) (b : Bool) : (s.advance f b).launches = s.launches := rfl
@[simp] theorem State.advance_admits (f : Fields) (b : Bool) : (s.advance f b).admits = s.admits := rfl
@[simp] theorem State.advance_ops (f : Fields) (b : Bool) : (s.advance f b).ops = s.ops := rfl
@[simp] theorem State.advance_nextOp (f : Fields) (b : Bool) : (s.advance f b).nextOp = s.nextOp := rfl
@[simp] theorem State.advance_cores (f : Fields) (b : Bool) : (s.advance f b).cores = s.cores := rfl
@[simp] theorem State.advance_dies (f : Fields) (b : Bool) : (s.advance f b).dies = s.dies := rfl
@[simp] theorem State.advance_procs (f : Fields) (b : Bool) : (s.advance f b).procs = s.procs := rfl
@[simp] theorem State.advance_placements (f : Fields) (b : Bool) : (s.advance f b).placements = s.placements := rfl
@[simp] theorem State.advance_convs (f : Fields) (b : Bool) : (s.advance f b).convs = s.convs := rfl
@[simp] theorem State.advance_srcMarks (f : Fields) (b : Bool) : (s.advance f b).srcMarks = s.srcMarks := rfl
@[simp] theorem State.advance_dstMarks (f : Fields) (b : Bool) : (s.advance f b).dstMarks = s.dstMarks := rfl
@[simp] theorem State.advance_package (f : Fields) (b : Bool) : (s.advance f b).package = s.package := rfl
@[simp] theorem State.advance_group (f : Fields) (b : Bool) : (s.advance f b).group = s.group := rfl
@[simp] theorem State.advance_gmembers (f : Fields) (b : Bool) : (s.advance f b).gmembers = s.gmembers := rfl
@[simp] theorem State.advance_heard (f : Fields) (b : Bool) : (s.advance f b).heard = s.heard := rfl
@[simp] theorem State.advance_links (f : Fields) (b : Bool) : (s.advance f b).links = s.links := rfl
@[simp] theorem State.advance_planes (f : Fields) (b : Bool) : (s.advance f b).planes = s.planes := rfl
@[simp] theorem State.advance_ranges (f : Fields) (b : Bool) : (s.advance f b).ranges = s.ranges := rfl
@[simp] theorem State.advance_tray (f : Fields) (b : Bool) : (s.advance f b).tray = s.tray := rfl
@[simp] theorem State.advance_holders (f : Fields) (b : Bool) : (s.advance f b).holders = s.holders := rfl
@[simp] theorem State.advance_leases (f : Fields) (b : Bool) : (s.advance f b).leases = s.leases := rfl
@[simp] theorem State.advance_hostDrop (f : Fields) (b : Bool) : (s.advance f b).hostDrop = s.hostDrop := rfl
@[simp] theorem State.advance_leaseLost (f : Fields) (b : Bool) : (s.advance f b).leaseLost = s.leaseLost := rfl
@[simp] theorem State.advance_leasePer (f : Fields) (b : Bool) : (s.advance f b).leasePer = s.leasePer := rfl
@[simp] theorem State.advance_rung (f : Fields) (b : Bool) : (s.advance f b).rung = s.rung := rfl
@[simp] theorem State.advance_mailboxes (f : Fields) (b : Bool) : (s.advance f b).mailboxes = s.mailboxes := rfl
@[simp] theorem State.advance_saved (f : Fields) (b : Bool) : (s.advance f b).saved = s.saved := rfl
@[simp] theorem State.advance_platform (f : Fields) (b : Bool) : (s.advance f b).platform = s.platform := rfl
@[simp] theorem State.advance_sent (f : Fields) (b : Bool) : (s.advance f b).sent = s.sent := rfl
@[simp] theorem State.advance_mem (f : Fields) (b : Bool) : (s.advance f b).mem = s.mem := rfl
@[simp] theorem State.advance_hostMem (f : Fields) (b : Bool) : (s.advance f b).hostMem = s.hostMem := rfl
@[simp] theorem State.advance_peerMem (f : Fields) (b : Bool) : (s.advance f b).peerMem = s.peerMem := rfl
@[simp] theorem State.advance_poison (f : Fields) (b : Bool) : (s.advance f b).poison = s.poison := rfl
@[simp] theorem State.advance_homeLines (f : Fields) (b : Bool) : (s.advance f b).homeLines = s.homeLines := rfl
@[simp] theorem State.advance_dir (f : Fields) (b : Bool) : (s.advance f b).dir = s.dir := rfl
@[simp] theorem State.advance_nextSeq (f : Fields) (b : Bool) : (s.advance f b).nextSeq = s.nextSeq := rfl
@[simp] theorem State.advance_members (f : Fields) (b : Bool) : (s.advance f b).members = s.members := rfl
@[simp] theorem State.advance_device (f : Fields) (b : Bool) : (s.advance f b).device = s.device := rfl
@[simp] theorem State.advance_timer (f : Fields) (b : Bool) : (s.advance f b).timer = s.timer := rfl
@[simp] theorem State.advance_clocks (f : Fields) (b : Bool) : (s.advance f b).clocks = s.clocks := rfl
@[simp] theorem State.advance_free (f : Fields) (b : Bool) : (s.advance f b).free = s.free := rfl
@[simp] theorem State.advance_agenda (f : Fields) (b : Bool) : (s.advance f b).agenda = s.agenda := rfl
@[simp] theorem State.advance_inputs (f : Fields) (b : Bool) : (s.advance f b).inputs = s.inputs := rfl
@[simp] theorem State.advance_turns (f : Fields) (b : Bool) : (s.advance f b).turns = s.turns := rfl

/-! ## stallAt -/

@[simp] theorem State.stallAt_warp (n : Nat) : (s.stallAt n).warp = { s.warp with stall := n } := rfl
@[simp] theorem State.stallAt_others (n : Nat) : (s.stallAt n).others = s.others := rfl
@[simp] theorem State.stallAt_blocks (n : Nat) : (s.stallAt n).blocks = s.blocks := rfl
@[simp] theorem State.stallAt_clusters (n : Nat) : (s.stallAt n).clusters = s.clusters := rfl
@[simp] theorem State.stallAt_launches (n : Nat) : (s.stallAt n).launches = s.launches := rfl
@[simp] theorem State.stallAt_admits (n : Nat) : (s.stallAt n).admits = s.admits := rfl
@[simp] theorem State.stallAt_ops (n : Nat) : (s.stallAt n).ops = s.ops := rfl
@[simp] theorem State.stallAt_nextOp (n : Nat) : (s.stallAt n).nextOp = s.nextOp := rfl
@[simp] theorem State.stallAt_cores (n : Nat) : (s.stallAt n).cores = s.cores := rfl
@[simp] theorem State.stallAt_dies (n : Nat) : (s.stallAt n).dies = s.dies := rfl
@[simp] theorem State.stallAt_procs (n : Nat) : (s.stallAt n).procs = s.procs := rfl
@[simp] theorem State.stallAt_placements (n : Nat) : (s.stallAt n).placements = s.placements := rfl
@[simp] theorem State.stallAt_convs (n : Nat) : (s.stallAt n).convs = s.convs := rfl
@[simp] theorem State.stallAt_srcMarks (n : Nat) : (s.stallAt n).srcMarks = s.srcMarks := rfl
@[simp] theorem State.stallAt_dstMarks (n : Nat) : (s.stallAt n).dstMarks = s.dstMarks := rfl
@[simp] theorem State.stallAt_package (n : Nat) : (s.stallAt n).package = s.package := rfl
@[simp] theorem State.stallAt_group (n : Nat) : (s.stallAt n).group = s.group := rfl
@[simp] theorem State.stallAt_gmembers (n : Nat) : (s.stallAt n).gmembers = s.gmembers := rfl
@[simp] theorem State.stallAt_heard (n : Nat) : (s.stallAt n).heard = s.heard := rfl
@[simp] theorem State.stallAt_links (n : Nat) : (s.stallAt n).links = s.links := rfl
@[simp] theorem State.stallAt_planes (n : Nat) : (s.stallAt n).planes = s.planes := rfl
@[simp] theorem State.stallAt_ranges (n : Nat) : (s.stallAt n).ranges = s.ranges := rfl
@[simp] theorem State.stallAt_tray (n : Nat) : (s.stallAt n).tray = s.tray := rfl
@[simp] theorem State.stallAt_holders (n : Nat) : (s.stallAt n).holders = s.holders := rfl
@[simp] theorem State.stallAt_leases (n : Nat) : (s.stallAt n).leases = s.leases := rfl
@[simp] theorem State.stallAt_hostDrop (n : Nat) : (s.stallAt n).hostDrop = s.hostDrop := rfl
@[simp] theorem State.stallAt_leaseLost (n : Nat) : (s.stallAt n).leaseLost = s.leaseLost := rfl
@[simp] theorem State.stallAt_leasePer (n : Nat) : (s.stallAt n).leasePer = s.leasePer := rfl
@[simp] theorem State.stallAt_rung (n : Nat) : (s.stallAt n).rung = s.rung := rfl
@[simp] theorem State.stallAt_mailboxes (n : Nat) : (s.stallAt n).mailboxes = s.mailboxes := rfl
@[simp] theorem State.stallAt_saved (n : Nat) : (s.stallAt n).saved = s.saved := rfl
@[simp] theorem State.stallAt_platform (n : Nat) : (s.stallAt n).platform = s.platform := rfl
@[simp] theorem State.stallAt_sent (n : Nat) : (s.stallAt n).sent = s.sent := rfl
@[simp] theorem State.stallAt_mem (n : Nat) : (s.stallAt n).mem = s.mem := rfl
@[simp] theorem State.stallAt_hostMem (n : Nat) : (s.stallAt n).hostMem = s.hostMem := rfl
@[simp] theorem State.stallAt_peerMem (n : Nat) : (s.stallAt n).peerMem = s.peerMem := rfl
@[simp] theorem State.stallAt_poison (n : Nat) : (s.stallAt n).poison = s.poison := rfl
@[simp] theorem State.stallAt_homeLines (n : Nat) : (s.stallAt n).homeLines = s.homeLines := rfl
@[simp] theorem State.stallAt_dir (n : Nat) : (s.stallAt n).dir = s.dir := rfl
@[simp] theorem State.stallAt_nextSeq (n : Nat) : (s.stallAt n).nextSeq = s.nextSeq := rfl
@[simp] theorem State.stallAt_members (n : Nat) : (s.stallAt n).members = s.members := rfl
@[simp] theorem State.stallAt_device (n : Nat) : (s.stallAt n).device = s.device := rfl
@[simp] theorem State.stallAt_timer (n : Nat) : (s.stallAt n).timer = s.timer := rfl
@[simp] theorem State.stallAt_clocks (n : Nat) : (s.stallAt n).clocks = s.clocks := rfl
@[simp] theorem State.stallAt_free (n : Nat) : (s.stallAt n).free = s.free := rfl
@[simp] theorem State.stallAt_agenda (n : Nat) : (s.stallAt n).agenda = s.agenda := rfl
@[simp] theorem State.stallAt_inputs (n : Nat) : (s.stallAt n).inputs = s.inputs := rfl
@[simp] theorem State.stallAt_turns (n : Nat) : (s.stallAt n).turns = s.turns := rfl

end

end Sys2Proof.Machine
end

