-- ==== Sys2Proof/Laws/Table.lean ====
section
/-! SUPPORT. The sparse tables: reading after writing, and the canonical form, which every table operation keeps. -/

namespace Sys2Proof.Machine

section
variable {α : Type} [DecidableEq α] {d : α}

omit [DecidableEq α] in
@[simp] theorem tget_nil (k : Nat) : tget d ([] : Table α) k = d := rfl

@[simp] theorem twf_nil : twf d ([] : Table α) = true := rfl

/-- Every key of the table is above `k`. -/
def tabove (k : Nat) (t : Table α) : Prop := ∀ x ∈ t, k < x.1

omit [DecidableEq α] in
theorem tabove_cons {k : Nat} {x : Nat × α} {t : Table α} : tabove k (x :: t) ↔ k < x.1 ∧ tabove k t := by
  simp [tabove]

theorem twf_cons {k : Nat} {v : α} {t : Table α} :
    twf d ((k, v) :: t) = true ↔ v ≠ d ∧ tabove k t ∧ twf d t = true := by
  induction t generalizing k v with
  | nil => simp [twf, tabove]
  | cons x t ih =>
    obtain ⟨k', v'⟩ := x
    simp only [twf, Bool.and_eq_true, bne_iff_ne, decide_eq_true_eq, tabove, List.mem_cons, forall_eq_or_imp]
    constructor
    · rintro ⟨⟨hv, hk⟩, ht⟩
      exact ⟨hv, ⟨hk, fun y hy => Nat.lt_trans hk ((ih.mp ht).2.1 y hy)⟩, ht⟩
    · rintro ⟨hv, ⟨hk, _⟩, ht⟩
      exact ⟨⟨hv, hk⟩, ht⟩

omit [DecidableEq α] in
theorem tget_of_tabove {k : Nat} {t : Table α} (h : tabove k t) : tget d t k = d := by
  cases t with
  | nil => rfl
  | cons x t => simp [tget, h x (List.mem_cons_self ..)]

theorem tabove_tput {k j : Nat} {v : α} {t : Table α} (hk : k < j) (h : tabove k t) : tabove k (tput d t j v) := by
  induction t with
  | nil => unfold tput; split <;> simp [tabove, hk]
  | cons x t ih =>
    obtain ⟨hx, ht⟩ := tabove_cons.mp h
    unfold tput
    split_ifs
    · exact h
    · exact tabove_cons.mpr ⟨hk, h⟩
    · exact ht
    · exact tabove_cons.mpr ⟨hk, ht⟩
    · exact tabove_cons.mpr ⟨hx, ih ht⟩

/-- Writing a key keeps the canonical form. -/
theorem twf_tput {k : Nat} {v : α} {t : Table α} (h : twf d t = true) : twf d (tput d t k v) = true := by
  induction t with
  | nil => unfold tput; split <;> simp_all [twf]
  | cons x t ih =>
    obtain ⟨k', v'⟩ := x
    obtain ⟨hv, ha, ht⟩ := twf_cons.mp h
    unfold tput
    split_ifs with h1 h2 h3 h4
    · exact h
    · exact twf_cons.mpr ⟨h2, fun y hy => by
        rcases List.mem_cons.mp hy with rfl | hy
        · exact h1
        · exact Nat.lt_trans h1 (ha y hy), h⟩
    · exact ht
    · exact twf_cons.mpr ⟨h4, h3 ▸ ha, ht⟩
    · exact twf_cons.mpr ⟨hv, tabove_tput (by omega) ha, ih ht⟩

/-- A key reads as it was written. -/
theorem tget_tput_same {k : Nat} {v : α} {t : Table α} (h : twf d t = true) : tget d (tput d t k v) k = v := by
  induction t with
  | nil => unfold tput; split <;> simp_all [tget]
  | cons x t ih =>
    obtain ⟨k', v'⟩ := x
    obtain ⟨_, ha, ht⟩ := twf_cons.mp h
    unfold tput
    split_ifs with h1 h2 h3 h4
    · simp [tget, h1, h2]
    · simp [tget]
    · subst h3; rw [tget_of_tabove ha, h4]
    · simp [tget]
    · simp [tget, h1, h3, ih ht]

/-- Every other key reads as before. -/
theorem tget_tput_other {k j : Nat} {v : α} {t : Table α} (h : twf d t = true) (hj : j ≠ k) :
    tget d (tput d t k v) j = tget d t j := by
  induction t with
  | nil => unfold tput; split <;> simp_all [tget]
  | cons x t ih =>
    obtain ⟨k', v'⟩ := x
    obtain ⟨_, ha, ht⟩ := twf_cons.mp h
    unfold tput
    split_ifs with h1 h2 h3 h4
    · rfl
    · by_cases hlt : j < k
      · simp [tget, hlt, Nat.lt_trans hlt h1]
      · simp [tget, hlt, hj]
    · subst h3
      by_cases hlt : j < k
      · simp [tget, hlt, tget_of_tabove (fun y hy => Nat.lt_trans hlt (ha y hy))]
      · simp [tget, hlt, hj]
    · subst h3; simp [tget, hj]
    · simp [tget, ih ht]

theorem tget_tput {k j : Nat} {v : α} {t : Table α} (h : twf d t = true) :
    tget d (tput d t k v) j = if j = k then v else tget d t j := by
  split
  · next e => rw [e, tget_tput_same h]
  · next e => exact tget_tput_other h e

theorem twf_tmod {k : Nat} {f : α → α} {t : Table α} (h : twf d t = true) : twf d (tmod d t k f) = true := twf_tput h

theorem tget_tmod {k j : Nat} {f : α → α} {t : Table α} (h : twf d t = true) :
    tget d (tmod d t k f) j = if j = k then f (tget d t k) else tget d t j := tget_tput h

/-- Leaving entries out keeps the canonical form. -/
theorem twf_filter {p : Nat × α → Bool} {t : Table α} (h : twf d t = true) : twf d (t.filter p) = true := by
  induction t with
  | nil => rfl
  | cons x t ih =>
    obtain ⟨k', v'⟩ := x
    obtain ⟨hv, ha, ht⟩ := twf_cons.mp h
    rw [List.filter_cons]
    split
    · exact twf_cons.mpr ⟨hv, fun y hy => ha y (List.mem_filter.mp hy).1, ih ht⟩
    · exact ih ht

/-- Writing a list of keys keeps the canonical form. -/
theorem twf_foldl_tput {l : List (Nat × α)} {t : Table α} (h : twf d t = true) :
    twf d (l.foldl (fun m x => tput d m x.1 x.2) t) = true := by
  induction l generalizing t with
  | nil => exact h
  | cons x l ih => exact ih (twf_tput h)

/-- Two canonical tables that read alike are equal. -/
theorem twf_ext {t u : Table α} (ht : twf d t = true) (hu : twf d u = true) (h : ∀ k, tget d t k = tget d u k) : t = u := by
  induction t generalizing u with
  | nil =>
    cases u with
    | nil => rfl
    | cons y u =>
      obtain ⟨hv, _, _⟩ := twf_cons.mp hu
      exact absurd (by simpa [tget] using (h y.1).symm) hv
  | cons x t ih =>
    obtain ⟨k, v⟩ := x
    obtain ⟨hv, ha, ht'⟩ := twf_cons.mp ht
    cases u with
    | nil => exact absurd (by simpa [tget] using h k) hv
    | cons y u =>
      obtain ⟨k', v'⟩ := y
      obtain ⟨hv', ha', hu'⟩ := twf_cons.mp hu
      have hk : k = k' := by
        rcases Nat.lt_trichotomy k k' with hl | he | hl
        · exact absurd (by simpa [tget, hl] using h k) hv
        · exact he
        · exact absurd (by simpa [tget, hl] using (h k').symm) hv'
      subst hk
      have hvv : v = v' := by simpa [tget] using h k
      subst hvv
      have : t = u := ih ht' hu' fun j => by
        rcases Nat.lt_trichotomy j k with hl | he | hl
        · rw [tget_of_tabove (fun y hy => Nat.lt_trans hl (ha y hy)), tget_of_tabove (fun y hy => Nat.lt_trans hl (ha' y hy))]
        · subst he; rw [tget_of_tabove ha, tget_of_tabove ha']
        · simpa [tget, Nat.not_lt_of_lt hl, Nat.ne_of_gt hl] using h j
      rw [this]

end

end Sys2Proof.Machine
end

