-- ==== Sys2Proof/Laws/Registers.lean ====
section
/-! SUPPORT. Registers: what a read gives after writes, the canonical form of a register file, and everything a short-latency
register instruction does. -/

namespace Sys2Proof.Machine

/-! ## One register -/

theorem RegFile.wf_iff {r : RegFile} : r.wf = true ↔
    twf 0 r.v = true ∧ twf 0 r.s = true ∧ twf 0 r.p = true ∧ twf 0 r.x = true ∧ twf 0 r.h = true := by
  simp [RegFile.wf, and_assoc]

theorem RegFile.zero_wf : RegFile.zero.wf = true := rfl

/-- A write keeps the canonical form. -/
theorem RegFile.set_wf {r : RegFile} {n : RegName} {lane v : Nat} (h : r.wf = true) : (r.set n lane v).wf = true := by
  rw [RegFile.wf_iff] at h ⊢
  obtain ⟨hv, hs, hp, hx, hh⟩ := h
  cases n <;> simp only [RegFile.set] <;> (try split) <;> simp_all [twf_tput, twf_tmod]

theorem RegFile.setAll_wf {l : List RegWrite} {r : RegFile} (h : r.wf = true) : (r.setAll l).wf = true := by
  induction l generalizing r with
  | nil => exact h
  | cons x l ih => exact ih (RegFile.set_wf h)

theorem vkey_inj {n m i j : Nat} (hi : i < 64) (hj : j < 64) : vkey n i = vkey m j ↔ n = m ∧ i = j := by
  unfold vkey; omega

theorem toNat_one_shl (k : Nat) : (1#8 <<< k) = BitVec.ofNat 8 (2 ^ k) := by
  apply BitVec.eq_of_toNat_eq; simp [Nat.shiftLeft_eq]

theorem getLsbD_setPred (m : BitVec 8) (i v k : Nat) :
    (setPred m i v).getLsbD k = if k = i ∧ k < 8 then decide (v % 2 = 1) else m.getLsbD k := by
  unfold setPred
  split <;> rename_i hv
  · simp only [BitVec.getLsbD_or, BitVec.getLsbD_shiftLeft, BitVec.getLsbD_one]
    by_cases hk : k = i
    · subst hk; by_cases h8 : k < 8 <;> simp [h8, hv]
    · by_cases h8 : k < 8
      · by_cases hl : k < i
        · simp [h8, hl, hk]
        · have : k - i ≠ 0 := by omega
          simp [h8, hl, hk, this]
      · simp [h8, hk]
  · simp only [BitVec.getLsbD_and, BitVec.getLsbD_not, BitVec.getLsbD_shiftLeft, BitVec.getLsbD_one]
    by_cases hk : k = i
    · subst hk; by_cases h8 : k < 8
      · simp [h8, hv]
      · simp [h8, BitVec.getLsbD_of_ge _ _ (Nat.le_of_not_lt h8)]
    · by_cases h8 : k < 8
      · by_cases hl : k < i
        · simp [h8, hl, hk]
        · have : k - i ≠ 0 := by omega
          simp [h8, hl, hk, this]
      · simp [h8, BitVec.getLsbD_of_ge _ _ (Nat.le_of_not_lt h8)]

/-- A copy of a register reads what was written to it, and every other copy reads as before. -/
theorem RegFile.get_set {r : RegFile} {n m : RegName} {i j v : Nat} (h : r.wf = true) (hn : n.has i = true)
    (hm : m.has j = true) : (r.set m j v).get n i = if m = n ∧ j = i then n.hold v else r.get n i := by
  obtain ⟨hv, hs, hp, hx, hh⟩ := RegFile.wf_iff.mp h
  cases m <;> cases n <;> simp only [RegName.has, decide_eq_true_eq, beq_iff_eq] at hn hm <;>
    simp only [RegFile.set, RegFile.get, reduceCtorEq, false_and, if_false, RegName.v.injEq, RegName.s.injEq, RegName.p.injEq,
      RegName.q.injEq, RegName.x.injEq, RegName.h.injEq, RegName.hold]
  case v.v a b =>
    rw [tget_tput hv]
    by_cases e : a = b ∧ j = i
    · obtain ⟨rfl, rfl⟩ := e; simp
    · have : ¬ vkey b i = vkey a j := by rw [vkey_inj hn hm]; tauto
      simp [e, this]
  case s.s a b => subst hn hm; rw [tget_tput hs]; by_cases e : a = b <;> simp [e, eq_comm]
  case x.x a b => subst hn hm; rw [tget_tput hx]; by_cases e : a = b <;> simp [e, eq_comm]
  case h.h a b => subst hn hm; rw [tget_tput hh]; by_cases e : a = b <;> simp [e, eq_comm]
  case p.p a b =>
    by_cases ha : a = 7
    · subst ha
      by_cases e : 7 = b ∧ j = i
      · obtain ⟨rfl, rfl⟩ := e; simp
      · simp [e]
    · simp only [ha, if_false]
      by_cases hb : b = 7
      · subst hb; simp [ha]
      · rw [tget_tmod hp]
        by_cases hji : i = j
        · subst hji
          simp only [if_true, hb, if_false, and_true, getLsbD_setPred]
          by_cases e : a = b
          · subst e
            by_cases h8 : a < 8
            · have : ¬ 7 < a := by omega
              rcases Nat.mod_two_eq_zero_or_one v with h2 | h2 <;> simp [h8, this, h2, b2n]
            · have : 7 < a := by omega
              simp [h8, this, b2n, BitVec.getLsbD_of_ge _ _ (Nat.le_of_not_lt h8)]
          · simp [e, Ne.symm e]
        · simp [hb, hji, Ne.symm hji]
  case q.q a b =>
    subst hn hm
    by_cases ha : a = 7
    · subst ha
      by_cases e : 7 = b
      · subst e; simp
      · simp [e]
    · simp only [ha, if_false]
      by_cases hb : b = 7
      · subst hb; simp [ha]
      · simp only [hb, if_false, and_true, getLsbD_setPred]
        by_cases e : a = b
        · subst e
          by_cases h8 : a < 8
          · have : ¬ 7 < a := by omega
            rcases Nat.mod_two_eq_zero_or_one v with h2 | h2 <;> simp [h8, this, h2, b2n]
          · have : 7 < a := by omega
            simp [h8, this, b2n, BitVec.getLsbD_of_ge _ _ (Nat.le_of_not_lt h8)]
        · simp [e, Ne.symm e]
  all_goals (repeat' split) <;> rfl

/-! ## Short-latency writes (R53, R54) -/

/-- Whether a write is to one copy of a register. -/
def RegWrite.isOf (r : RegWrite) (n : RegName) (lane : Nat) : Bool := r.name == n && r.lane == lane

theorem RegWrite.isOf_iff {r : RegWrite} {n : RegName} {lane : Nat} :
    r.isOf n lane = true ↔ r.name = n ∧ r.lane = lane := by simp [RegWrite.isOf]

/-- What a list of writes to different copies leaves. -/
structure ShortWrites (w w' : Warp) (ws : List RegWrite) : Prop where
  wf : w'.regs.wf = true
  rest : w' = { w with regs := w'.regs, run := w'.run }
  regs : ∀ n lane, n.has lane = true →
    match ws.find? (·.isOf n lane) with
    | none => w'.regs.get n lane = w.regs.get n lane
    | some r => w'.regs.get n lane = n.hold r.value ∨
        (w.runHas n lane = true ∧ w'.regs.get n lane = w.regs.get n lane)

theorem Warp.rest_trans {w x y : Warp} (h : x = { w with regs := x.regs, run := x.run })
    (k : y = { x with regs := y.regs, run := y.run }) : y = { w with regs := y.regs, run := y.run } := by
  calc y = { x with regs := y.regs, run := y.run } := k
    _ = _ := by rw [h]

theorem writeShort_rest (free : Nat) (w : Warp) (r : RegWrite) :
    w.writeShort free r = { w with regs := (w.writeShort free r).regs, run := (w.writeShort free r).run } := by
  unfold Warp.writeShort; split
  · split <;> rfl
  · rfl

theorem writeShort_wf {free : Nat} {w : Warp} {r : RegWrite} (h : w.regs.wf = true) :
    (w.writeShort free r).regs.wf = true := by
  unfold Warp.writeShort
  split
  · split
    · exact h
    · exact RegFile.set_wf h
  · exact RegFile.set_wf h

theorem writeShort_runHas (free : Nat) (w : Warp) (r : RegWrite) (n : RegName) (lane : Nat)
    (h : r.isOf n lane = false) : (w.writeShort free r).runHas n lane = w.runHas n lane := by
  unfold Warp.writeShort
  split
  · split <;> rfl
  · simp only [Warp.runHas, List.any_cons, RegWrite.isOf] at h ⊢
    rw [h, Bool.false_or]

theorem writeShort_get {free : Nat} {w : Warp} {r : RegWrite} {n : RegName} {lane : Nat} (h : w.regs.wf = true)
    (hr : r.name.has r.lane = true) (hn : n.has lane = true) :
    if r.isOf n lane then
      (w.writeShort free r).regs.get n lane = n.hold r.value ∨
        (w.runHas n lane = true ∧ (w.writeShort free r).regs.get n lane = w.regs.get n lane)
    else (w.writeShort free r).regs.get n lane = w.regs.get n lane := by
  by_cases e : r.isOf n lane = true
  · obtain ⟨rfl, rfl⟩ := RegWrite.isOf_iff.mp e
    rw [if_pos e]
    unfold Warp.writeShort
    split
    · next hrun =>
      split
      · exact Or.inr ⟨hrun, rfl⟩
      · exact Or.inl (by rw [RegFile.get_set h hr hr]; simp)
    · exact Or.inl (by rw [RegFile.get_set h hr hr]; simp)
  · rw [if_neg e]
    have e' : ¬ (r.name = n ∧ r.lane = lane) := fun x => e (RegWrite.isOf_iff.mpr x)
    unfold Warp.writeShort
    split
    · split
      · rfl
      · rw [RegFile.get_set h hn hr, if_neg e']
    · rw [RegFile.get_set h hn hr, if_neg e']

theorem shortWrites_foldl (free : Nat) (ws : List RegWrite) :
    ∀ w : Warp, w.regs.wf = true → (∀ r ∈ ws, r.name.has r.lane = true) →
      ws.Pairwise (fun a b => b.isOf a.name a.lane = false) →
      ShortWrites w (ws.foldl (Warp.writeShort free) w) ws := by
  induction ws with
  | nil => exact fun w h _ _ => ⟨h, rfl, fun _ _ _ => rfl⟩
  | cons r ws ih =>
    intro w h hl hp
    obtain ⟨hp1, hp2⟩ := List.pairwise_cons.mp hp
    have hr := hl r (List.mem_cons_self ..)
    have i := ih (w.writeShort free r) (writeShort_wf h) (fun x hx => hl x (List.mem_cons_of_mem _ hx)) hp2
    refine ⟨i.wf, ?_, fun n lane hn => ?_⟩
    · exact Warp.rest_trans (writeShort_rest free w r) i.rest
    · have g := writeShort_get (free := free) h hr hn
      have j := i.regs n lane hn
      simp only [List.foldl_cons, List.find?_cons]
      by_cases e : r.isOf n lane = true
      · obtain ⟨rfl, rfl⟩ := RegWrite.isOf_iff.mp e
        have hnone : ws.find? (·.isOf r.name r.lane) = none :=
          List.find?_eq_none.mpr fun x hx => by simp [hp1 x hx]
        rw [if_pos e] at g
        simp only [hnone] at j
        simp only [e, j]
        exact g
      · simp only [e, Bool.false_eq_true, if_false] at g ⊢
        have hrun := writeShort_runHas free w r n lane (by simpa using e)
        rw [hrun, g] at j
        exact j

/-- The last writes are to different copies. -/
theorem lastWrites_pairwise (ws : List RegWrite) :
    (lastWrites ws).Pairwise (fun a b => b.isOf a.name a.lane = false) ∧ ∀ r ∈ lastWrites ws, r ∈ ws := by
  induction ws with
  | nil => exact ⟨List.Pairwise.nil, fun r h => h⟩
  | cons x ws ih =>
    unfold lastWrites
    split
    · exact ⟨ih.1, fun r h => List.mem_cons_of_mem _ (ih.2 r h)⟩
    · next hx =>
      refine ⟨List.pairwise_cons.mpr ⟨fun r hr => ?_, ih.1⟩, fun r h => ?_⟩
      · have := List.any_eq_false.mp (Bool.eq_false_iff.mpr hx) r (ih.2 r hr)
        simpa [RegWrite.isOf] using this
      · rcases List.mem_cons.mp h with rfl | h
        · exact List.mem_cons_self ..
        · exact List.mem_cons_of_mem _ (ih.2 r h)

/-- Among the last writes stands the last write of each copy. -/
theorem find_lastWrites (ws : List RegWrite) (n : RegName) (lane : Nat) :
    (lastWrites ws).find? (·.isOf n lane) = lastWrite ws n lane := by
  unfold lastWrite
  induction ws with
  | nil => rfl
  | cons x ws ih =>
    rw [List.reverse_cons, List.find?_append]
    unfold lastWrites
    by_cases ha : (ws.any fun u => u.name == x.name && u.lane == x.lane) = true
    · rw [if_pos ha, ih]
      by_cases e : x.isOf n lane = true
      · obtain ⟨rfl, rfl⟩ := RegWrite.isOf_iff.mp e
        have : (ws.reverse.find? fun r => r.name == x.name && r.lane == x.lane).isSome = true := by
          rw [List.find?_isSome]
          obtain ⟨u, hu, hx⟩ := List.any_eq_true.mp ha
          exact ⟨u, by simpa using hu, hx⟩
        obtain ⟨y, hy⟩ := Option.isSome_iff_exists.mp this
        rw [hy]; rfl
      · have : (x.name == n && x.lane == lane) = false := by simpa [RegWrite.isOf] using e
        simp [this]
    · rw [if_neg ha, List.find?_cons]
      by_cases e : x.isOf n lane = true
      · obtain ⟨rfl, rfl⟩ := RegWrite.isOf_iff.mp e
        have : (ws.reverse.find? fun r => r.name == x.name && r.lane == x.lane) = none := by
          rw [List.find?_eq_none]
          intro u hu
          have := List.any_eq_false.mp (Bool.eq_false_iff.mpr ha) u (by simpa using hu)
          simpa using this
        rw [this]; simp [RegWrite.isOf]
      · have e' : (x.name == n && x.lane == lane) = false := by simpa [RegWrite.isOf] using e
        simp only [e]
        rw [ih]; simp [e']

/-- Writing registers: the writes are made, and nothing else but the record of the run changes. -/
theorem writeRegs_wrote {s : State} {ws : List RegWrite} (h : s.warp.regs.wf = true)
    (hl : ∀ r ∈ ws, r.name.has r.lane = true) :
    Wrote s (s.writeRegs ws) ws ∧ (s.writeRegs ws).warp.regs.wf = true ∧
      (s.writeRegs ws).warp =
        { s.warp with regs := (s.writeRegs ws).warp.regs, run := (s.writeRegs ws).warp.run } := by
  have k := shortWrites_foldl s.free (lastWrites ws) s.warp h
    (fun r hr => hl r ((lastWrites_pairwise ws).2 r hr)) (lastWrites_pairwise ws).1
  refine ⟨fun n lane hn => ?_, k.wf, k.rest⟩
  have := k.regs n lane hn
  rw [find_lastWrites] at this
  exact this

/-! ## Moving on (R35, R53) -/

/-- Moving past an instruction changes no register, and the sticky flags become visible with the end of the run. -/
theorem Warp.advance_rest (w : Warp) (slot : Nat) (drain : Bool) :
    w.advance slot drain =
      { w with
        quads := (w.advance slot drain).quads, gang := (w.advance slot drain).gang, resuming := none
        prio := if drain then w.prioNext.getD w.prio else w.prio, prioNext := if drain then none else w.prioNext
        run := if drain then [] else w.run, runFlags := if drain then 0 else w.runFlags
        fmode := if drain then w.fmode ||| w.runFlags else w.fmode } := by
  unfold Warp.advance
  cases w.resuming with
  | none => cases drain <;> rfl
  | some r => dsimp only; cases r.park <;> cases drain <;> rfl

theorem Warp.modGang_get (w : Warp) (g : Quad → Quad) (q : Nat) :
    (w.modGang g).quads[q]? = (w.quads[q]?).map fun u => if w.gang.contains q then g u else u := by
  simp [Warp.modGang, List.getElem?_mapIdx]

theorem Warp.endRun_get (w : Warp) (q : Nat) :
    w.endRun.quads[q]? = (w.quads[q]?).map fun u => if w.gang.contains q then u else { u with yielded := false } := by
  simp [Warp.endRun, List.getElem?_mapIdx]

theorem Warp.advance_counters (w : Warp) (slot : Nat) (drain : Bool) :
    (w.advance slot drain).quads.length = w.quads.length ∧
    ∀ q u, w.quads[q]? = some u → ∃ v, (w.advance slot drain).quads[q]? = some v ∧ v.live = u.live ∧ v.ctr = u.ctr ∧
      v.pc = if w.gang.contains q ∧ (w.resuming.all (·.park)) then u.pc + BitVec.ofNat 64 slot else u.pc := by
  unfold Warp.advance
  rcases hr : w.resuming with _ | r
  · cases drain
    · refine ⟨by simp [Warp.modGang], fun q u hq => ?_⟩
      simp only [Bool.false_eq_true, if_false, Warp.modGang_get, hq, Option.map_some, Option.all_none, and_true]
      split <;> simp
    · refine ⟨by simp [Warp.modGang, Warp.endRun], fun q u hq => ?_⟩
      simp only [if_true, Warp.endRun_get, Warp.modGang_get, hq, Option.map_some, Option.all_none, and_true]
      by_cases hg : q ∈ w.gang <;> simp [hg, Warp.modGang]
  · by_cases hp : r.park = true
    · cases drain
      · refine ⟨by simp [hp, Warp.modGang], fun q u hq => ?_⟩
        simp only [hp, Bool.false_eq_true, if_false, if_true, Warp.modGang_get, hq, Option.map_some, Option.all_some, and_true]
        split <;> simp
      · refine ⟨by simp [hp, Warp.modGang, Warp.endRun], fun q u hq => ?_⟩
        simp only [hp, if_true, Warp.endRun_get, Warp.modGang_get, hq, Option.map_some, Option.all_some, and_true]
        by_cases hg : q ∈ w.gang <;> simp [hg, Warp.modGang]
    · have hp : r.park = false := by simpa using hp
      cases drain
      · exact ⟨by simp [hp], fun q u hq => ⟨u, by simp [hp, hq]⟩⟩
      · refine ⟨by simp [hp, Warp.endRun], fun q u hq => ?_⟩
        simp [hp, Warp.endRun_get, hq]

/-! ## Everything a short-latency register instruction does (R11, R41, R52, R53) -/

theorem sameBytes_of_warp {s t : State} (h : t = { s with warp := t.warp }) : SameBytes s t := by
  rw [h]; exact ⟨fun _ _ => rfl, fun _ => rfl⟩

/-- Without a breach of R45, the writes and flags that the lanes give are made, the counters pass the instruction, and
nothing else changes. -/
theorem runWrites_completes {i : Instr} {f : Fields} {s : State} {effect : List Nat → LaneEffect}
    (hw : s.warp.regs.wf = true) (hb : s.indirectBreach i f = none)
    (hl : ∀ r ∈ (effect (s.actLanes f)).1, r.name.has r.lane = true) :
    let t := s.runWrites i f effect
    Wrote s t (effect (s.actLanes f)).1 ∧ RegisterFrame s t f (effect (s.actLanes f)).2 := by
  obtain ⟨k1, _, k3⟩ := writeRegs_wrote hw hl
  generalize hws : (effect (s.actLanes f)).1 = ws at k1 k3 hl
  generalize hfl : (effect (s.actLanes f)).2 = fl
  have ht : s.runWrites i f effect = ((s.writeRegs ws).raiseFlags fl).advance f := by
    simp only [State.runWrites, hb, hws, hfl]
  intro t
  have htt : t = ((s.writeRegs ws).raiseFlags fl).advance f := ht
  generalize hu : s.writeRegs ws = u at htt k1 k3
  have hus : u = { s with warp := u.warp } := by rw [← hu]; rfl
  have hadv := Warp.advance_rest (u.raiseFlags fl).warp f.slot f.drain
  have hcnt := Warp.advance_counters (u.raiseFlags fl).warp f.slot f.drain
  have hq : (u.raiseFlags fl).warp.quads = s.warp.quads := by show u.warp.quads = _; rw [k3]
  have hg : (u.raiseFlags fl).warp.gang = s.warp.gang := by show u.warp.gang = _; rw [k3]
  have hr : (u.raiseFlags fl).warp.resuming = s.warp.resuming := by show u.warp.resuming = _; rw [k3]
  have hm : (u.raiseFlags fl).warp.fmode = s.warp.fmode := by show u.warp.fmode = _; rw [k3]
  have hx : (u.raiseFlags fl).warp.runFlags = s.warp.runFlags ||| fl := by
    show u.warp.runFlags ||| fl = _; rw [k3]
  have htw : t.warp = (u.raiseFlags fl).warp.advance f.slot f.drain := by
    rw [htt]; simp [State.advance, State.modWarp]
  have hregs : t.warp.regs = u.warp.regs := by rw [htw, hadv]; rfl
  have hfm : t.warp.fmode = if f.drain then s.warp.fmode ||| (s.warp.runFlags ||| fl) else s.warp.fmode := by
    rw [htw, hadv]; simp only [hm, hx]
  have hrf : t.warp.runFlags = if f.drain then 0 else s.warp.runFlags ||| fl := by
    rw [htw, hadv]; simp only [hx]
  have htrest : t = { s with warp := t.warp } := by
    rw [htt, hus]; rfl
  refine ⟨fun n lane hn => ?_, ?_, ?_, sameBytes_of_warp htrest, ?_, ?_, ?_⟩
  · rw [hregs]; exact k1 n lane hn
  · have e1 : t.warp = { s.warp with
        regs := t.warp.regs, run := t.warp.run, runFlags := t.warp.runFlags, fmode := t.warp.fmode
        quads := t.warp.quads, gang := t.warp.gang, prio := t.warp.prio, prioNext := t.warp.prioNext, resuming := none } := by
      have hrf : (u.raiseFlags fl).warp = { s.warp with regs := u.warp.regs, run := u.warp.run, runFlags := u.warp.runFlags ||| fl } := by
        show ({ u.warp with runFlags := u.warp.runFlags ||| fl } : Warp) = _
        rw [k3]
      rw [htw, hadv, hrf]
    calc t = { s with warp := t.warp } := htrest
      _ = _ := by rw [← e1]
  · have hp : (u.raiseFlags fl).warp.prio = s.warp.prio := by show u.warp.prio = _; rw [k3]
    have hn : (u.raiseFlags fl).warp.prioNext = s.warp.prioNext := by show u.warp.prioNext = _; rw [k3]
    rw [Warp.NextPrio, htw, hadv, hp, hn]; exact ⟨rfl, rfl⟩
  · rw [hfm, hrf]
    cases f.drain <;> simp [BitVec.or_assoc]
  · rw [hfm]; simp [BitVec.or_assoc]
  · rw [hq, hg, hr] at hcnt
    rw [CountersPast, htw]
    exact hcnt

end Sys2Proof.Machine
end

