-- ==== Sys2Proof/Laws/Lanes.lean ====
section
/-! SUPPORT. Lanes and the writes of results: which copies of which registers they name. -/

namespace Sys2Proof.Machine

/-- A lane that an instruction acts in is one of the 64 a warp can have. -/
theorem quadLanes_lt {w : Warp} {q l : Nat} (h : l ∈ w.quadLanes q) : l < 64 := by
  unfold Warp.quadLanes at h
  split at h
  · split at h
    · simp only [List.mem_map, List.mem_filter, List.mem_range] at h
      omega
    · simp at h
  · simp at h

theorem activeLanes_lt {s : State} {f : Fields} {l : Nat} (h : l ∈ s.activeLanes f) : l < 64 := by
  unfold State.activeLanes at h
  split at h
  · simp at h; exact h.2.1
  · simp only [Warp.eligible, List.mem_filter, List.mem_flatMap] at h
    obtain ⟨⟨q, _, hq⟩, _⟩ := h
    exact quadLanes_lt hq

theorem actLanes_lt {s : State} {f : Fields} {l : Nat} (h : l ∈ s.actLanes f) : l < 64 := by
  unfold State.actLanes at h
  split at h
  · split at h <;> simp_all
  · exact activeLanes_lt h

theorem spread_has {name : Nat → RegName} {lane : Nat} (h : ∀ r, (name r).has lane = true) :
    ∀ n r v, ∀ x ∈ spread name r lane v n, x.name.has x.lane = true := by
  intro n
  induction n with
  | zero => intro r v x hx; simp [spread] at hx
  | succ n ih =>
    intro r v x hx
    rcases List.mem_cons.mp hx with rfl | hx
    · exact h r
    · exact ih _ _ x hx

theorem regName_has (k : Bool) (n l : Nat) (h : l < 64) : (regName k n).has (if k then 0 else l) = true := by
  cases k <;> simp [regName, RegName.has, h]

theorem predName_has (k : Bool) (n l : Nat) (h : l < 64) : (predName k n).has (if k then 0 else l) = true := by
  cases k <;> simp [predName, RegName.has, h]

theorem dest_has {f : Fields} {n l v : Nat} (h : l < 64) : ∀ x ∈ dest f n l v, x.name.has x.lane = true :=
  spread_has (fun r => regName_has f.k r l h) n _ _

theorem destPred_has {f : Fields} {x : BitVec 8} {l : Nat} {v : Bool} (h : l < 64) :
    (destPred f x l v).name.has (destPred f x l v).lane = true := predName_has _ _ _ h

/-- What the lanes of an instruction without flags give together. -/
theorem joinLanes_noFlags (g : Nat → List RegWrite) (lanes : List Nat) :
    joinLanes (fun l => noFlags (g l)) lanes = (lanes.flatMap g, 0) := by
  unfold joinLanes
  congr 1
  · simp [List.flatMap_map, noFlags]
  · induction lanes with
    | nil => rfl
    | cons l ls ih => simpa [noFlags] using ih

theorem joinLanes_has {body : Nat → LaneEffect} {s : State} {f : Fields}
    (h : ∀ l, l < 64 → ∀ x ∈ (body l).1, x.name.has x.lane = true) :
    ∀ x ∈ (joinLanes body (s.actLanes f)).1, x.name.has x.lane = true := by
  intro x hx
  simp only [joinLanes, List.mem_flatMap, List.mem_map] at hx
  obtain ⟨e, ⟨l, hl, rfl⟩, hx⟩ := hx
  exact h l (actLanes_lt hl) x hx

/-- A lane-wise register instruction without flags: every active lane's writes are made and nothing else changes. -/
theorem runRegs_completes {i : Instr} {f : Fields} {s : State} {g : Nat → List RegWrite}
    (hw : s.warp.regs.wf = true) (hb : s.indirectBreach i f = none)
    (hg : ∀ l, l < 64 → ∀ x ∈ g l, x.name.has x.lane = true) :
    Wrote s (s.runRegs i f fun l => noFlags (g l)) ((s.actLanes f).flatMap g) ∧
      RegisterFrame s (s.runRegs i f fun l => noFlags (g l)) f 0 := by
  have := runWrites_completes (effect := joinLanes fun l => noFlags (g l)) hw hb
    (joinLanes_has (fun l hl => hg l hl))
  rw [joinLanes_noFlags] at this
  exact this

/-- The same with sticky flags. -/
theorem runRegs_completes_flags {i : Instr} {f : Fields} {s : State} {g : Nat → LaneEffect}
    (hw : s.warp.regs.wf = true) (hb : s.indirectBreach i f = none)
    (hg : ∀ l, l < 64 → ∀ x ∈ (g l).1, x.name.has x.lane = true) :
    Wrote s (s.runRegs i f g) ((s.actLanes f).flatMap fun l => (g l).1) ∧
      RegisterFrame s (s.runRegs i f g) f (s.lanesFlags f fun l => (g l).2) := by
  have := runWrites_completes (effect := joinLanes g) hw hb (joinLanes_has hg)
  simp only [joinLanes, List.flatMap_map, List.foldl_map] at this
  exact this

end Sys2Proof.Machine
end

