-- ==== Sys2Proof/Laws/Completes.lean ====
section
/-! SUPPORT. From an equation for a meaning to its completion: one lemma for each of the shared ways in which register
instructions run. -/

namespace Sys2Proof.Machine

theorem Warp.wf_regs {w : Warp} (h : w.wf = true) : w.regs.wf = true := by
  simp only [Warp.wf, Bool.and_eq_true] at h; exact h.1

/-- Every value that an instruction reads is one of 32 bits. -/
theorem reg_lt {s : State} (h : s.warp.wf = true) (n : RegName) (lane : Nat) : s.reg n lane < 2 ^ 32 := by
  have hg : s.warp.regs.get n lane < 2 ^ 32 := by
    cases n <;> simp only [RegFile.get]
    case v k => exact (tget 0 s.warp.regs.v (vkey k lane)).isLt
    case s k => exact (tget 0 s.warp.regs.s k).isLt
    case x k => exact (tget 0 s.warp.regs.x k).isLt
    case h k => exact Nat.lt_trans (tget 0 s.warp.regs.h k).isLt (by decide)
    case p k => split <;> first | decide | (unfold b2n; split <;> decide)
    case q k => split <;> first | decide | (unfold b2n; split <;> decide)
  unfold State.reg
  split
  · next r hr =>
    split
    · simp only [Warp.wf, Bool.and_eq_true, List.all_eq_true, decide_eq_true_eq] at h
      exact h.2 r (List.mem_of_find?_eq_some hr)
    · exact hg
  · exact hg

theorem regs_succ (s : State) (name : Nat → RegName) (r lane n : Nat) :
    s.regs name r lane (n + 1) = s.reg (name r) lane + s.regs name (r + 1) lane n <<< 32 := rfl

/-- The value of `n` consecutive registers is one of 32 n bits. -/
theorem regs_lt {s : State} (h : s.warp.wf = true) (name : Nat → RegName) (lane : Nat) :
    ∀ n r, s.regs name r lane n < 2 ^ (32 * n) := by
  intro n
  induction n with
  | zero => exact fun r => Nat.zero_lt_one
  | succ n ih =>
    intro r
    have h1 := reg_lt h (name r) lane
    have h2 := ih (r + 1)
    rw [regs_succ, Nat.shiftLeft_eq]
    calc s.reg (name r) lane + s.regs name (r + 1) lane n * 2 ^ 32
        < 2 ^ 32 + s.regs name (r + 1) lane n * 2 ^ 32 := by omega
      _ = (s.regs name (r + 1) lane n + 1) * 2 ^ 32 := by ring
      _ ≤ 2 ^ (32 * n) * 2 ^ 32 := Nat.mul_le_mul_right _ h2
      _ = 2 ^ (32 * (n + 1)) := by rw [← pow_add]; ring_nf

theorem srcA_lt {s : State} (h : s.warp.wf = true) (f : Fields) (n lane : Nat) : s.srcA f n lane < 2 ^ (32 * n) := by
  unfold State.srcA State.source; repeat' split
  all_goals exact regs_lt h _ _ _ _

theorem srcBReg_lt {s : State} (h : s.warp.wf = true) (f : Fields) (n lane : Nat) :
    s.srcBReg f n lane < 2 ^ (32 * n) := by
  unfold State.srcBReg State.source; repeat' split
  all_goals exact regs_lt h _ _ _ _

theorem field_lt {s : State} (h : s.warp.wf = true) (f : Fields) (x : BitVec 8) (n lane : Nat) :
    s.field f x n lane < 2 ^ (32 * n) := by
  unfold State.field; split
  all_goals exact regs_lt h _ _ _ _

section
variable {i : Instr} {f : Fields} {s : State} {n : Nat}

/-- A lane-wise instruction with one register result. -/
theorem completes_of_runRegs {v : Nat → Nat} (e : exec i s = .next (s.runRegs i f fun l => noFlags (dest f n l (v l)))) :
    Gives i f s n v :=
  fun h => ⟨_, e, runRegs_completes (Warp.wf_regs h.2.1) h.2.2 fun _ hl => dest_has hl⟩

/-- A lane-wise instruction with one predicate result. -/
theorem completes_of_runRegs_pred {x : BitVec 8} {v : Nat → Bool}
    (e : exec i s = .next (s.runRegs i f fun l => noFlags [destPred f x l (v l)])) : GivesPred i f s x v :=
  fun h => ⟨_, e, runRegs_completes (Warp.wf_regs h.2.1) h.2.2 fun _ hl y hy => by
    rw [List.mem_singleton.mp hy]; exact destPred_has hl⟩

/-- A lane-wise instruction with any writes. -/
theorem completes_of_runRegs_list {g : Nat → List RegWrite} (e : exec i s = .next (s.runRegs i f fun l => noFlags (g l)))
    (hg : ∀ l, l < 64 → ∀ x ∈ g l, x.name.has x.lane = true) (h : s.clear i f) :
    Completes i f s ((s.actLanes f).flatMap g) 0 :=
  ⟨_, e, runRegs_completes (Warp.wf_regs h.2.1) h.2.2 hg⟩

/-- A lane-wise instruction with one register result and flags. -/
theorem completes_of_runRegs_flags {r : Nat → Rounded}
    (e : exec i s = .next (s.runRegs i f fun l => (dest f n l (r l).1, (r l).2))) (h : s.clear i f) :
    Completes i f s (s.lanesWrite f n fun l => (r l).1) (s.lanesFlags f fun l => (r l).2) :=
  ⟨_, e, runRegs_completes_flags (Warp.wf_regs h.2.1) h.2.2 fun _ hl => dest_has hl⟩

/-- An instruction over the lanes together. -/
theorem completes_of_runWrites {effect : List Nat → LaneEffect} (e : exec i s = .next (s.runWrites i f effect))
    (hl : ∀ r ∈ (effect (s.actLanes f)).1, r.name.has r.lane = true) (h : s.clear i f) :
    Completes i f s (effect (s.actLanes f)).1 (effect (s.actLanes f)).2 :=
  ⟨_, e, runWrites_completes (Warp.wf_regs h.2.1) h.2.2 hl⟩

/-- An element-wise instruction whose elements are narrowed. -/
theorem completes_of_elements {t : Nat} {sat : Bool} {r : Nat → Nat → Int} (ht : i.WellFormed → 0 < typeWidth t)
    (e : exec i s = .next (s.runRegs i f fun l =>
      noFlags (dest f (regsOfType t) l (packElems t fun k => narrow t sat (r l k))))) :
    GivesElements i f s t sat r :=
  fun h => ⟨_, completes_of_runRegs e h, fun _ _ => ⟨packElems_lt fun _ => narrow_lt _ _ _, fun k hk => by
    rw [elt_packElems (fun _ => narrow_lt _ _ _) hk]; exact readAs_narrow (ht h.1) _ _⟩⟩

/-- A result is lost only to an earlier write of the run. -/
theorem Warp.raceLost_in (w : Warp) (free : Nat) (covers : List RegName) (x : RegName × Nat) (h : x ∈ w.raceLost free covers) :
    x.1 ∈ covers ∧ w.runHas x.1 x.2 = true := by
  simp only [Warp.raceLost, List.mem_map, List.mem_filter, Bool.and_eq_true, List.contains_iff_mem] at h
  obtain ⟨r, ⟨hr, hc, _⟩, rfl⟩ := h
  exact ⟨hc, List.any_eq_true.2 ⟨r, hr, by simp⟩⟩

/-- A long-latency register instruction: the entry, the event and the counters. -/
theorem started_of_runLater {m : Nat} {g : Nat → LaneEffect} (hb : s.indirectBreach i f = none) :
    Started s (s.runLater i f m g) f (coversD f m) ((s.actLanes f).flatMap fun l => (g l).1)
      (s.lanesFlags f fun l => (g l).2) := by
  have ht : s.runLater i f m g = (s.later (coversD f m) (joinLanes g (s.actLanes f)).1
      (joinLanes g (s.actLanes f)).2).advance f := by simp only [State.runLater, hb]
  have hj : joinLanes g (s.actLanes f) =
      ((s.actLanes f).flatMap fun l => (g l).1, s.lanesFlags f fun l => (g l).2) := by
    simp only [joinLanes, State.lanesFlags, List.flatMap_map, List.foldl_map]
  rw [hj] at ht
  generalize hws : (s.actLanes f).flatMap (fun l => (g l).1) = ws at ht
  generalize hfl : (s.lanesFlags f fun l => (g l).2) = fl at ht
  generalize hw : s.warp.takeEntry s.free (coversD f m) ws fl = w at *
  have hadv := Warp.advance_rest w f.slot (f.drain || false)
  have hcnt := Warp.advance_counters w f.slot (f.drain || false)
  have htw : (s.runLater i f m g).warp = w.advance f.slot (f.drain || false) := by
    rw [ht, ← hw]; rfl
  have hq : w.quads = s.warp.quads := by rw [← hw]; rfl
  have hg : w.gang = s.warp.gang := by rw [← hw]; rfl
  have hr : w.resuming = s.warp.resuming := by rw [← hw]; rfl
  have hst : s.runLater i f m g = { s with warp := (s.runLater i f m g).warp, agenda := s.agenda ++ [.longLatencyResult s.warp.id s.warp.nextId] } := by
    rw [ht]; rfl
  refine ⟨?_, ?_, ?_, ?_⟩
  · have e1 : (s.runLater i f m g).warp = { s.warp with
        score := (s.runLater i f m g).warp.score, nextId := s.warp.nextId + 1, quads := (s.runLater i f m g).warp.quads
        gang := (s.runLater i f m g).warp.gang, resuming := none
        prio := if f.drain then s.warp.prioNext.getD s.warp.prio else s.warp.prio
        prioNext := if f.drain then none else s.warp.prioNext
        run := if f.drain then [] else s.warp.run, runFlags := if f.drain then 0 else s.warp.runFlags
        fmode := if f.drain then s.warp.fmode ||| s.warp.runFlags else s.warp.fmode } := by
      rw [htw, hadv, ← hw]; simp [Warp.takeEntry]
    calc s.runLater i f m g = _ := hst
      _ = _ := by rw [← e1]
  · refine ⟨{ s.warp.newEntry s.free .known (coversD f m) with results := ws, flags := fl }, ?_,
      rfl, rfl, rfl, rfl, rfl, rfl, rfl, rfl, rfl, fun x hx => Warp.raceLost_in _ _ _ x hx⟩
    rw [htw, hadv, ← hw]; rfl
  · rw [hst]; exact ⟨fun _ _ => rfl, fun _ => rfl⟩
  · rw [hq, hg, hr] at hcnt
    rw [CountersPast, htw]; exact hcnt

end

end Sys2Proof.Machine
end

