-- ==== Sys2Proof/Laws/Encoding.lean ====
section
/-! SUPPORT. The layouts of instruction words: what is packed is read back. -/

namespace Sys2Proof

/-- A field in the lower part of two joined words. -/
theorem extractLsb'_append_low {n m : Nat} (x : BitVec n) (y : BitVec m) (i k : Nat) (h : i + k ≤ m) :
    (x ++ y).extractLsb' i k = y.extractLsb' i k := by
  apply BitVec.eq_of_getLsbD_eq
  intro j hj
  have : i + j < m := by omega
  simp [BitVec.getLsbD_append, this, hj]

/-- A field in the upper part of two joined words. -/
theorem extractLsb'_append_high {n m : Nat} (x : BitVec n) (y : BitVec m) (i k : Nat) (h : m ≤ i) :
    (x ++ y).extractLsb' i k = x.extractLsb' (i - m) k := by
  apply BitVec.eq_of_getLsbD_eq
  intro j hj
  have h1 : ¬ i + j < m := by omega
  have h2 : i + j - m = i - m + j := by omega
  simp [BitVec.getLsbD_append, h1, hj, h2]

theorem extractLsb'_whole {n : Nat} (x : BitVec n) : x.extractLsb' 0 n = x := by
  apply BitVec.eq_of_getLsbD_eq
  intro j hj
  simp [hj]

/-- A bit in the lower part of two joined words. -/
theorem getLsbD_append_low {n m : Nat} (x : BitVec n) (y : BitVec m) (i : Nat) (h : i < m) :
    (x ++ y).getLsbD i = y.getLsbD i := by simp [BitVec.getLsbD_append, h]

/-- A bit in the upper part of two joined words. -/
theorem getLsbD_append_high {n m : Nat} (x : BitVec n) (y : BitVec m) (i : Nat) (h : m ≤ i) :
    (x ++ y).getLsbD i = x.getLsbD (i - m) := by simp [BitVec.getLsbD_append, Nat.not_lt.2 h]

theorem getLsbD_flag (b : Bool) : (BitVec.ofBool b).getLsbD 0 = b := by cases b <;> rfl

/-- Bits [63:0]: the fields are read back, whatever length code and opcode stand with them. -/
theorem unpackLow_packLow (len : BitVec 2) (op : BitVec 10) (f : Fields) : unpackLow (packLow len op f) f.ext = f := by
  obtain ⟨⟨ga, gan, gb, gbn⟩, drain, hint, k, mod, d, a, b, c, asel, bsel, ext⟩ := f
  simp only [unpackLow, packLow, Fields.mk.injEq, Guard.mk.injEq, and_true]
  refine ⟨⟨?_, ?_, ?_, ?_⟩, ?_, ?_, ?_, ?_, ?_, ?_, ?_, ?_, ?_, ?_⟩ <;>
  repeat
    first
    | refine (extractLsb'_append_low _ _ _ _ (by decide)).trans ?_
    | refine (extractLsb'_append_high _ _ _ _ (by decide)).trans ?_
    | refine (getLsbD_append_low _ _ _ (by decide)).trans ?_
    | refine (getLsbD_append_high _ _ _ (by decide)).trans ?_
    | exact extractLsb'_whole _
    | exact getLsbD_flag _

theorem packLow_len (len : BitVec 2) (op : BitVec 10) (f : Fields) : (packLow len op f).extractLsb' 0 2 = len := by
  unfold packLow
  repeat
    first
    | refine (extractLsb'_append_low _ _ _ _ (by decide)).trans ?_
    | refine (extractLsb'_append_high _ _ _ _ (by decide)).trans ?_
    | exact extractLsb'_whole _

theorem packLow_op (len : BitVec 2) (op : BitVec 10) (f : Fields) : (packLow len op f).extractLsb' 2 10 = op := by
  unfold packLow
  repeat
    first
    | refine (extractLsb'_append_low _ _ _ _ (by decide)).trans ?_
    | refine (extractLsb'_append_high _ _ _ _ (by decide)).trans ?_
    | exact extractLsb'_whole _

/-- Bits [127:64]: the extension is read back where the kind of the opcode's 96-bit form is its kind (R39, R61). -/
theorem unpackExt_packExt (op : Nat) (x : Ext)
    (h : match x with | .immI _ => kindE op = false | .extE _ _ _ => kindE op = true | _ => True) :
    unpackExt (packExt x).1 op (packExt x).2 = some x := by
  cases x with
  | none => rfl
  | immI i =>
    have h1 : ((0 : BitVec 32) ++ i : BitVec 64).extractLsb' 32 32 = 0 :=
      (extractLsb'_append_high _ _ _ _ (by decide)).trans (extractLsb'_whole _)
    have h2 : ((0 : BitVec 32) ++ i : BitVec 64).extractLsb' 0 32 = i :=
      (extractLsb'_append_low _ _ _ _ (by decide)).trans (extractLsb'_whole _)
    simp only at h
    simp only [unpackExt, packExt, h, h1, h2]
    rfl
  | extE x f e =>
    have h1 : ((0 : BitVec 32) ++ (x ++ f ++ e) : BitVec 64).extractLsb' 32 32 = 0 :=
      (extractLsb'_append_high _ _ _ _ (by decide)).trans (extractLsb'_whole _)
    have h2 : ((0 : BitVec 32) ++ (x ++ f ++ e) : BitVec 64).extractLsb' 16 16 = x ∧
        ((0 : BitVec 32) ++ (x ++ f ++ e) : BitVec 64).extractLsb' 8 8 = f ∧
        ((0 : BitVec 32) ++ (x ++ f ++ e) : BitVec 64).extractLsb' 0 8 = e := by
      refine ⟨?_, ?_, ?_⟩ <;>
      repeat
        first
        | refine (extractLsb'_append_low _ _ _ _ (by decide)).trans ?_
        | refine (extractLsb'_append_high _ _ _ _ (by decide)).trans ?_
        | exact extractLsb'_whole _
    simp only at h
    simp only [unpackExt, packExt, h, h1, h2]
    rfl
  | full x f e i =>
    have h1 : (x ++ f ++ e ++ i : BitVec 64).extractLsb' 48 16 = x ∧ (x ++ f ++ e ++ i : BitVec 64).extractLsb' 40 8 = f ∧
        (x ++ f ++ e ++ i : BitVec 64).extractLsb' 32 8 = e ∧ (x ++ f ++ e ++ i : BitVec 64).extractLsb' 0 32 = i := by
      refine ⟨?_, ?_, ?_, ?_⟩ <;>
      repeat
        first
        | refine (extractLsb'_append_low _ _ _ _ (by decide)).trans ?_
        | refine (extractLsb'_append_high _ _ _ _ (by decide)).trans ?_
        | exact extractLsb'_whole _
    simp only [unpackExt, packExt, h1]
    rfl

/-- The 256-bit LOOPNEST is read back. -/
theorem unpackNest_packNest (f : NestFields) : unpackNest (packNest f) = f := by
  obtain ⟨drain, d, a, b, c, e0, e1, e2, e3, e4, tC, tB, tA, tD, rnd, fd, fs, r, lv, xop⟩ := f
  simp only [unpackNest, packNest, NestFields.mk.injEq]
  refine ⟨?_, ?_, ?_, ?_, ?_, ?_, ?_, ?_, ?_, ?_, ?_, ?_, ?_, ?_, ?_, ?_, ?_, ?_, ?_, ?_⟩ <;>
  repeat
    first
    | refine (extractLsb'_append_low _ _ _ _ (by decide)).trans ?_
    | refine (extractLsb'_append_high _ _ _ _ (by decide)).trans ?_
    | refine (getLsbD_append_low _ _ _ (by decide)).trans ?_
    | refine (getLsbD_append_high _ _ _ (by decide)).trans ?_
    | exact extractLsb'_whole _
    | exact getLsbD_flag _

end Sys2Proof
end

