-- ==== Sys2Proof/Laws/Memory.lean ====
section
/-! SUPPORT. Memory at its homes: a byte read after a byte written, and the canonical form of the memories, which every
operation that reaches them keeps. -/

namespace Sys2Proof.Machine

theorem State.memoryWf_iff {s : State} :
    s.memoryWf = true ↔ Memory.wf s.mem = true ∧ Memory.wf s.hostMem = true ∧ Memory.wf s.peerMem = true := by
  simp [State.memoryWf, and_assoc]

/-- What leaves the three memories alone keeps their form. -/
theorem State.memoryWf_same {s t : State} (h : s.memoryWf = true) (hm : t.mem = s.mem) (hh : t.hostMem = s.hostMem)
    (hp : t.peerMem = s.peerMem) : t.memoryWf = true := by
  simpa [State.memoryWf, hm, hh, hp] using h

/-- A step of a fold that keeps the form gives a fold that keeps it. -/
theorem State.memoryWf_foldl {α : Type} {g : State → α → State} {l : List α} {s : State} (h : s.memoryWf = true)
    (hg : ∀ (s : State) (x : α), s.memoryWf = true → (g s x).memoryWf = true) : (l.foldl g s).memoryWf = true := by
  induction l generalizing s with
  | nil => exact h
  | cons x l ih => exact ih (hg s x h)

/-! ## One byte -/

theorem State.setHomeByte_memoryWf {s : State} (h : s.memoryWf = true) (b : Nat) (v : Byte) :
    (s.setHomeByte b v).memoryWf = true := by
  obtain ⟨hm, hh, hp⟩ := memoryWf_iff.1 h
  unfold State.setHomeByte
  dsimp only
  split
  · exact memoryWf_iff.2 ⟨hm, hh, twf_tput hp⟩
  · split
    · exact memoryWf_iff.2 ⟨twf_tput hm, hh, hp⟩
    · exact memoryWf_iff.2 ⟨hm, twf_tput hh, hp⟩

/-- Addresses of two bytes that share device and offset are one address. -/
theorem byte_of_parts {b c : Nat} (hb : b < 2 ^ 61) (hc : c < 2 ^ 61) (hd : deviceOf (b * 8) = deviceOf (c * 8))
    (hp : paOf (b * 8) / 8 = paOf (c * 8) / 8) : b = c := by
  simp only [deviceOf, paOf, Nat.shiftRight_eq_div_pow] at hd hp
  omega

theorem region_of_parts {b c : Nat} (hp : paOf (b * 8) / 8 = paOf (c * 8) / 8) : regionOf (b * 8) = regionOf (c * 8) := by
  have : ∀ x : Nat, regionOf (x * 8) = paOf (x * 8) / 8 / 2 ^ 50 := by
    intro x
    simp only [regionOf, paOf, bits, Nat.shiftRight_eq_div_pow]
    omega
  rw [this, this, hp]

/-- A byte reads as the value written to it; every other byte of the fabric's addresses reads as before. -/
theorem State.homeByte_setHomeByte {s : State} (h : s.memoryWf = true) {b c : Nat} (hb : b < 2 ^ 61) (hc : c < 2 ^ 61) (v : Byte) :
    (s.setHomeByte b v).homeByte c = if c = b then v.toNat else s.homeByte c := by
  obtain ⟨hm, hh, hp⟩ := memoryWf_iff.1 h
  have apart : deviceOf (b * 8) = deviceOf (c * 8) → c ≠ b → paOf (c * 8) / 8 ≠ paOf (b * 8) / 8 :=
    fun hd hn e => hn (byte_of_parts hc hb hd.symm e)
  unfold State.setHomeByte State.homeByte
  dsimp only
  by_cases hdb : (deviceOf (b * 8) != s.device) = true
  · rw [if_pos hdb]
    dsimp only
    rw [tget_tput hp]
    by_cases e : c = b
    · subst e; simp [hdb]
    · simp [e]
  · rw [if_neg hdb]
    by_cases e : c = b
    · subst e
      by_cases hr : regionOf (c * 8) = 0
      · rw [if_pos hr]; dsimp only; rw [if_neg hdb, if_pos hr, tget_tput hm]; simp
      · rw [if_neg hr]; dsimp only; rw [if_neg hdb, if_neg hr, tget_tput hh]; simp
    · rw [if_neg e]
      by_cases hdc : (deviceOf (c * 8) != s.device) = true
      · split <;> simp
      · have hd : deviceOf (b * 8) = deviceOf (c * 8) := by simp_all
        have hn := apart hd e
        split
        · dsimp only
          rw [tget_tput hm, if_neg hn]
        · dsimp only
          rw [tget_tput hh, if_neg hn]

/-! ## Writing at the home -/

theorem State.healByte_memoryWf {s : State} (h : s.memoryWf = true) (b : Nat) : (s.healByte b).memoryWf = true := by
  unfold State.healByte
  split
  · exact h
  · exact memoryWf_same h rfl rfl rfl

theorem State.homeReport_memoryWf {s : State} (h : s.memoryWf = true) (fa m k sl d p : Nat) :
    (s.homeReport fa m k sl d p).memoryWf = true := by
  unfold State.homeReport State.homeReportOf
  split
  · exact memoryWf_same h rfl rfl rfl
  · exact h

theorem State.forward_memoryWf {s : State} (h : s.memoryWf = true) (line m v : Nat) (r : Option Nat) :
    (s.forward line m v r).memoryWf = true := by
  unfold State.forward
  dsimp only
  split
  · exact h
  · split
    · exact memoryWf_same h rfl rfl rfl
    · exact h

theorem State.homePoke_memoryWf {s : State} (h : s.memoryWf = true) (fa w v : Nat) : (s.homePoke fa w v).memoryWf = true := by
  unfold State.homePoke
  exact memoryWf_foldl (memoryWf_foldl (l := writeBits s.homeByte fa w v) h fun u x hu => setHomeByte_memoryWf hu ..)
    fun u x hu => healByte_memoryWf hu x

theorem State.setL2_memoryWf {s : State} (h : s.memoryWf = true) (d line : Nat) (l : Option L2Line) :
    (s.setL2 d line l).memoryWf = true := memoryWf_same h rfl rfl rfl

theorem State.modDir_memoryWf {s : State} (h : s.memoryWf = true) (line : Nat) (g : DirEntry → DirEntry) :
    (s.modDir line g).memoryWf = true := memoryWf_same h rfl rfl rfl

theorem State.dropSharers_memoryWf {s : State} (h : s.memoryWf = true) (line : Nat) : (s.dropSharers line).memoryWf = true := by
  unfold State.dropSharers
  split
  · exact modDir_memoryWf (memoryWf_foldl h fun u d hu => setL2_memoryWf hu ..) ..
  · exact h

theorem State.pokeLine_memoryWf {s : State} (h : s.memoryWf = true) (d line : Nat) : (s.pokeLine d line).memoryWf = true := by
  unfold State.pokeLine
  split
  · exact h
  · exact memoryWf_foldl h fun u i hu => homePoke_memoryWf hu ..

theorem State.orBit_memoryWf {s : State} (h : s.memoryWf = true) (a : Nat) : (s.orBit a).memoryWf = true := by
  have hd := dropSharers_memoryWf h (lineOf a)
  unfold State.orBit
  dsimp only
  split
  · split
    · exact setL2_memoryWf hd ..
    · exact homePoke_memoryWf hd ..
  · exact homePoke_memoryWf hd ..

theorem State.setDirtyBit_memoryWf {s : State} (h : s.memoryWf = true) (fa : Nat) : (s.setDirtyBit fa).memoryWf = true := by
  unfold State.setDirtyBit
  split
  · exact h
  · next a _ =>
    refine homeReport_memoryWf (homePoke_memoryWf ?_ ..) ..
    split
    · next d _ =>
      have hu := modDir_memoryWf (setL2_memoryWf (pokeLine_memoryWf h d (lineOf a)) d (lineOf a) none) (lineOf a)
        fun e => { e with st := .u }
      dsimp only
      split
      · split
        · split
          · exact orBit_memoryWf hu _
          · exact hu
        · exact hu
      · split
        · split
          · exact orBit_memoryWf hu _
          · exact hu
        · exact hu
    · exact dropSharers_memoryWf h _

theorem State.homeMark_memoryWf {s : State} (h : s.memoryWf = true) (line bytes : Nat) (toHbm : Bool) :
    (s.homeMark line bytes toHbm).memoryWf = true := by
  unfold State.homeMark
  split
  · exact h
  · split
    · exact setDirtyBit_memoryWf h _
    · exact memoryWf_same h rfl rfl rfl

theorem State.homePut_memoryWf {s : State} (h : s.memoryWf = true) (fa w v : Nat) (toHbm : Bool) :
    (s.homePut fa w v toHbm).memoryWf = true := homeMark_memoryWf (homePoke_memoryWf h ..) ..

theorem State.homeWrite_memoryWf {s : State} (h : s.memoryWf = true) (fa w v : Nat) (r : Option Nat) (toHbm : Bool) :
    (s.homeWrite fa w v r toHbm).memoryWf = true := forward_memoryWf (homePut_memoryWf h ..) ..

theorem State.homeMerge_memoryWf {s : State} (h : s.memoryWf = true) (line mask v : Nat) (toHbm : Bool) :
    (s.homeMerge line mask v toHbm).memoryWf = true := by
  unfold State.homeMerge
  dsimp only
  split
  · exact h
  · refine homeMark_memoryWf (memoryWf_foldl h fun u i hu => ?_) ..
    split
    · exact homePoke_memoryWf hu ..
    · exact memoryWf_foldl hu fun u k hu => homePoke_memoryWf hu ..

theorem State.recallHosts_memoryWf {s : State} (h : s.memoryWf = true) (line : Nat) (w : Bool) :
    (s.recallHosts line w).memoryWf = true := by
  unfold State.recallHosts
  dsimp only
  split
  · exact h
  · split
    · next x _ =>
      exact memoryWf_same (homeWrite_memoryWf (s := { s with free := s.free + 1 }) (memoryWf_same h rfl rfl rfl)
        (line * 2048) 2048 x none false) rfl rfl rfl
    · exact memoryWf_same h rfl rfl rfl

theorem State.setPoison_memoryWf {s : State} (h : s.memoryWf = true) (sector kind : Nat) :
    (s.setPoison sector kind).memoryWf = true := by
  unfold State.setPoison
  dsimp only
  refine memoryWf_same (s := List.foldl _ _ _) (memoryWf_foldl (s := { s with poison := _ }) ?_ ?_) rfl rfl rfl
  · exact memoryWf_same h rfl rfl rfl
  · intro u d hu
    split
    · exact hu
    · exact setL2_memoryWf hu ..

theorem State.writeBack_memoryWf {s : State} (h : s.memoryWf = true) (d line : Nat) : (s.writeBack d line).memoryWf = true := by
  unfold State.writeBack
  split
  · exact h
  · split
    · exact h
    · refine forward_memoryWf (homeMerge_memoryWf (setL2_memoryWf ?_ ..) ..) ..
      split
      · exact h
      · exact recallHosts_memoryWf h ..

theorem State.flushHomeLine_memoryWf {s : State} (h : s.memoryWf = true) (line : Nat) :
    (s.flushHomeLine line).memoryWf = true := by
  unfold State.flushHomeLine
  dsimp only
  split
  · exact h
  · exact memoryWf_same (setDirtyBit_memoryWf h (line * 2048)) rfl rfl rfl

theorem State.homeLines_memoryWf {s : State} (h : s.memoryWf = true) (x : Table HomeLine) :
    ({ s with homeLines := x } : State).memoryWf = true := h

/-! ## Replacement and the L1 -/

theorem State.evictLine_memoryWf {s : State} (h : s.memoryWf = true) (die line : Nat) : (s.evictLine die line).memoryWf = true := by
  unfold State.evictLine
  dsimp only
  split
  · exact memoryWf_same (flushHomeLine_memoryWf h line) rfl rfl rfl
  · have hw := setL2_memoryWf (writeBack_memoryWf h die line) die line none
    split <;> split
    · exact modDir_memoryWf hw ..
    · exact hw
    · exact modDir_memoryWf hw ..
    · exact hw

theorem State.makeRoom_memoryWf {s : State} (h : s.memoryWf = true) (die line : Nat) : (s.makeRoom die line).memoryWf = true := by
  unfold State.makeRoom
  dsimp only
  split
  · exact h
  · split
    · exact h
    · split
      · exact evictLine_memoryWf (s := { s with free := s.free + 1 }) (memoryWf_same h rfl rfl rfl) ..
      · exact h

theorem State.markLine_memoryWf {s : State} (h : s.memoryWf = true) (die line hint : Nat) :
    (s.markLine die line hint).memoryWf = true := by
  unfold State.markLine
  dsimp only
  split
  · split
    · exact memoryWf_same h rfl rfl rfl
    · split
      · exact setL2_memoryWf h ..
      · exact h
  · exact h

theorem State.holdHome_memoryWf {s : State} (h : s.memoryWf = true) (line hint : Nat) : (s.holdHome line hint).memoryWf = true := by
  unfold State.holdHome
  dsimp only
  split
  · exact h
  · exact markLine_memoryWf (homeLines_memoryWf (makeRoom_memoryWf h ..) _) ..

theorem State.putL2_memoryWf {s : State} (h : s.memoryWf = true) (die line hint : Nat) (l : L2Line) :
    (s.putL2 die line hint l).memoryWf = true := markLine_memoryWf (setL2_memoryWf (makeRoom_memoryWf h ..) ..) ..

theorem State.fillL1_memoryWf {s : State} (h : s.memoryWf = true) (die core sector x : Nat) :
    (s.fillL1 die core sector x).memoryWf = true := by
  unfold State.fillL1
  dsimp only
  split
  · exact memoryWf_same h rfl rfl rfl
  · split <;> exact memoryWf_same h rfl rfl rfl

theorem State.dropL1Line_memoryWf {s : State} (h : s.memoryWf = true) (die core line : Nat) :
    (s.dropL1Line die core line).memoryWf = true := memoryWf_foldl h fun _ _ hu => memoryWf_same hu rfl rfl rfl

theorem State.storeL1_memoryWf {s : State} (h : s.memoryWf = true) (die core hint : Nat) (p : StorePart) :
    (s.storeL1 die core hint p).memoryWf = true := by
  unfold State.storeL1
  split
  · exact dropL1Line_memoryWf h ..
  · exact memoryWf_same h rfl rfl rfl

theorem State.post_memoryWf {s : State} (h : s.memoryWf = true) (e : Instr) : (s.post e).memoryWf = true :=
  memoryWf_same h rfl rfl rfl

/-! ## Traps of accesses -/

theorem State.modWarpAt_memoryWf {s : State} (h : s.memoryWf = true) (id : WarpId) (g : Warp → Warp) :
    (s.modWarpAt id g).memoryWf = true := by
  unfold State.modWarpAt
  split <;> exact memoryWf_same h rfl rfl rfl

theorem State.focus_memoryWf {s : State} (h : s.memoryWf = true) (id : WarpId) : (s.focus id).memoryWf = true := by
  unfold State.focus
  split
  · exact h
  · split
    · exact h
    · exact memoryWf_same h rfl rfl rfl

theorem State.trapVesper_memoryWf {s : State} (h : s.memoryWf = true) (pc : DWord) (t : Trap) :
    (s.trapVesper pc t).memoryWf = true := by
  unfold State.trapVesper
  dsimp only
  split <;> exact memoryWf_same h rfl rfl rfl

theorem State.trapCore_memoryWf {s : State} (h : s.memoryWf = true) (pc : DWord) (t : Trap) :
    (s.trapCore pc t).memoryWf = true := memoryWf_same h rfl rfl rfl

theorem State.trapEntry_memoryWf {s : State} (h : s.memoryWf = true) (id : WarpId) (pc : DWord) (t : Trap) :
    (s.trapEntry id pc t).memoryWf = true := by
  unfold State.trapEntry
  dsimp only
  have hf := focus_memoryWf h id
  split
  · exact hf
  · split
    · exact trapVesper_memoryWf hf ..
    · exact trapCore_memoryWf hf ..

theorem State.trapLoad_memoryWf {s : State} (h : s.memoryWf = true) (id : WarpId) (e : ScoreEntry) (t : Trap) :
    (s.trapLoad id e t).memoryWf = true := by
  unfold State.trapLoad
  dsimp only
  have hf := focus_memoryWf h id
  split
  · exact hf
  · split
    · exact memoryWf_same hf rfl rfl rfl
    · generalize s.focus id = u at hf ⊢
      split
      · exact trapEntry_memoryWf (s := u.modWarp _) (memoryWf_same hf rfl rfl rfl) ..
      · exact trapEntry_memoryWf hf ..

theorem State.poisonTrap_memoryWf {s : State} (h : s.memoryWf = true) (id : WarpId) (p : LoadPart) (k : Nat) :
    (s.poisonTrap id p k).memoryWf = true := by
  unfold State.poisonTrap
  split
  · exact h
  · split
    · exact h
    · exact trapLoad_memoryWf h ..

/-! ## Requests and transactions of a line (R374, R375) -/

theorem State.finishPart_memoryWf {s : State} (h : s.memoryWf = true) (id : WarpId) (p : LoadPart) (v : Nat) (e : L1Effect) :
    (s.finishPart id p v e).memoryWf = true := by
  unfold State.finishPart
  dsimp only
  refine modWarpAt_memoryWf ?_ ..
  split
  · exact h
  · exact memoryWf_same h rfl rfl rfl
  · split
    · exact memoryWf_same h rfl rfl rfl
    · exact fillL1_memoryWf h ..

theorem State.readPart_memoryWf {s : State} (h : s.memoryWf = true) (id : WarpId) (p : LoadPart) (fa : Nat) :
    (s.readPart id p fa).memoryWf = true := by
  unfold State.readPart
  split
  · exact poisonTrap_memoryWf h ..
  · exact finishPart_memoryWf h ..

theorem State.countFill_memoryWf {s : State} (h : s.memoryWf = true) (line die pid : Nat) (m : Mode) :
    (s.countFill line die pid m).memoryWf = true := by
  unfold State.countFill
  dsimp only
  split
  · exact h
  · split <;> exact memoryWf_same h rfl rfl rfl

theorem State.readHome_memoryWf {s : State} (h : s.memoryWf = true) (line pid : Nat) (m : Mode) :
    (s.readHome line pid m).memoryWf = true := by
  unfold State.readHome
  dsimp only
  refine holdHome_memoryWf ?_ ..
  split
  · exact h
  · exact countFill_memoryWf h ..

theorem State.returnLoads_memoryWf {s : State} (h : s.memoryWf = true) (r : Req) : (s.returnLoads r).memoryWf = true := by
  unfold State.returnLoads
  split
  · exact h
  · refine memoryWf_foldl h fun u p hu => ?_
    refine post_memoryWf ?_ _
    split
    · split
      · exact finishPart_memoryWf hu ..
      · exact readPart_memoryWf hu ..
    · exact readPart_memoryWf hu ..

theorem State.storeHome_memoryWf {s : State} (h : s.memoryWf = true) (r : Req) : (s.storeHome r).memoryWf = true := by
  unfold State.storeHome
  exact memoryWf_foldl (holdHome_memoryWf h ..) fun u p hu => storeL1_memoryWf (homeWrite_memoryWf hu ..) ..

theorem State.storeL2_memoryWf {s : State} (h : s.memoryWf = true) (r : Req) (k : LineKind) : (s.storeL2 r k).memoryWf = true := by
  unfold State.storeL2
  exact memoryWf_foldl h fun u p hu => storeL1_memoryWf (putL2_memoryWf hu ..) ..

theorem State.prefetchL2_memoryWf {s : State} (h : s.memoryWf = true) (die core line : Nat) :
    (s.prefetchL2 die core line).memoryWf = true := by
  unfold State.prefetchL2
  split
  · exact h
  · refine memoryWf_foldl h fun u i hu => ?_
    split
    · exact fillL1_memoryWf hu ..
    · exact hu

theorem State.serve_memoryWf {s : State} (h : s.memoryWf = true) (r : Req) : (s.serve r).memoryWf = true := by
  have hs := recallHosts_memoryWf (modDir_memoryWf h r.line fun e => { e with used := s.nextSeq }) r.line
    (r.kind == .getM || r.kind == .homeStore)
  have fill : ∀ {u : State}, u.memoryWf = true → ∀ l : L2Line,
      (let u := (u.putL2 r.die r.line r.mode.hint l).countFill r.line r.die r.pid r.mode
       (if r.fillL1 then u.prefetchL2 r.die r.core r.line else u).returnLoads r).memoryWf = true := by
    intro u hu l
    have hc := countFill_memoryWf (putL2_memoryWf hu r.die r.line r.mode.hint l) r.line r.die r.pid r.mode
    dsimp only
    refine returnLoads_memoryWf ?_ r
    split
    · exact prefetchL2_memoryWf hc ..
    · exact hc
  unfold State.serve State.touchDir
  dsimp only
  split
  · exact fill (modDir_memoryWf hs ..) _
  · exact fill (modDir_memoryWf hs ..) _
  · exact storeL2_memoryWf (countFill_memoryWf (putL2_memoryWf (modDir_memoryWf hs ..) ..) ..) ..
  · exact returnLoads_memoryWf (readHome_memoryWf hs ..) r
  · exact storeHome_memoryWf (modDir_memoryWf hs ..) r

theorem State.beginTxn_memoryWf {s : State} (h : s.memoryWf = true) (line : Nat) (ds : List Nat) (r : Option Req) (g : Nat → Instr) :
    (s.beginTxn line ds r g).memoryWf = true := by
  unfold State.beginTxn
  exact memoryWf_foldl (modDir_memoryWf h ..) fun u d hu => memoryWf_same hu rfl rfl rfl

theorem State.recallLine_memoryWf {s : State} (h : s.memoryWf = true) (line : Nat) (r : Option Req) :
    (s.recallLine line r).memoryWf = true := by
  unfold State.recallLine
  split
  · exact h
  · exact memoryWf_same (t := State.countInval _ _ _) (beginTxn_memoryWf h ..) rfl rfl rfl
  · exact beginTxn_memoryWf h ..

theorem State.letIn_memoryWf {s : State} (h : s.memoryWf = true) (r : Req) : (s.letIn r).memoryWf = true := by
  have count : ∀ {u : State} (a b : Nat), u.memoryWf = true → (u.countInval a b).memoryWf = true :=
    fun a b hu => memoryWf_same hu rfl rfl rfl
  unfold State.letIn
  dsimp only
  split
  · exact modDir_memoryWf h ..
  · split
    · next v _ =>
      have hv : (s.modDie (dieOf (v * 2048)) fun d =>
          { d with regs := { d.regs with dirrecall := d.regs.dirrecall + 1 } }).memoryWf = true := memoryWf_same h rfl rfl rfl
      split
      · exact serve_memoryWf h r
      · exact post_memoryWf (recallLine_memoryWf hv v none) _
    · split <;> (try split) <;>
        first
        | exact serve_memoryWf h r
        | exact count _ _ (beginTxn_memoryWf h ..)
        | exact beginTxn_memoryWf h ..

theorem State.drainQueue_memoryWf {s : State} (h : s.memoryWf = true) (line : Nat) (rs : List Req) :
    (s.drainQueue line rs).memoryWf = true := by
  induction rs generalizing s with
  | nil => exact h
  | cons r rs ih =>
    unfold State.drainQueue
    split
    · exact modDir_memoryWf h ..
    · exact ih (letIn_memoryWf h r)

theorem State.recallAt_memoryWf {s : State} (h : s.memoryWf = true) (die line : Nat) (keep : Bool) :
    (s.recallAt die line keep).memoryWf = true := by
  unfold State.recallAt
  dsimp only
  have hw := writeBack_memoryWf h die line
  split
  · refine modDir_memoryWf ?_ ..
    split
    · exact setL2_memoryWf hw ..
    · exact hw
  · exact modDir_memoryWf (setL2_memoryWf hw ..) ..

theorem State.completeTxn_memoryWf {s : State} (h : s.memoryWf = true) (line : Nat) : (s.completeTxn line).memoryWf = true := by
  unfold State.completeTxn
  split
  · exact h
  · dsimp only
    refine drainQueue_memoryWf ?_ ..
    split
    · exact serve_memoryWf (modDir_memoryWf h ..) _
    · exact modDir_memoryWf h ..

theorem State.finishTxn_memoryWf {s : State} (h : s.memoryWf = true) (line : Nat) (t : Txn) : (s.finishTxn line t).memoryWf = true := by
  unfold State.finishTxn
  have ha : ({ s with agenda := s.agenda.filter fun i => !txnMessage line i } : State).memoryWf = true := memoryWf_same h rfl rfl rfl
  refine completeTxn_memoryWf (memoryWf_foldl ha fun u d hu => ?_) line
  split
  · exact recallAt_memoryWf hu ..
  · exact modDir_memoryWf (setL2_memoryWf hu ..) ..

theorem State.settleFuel_memoryWf (line n : Nat) {s : State} (h : s.memoryWf = true) : (State.settleFuel line n s).memoryWf = true := by
  induction n generalizing s with
  | zero => exact h
  | succ n ih =>
    unfold State.settleFuel
    split
    · exact h
    · exact ih (finishTxn_memoryWf h ..)

theorem State.settleLine_memoryWf {s : State} (h : s.memoryWf = true) (line : Nat) : (s.settleLine line).memoryWf = true :=
  settleFuel_memoryWf line _ h

theorem State.pullAll_memoryWf {s : State} (h : s.memoryWf = true) (line : Nat) : (s.pullAll line).memoryWf = true := by
  unfold State.pullAll
  dsimp only
  have hr := recallHosts_memoryWf (settleLine_memoryWf h line) line true
  split
  · exact hr
  · next m _ =>
    have hf := memoryWf_foldl (l := setBits 4 m) (g := fun s d => s.dropL2 d line) hr fun u d hu => setL2_memoryWf hu ..
    exact memoryWf_same hf rfl rfl rfl
  · exact recallAt_memoryWf hr ..

theorem State.homeUpdate_memoryWf {s : State} (h : s.memoryWf = true) (fa w : Nat) (g : Nat → Nat) (r : Option Nat) :
    (s.homeUpdate fa w g r).2.memoryWf = true := homeWrite_memoryWf (holdHome_memoryWf (pullAll_memoryWf h _) ..) ..

theorem State.deviceWrite_memoryWf {s : State} (h : s.memoryWf = true) (fa w v : Nat) (r : Option Nat) :
    (s.deviceWrite fa w v r).memoryWf = true := homeUpdate_memoryWf h ..

theorem State.deviceWrites_memoryWf {s : State} (h : s.memoryWf = true) (fa : Nat) (vs : List Nat) :
    (s.deviceWrites fa vs).memoryWf = true := by
  induction vs generalizing s fa with
  | nil => exact h
  | cons v vs ih => exact ih (deviceWrite_memoryWf h ..) _

/-! ## Translation -/

theorem State.noteSharer_memoryWf {s : State} (h : s.memoryWf = true) (a line : Nat) : (s.noteSharer a line).memoryWf = true := by
  unfold State.noteSharer
  dsimp only
  refine memoryWf_same (s := ite _ _ _) ?_ rfl rfl rfl
  split
  · split
    · exact memoryWf_same h rfl rfl rfl
    · exact h
  · exact h

theorem State.modCore_memoryWf {s : State} (h : s.memoryWf = true) (die core : Nat) (g : Core → Core) :
    (s.modCore die core g).memoryWf = true := memoryWf_same h rfl rfl rfl

/-- What a walk notes keeps the form. -/
theorem State.noteWalk_memoryWf {s : State} (h : s.memoryWf = true) (die core p va : Nat) (reads : List WalkRead) :
    ((reads.foldl (fun s x => s.noteSharer (coreAgent die core) x.line) s).noteTables die core p va reads).memoryWf = true :=
  modCore_memoryWf (memoryWf_foldl h fun _ _ hu => noteSharer_memoryWf hu ..) ..

theorem State.takeWalk_memoryWf {s : State} (h : s.memoryWf = true) (die core p : Nat) (user : Bool) (va : Nat) (n : Need)
    (found : Walk × List WalkRead) : (s.takeWalk die core p user va n found).1.memoryWf = true := by
  have hn := noteWalk_memoryWf h die core p va found.2
  unfold State.takeWalk
  dsimp only
  split
  · exact hn
  · exact hn
  · refine modCore_memoryWf ?_ ..
    split
    · exact hn
    · exact homeReport_memoryWf (homeUpdate_memoryWf hn ..) ..

theorem State.translateWalk_memoryWf {s : State} (h : s.memoryWf = true) (die core p : Nat) (user : Bool) (va : Nat) (n : Need) :
    (s.translateWalk die core p user va n).1.memoryWf = true := by
  unfold State.translateWalk
  dsimp only
  split
  · exact takeWalk_memoryWf h ..
  · split
    · exact h
    · exact takeWalk_memoryWf (modCore_memoryWf h ..) ..

/-- A translation keeps the form, whatever it answers: the accessed bit that it may set is a byte written. -/
theorem State.translate_memoryWf {s : State} (h : s.memoryWf = true) (die core p : Nat) (user : Bool) (va : Nat) (n : Need) :
    (s.translate die core p user va n).1.memoryWf = true := by
  unfold State.translate
  split
  · exact h
  · exact translateWalk_memoryWf h ..

/-! ## The other writers -/

/-- Zeroed extents of the range table keep the form (R408, R411). -/
theorem State.zeroExtent_memoryWf {s : State} (h : s.memoryWf = true) (e : Range) (lost : Nat → Bool) :
    (s.zeroExtent e lost).memoryWf = true := by
  unfold State.zeroExtent
  dsimp only
  refine memoryWf_foldl ?_ fun u g hu => setDirtyBit_memoryWf hu _
  obtain ⟨hm, hh, hp⟩ := memoryWf_iff.1 (memoryWf_foldl (g := State.pullAll) h fun u l hu => pullAll_memoryWf hu l)
  exact memoryWf_iff.2 ⟨twf_filter hm, hh, hp⟩

/-- The bytes of an image, laid out from an address up, keep the form (R457). -/
theorem memory_wf_image {m : Table Byte} (h : Memory.wf m = true) (bs : List Byte) (a : Nat) :
    Memory.wf (bs.zipIdx.foldl (fun m x => tput 0 m (a + x.2) x.1) m) = true := by
  have := twf_foldl_tput (d := (0 : Byte)) (l := bs.zipIdx.map fun x => (a + x.2, x.1)) h
  rwa [List.foldl_map] at this

/-- The memories after reset are in canonical form. -/
theorem State.reset_memoryWf : State.reset.memoryWf = true := rfl

/-- Placing an instruction keeps the form. -/
theorem State.withFetchWord_memoryWf {s : State} (h : s.memoryWf = true) (n w : Nat) : (s.withFetchWord n w).memoryWf = true := by
  obtain ⟨hm, hh, hp⟩ := memoryWf_iff.1 h
  unfold State.withFetchWord
  dsimp only
  generalize decode (BitVec.ofNat 256 (w % 2 ^ n)) = d
  generalize bytesOf 32 (w % 2 ^ n) = bs
  have hi := memory_wf_image hm bs fetchByte
  generalize fetchByte = a at hi ⊢
  generalize List.foldl _ s.mem bs.zipIdx = m at hi ⊢
  cases d with
  | error e => exact memoryWf_iff.2 ⟨hi, hh, hp⟩
  | ok i =>
    dsimp only
    split
    · exact memoryWf_iff.2 ⟨hi, hh, hp⟩
    · exact memoryWf_iff.2 ⟨hi, hh, hp⟩

end Sys2Proof.Machine
end

