-- ==== Sys2Proof/Tests/Slice0.lean ====
section
/-! SUPPORT. Tests: terms that each check of well-formedness refuses, words of the spec decoded, states that meet the
hypotheses of the statements, and single steps. -/

open Sys2Proof Sys2Proof.Machine

namespace Sys2Proof.Tests

set_option Elab.async false

/-! ## Small states -/

/-- An unguarded word of 64 bits with every field 0. -/
def fz : Fields := Fields.plain false 0 0 0 0 0 0 0 .none

/-- The warp of `loadWarp` with its sub-gang formed. -/
def w0 : Warp := { loadWarp false with gang := [0, 1, 2, 3] }

/-- A compute core with that warp in a resident block and one page in its translation cache. -/
def b0 : State :=
  { State.reset with warp := w0, blocks := [(16, loadBlock)], cores := [(0, { Core.reset with tlb := [loadTlb] })] }

/-- A supervisor warp of a Vesper core. -/
def v0 : State := { State.reset with warp := { loadWarp true with gang := [0] } }

/-- The warp with values in some of its registers. -/
def withRegs (s : State) (rs : List RegWrite) : State := s.modWarp fun w => { w with regs := w.regs.setAll rs }

/-- The word of an instruction passes its checks in `b0`, and no indirect source breaks R45. -/
def ready (i : Instr) : Bool :=
  match i.fields? with
  | some f => i.check && b0.warp.wf && (b0.indirectBreach i f).isNone
  | none => false

theorem clear_of {s : State} {i : Instr} {f : Fields} (h : (i.check && s.warp.wf && (s.indirectBreach i f).isNone) = true) :
    s.clear i f := by
  simp at h
  exact ⟨h.1.1, h.1.2, h.2⟩

theorem clear_of_ready {i : Instr} {f : Fields} (hf : i.fields? = some f) (h : ready i = true) : b0.clear i f :=
  clear_of (by simpa [ready, hf] using h)


/-! ## Well-formedness: one term that each check refuses, beside one that it accepts -/

theorem test_wf_form : (Instr.nop fz).check = true ∧ (Instr.nop { fz with ext := .immI 0 }).check = false := by decide +kernel

theorem test_wf_k : (Instr.lds (.plain false 0 0 0 0 0 0 2 .none)).check = true ∧
    (Instr.lds (.plain true 0 0 0 0 0 0 2 .none)).check = false ∧ (Instr.ldk (.plain true 0 0 0 0 0 0 0 .none)).check = true ∧
    (Instr.ldk fz).check = false := by decide +kernel

theorem test_wf_hint : (Instr.iadd fz).check = true ∧ (Instr.iadd { fz with hint := 1 }).check = false ∧
    (Instr.ld { fz with hint := 3 }).check = true := by decide +kernel

theorem test_wf_modifiers : (Instr.iadd { fz with mod := 13 }).check = true ∧ (Instr.iadd { fz with mod := 14 }).check = false ∧
    (Instr.nop { fz with mod := 1 }).check = false := by decide +kernel

theorem test_wf_field_unused : (Instr.nop { fz with d := 1 }).check = false ∧ (Instr.nop { fz with a := 1 }).check = false ∧
    (Instr.nop { fz with asel := 1 }).check = false := by decide +kernel

theorem test_wf_register_aligned : (Instr.mov { fz with mod := 1, d := 2 }).check = true ∧
    (Instr.mov { fz with mod := 1, d := 1 }).check = false ∧ (Instr.mov { fz with mod := 1, b := 3 }).check = false := by
  decide +kernel

theorem test_wf_uniform_number : (Instr.mov { fz with k := true, d := 127 }).check = true ∧
    (Instr.mov { fz with k := true, d := 128 }).check = false := by decide +kernel

theorem test_wf_predicate : (Instr.ipred { fz with d := 7 }).check = true ∧ (Instr.ipred { fz with d := 8 }).check = false := by
  decide +kernel

theorem test_wf_index : (Instr.xset { fz with d := 3 }).check = true ∧ (Instr.xset { fz with d := 4 }).check = false := by
  decide +kernel

theorem test_wf_handle : (Instr.fwait { fz with a := 15 }).check = true ∧ (Instr.fwait { fz with a := 16 }).check = false := by
  decide +kernel

theorem test_wf_selector_source : (Instr.iadd { fz with asel := 3 }).check = true ∧ (Instr.iadd { fz with asel := 2 }).check = false ∧
    (Instr.iadd { fz with asel := 1, a := 127 }).check = true ∧ (Instr.iadd { fz with asel := 1, a := 128 }).check = false ∧
    (Instr.iadd { fz with k := true, asel := 3 }).check = false := by decide +kernel

theorem test_wf_selector_handle : (Instr.fwait { fz with asel := 1 }).check = false := by decide +kernel

theorem test_wf_selector_uniform : (Instr.plset (.plain false 0 0 0 0 0 1 1 .none)).check = true ∧
    (Instr.plset (.plain false 0 0 0 0 0 0 1 .none)).check = false := by decide +kernel

theorem test_wf_selector_vector : (Instr.xlane { fz with a := 1 }).check = true ∧ (Instr.xlane { fz with asel := 1 }).check = false := by
  decide +kernel

theorem test_wf_immediate : (Instr.iadd { fz with bsel := 2 }).check = true ∧ (Instr.idiv { fz with bsel := 2 }).check = false ∧
    (Instr.bra fz).check = false ∧ (Instr.iadd (.plain false 0 0 0 1 0 0 2 (.immI 5))).check = false ∧
    (Instr.iadd (.plain false 0 0 0 0 0 0 2 (.immI 5))).check = true := by decide +kernel

theorem test_wf_imm32_unused : (Instr.mma (.plain false 0 0 0 0 0 1 1 (.full 0 0 0 0))).check = true ∧
    (Instr.mma (.plain false 0 0 0 0 0 1 1 (.full 0 0 0 1))).check = false := by decide +kernel

theorem test_wf_extension_fields : (Instr.mma (.plain false 0 0 0 0 0 1 1 (.full 0 0 1 0))).check = false ∧
    (Instr.mma (.plain false 0 0 0 0 0 1 1 (.full 0 15 0 0))).check = true ∧
    (Instr.mma (.plain false 0 0 0 0 0 1 1 (.full 0 16 0 0))).check = false := by decide +kernel

theorem test_wf_scope : (Instr.syncadd { fz with mod := 4 }).check = true ∧ (Instr.syncadd { fz with mod := 7 }).check = false := by
  decide +kernel

theorem test_wf_width : (Instr.aligndn { fz with c := 127 }).check = true ∧ (Instr.aligndn { fz with c := 128 }).check = false ∧
    (Instr.aligndn { fz with mod := 8, c := 63 }).check = true ∧ (Instr.aligndn { fz with mod := 8, c := 64 }).check = false := by
  decide +kernel

theorem test_wf_f2f_index : (Instr.f2f (.plain false 0 0 0 0 1 0 0 (.extE 1 0 0))).check = true ∧
    (Instr.f2f (.plain false 0 0 0 0 1 0 0 (.extE 2 0 0))).check = false := by decide +kernel

theorem test_wf_matrix_tiles : (Instr.mmaSm (.plain false 0 0 0 0 0 1 1 (.full 4 0 0 0))).check = true ∧
    (Instr.mmaSm (.plain false 0 0 0 0 0 1 1 (.full 5 0 0 0))).check = false := by decide +kernel

theorem test_wf_atomic_width : (Instr.atom { fz with c := 0x20 }).check = true ∧ (Instr.atom { fz with c := 0xE0 }).check = false := by
  decide +kernel

/-- One level, two operands. -/
def nestAdd : NestFields where
  drain := false
  d := 2
  a := 4
  b := 6
  c := 0
  ext0 := 3
  ext1 := 0
  ext2 := 0
  ext3 := 0
  ext4 := 0
  tC := 0
  tB := 10
  tA := 9
  tD := 8
  rnd := 0
  fd := 0
  fs := 0
  r := 0
  lv := 0
  xop := 1

theorem test_wf_loopnest : (Instr.loopnest nestAdd).check = true ∧ (Instr.loopnest { nestAdd with xop := 9 }).check = false ∧
    (Instr.loopnest { nestAdd with lv := 5 }).check = false ∧ (Instr.loopnest { nestAdd with ext1 := 1 }).check = false ∧
    (Instr.loopnest { nestAdd with r := 1 }).check = false ∧
    (Instr.loopnest { nestAdd with xop := 16, b := 0, tB := 0, r := 0 }).check = false ∧
    (Instr.loopnest { nestAdd with xop := 16, b := 0, tB := 0, r := 1 }).check = true ∧
    (Instr.loopnest { nestAdd with d := 3 }).check = false ∧ (Instr.loopnest { nestAdd with a := 128 }).check = false ∧
    (Instr.loopnest { nestAdd with c := 2 }).check = false ∧ (Instr.loopnest { nestAdd with tA := 128 }).check = false := by
  decide +kernel

theorem test_wf_event : (Instr.wake 0 0).check = false := by decide +kernel

/-! ## Words written out from the encodings of the spec -/

-- BRA to the instruction three words on
theorem test_decode_bra : decode 0x2030_0000_0077_0009 = .ok (.bra (.plain false 0 0 0 0 3 0 2 .none)) := rfl
theorem test_decode_iadd : decode 0x0010_C0B0_A077_A101 = .ok (.iadd (.plain false 10 10 11 12 1 0 0 .none)) := rfl
-- XOR.b64 v4.d, v6.d, v8.d: op 0x082, mod 1 (R93)
theorem test_decode_xor : decode 0x0000_8060_4077_1209 = .ok (.xor_ (.plain false 1 4 6 8 0 0 0 .none)) := rfl
-- IPRED.lt.i32 p1, v2, v3: op 0x0A0, c = 2 (R99)
theorem test_decode_ipred : decode 0x0020_3020_1077_0281 = .ok (.ipred (.plain false 0 1 2 3 2 0 0 .none)) := rfl
-- FMUL.f16.x2 v1, v2, v3: op 0x0C2, mod 0101 (R127)
theorem test_decode_fmul : decode 0x0000_3020_1077_5309 = .ok (.fmul (.plain false 5 1 2 3 0 0 0 .none)) := rfl
-- RCP.f32 v1, v2: op 0x110 (R145)
theorem test_decode_rcp : decode 0x0000_0020_1077_0441 = .ok (.rcp (.plain false 0 1 2 0 0 0 0 .none)) := rfl
-- XLANE v5, v6, 1 by exclusive or within quads: op 0x140, mod 0111 (R102)
theorem test_decode_xlane : decode 0x2010_0060_5077_7501 = .ok (.xlane (.plain false 7 5 6 0 1 0 2 .none)) := rfl
theorem test_decode_alignup : decode 0x0050_0040_61A1_0609 =
    .ok (.alignup { Fields.plain false 0 6 4 0 5 0 0 .none with guard := ⟨1, false, 2, true⟩, drain := true }) := rfl
-- ST.rel.pkg in 128 bits
theorem test_decode_st : decode 0x0014_0000_0000_0000_6000_0020_2021_7707 =
    .ok (.st { Fields.plain false 7 2 2 0 0 1 2 (.full 0x14 0 0 0) with guard := ⟨1, false, 2, false⟩ }) := rfl
theorem test_decode_fence : decode 0x0010_0000_0077_4721 = .ok (.fence (.plain false 4 0 0 0 1 0 0 .none)) := rfl
theorem test_decode_stsc : decode 0x2000_0020_1071_780D =
    .ok (.stsc { Fields.plain false 7 1 2 0 0 0 2 .none with guard := ⟨1, false, 7, false⟩ }) := rfl
theorem test_decode_syncadd : decode 0x6010_0100_0877_4845 = .ok (.syncadd (.plain true 4 0 16 0 1 1 2 .none)) := rfl
theorem test_decode_synctest : decode 0x6010_0120_1877_484D = .ok (.synctest (.plain true 4 1 18 0 1 1 2 .none)) := rfl
theorem test_decode_cbar_arrive : decode 0x2000_0000_A877_088D = .ok (.cbarArrive (.plain true 0 10 0 0 0 0 2 .none)) := rfl
theorem test_decode_atom : decode 0x00B4_0000_0000_003A_0890_7020_5077_0903 =
    .ok (.atom (.plain false 0 5 2 7 0x89 0 0 (.full 0xB4 0 0 0x3A))) := rfl
theorem test_decode_cpy : decode 0x0005_0300_0000_0000_50C0_A080_6877_0A03 =
    .ok (.cpy (.plain true 0 6 8 10 12 1 1 (.full 5 3 0 0))) := rfl
theorem test_decode_mma : decode 0x0003_0200_0000_0000_5000_6040_0877_CB03 =
    .ok (.mma (.plain true 12 0 4 6 0 1 1 (.full 3 2 0 0))) := rfl
theorem test_decode_ld_pl : decode 0x0000_0000_4030_4020_8077_0C0A = .ok (.ldPl (.plain false 0 8 2 4 3 1 0 (.immI 0))) := rfl
-- SLEEP of 10 µs
theorem test_decode_sleep : decode 0x2102_7000_0077_0D11 = .ok (.sleep (.plain false 0 0 0 0x27 0x10 0 2 .none)) := rfl
theorem test_decode_sysrd : decode 0x2400_0000_4877_0E09 = .ok (.sysrd (.plain true 0 4 0 0 0x40 0 2 .none)) := rfl
theorem test_decode_amsg : decode 0x6010_0040_2877_0E31 = .ok (.amsg (.plain true 0 2 4 0 1 1 2 .none)) := rfl
theorem test_decode_tlbinv : decode 0x6010_0040_1877_0E21 = .ok (.tlbinvInv (.plain true 0 1 4 0 1 1 2 .none)) := rfl
theorem test_decode_loopnest :
    decode 0x0000_0000_0000_0000_0000_0000_0001_0003_000C_0A08_0000_4028_5000_2000_4077_03C0 =
      .ok (.loopnest { nestAdd with d := 4, a := 0, b := 2, ext1 := 1, tB := 12, tA := 10, fd := 1, lv := 1, xop := 8 }) := rfl
theorem test_decode_unassigned : decode 0x0000_0000_0077_0001 = .error (.unassignedOp 0) := rfl
theorem test_decode_tail : decode 0x0001_0000_0080_0050_6020_4077_1602 = .error .tailNotZero := rfl
theorem test_encode_st : encode (.st { Fields.plain false 7 2 2 0 0 1 2 (.full 0x14 0 0 0) with guard := ⟨1, false, 2, false⟩ }) =
    0x0014_0000_0000_0000_6000_0020_2021_7707 := rfl
theorem test_decode_bytes : decodeBytes [0x01, 0xA1, 0x77, 0xA0, 0xB0, 0xC0, 0x10, 0x00] =
    .ok (.iadd (.plain false 10 10 11 12 1 0 0 .none), 8) := rfl
theorem test_decode_bytes_short : decodeBytes [0x01, 0xA1, 0x77, 0xA0] = .error .truncated := rfl

/-! ## States and operands that meet the hypotheses of the statements -/

theorem witness_integers : ∀ i ∈ [Instr.iadd fz, .isub fz, .imul fz, .iadd3 fz, .imad fz, .imin fz, .imax fz, .iabs fz, .ineg fz,
    .iadd { fz with mod := 13, c := 1 }, .imulhi fz, .imadw fz, .isad { fz with mod := 4 }, .dot4 fz, .iaddc { fz with mod := 1 },
    .idiv fz, .iadd { fz with k := true }], ready i = true := by decide +kernel

theorem witness_moves_logic : ∀ i ∈ [Instr.mov fz, .sel fz, .movx fz, .movi { fz with bsel := 2 }, .rdspec fz, .p2v fz, .v2p fz,
    .xset fz, .xadd fz, .and_ fz, .or_ fz, .xor_ fz, .andn fz, .not_ fz, .tern { fz with ext := .extE 0 0 0 }, .shl fz, .shr fz,
    .sar fz, .rot fz, .dsh fz, .bfx fz, .bfi fz, .brev fz, .popc fz, .clz fz, .ctz fz, .pack { fz with mod := 4 },
    .unpk { fz with mod := 4 }, .icvt fz, .ipred fz, .imask fz, .pcomb fz], ready i = true := by decide +kernel

theorem witness_floats : ∀ i ∈ [Instr.fadd fz, .fsub fz, .fmul fz, .ffma fz, .fmin fz, .fmax fz, .frnd fz, .fscale fz, .fpred fz,
    .fmask fz, .fclass fz, .redf fz, .f2f fz, .f2f (.plain false 0 0 0 0 0x20 0 0 (.extE 0x40 0 0)), .f2i fz, .i2f fz, .rcp fz,
    .rsq fz, .sqrt fz, .ex2 fz, .exp fz, .lg2 fz, .log fz, .sin fz, .cos fz, .tanh fz, .sigm fz, .fadd { fz with mod := 5 }],
    ready i = true := by decide +kernel

theorem witness_lanes_addresses : ∀ i ∈ [Instr.xlane fz, .pgath fz, .bcast { fz with bsel := 1 }, .redi fz, .match_ fz, .lea fz,
    .aligndn fz, .alignup fz, .alcls fz, .bitofs fz, .b2bit fz, .bit2b fz, .pdiff fz], ready i = true := by decide +kernel

/-- The hypothesis of the register statements, of one of the words above. -/
theorem witness_clear : b0.clear (.iadd fz) fz := clear_of_ready rfl (by decide +kernel)

/-- Division: a lane with divisor 0 and one with another. -/
theorem witness_division : let s := withRegs b0 [⟨.v 0, 1, 3⟩]
    s.clear (.idiv fz) fz ∧ 0 ∈ s.actLanes fz ∧ 1 ∈ s.actLanes fz ∧ s.srcBReg fz 1 0 = 0 ∧ s.srcBReg fz 1 1 = 3 := by
  exact ⟨clear_of (by decide +kernel), by decide +kernel⟩

/-- MOVX: lanes that name a register below the allotment's end, and one at it. -/
theorem witness_movx : b0.movxFault fz (b0.actLanes fz) = none ∧
    (let s := withRegs b0 [⟨.v 0, 1, 255⟩]
     s.movxFault fz (s.actLanes fz) = none) ∧
    let s := withRegs b0 [⟨.v 0, 1, 256⟩]
    1 ∈ s.actLanes fz ∧ s.warp.info.vregs < (fz.a.toNat + s.srcBReg fz 1 1) + 1 := by decide +kernel

theorem witness_rounding : (f32.roundNum rne ⟨3, 0⟩).2 &&& fOverflow = 0 ∧ (f32.roundNum rne ⟨1, 127⟩).2 &&& fOverflow = 0 := by
  decide +kernel

theorem witness_overflow : (f32.roundNum rne ⟨1, 128⟩).2 &&& fOverflow ≠ 0 ∧
    (e2m1.roundNum ⟨3, false⟩ ⟨-7, 0⟩).2 &&& fOverflow ≠ 0 ∧ (e4m3.roundNum ⟨0, true⟩ ⟨512, 0⟩).2 &&& fOverflow ≠ 0 := by
  decide +kernel

theorem witness_exact_results : Dyad.val ⟨3, 1⟩ + Dyad.val ⟨-6, 0⟩ = 0 ∧ Dyad.val ⟨5, 0⟩ = Dyad.val ⟨1, 0⟩ + Dyad.val ⟨1, 2⟩ ∧
    Dyad.val ⟨-3, 0⟩ = Dyad.val ⟨1, 0⟩ - Dyad.val ⟨1, 2⟩ ∧ Dyad.val ⟨3, 3⟩ = Dyad.val ⟨1, 1⟩ * Dyad.val ⟨3, 2⟩ := by
  decide +kernel

theorem witness_not_nan : (FVal.zero true).isNan = false ∧ (FVal.inf false).isNan = false := by decide +kernel

theorem witness_permutation : [FVal.zero true, .num ⟨1, 0⟩].Perm [.num ⟨1, 0⟩, .zero true] ∧
    (∀ v ∈ [FVal.zero true, .num ⟨1, 0⟩], v.isNan = false) :=
  ⟨List.Perm.swap .., by decide +kernel⟩

theorem witness_special_values : Dyad.val ⟨1, 3⟩ = (2 : Rat) ^ (3 : Int) ∧ Dyad.val ⟨-5, 0⟩ = ((-5 : Int) : Rat) ∧
    (⟨-5, 0⟩ : Sys2Proof.Machine.Dyadic).m < 0 := by
  decide +kernel

/-- BIT2B: lanes at byte addresses, then one that is not. -/
theorem witness_bit2b : let s := withRegs b0 [⟨.v 0, 1, 8⟩, ⟨.v 0, 2, 1⟩]
    s.clear (.bit2b fz) fz ∧ s.actLanes fz = [0, 1] ++ 2 :: (List.range 16).drop 3 ∧
    (∀ k ∈ [0, 1], s.srcA fz 2 k % 8 = 0) ∧ s.srcA fz 2 2 % 8 ≠ 0 ∧ ∀ l ∈ b0.actLanes fz, b0.srcA fz 2 l % 8 = 0 := by
  exact ⟨clear_of (by decide +kernel), by decide +kernel⟩

/-- EXIT with a lane that stays, and without one; LEAVE with a region open. -/
theorem witness_exit : let f := { fz with guard := ⟨1, false, 7, false⟩ }
    b0.activeLanes f = [] ∧ b0.warp.resuming = none ∧ b0.activeLanes fz = List.range 16 ∧ (∀ e ∈ b0.warp.score, e.kind ≠ .load) ∧
    b0.warp.quads.map (·.live) = [15, 15, 15, 15] := by decide +kernel

theorem witness_regions : b0.myCore.dbgctl.getLsbD 3 = false ∧ b0.acts fz = true ∧
    b0.acts { fz with guard := ⟨1, false, 7, false⟩ } = false ∧
    0 < (b0.modWarp fun w => { w with depth := 1 }).warp.depth ∧ b0.warp.regions.length = 8 := by decide +kernel

theorem roomy {s : State} {die line : Nat} (h : (sameSet line 16 (s.l2Lines die)).length < 16) : s.hasRoom die line := .inr h

theorem not_owned {x : DirState} (h : x = .u) : ∀ d, x ≠ .o d := by rw [h]; nofun

theorem all_bytes {p : Nat → Bool} {line : Nat} (h : ∀ i < 256, p (256 * line + i) = true) : ∀ b, b / 256 = line → p b = true := by
  intro b hb
  have := h (b % 256) (by omega)
  rwa [show 256 * line + b % 256 = b by omega] at this

/-- A leaf at level 3 below tables at bits 2^23, 2^24, 2^24 + 2^16 and 2^24 + 2^17; one at level 1 in the next entry. -/
def tables : State :=
  { State.reset with
    procs := [(1, { Process.reset with userroot := 0x800000 })]
    mem := [(0x100000, 3), (0x100003, 1), (0x200000, 3), (0x200002, 1), (0x200003, 1), (0x200008, 0x25), (0x202000, 3),
      (0x202002, 2), (0x202003, 1), (0x204000, 0x25), (0x204002, 0x08)] }

theorem witness_walk : tables.rootOf 0 1 0 = 2 ^ 23 ∧ tableOk (2 ^ 23) (2 ^ 23) = true ∧
    (let table j := [2 ^ 23, 2 ^ 24, 2 ^ 24 + 2 ^ 16, 2 ^ 24 + 2 ^ 17].getD j 0
     (∀ j ≤ 3, tables.poisonOf (table j) 64 = none) ∧
     (∀ j < 3, entryKind j (tables.cohRead (table j) 64) = .table (table (j + 1))) ∧
     entryKind 3 (tables.cohRead (table 3) 64) = .leaf) ∧
    (let at_ j := [2 ^ 23, 2 ^ 24 + 64].getD j 0
     (∀ j ≤ 1, tables.poisonOf (at_ j) 64 = none ∧ tableIndex j (2 ^ 33 + 5) = j) ∧
     entryKind 0 (tables.cohRead (at_ 0) 64) = .table (2 ^ 24) ∧ entryKind 1 (tables.cohRead (at_ 1) 64) = .leaf) := by
  decide +kernel

theorem witness_cached_leaf : (b0.coreAt 0 0).tlb.find? (fun t =>
    (spaceOf 0x7FFFF == 2 || t.process == 1) && t.space == spaceOf 0x7FFFF && t.va == 0x7FFFF / 2 ^ t.size * 2 ^ t.size) = some loadTlb ∧
    leafGrants loadTlb.leaf.toNat true needR = true := by decide +kernel

/-- The lanes of an access: lane 1 in scratchpad, the others in the first page. -/
def m0 : State := withRegs b0 [⟨.v 1, 1, 0x08000000⟩]

theorem reached_of {s : State} {i : Instr} {f : Fields} {p : Probe}
    (h : (!(s.memLanes f (s.memAddr f)).isEmpty && (s.indirectBreach i f).isNone &&
      (s.windowBreach s.warp p.width (s.memLanes f (s.memAddr f))).isNone &&
      (s.reachAll s.warp p (s.memLanes f (s.memAddr f))).2.bad.isEmpty &&
      ((s.reachAll s.warp p (s.memLanes f (s.memAddr f))).1.noRoom
        (s.reachAll s.warp p (s.memLanes f (s.memAddr f))).2.parts).isNone) = true) :
    s.Reached i f p (s.reachAll s.warp p (s.memLanes f (s.memAddr f))).1 (s.reachAll s.warp p (s.memLanes f (s.memAddr f))).2 := by
  simp at h
  exact ⟨h.1.1.1.1, h.1.1.1.2, h.1.1.2, rfl, h.1.2, h.2⟩

/-- Where the accesses of an instruction lead. -/
def led (s : State) (f : Fields) (p : Probe) : State × Reach := s.reachAll s.warp p (s.memLanes f (s.memAddr f))

theorem witness_loads : m0.warp.resuming = none ∧
    (∃ u r, m0.Reached (.ld fz) fz ⟨.load, needR, 32, some 32⟩ u r ∧ r.parts.length = 16) ∧
    (let f := { fz with ext := .extE 0x08 0 0 }
     ∃ u r, m0.Reached (.ld f) f ⟨.load, needR, memWidth f, some (memWidth f)⟩ u r ∧ f.xn 4 3 ≠ 0) ∧
    (let f := { fz with k := true }
     ∃ u r, m0.Reached (.ldk f) f ⟨.load, needR, memWidth f, some (memWidth f)⟩ u r) ∧
    (let f := { fz with ext := .extE 3 0 0 }
     ∃ u r, m0.Reached (.ldx f) f ⟨.load, needR, 4 * typeWidth 0, none⟩ u r) :=
  ⟨rfl, ⟨_, _, reached_of (by decide +kernel), by decide +kernel⟩, ⟨_, _, reached_of (by decide +kernel), by decide +kernel⟩,
    ⟨_, _, reached_of (by decide +kernel)⟩, ⟨_, _, reached_of (by decide +kernel)⟩⟩

theorem witness_stores : m0.warp.resuming = none ∧
    (∃ u r, m0.Reached (.st fz) fz ⟨.store, needW, 32, some 32⟩ u r ∧
      u.watchOf false true (seenOf 32 (m0.memLanes fz (m0.memAddr fz))) = none) ∧
    (let f := { fz with ext := .extE 0x08 0 0 }
     ∃ u r, m0.Reached (.st f) f ⟨.store, needW, memWidth f, some (memWidth f)⟩ u r ∧ f.xn 4 3 ≠ 0 ∧ (u.release (f.xn 2 0)).2 = true ∧
       r.parts.any (fun p => match p.spot with | .mem _ _ => false | _ => true) = true) ∧
    (let f := { fz with k := true }
     ∃ u r, m0.Reached (.stk f) f ⟨.store, needW, memWidth f, some (memWidth f)⟩ u r) ∧
    (let f := { fz with ext := .extE 0x13 0 0 }
     ∃ u r, m0.Reached (.stx f) f ⟨.store, needW, 4 * typeWidth 0, none⟩ u r) :=
  ⟨rfl, ⟨_, _, reached_of (by decide +kernel), by decide +kernel⟩, ⟨_, _, reached_of (by decide +kernel), by decide +kernel⟩,
    ⟨_, _, reached_of (by decide +kernel)⟩, ⟨_, _, reached_of (by decide +kernel)⟩⟩

/-- A load that is under way, and one that has come back. -/
def entry0 : ScoreEntry where
  id := 0
  pc := 0
  kind := .load
  covers := [.v 2]
  results := []
  lanes := [⟨0, 0, 1, 0⟩]
  parts := [⟨0, 0, 0, 32, 0, ⟨true, false, none, 0⟩, 0, false⟩]
  seq := 0
  dest := some ⟨false, 2, 1, 32, false⟩
  acquire := none
  watch := none
  fail := none
  gang := []
  flags := 0
  lost := []
  again := false
  count := 0

def withEntry (e : ScoreEntry) : State := b0.modWarp fun w => { w with score := [e], nextId := 1 }

theorem witness_load_part : let s := withEntry entry0
    s.warp.live = true ∧ s.warp.score = [] ++ entry0 :: [] ∧
    (∀ p ∈ entry0.parts, s.partReady s.warp.id entry0 p = true) ∧ s.isLocal 0 = true ∧
    dieOf 0 = s.warp.id.die ∧ s.alive 0 = true ∧ s.holders = [] ∧ s.hasRoom 0 (lineOf 0) ∧ (s.dirAt 0).busy = none ∧ (∀ d, (s.dirAt 0).st ≠ .o d) ∧
    s.poisonOf 0 32 = none ∧ tget none (s.coreAt 0 0).l1 (sectorOf 0) = none :=
  ⟨by decide +kernel, rfl, by decide +kernel, by decide +kernel, by decide +kernel, by decide +kernel, rfl,
    roomy (by decide +kernel), by decide +kernel, not_owned rfl, by decide +kernel, by decide +kernel⟩

theorem witness_load_written : let e := { entry0 with parts := [], lanes := [⟨0, 0, 0, 7⟩] }
    let g := { e with dest := none, results := [⟨.v 2, 0, 7⟩] }
    (withEntry e).warp.score = [e] ∧ (withEntry g).warp.score = [g] ∧ (∀ l ∈ e.lanes, l.left = 0) ∧ e.fail = none ∧ e.watch = none ∧
    e.acquire = none ∧ e.results = [] ∧ e.lost = [] := by
  decide +kernel

/-! ### Coherence -/

def store0 (die : Nat) (kind : ReqKind) : Req :=
  { die, core := 0, kind, line := 1, seq := 0, base := 0, after := [], warp := none, gang := [], pid := 0, fillL1 := false, loads := []
    stores := [⟨2048, 32, 7, false⟩], mode := ⟨true, false, none, 0⟩, rel := none }

theorem witness_requests : b0.canonical = true ∧ b0.isLocal 2048 = true ∧ b0.alive 0 = true ∧ b0.holders = [] ∧
    (b0.dirAt 1).busy = none ∧ (b0.dirAt 1).st = .u ∧ b0.snoopVictim 1 = none ∧
    (∀ r ∈ [store0 0 .homeStore, { store0 1 .getS with stores := [] }, store0 1 .getM],
      b0.waitsReq r (r.kind != .getS) = false ∧ b0.markedStores r = false ∧ b0.l2At 0 1 = none ∧ b0.l2At r.die 1 = none) ∧
    (∀ d, b0.hasRoom d 1) ∧ ∀ b, b / 256 = 1 → b0.fillable b = true :=
  ⟨by decide +kernel, by decide +kernel, by decide +kernel, rfl, by decide +kernel, by decide +kernel, by decide +kernel,
    by decide +kernel, fun d => roomy (by simp [State.l2Lines, b0, State.dieAt, State.reset]; decide), all_bytes (by decide +kernel)⟩

/-- A line of die 0 that die 1 owns, with byte 3 dirty. -/
def line1 : L2Line := { kind := .modified, data := 0x5A000000, valid := 0xFF, dirty := 8, rdie := none, keep := false, victim := false }

def owned : State := { (b0.setL2 1 1 (some line1)) with dir := [(1, { DirEntry.idle with st := .o 1 })] }

theorem plain_line {s : State} {line : Nat} (h : line < 2 ^ 53) (hl : s.isLocal (line * 2048) = true) (hh : s.holders = [])
    (hd : (s.dieAt (dieOf (line * 2048))).regs.dmap = 0) : s.plainLine line := ⟨h, hl, by simp [hh], hd⟩

theorem witness_recall : owned.canonical = true ∧ owned.plainLine 1 ∧ owned.l2At 1 1 = some line1 ∧ (owned.dirAt 1).st = .o 1 ∧
    dieOf (1 * 2048) ≠ 1 ∧ dieOf (1 * 2048) = 0 :=
  ⟨by decide +kernel, plain_line (by decide) (by decide +kernel) rfl (by decide +kernel), by decide +kernel, by decide +kernel,
    by decide +kernel, by decide +kernel⟩

theorem witness_transactions :
    (let s := { b0 with dir := [(1, { DirEntry.idle with st := .s 6, busy := some ⟨[2], some (store0 1 .getM)⟩ })] }
     s.canonical = true ∧ (s.dirAt 1).st = .s 6 ∧ bitOf 6 2 = true ∧ (s.dirAt 1).busy = some ⟨[2], some (store0 1 .getM)⟩ ∧
     (s.dirAt 1).queue = [] ∧ s.holders = []) ∧
    (let s := { b0 with dir := [(1, { DirEntry.idle with st := .s 4, busy := some ⟨[2], none⟩ })] }
     s.canonical = true ∧ (s.dirAt 1).st = .s (2 ^ 2) ∧ (s.dirAt 1).busy = some ⟨[2], none⟩) := by decide +kernel

theorem witness_forwarded : let fa := 2048 - 64
    dieOf (withDie fa 2) = 2 ∧ fa % 2048 + 64 ≤ 2048 ∧ b0.alive 2 = true ∧ b0.plainLine (lineOf (withDie fa 2)) :=
  ⟨by decide +kernel, by decide +kernel, by decide +kernel, plain_line (by decide +kernel) (by decide +kernel) rfl (by decide +kernel)⟩

theorem witness_pref : let f := { fz with mod := 1, guard := ⟨6, false, 7, false⟩ }
    let s := withRegs b0 [⟨.p 6, 3, 1⟩]
    s.canonical = true ∧ s.indirectBreach (.pref f) f = none ∧ f.mn 1 0 = 1 ∧ s.actLanes f = [3] ∧
    s.place s.warp (s.memAddr f 3) 1 = .ok .mem ∧
    s.translate 0 0 (s.processOf s.warp) s.warp.user (s.memAddr f 3) needR = (s, .ok 0 0x27D) ∧
    (s.dirAt (lineOf 0)).busy = none ∧ (∀ d, (s.dirAt (lineOf 0)).st ≠ .o d) ∧
    ∀ x, x / 4 = lineOf 0 → s.poisonOf (x * 512) 512 = none := by
  refine ⟨by decide +kernel, by decide +kernel, by decide +kernel, by decide +kernel, rfl, by decide +kernel, by decide +kernel,
    not_owned rfl, ?_⟩
  intro x hx
  have : x = 0 ∨ x = 1 ∨ x = 2 ∨ x = 3 := by simp [lineOf] at hx; omega
  rcases this with rfl | rfl | rfl | rfl <;> decide +kernel

/-- CCTL of a line of another die that the own die holds. -/
def cached : State := ((withRegs b0 [⟨.p 6, 3, 1⟩]).modCore 0 0 fun c => { c with tlb := [{ loadTlb with leaf := BitVec.ofNat 64 (2 ^ 41 + 0x27D) }] }).setL2 0 (2 ^ 30)
  (some { line1 with kind := .nc })

theorem witness_cctl : cached.canonical = true ∧
    (∀ m ∈ [0, 2, 3, 4], let f := { fz with mod := m, guard := ⟨6, false, 7, false⟩ }
      cached.indirectBreach (.cctl f) f = none ∧ cached.cctlLines f (cached.actLanes f) = (cached, [2 ^ 30]) ∧
      cached.blocked (cached.pendHere (2 ^ 30)) true = false) ∧
    cached.plainLine (2 ^ 30) ∧ dieOf (2 ^ 30 * 2048) ≠ 0 ∧ cached.l2At 0 (2 ^ 30) = some { line1 with kind := .nc } ∧
    b0.acts { fz with mod := 1 } = true :=
  ⟨by decide +kernel, by decide +kernel, plain_line (by decide) (by decide +kernel) rfl (by decide +kernel), by decide +kernel,
    by decide +kernel, by decide +kernel⟩

theorem witness_fences : b0.readsPending = false ∧ b0.release 3 = (b0, true) ∧ b0.opsBefore (b0.releasePoint false) b0.warp.id = false ∧
    (∀ k ∈ [0, 1, 2, 3], let f := { fz with mod := 3, c := BitVec.ofNat 8 k }
      b0.acts f = true ∧ f.cn 1 0 = k ∧ f.mn 2 0 = 3) ∧
    b0.acts { fz with guard := ⟨1, false, 7, false⟩ } = false := by decide +kernel

theorem witness_migr : let s := b0.modCore 0 0 fun c => { c with tlb := [{ loadTlb with leaf := BitVec.ofNat 64 0x227D }] }
    s.canonical = true ∧ s.indirectBreach (.migr fz) fz = none ∧ s.actLanes fz = List.range 16 ∧
    s.cachedLeaf (s.srcA fz 2 0) = some { loadTlb with leaf := BitVec.ofNat 64 0x227D } ∧
    (let t := withRegs s [⟨.v 0, 0, 0⟩]
     t.srcB fz false 32 1 0 = 0) ∧
    (let f := { fz with b := 2 }
     ∀ n ∈ [1, 4], let t := withRegs s [⟨.v 2, 0, n⟩]
       t.srcB f false 32 1 0 = n ∧ (t.dieAt 0).hintOut 0 = false) := by decide +kernel

/-! ### Scratchpad, sync words and barriers -/

/-- LDS, STS and ATOMS at the last words of the scratchpad: a first and a last offset. -/
theorem witness_scratchpad : let s := withRegs b0 [⟨.v 0, 1, 8 * 4096 - 32⟩]
    s.canonical = true ∧ s.warp.resuming = none ∧ s.slotFull = false ∧
    (∀ l ∈ s.activeLanes fz, s.srcA fz 1 l + 32 ≤ 8 * s.myBlock.header.spad ∧ s.srcA fz 1 l % 32 = 0) ∧
    1 ∈ s.activeLanes fz ∧ accessWidth 0 = 1 ∧
    (∀ i ∈ [Instr.lds fz, .sts fz, .atoms fz], s.indirectBreach i fz = none) ∧
    s.watchOf false true ((s.activeLanes fz).map fun l => (l, ownAddr (s.srcA fz 1 l : Int), 1)) = none := by decide +kernel

/-- One active lane, which names rank 0 of its own cluster. -/
theorem witness_peer : let f := { fz with guard := ⟨6, false, 7, false⟩ }
    let s := withRegs b0 [⟨.p 6, 3, 1⟩, ⟨.v 1, 3, 0x09000000⟩]
    s.canonical = true ∧ s.activeLanes f = [3] ∧ s.srcA f 2 3 = 0x0900000000000000 := by decide +kernel

theorem witness_peer_place : (withRegs b0 []).peerPlace 0x0900000000000000 1 = .ok (0, 0) ∧
    (withRegs b0 []).peerPlace (0x0900000000000000 + 8 * 4096 - 1) 1 = .ok (0, 8 * 4096 - 1) := ⟨rfl, rfl⟩

def part0 (op : SpadKind) : SpadReq :=
  { warp := b0.warp.id, gang := [], block := 16, kind := op, seq := 0, entry := some 0, parts := [⟨0, 64, 32, 0, 5, 0⟩] }

theorem witness_slot_turn : ∀ k ∈ [SpadKind.load, .store, .atomic 0, .atomic 12, .atomic 13, .atomic 14, .sync 32, .sync 33],
    let s := { (withEntry entry0).pushSlot 0 0 0 (part0 k) with turns := [.slot 0 0 0] }
    s.canonical = true ∧ s.slotQueue 0 0 0 = [part0 k] ∧ s.warp.live = true ∧ s.spadHold (part0 k) = false ∧
    ∀ p ∈ (part0 k).parts, s.spadReady (part0 k) p = true := by decide +kernel

theorem witness_sync_words :
    (let s := withRegs b0 [⟨.v 1, 0, 0x08000000⟩]
     s.acts fz = true ∧ s.syncCheck s.warp (s.srcA fz 2 0) needRW = (s, .ok (.spad 16 0)) ∧
     s.syncPoison (.spad 16 0) = none ∧ s.watchOf false true [(0, s.srcA fz 2 0, 64)] = none ∧
     s.syncLoad fz 0 (s.srcA fz 2 0) = (s, some (s.syncRead (.spad 16 0))) ∧
     s.syncRead (.spad 16 0) / 2 ^ 56 = s.srcB fz false 32 1 0) ∧
    b0.slotFull = false ∧
    (let s := withRegs b0 [⟨.v 2, 0, 1⟩]
     let f := { fz with b := 2 }
     s.syncCheck s.warp (s.srcA f 2 0) needRW = (s, .ok (.mem 0 0x27D)) ∧ s.syncPoison (.mem 0 0x27D) = none ∧
     s.syncLoad f 0 (s.srcA f 2 0) = (s, some (s.syncRead (.mem 0 0x27D))) ∧
     s.syncRead (.mem 0 0x27D) / 2 ^ 56 ≠ s.srcB f false 32 1 0 % 256) ∧
    b0.acts { fz with guard := ⟨1, false, 7, false⟩ } = false ∧ b0.warp.live = true := by decide +kernel

/-- Barriers 0 and 14 of 15; a wait on the phase that is current, and on another. -/
theorem witness_barriers : b0.canonical = true ∧ b0.acts fz = true ∧ b0.warp.info.spawned = false ∧ b0.warp.isVesper = false ∧
    b0.release 1 = (b0, true) ∧ b0.release 1 true = (b0, true) ∧ b0.srcB fz false 32 1 0 = 0 ∧ b0.myBlock.header.barriers = 15 ∧
    b0.warp.ended .barSync = [] ∧ (withRegs b0 [⟨.v 0, 0, 14⟩]).srcB fz false 32 1 0 = 14 ∧
    (b0.modWarp fun w => { w with quads := w.quads.map fun q => { q with wait := .barSync } }).warp.ended .barSync = [0, 1, 2, 3] ∧
    (b0.modWarp fun w => { w with quads := w.quads.mapIdx fun i q => if i = 0 then { q with wait := .barSync } else q }).warp.ended .barSync = [0] ∧
    (∀ x ∈ [0, 14, 256, 0xFF0E], let s := withRegs b0 [⟨.v 0, 0, x⟩]
      let t4 := s.srcA fz 1 0
      s.acts fz = true ∧ t4 / 2 ^ 16 = 0 ∧ t4 / 16 % 16 = 0 ∧ t4 % 16 < 15 ∧
        ((s.myBlock.barrier (t4 % 16)).phase.toNat = t4 / 256 ↔ x < 256)) := by decide +kernel

theorem witness_cluster_barriers : b0.release 2 true = (b0, true) ∧ b0.myBlock.rank = 0 ∧ b0.clusterAway b0.myBlock = false ∧
    ({ b0 with blocks := [(16, { loadBlock with place := .saved })] } : State).clusterAway loadBlock = true ∧
    (∀ n ∈ [0, 3], (b0.clusterBarrier b0.myBlock.clusterKey n).masks.length = 8) ∧
    (let s := { b0 with clusters := [(2 ^ 64, [(3, { ClusterBarrier.reset with masks := 1 :: List.replicate 7 0 })])] }
     s.canonical = true ∧ s.blocks.find? (fun x => launchKey x.2.process x.2.launch == 2 ^ 32 && x.2.cluster == 0 && x.2.rank == 0 &&
       x.2.header.width != 0) = some (16, loadBlock) ∧ bitOf ((s.clusterBarrier (2 ^ 64) 3).masks.getD 0 0).toNat 0 = true ∧
     bitOf ((s.clusterBarrier (2 ^ 64) 3).masks.getD 0 0).toNat 1 = false) ∧
    (∀ x ∈ [0x10, 0x113], let s := withRegs b0 [⟨.v 0, 0, x⟩]
      let t4 := s.srcA fz 1 0
      t4 / 2 ^ 16 = 0 ∧ t4 / 16 % 16 = 1 ∧ t4 % 16 < 4 ∧
        ((s.clusterBarrier s.myBlock.clusterKey (t4 % 16)).phase.toNat = t4 / 256 ↔ x = 0x10)) := by decide +kernel

/-! ### Atomics, messages, futures and copies -/

theorem in_memory {r : Reach} (h : (r.good.all fun x => match x.2.2 with
    | p :: _ => (match p.spot with | .mem _ _ => true | _ => false)
    | [] => false) = true) : ∀ x ∈ r.good, ∃ p ps fa leaf, x.2.2 = p :: ps ∧ p.spot = .mem fa leaf := by
  intro x hx
  have hx := List.all_eq_true.mp h x hx
  rcases hs : x.2.2 with _ | ⟨p, ps⟩
  · simp [hs] at hx
  · cases hp : p.spot with
    | mem fa leaf => exact ⟨p, ps, fa, leaf, rfl, hp⟩
    | own | peer => simp [hs, hp] at hx

/-- The conditions of an atomic, but for the reach. -/
def atomicReady (s : State) (f : Fields) (i : Instr) (slot w : Nat) : Bool :=
  let lanes := s.memLanes f (s.atomAddr f)
  let (u, r) := s.reachAll s.warp ⟨.atomic, needRW, w, none⟩ lanes
  s.canonical && !lanes.isEmpty && (s.indirectBreach i f).isNone && (s.atomWindow s.warp w lanes).isNone &&
  (lanes.all fun x => atomAligned slot w x.2) && r.bad.isEmpty && !r.good.isEmpty &&
  (r.good.all fun x => match x.2.2 with | p :: _ => (match p.spot with | .mem _ _ => true | _ => false) | [] => false) &&
  (slot < 24 || (tget none u.platform.slots slot).isSome) &&
  (u.windowOut u.warp.id.die u.warp.id.core).isEmpty && u.accessesOut.isEmpty && decide (lanes.length ≤ 64)

theorem witness_atomics : atomicReady b0 fz (.atom fz) 0 8 = true ∧ atomicReady b0 fz (.red fz) 0 8 = true ∧
    (let f := { fz with k := true }
     atomicReady b0 f (.atomk f) 0 8 = true) ∧
    (let f := { fz with ext := .full 0 0 0 0 }
     atomicReady b0 f (.atomx f) 22 128 = true) ∧
    (let f := { fz with c := 0x5F }
     atomicReady { b0 with platform := { b0.platform with slots := [(31, some [])] } } f (.atom f) 31 32 = true) ∧
    atomicWidth 0 0 = 8 ∧ atomicWidth 2 0 = 32 := by decide +kernel

theorem not_full {s : State} (h : s.accessesOut = []) {new : List Nat} (hn : new.length ≤ 64) (die : Nat) : s.farFull die new = false := by
  have h1 (p : Nat → Bool) : ¬ 4096 < (new.filter p).length := fun hc => by have := List.length_filter_le p new; omega
  have h2 : ∀ x ∈ new.filterMap s.hostOf, ¬ 4096 < (new.filter fun a => s.hostOf a == some x).length := fun _ _ => h1 _
  simp only [State.farFull, h, List.filter_nil, List.length_nil, Nat.add_zero, Bool.or_eq_false_iff, Bool.and_eq_false_iff,
    List.any_eq_false, decide_eq_true_eq]
  exact ⟨.inr (by simpa using h1 _), h2⟩

theorem witness_atomic_room : (b0.reachAll b0.warp ⟨.atomic, needRW, 8, none⟩ (b0.memLanes fz (b0.atomAddr fz))).1.accessesOut = [] := by
  decide +kernel

theorem witness_atomic_reach : ∀ x ∈ (b0.reachAll b0.warp ⟨.atomic, needRW, 32, none⟩ (b0.memLanes fz (b0.atomAddr fz))).2.good,
    ∃ p ps fa leaf, x.2.2 = p :: ps ∧ p.spot = .mem fa leaf := in_memory (by decide +kernel)

def atom0 (slot : Nat) (spad : Option Nat) : AtomicReq :=
  { warp := b0.warp.id, gang := [], pid := 1, srcDie := 0, slot, width := 64, seq := 0, entry := some 0, spad, mode := ⟨true, false, none, 0⟩,
    acq := none, rel := none, lanes := [⟨0, 2048, 2048, 1, 0⟩] }

theorem witness_atomic_run : b0.canonical = true ∧ b0.plainLine (lineOf 2048) ∧ b0.alive (dieOf 2048) = true ∧
    (b0.dirAt (lineOf 2048)).busy = none ∧ (b0.dirAt (lineOf 2048)).st = .u ∧ (b0.dieAt (dieOf 2048)).homeWatches = [] ∧
    b0.poisonOf 2048 64 = none ∧ b0.marked 2048 64 true = false ∧
    (pendAtomic (atom0 0 none)).any (b0.blocked · true) = false ∧ b0.hasRoom (dieOf 2048) (lineOf 2048) ∧
    b0.replicaBehind (atom0 0 none) = false ∧ (∀ d, b0.l2At d (lineOf 2048) = none) :=
  ⟨by decide +kernel, plain_line (by decide) (by decide +kernel) rfl (by decide +kernel), by decide +kernel, by decide +kernel,
    by decide +kernel, by decide +kernel, by decide +kernel, by decide +kernel, by decide +kernel, roomy (by decide +kernel),
    by decide +kernel, fun _ => rfl⟩

/-- The update of a scratchpad word as a release, at `.cls` and at `.sys`; a write on its way to a replica holds the second. -/
theorem witness_sync_run : ∀ sc ∈ [0, 4],
    let r := { atom0 32 (some 16) with rel := some sc }
    r.spad = some 16 ∧ (pendAtomic r).any (b0.blocked · true) = false ∧ (b0.blockAt 16).place ≠ .saved ∧
    (b0.releaseLines 0 sc).forwarding = false ∧
    let s := { b0 with agenda := [.forwardedWrite 5 1 1 ⟨2, 0⟩] }
    s.canonical = true ∧ (pendAtomic r).any (s.blocked · true) = false ∧ (s.releaseLines 0 sc).forwarding = true := by decide +kernel

/-- An acknowledgement that waits for the replica. -/
theorem witness_replica : ({ b0 with agenda := [.forwardedWrite 1 1 1 ⟨2, 0⟩] } : State).replicaBehind
    { atom0 0 none with mode := ⟨true, false, some 2, 0⟩ } = true := by decide +kernel

theorem witness_word_run : ∀ l ∈ [(⟨0, 96, 0, 1, 0⟩ : AtomicLane), ⟨1, 160, 0, 2, 0⟩], l.addr % 64 = 96 % 64 ∧ 96 % 64 + 32 ≤ 64 := by
  decide +kernel

theorem witness_acknowledged : let s := withEntry { entry0 with parts := [] }
    s.warp.live = true ∧ s.warp.score = [] ++ { entry0 with parts := [] } :: [] ∧ (atom0 0 none).entry = some entry0.id ∧
    (atom0 0 none).warp = s.warp.id := by decide +kernel

/-- A warp whose h0 names entry 5 of the handle table. -/
def held (st : HandleState) : State :=
  { withRegs b0 [⟨.h 0, 0, 64 + 5⟩] with
    blocks := [(16, { loadBlock with handles := [(5, { state := st, seq := 1, status := 7, op := if st = .pending then some 0 else none })] })] }

theorem witness_futures : (∀ st ∈ [HandleState.pending, .doneOk, .doneErr, .cancelled],
      (held st).canonical = true ∧ (held st).acts fz = true ∧
      (held st).myBlock.handleOf ((held st).reg (.h fz.a.toNat) 0) =
        some { state := st, seq := 1, status := 7, op := if st = .pending then some 0 else none }) ∧
    fz.mb 0 = false ∧ b0.actLanes fz = 0 :: (List.range 16).drop 1 := by decide +kernel

theorem witness_operations : b0.canonical = true ∧ b0.acts fz = true ∧ b0.myBlock.freeHandle = some 0 ∧
    (∀ e ∈ [0, 1, 2, 3], (b0.engineQueue 0 0 e).length = 0) ∧ b0.matrixTaken b0.warp.id = false ∧
    (∀ e ∈ [2, 3], ∀ m ∈ [true, false], b0.matrixFree e m = true) := by decide +kernel

theorem witness_msg : let f := { fz with mod := 8, ext := .extE 3 0 0 }
    let u := b0.reachAll b0.warp ⟨.atomic, needRW, 64, none⟩ [(0, b0.srcA f 2 0)]
    b0.actLanes f = 0 :: (List.range 16).drop 1 ∧ b0.indirectBreach (.msg f) f = none ∧
    b0.atomWindow b0.warp 256 [(0, b0.srcA f 2 0)] = none ∧ b0.srcA f 2 0 % 256 = 0 ∧ u.2.bad = [] ∧
    (u.2.parts.map fun p => (p.lane, p.width, p.spot)) = [(0, 64, .mem 0 0x27D)] ∧ u.1.windowFull [0] = none ∧ u.1.canonical = true ∧ u.1.myBlock.freeHandle = some 0 ∧ deviceOf 0 = u.1.device ∧
    (u.1.release 0).2 = true ∧ (u.1.release 0).1.myBlock = u.1.myBlock ∧ (u.1.release 0).1.canonical = true := by decide +kernel

def op0 (engine : Nat) (work : Work) : EngineOp :=
  { warp := b0.warp.id, gang := [], process := 1, user := true, handle := some 0, hseq := 1, seq := 0, engine, hint := 0, started := true,
    cancel := false, suspended := false, unresolved := false, work }

def msg0 : MsgOp :=
  { header := 2048, leaf := 0x27D, payload := 1, budget := 3, attempts := 0, retryAt := 0, place := none, written := false, rel := none }

/-- A mailbox at byte 256 whose ring has 2^1 places: tail, head, and the reserved bits of its last word. -/
def mail (m : MsgOp) (tail lsize : Byte) : State :=
  { b0 with
    ops := [(0, some (op0 4 (.msg m)))]
    nextOp := 1
    mem := (if tail = 0 then [] else [(268, tail)]) ++ [(280, 0xFF), (281, 0xFF), (282, 0xFF), (283, 0xFF)] ++
      if lsize = 0 then [] else [(284, lsize)] }

theorem no_poison {s : State} (h : s.poison = []) (a w : Nat) : s.poisonOf a w = none := by
  simp [State.poisonOf, h]

theorem witness_msg_retry : (∀ x ∈ [(msg0, 0, 0), (msg0, 0, 1), (msg0, 1, 1), (msg0, 2, 1), ({ msg0 with attempts := 3 }, 2, 1),
      ({ msg0 with place := some 0, written := true }, 1, 1)],
    let s := mail x.1 x.2.1 x.2.2
    let b := s.mailbox 2048
    s.canonical = true ∧ s.opAt 0 = some (op0 4 (.msg x.1)) ∧ s.opReady (op0 4 (.msg x.1)) = true ∧ s.alive (dieOf 2048) = true ∧
    (s.dirAt (lineOf 2048)).st = .u ∧ (s.dieAt (dieOf 2048)).homeWatches = [] ∧ (s.dieAt 0).l2 = [] ∧ b.spare = false ∧
    b.dead = false ∧ b.tail = x.2.1.toNat ∧ b.head = 0 ∧ b.lsize = x.2.2.toNat ∧ b.owner = 0xFFFFFFFF ∧
    s.ownerGone 1 b.owner = false ∧ s.msgBefore x.1 0 = false ∧ s.forwarding = false ∧ (s.dirAt (lineOf 2048)).busy = none ∧
    bitOf x.1.leaf 7 = false ∧ x.1.retryAt ≤ s.timer ∧ (s.blockAt 16).place ≠ .saved) ∧
    (mail { msg0 with retryAt := 5 } 0 1).timer < 5 := by decide +kernel

theorem witness_mail_room : (mail msg0 1 1).hasRoom (dieOf 2048) (lineOf 2048) := roomy (by decide +kernel)

theorem witness_mail_line : (mail msg0 1 1).plainLine (lineOf 2048) ∧ ∀ w : Nat, (mail msg0 1 1).poisonOf 2048 w = none :=
  ⟨plain_line (by decide) (by decide +kernel) rfl (by decide +kernel), fun w => no_poison rfl _ w⟩

def copy0 : CopyOp where
  src := 2 ^ 59
  dst := 2 ^ 59 + 64
  len := 64
  rows := 1
  planes := 1
  sRow := 0
  dRow := 0
  sPlane := 0
  dPlane := 0
  list := none
  scatter := false
  idx := none
  sync := none
  syncAt := none
  mm := none
  ready := false
  units := []

/-- The machine with one operation, which is on record under number 0. -/
def withOp (o : EngineOp) (queued : Bool) : State :=
  { b0 with
    ops := [(0, some o)]
    nextOp := 1
    cores := [(0, { Core.reset with tlb := [loadTlb], queues := if queued then [(o.engine, [0])] else [] })] }

/-- A copy in its queue; one that has been taken; one whose last unit is out; one that is over; one to cancel. -/
theorem witness_copies :
    (let s := withOp { op0 0 (.copy copy0) with started := false } true
     s.canonical = true ∧ s.engineQueue 0 0 0 = [0] ∧ (s.runningCopies 0 0 0).length < 8) ∧
    (let o := op0 0 (.copy copy0)
     let s := withOp o false
     s.canonical = true ∧ s.opAt 0 = some o ∧ s.engineQueue 0 0 0 = [] ∧ s.opReady o = true ∧ copy0.allUnits ≠ [] ∧
       (s.runningCopies 0 0 0).find? (fun x => match x.2.work with | .copy c => !c.ready | _ => false) = some (0, o)) ∧
    (let c := { copy0 with ready := true, units := [2 ^ 59 + 64], syncAt := some (some 16, 128, 0) }
     let s := withOp (op0 0 (.copy c)) false
     s.canonical = true ∧ s.opAt 0 = some (op0 0 (.copy c)) ∧ 64 + 64 ≤ 8 * (s.blockAt 16).header.spad ∧ c.units = [c.dst] ∧
       8 * (s.blockAt 16).header.spad ≤ 2 ^ 32 ∧ (s.coreAt 0 0).watches = [] ∧ (s.dieAt 0).l2 = [] ∧ s.holders = [] ∧ s.forwarding = false) ∧
    (let c := { copy0 with ready := true }
     let s := withOp { op0 0 (.copy c) with cancel := true } false
     s.canonical = true ∧ s.opAt 0 = some { op0 0 (.copy c) with cancel := true } ∧ (s.blockAt 16).place ≠ .saved) := by decide +kernel

theorem witness_engine_watch : let w : Watch := { lo := 0, hi := 64, mask := 1, ctl := 0x10005 }
    let s := { b0 with cores := [(0, { Core.reset with watches := [(0, w)] })] }
    s.canonical = true ∧ (s.coreAt 0 0).watches = [(0, w)] ∧ w.maskBits 1 0 3 = [0] ∧ w.ctl.getLsbD 3 = false := by decide +kernel

/-! ### Matrix engines -/

/-- A descriptor of FP32 rows with no stride, at scratchpad bit 0: every row is one run of 32 elements. -/
def desc0 : Nat := 2 ^ 59 * 2 ^ 192

theorem of_ok {ε α : Type} {x : State × Except ε α} {s : State} (p : α → Bool)
    (h : (match x with | (t, .ok a) => decide (t = s) && p a | _ => false) = true) : ∃ a, x = (s, .ok a) ∧ p a = true := by
  rcases x with ⟨t, _ | a⟩
  · simp at h
  · simp at h
    exact ⟨a, by rw [h.1], h.2⟩

def mat0 (kind : MatKind) : MatOp := { MatOp.none with kind, tile := 1, ovr := true, descs := [desc0, desc0], region := 0x01010000 }

theorem witness_matrix_start : let o := { op0 2 (.matrix (mat0 .accz)) with started := false }
    let s := withOp o true
    let u := (s.engineQueue 0 0 2).foldl State.enterMatrix s
    s.canonical = true ∧ s.opAt 0 = some o ∧ u.engineQueue 0 0 2 = [0] ∧ u.runningMatrix 0 0 2 = none ∧ (mat0 .accz).toRead = [] ∧
    let t := withOp { op0 2 (.matrix (mat0 .accz)) with started := true } false
    (t.runningMatrix 0 0 2).isSome = true ∧ t.engineQueue 0 0 2 = [] := by decide +kernel

theorem witness_matrix_runs : ∀ k ∈ [MatKind.mma, .mmaSm, .accld, .accst, .quant, .deq, .accz, .accside],
    let o := op0 3 (.matrix (mat0 k))
    let s := withOp o false
    s.canonical = true ∧ s.opAt 0 = some o ∧ s.runningMatrix 0 0 3 = some (0, o) ∧ s.opReady o = true ∧ (mat0 k).ends = none ∧
    (mat0 k).toRead = [] ∧ (mat0 k).mismatched = false ∧ regionStatus (mat0 k).region = none ∧ (mat0 k).rows = 0 ∧ (s.blockAt 16).place ≠ .saved := by
  decide +kernel

/-- Operands that do not fit each other, a command that is bound to fail, and a source of QUANT that is no float. -/
theorem witness_matrix_fails : ({ mat0 .mma with descs := [desc0, desc0 + 5 * 2 ^ 16] } : MatOp).mismatched = true ∧
    ({ mat0 .mma with ends := some 0x20 } : MatOp).toRead = [] ∧ (descOf desc0).fmt ≤ 2 ∧ 2 < (descOf (desc0 + 5 * 2 ^ 16)).fmt := by
  decide +kernel

theorem witness_mma_operands : ∃ x, (withOp (op0 3 (.matrix (mat0 .mma))) false).mmaOperands (op0 3 (.matrix (mat0 .mma))) (mat0 .mma) =
    (withOp (op0 3 (.matrix (mat0 .mma))) false, .ok x) ∧ (x.1.length == 128 && x.2.1.length == 128) = true :=
  of_ok (fun x : List (List FVal) × List (List FVal) × Nat => x.1.length == 128 && x.2.1.length == 128) (by decide +kernel)

/-- MMA.SM with O tile 0 in a block of 64 KiB of scratchpad, where the P tile has room. -/
def soft0 : MatOp := { mat0 .mmaSm with otile := 0, fmt := 4, pAddr := 2 ^ 59 }

def softly : State :=
  { withOp (op0 3 (.matrix soft0)) false with blocks := [(16, { loadBlock with header := { loadBlock.header with spad := 65536 } })] }

theorem witness_softmax : softly.canonical = true ∧ softly.opAt 0 = some (op0 3 (.matrix soft0)) ∧
    softly.runningMatrix 0 0 3 = some (0, op0 3 (.matrix soft0)) ∧ soft0.pAddr / 2 ^ 56 = 8 ∧ soft0.otile ≠ soft0.tile ∧
    soft0.pAddr % 2 ^ 56 + 16384 * (formatOf soft0.fmt).width ≤ 8 * (softly.blockAt 16).header.spad ∧
    (mat0 .mmaSm).pAddr / 2 ^ 56 ≠ 8 := by decide +kernel

theorem witness_softmax_operands : ∃ x, softly.mmaOperands (op0 3 (.matrix soft0)) soft0 = (softly, .ok x) ∧
    (x.1.length == 128 && x.2.1.length == 128) = true :=
  of_ok (fun x : List (List FVal) × List (List FVal) × Nat => x.1.length == 128 && x.2.1.length == 128) (by decide +kernel)

/-- The rows of ACCST and DEQ in scratchpad. -/
theorem witness_matrix_rows :
    (let o := op0 3 (.matrix (mat0 .accst))
     let (v, _, e) := (withOp o false).writeUnits o (2 ^ 59) 64 5 (runUnits (2 ^ 59) 64) 0
     e = none ∧ v.opAt 0 = some o) ∧
    (let m := { mat0 .deq with rows := 2, elems := 2 }
     let o := op0 3 (.matrix m)
     (match (withOp o false).readOperandRow o (descOf desc0) 2 0 with | (t, .ok xs) => t == withOp o false && xs.length == 2 | _ => false) = true ∧
     m.rows ≠ 0 ∧ m.row0 = 0 ∧ m.rowVal = none) := by decide +kernel

theorem witness_accld_rows : ∃ x, (withOp (op0 3 (.matrix (mat0 .accld))) false).matLoads (op0 3 (.matrix (mat0 .accld)))
    [(0x800000000000000, 64), (0x800000000000040, 64)] = (withOp (op0 3 (.matrix (mat0 .accld))) false, .ok x) ∧ true = true :=
  of_ok (fun _ => true) (by decide +kernel)

theorem witness_accside : let m := { mat0 .accside with lanes := [(0, 1, 2), (15, 3, 4)], row0 := 120, read := true, entry := some 0 }
    let e := { entry0 with kind := .wait, lanes := [], parts := [], dest := none }
    let s := { withEntry e with ops := [(0, some (op0 3 (.matrix m)))], nextOp := 1 }
    s.canonical = true ∧ s.runningMatrix 0 0 3 = some (0, op0 3 (.matrix m)) ∧ (∀ x ∈ m.lanes, x.1 < 64) ∧ (m.lanes.map (·.1)).Nodup ∧
    m.entry = some e.id ∧ s.warp.live = true ∧ s.warp.id = (op0 3 (.matrix m)).warp ∧ s.warp.score = [e] := by decide +kernel

/-! ### Placement -/

/-- An entry at rest: one dimension of 32 elements of 32 bits over an axis of one member, replicated. -/
def entryPl : PlEntry :=
  { PlEntry.blank with
    cur := 0x10000, alt := 0x20000, bstride := 2048, mlist := 0x8200, ext := [32, 0, 0, 0], axes := [1, 0, 0], gen := 5, valid := true
    naxes := 1, members := [(0, 0)] }

def placed (e : PlEntry) : State :=
  { (b0.modCore 0 0 fun c => c) with placements := [(4096, e)], dies := [(0, { Die.reset with meridian := [loadTlb] })] }

/-- Nothing is at work on the bits and no line is poisoned. -/
def restful (s : State) (fa n : Nat) : Bool :=
  decide (fa % 2048 + n ≤ 2048 ∧ lineOf fa < 2 ^ 53 ∧ s.isLocal (lineOf fa * 2048) = true ∧ s.holders = [] ∧
    (s.dieAt (dieOf (lineOf fa * 2048))).regs.dmap = 0 ∧ (s.dirAt (lineOf fa)).busy = none ∧ (s.dirAt (lineOf fa)).st = .u ∧
    (sameSet (lineOf fa) 16 (s.l2Lines (dieOf fa))).length < 16 ∧ s.poison = [])

theorem rests_of {s : State} {fa n : Nat} (h : restful s fa n = true) : s.Rests fa n := by
  obtain ⟨hi, hl, hloc, hh, hd, hb, hs, hr, hp⟩ := of_decide_eq_true h
  exact ⟨hi, plain_line hl hloc hh hd, ⟨hb, hs⟩, roomy hr, fun k w _ => no_poison hp _ w⟩

theorem no_txn {s : State} (h : s.dir = []) : s.NoTransactions := fun line => by simp [State.dirAt, h, DirEntry.idle]

theorem witness_placement : (placed entryPl).canonical = true ∧ (placed entryPl).acts fz = true ∧ (placed entryPl).warp.parked = none ∧
    (placed entryPl).processOf (placed entryPl).warp = 1 ∧ ((placed entryPl).procAt 1).pltable = 0 ∧ (placed entryPl).plAt 1 0 = entryPl ∧
    (entryPl.memberOf 0 0).isSome = true ∧ entryPl.validState 0 = true ∧ entryPl.reachable 0 = true ∧ entryPl.reachable 4 = true ∧
    (placed entryPl).release 5 = (placed entryPl, true) ∧ ((placed entryPl).dieAt 0).l2 = [] ∧
    (placed entryPl).myBlock.freeHandle = some 0 ∧ (placed entryPl).myBlock.place ≠ .saved ∧
    (placed entryPl).plCheck 1 0 0 0 = none ∧ (placed entryPl).plCheck 1 0 0 4 = none ∧
    (placed entryPl).plCheck 1 0 0 8 = some (cNotMapped, 0x30) ∧
    (∀ v ∈ [5, 6, 7], (withRegs (placed entryPl) [⟨.s 2, 0, v⟩]).reg (.s 2) 0 = v) ∧
    (placed { entryPl with busy := true }).plAt 1 0 = { entryPl with busy := true } := by decide +kernel

theorem witness_table_rests : (placed entryPl).Rests ((placed entryPl).tableAt 1 0) 512 :=
  rests_of (by decide +kernel)

/-- PLCONV to the state in which its dimension is sharded: the member may join, and its marks are set when it has. -/
theorem witness_plconv : (placed entryPl).demandOf 1 0 0 0 4 = .join ∧
    (let u := (placed entryPl).joinLocal 1 0 0 0 4 0 true
     u.marksSet 1 0 0 = true ∧ u.canonical = true ∧ u.blocks = (placed entryPl).blocks ∧ u.demandOf 1 0 0 0 4 = .joined) := by decide +kernel

/-- The image of that entry in memory, with its member list. -/
def image0 : State :=
  let x := entryPl.words.zipIdx.foldl (fun x (w, i) => x + w * 2 ^ (64 * i)) 0
  { withRegs b0 [⟨.s 2, 0, 0x8000⟩] with mem := (bytesOf 64 x).zipIdx.foldl (fun m (b, i) => tput 0 m (0x1000 + i) b) [] }

theorem witness_pldef : let f := { fz with b := 2, asel := 1, bsel := 1, ext := .extE 0 0 0 }
    image0.canonical = true ∧ image0.acts f = true ∧ image0.release 4 = (image0, true) ∧
    (match image0.readOnce f (image0.upair f.b) 512 with
      | (u, .ok x) => (u.pldefFirst f 1 0 x).isNone && (match u.readOnce f (entryOf x).mlist (16 * (entryOf x).count) with
        | (v, .ok l) => ((v.procAt 1).pltable == 0) && (v.pldefLast { entryOf x with members := membersOf (listWords (entryOf x).count l) }
            (listWords (entryOf x).count l)).isNone && (entryOf x).gen == 5
        | _ => false)
      | _ => false) = true := by decide +kernel

theorem witness_ld_pl : let f := { fz with asel := 1, ext := .immI 0 }
    let s := withRegs (placed entryPl) [⟨.v 0, 1, 31⟩]
    let addrs := (s.activeLanes f).map fun l => (l, (0x10000 + s.srcBReg f 1 l * 32) % 2 ^ 64)
    s.canonical = true ∧ s.warp.resuming = none ∧ s.indirectBreach (.ldPl f) f = none ∧ s.plCheck 1 0 0 0 = none ∧
    s.activeLanes f ≠ [] ∧ (∀ l ∈ s.activeLanes f, s.srcBReg f 1 l + 1 ≤ entryPl.localCount 0) ∧ s.windowBreach s.warp 32 addrs = none ∧
    (s.reachAll s.warp ⟨.load, needR, 32, none⟩ addrs).2.bad = [] ∧
    (s.reachAll s.warp ⟨.load, needR, 32, none⟩ addrs).1.noRoom (s.reachAll s.warp ⟨.load, needR, 32, none⟩ addrs).2.parts = none ∧
    entryPl.state = s.reg (.s f.c.toNat) 0 ∧
    (s.activeLanes f).Nodup := by decide +kernel

/-- A conversion of that entry, to the state in which its dimension is sharded, under operation 0. -/
def conv0 : Conv := { Conv.start 5 0 4 0 with joined := [0], agents := [(0, some 0)], marked := [0] }

def converting (c : Option Conv) : State :=
  { placed { entryPl with busy := c.isSome } with
    convs := match c with | some c => [(4096, some c)] | none => []
    ops := [(0, some { op0 5 (.conv 0 4) with handle := none })]
    nextOp := 1 }

theorem witness_join : (converting none).canonical = true ∧ (converting none).convAt 1 0 = none ∧
    (converting none).plAt 1 0 = entryPl ∧ entryPl.members.length = 1 ∧ (converting none).localMember entryPl 0 = true ∧
    (Conv.start 5 0 4 0).joined = [] ∧ (converting (some conv0)).convAt 1 0 = some conv0 ∧
    (let c := { conv0 with joined := [] }
     let s := converting (some c)
     s.canonical = true ∧ s.convAt 1 0 = some c ∧ 0 ∈ c.marked ∧ s.localMember (s.plAt 1 0) 0 = true ∧ s.memberLost (s.plAt 1 0) = false ∧
     (s.plAt 1 0).gen = 5 ∧ c.gen = 5 ∧ c.source = 0 ∧ c.target = 4 ∧ 0 ∉ c.joined ∧
     ({ s with members := 0b1110 } : State).memberLost (s.plAt 1 0) = true ∧ ({ s with members := 0b1110 } : State).canonical = true) := by
  decide +kernel

theorem witness_sector_read : let c := { conv0 with unread := [(0, 1)] }
    let s := converting (some c)
    let o := { op0 5 (.conv 0 4) with handle := none }
    s.canonical = true ∧ s.convAt 1 0 = some c ∧ (0, 1) ∈ c.unread ∧ s.agentOf c 0 = some (0, o) ∧
    ((s.plAt 1 0).sourceSectors 0 0).find? (fun x => x.1 == 1) = some (1, 512, 512) ∧
    (match s.meridianReach o .load needR (0x10000 + 512) 512 with
      | (u, .ok (fa, leaf)) => u.canonical && (u.poisonOf fa 512).isNone && !u.convHeld (·.key == 4096) fa 512 false && !u.planeHeld fa &&
        dieOf fa == 0 && u.isLocal (lineOf fa * 2048) && u.holders.isEmpty && (u.dieAt 0).regs.dmap == 0 && (u.dirAt (lineOf fa)).busy.isNone &&
        decide ((u.dirAt (lineOf fa)).st = .u) && decide ((sameSet (lineOf fa) 16 (u.l2Lines 0)).length < 16) && !bitOf leaf 13
      | _ => false) = true := by decide +kernel

theorem witness_sector_written : let c := { conv0 with unwritten := [(0, 0)] }
    let s := converting (some c)
    let o := { op0 5 (.conv 0 4) with handle := none }
    s.canonical = true ∧ s.convAt 1 0 = some c ∧ (0, 0) ∈ c.unwritten ∧ s.agentOf c 0 = some (0, o) ∧
    ((s.plAt 1 0).destSectors 4 0).find? (fun x => x.1 == 0) = some (0, 0, 512) ∧
    (match s.meridianReach o .store needW 0x20000 512 with
      | (u, .ok (fa, leaf)) => u.canonical && !bitOf leaf 7 && decide (fa = 0x20000) && u.isLocal fa && u.holders.isEmpty &&
        (u.dieAt (dieOf fa)).regs.dmap == 0 && (u.dirAt (lineOf fa)).busy.isNone && decide ((u.dirAt (lineOf fa)).st = .u) &&
        (u.l2At (dieOf fa) (lineOf fa)).isNone && u.dies.all (fun x => x.2.l2.isEmpty) && !u.convHeld (·.key == 4096) fa 512 true &&
        !u.planeHeld fa && dieOf fa == 0 && !u.forwarding && decide ((sameSet (lineOf fa) 16 (u.l2Lines 0)).length < 16) && u.poison.isEmpty
      | _ => false) = true := by decide +kernel

theorem witness_conversion_over : let s := converting (some conv0)
    s.canonical = true ∧ s.convAt 1 0 = some conv0 ∧ conv0.unwritten = [] ∧ conv0.unread = [] ∧
    s.allJoined (s.plAt 1 0) conv0 = true ∧ conv0.agents ≠ [] ∧
    (let t := converting (some { conv0 with joined := [] })
     t.allJoined (t.plAt 1 0) { conv0 with joined := [] } = false) := by decide +kernel

theorem witness_conversion_table : (converting (some conv0)).Rests ((converting (some conv0)).tableAt 1 0) 512 :=
  rests_of (by decide +kernel)

theorem witness_quiet : ∀ x ∈ (converting (some conv0)).ops, ∀ o : EngineOp, x.2 = some o → (∀ j t, o.work ≠ .conv j t) ∨ o.handle = none := by
  intro x hx o ho
  simp [converting] at hx
  subst hx
  simp at ho
  subst ho
  exact .inr rfl

/-! ### Contexts and launches -/

/-- A block with warp contexts 3 and 5 in reserve, and with none. -/
theorem witness_spawn : let s := { b0 with blocks := [(16, { loadBlock with reserved := [5, 3] })] }
    s.canonical = true ∧ s.acts fz = true ∧ s.release 1 = (s, true) ∧ 3 ∈ s.myBlock.reserved ∧
    (∀ k ∈ s.myBlock.reserved, 3 ≤ k) ∧ b0.myBlock.reserved = [] ∧ b0.acts { fz with guard := ⟨1, false, 7, false⟩ } = false := by
  decide +kernel

/-- A user space whose pages from bit 2^33 on are the die's memory, with launch queue 0 at byte 0x800, one record at byte
0x1000 and a kernel header at byte 0x4000. `kind`: 0x41 a queue of the host, 0x61 one of the device. -/
def space (kind tail : Nat) : State :=
  { b0 with
    procs := [(1, { Process.reset with userroot := 0x800000, lqtable := 0x4000, dbhost := 4, context := true })]
    rung := [(64, 1)]
    platform := { Platform.reset with stage := 6 }
    mem := [(0x801, 0x80)] ++ (if tail = 0 then [] else [(0x80C, BitVec.ofNat 8 tail)]) ++ [(0x810, BitVec.ofNat 8 kind),
      (0x1002, 2), (0x1004, 2), (0x1020, 1), (0x1021, 1), (0x1022, 1),
      (0x4000, 1), (0x4008, 16), (0x400A, 1), (0x400B, 8), (0x400D, 1), (0x4016, 2), (0x401B, 0xFF), (0x401D, 0x28),
      (0x100000, 3), (0x100003, 1), (0x200008, 0x3D)] }

/-- LAUNCH: a queue that is the host's, one with room and one that is full (two records of two). -/
theorem witness_launch : let f := { fz with b := 2 }
    (∀ x ∈ [(0x41, 0), (0x61, 1), (0x61, 2)], let s := space x.1 x.2
      s.canonical = true ∧ s.acts f = true ∧ s.indirectBreach (.launch f) f = none ∧ s.regs .s f.a.toNat 0 2 % 1024 = 0 ∧
      s.release 4 = (s, true) ∧ s.srcB f false 32 1 0 = 0 ∧
      (match s.readOnce f (s.regs .s f.a.toNat 0 2) 1024 with | (u, .ok _) => u.queueAt 1 0 == s.queueAt 1 0 | _ => false) = true) ∧
    ((space 0x41 0).queueAt 1 0).enable = true ∧ ((space 0x41 0).queueAt 1 0).device = false ∧
    (space 0x61 1).queueAt 1 0 = ⟨true, true, 1, 1, 0, 0x8000⟩ ∧ (space 0x61 2).queueAt 1 0 = ⟨true, true, 1, 2, 0, 0x8000⟩ := by
  decide +kernel

theorem witness_contexts : (∀ p ∈ [true, false], ({ b0 with blocks := [(16, { loadBlock with produced := p })] } : State).myBlock.produced = p) ∧
    b0.release 4 = (b0, true) ∧ b0.warp.isVesper = false ∧ b0.producersDone b0.warp = some true ∧ (b0.dieAt 0).l2 = [] ∧
    (let s := { b0 with launches := [(2 ^ 32, { Launch.none with prods := [7] })] }
     s.acts fz = true ∧ s.producersDone s.warp = none) ∧
    b0.indirectBreach (.sleep fz) fz = none ∧ b0.indirectBreach (.setprio fz) fz = none ∧ b0.warp.ended .sleep = [] ∧
    b0.srcB fz false 32 1 0 = 0 ∧ (withRegs b0 [⟨.v 0, 0, 5⟩]).srcB fz false 32 1 0 = 5 ∧
    (b0.modWarp fun w => { w with quads := w.quads.map fun q => { q with wait := .sleep } }).warp.ended .sleep = [0, 1, 2, 3] ∧
    (b0.modWarp fun w => { w with quads := w.quads.mapIdx fun i q => if i = 0 then { q with wait := .sleep } else q }).warp.ended .sleep = [0] := by
  decide +kernel

theorem witness_doorbell : (∀ v ∈ [2 ^ 48, 2 ^ 48 + 64], let s := space 0x41 1
      (BitVec.ofNat 64 v).toNat / 2 ^ 48 = 1 ∧ (BitVec.ofNat 64 v).toNat % 64 = 0 ∧ s.platform.endStep6.serving = true ∧ (s.procAt 1).dbhost.getLsbD 2 = true ∧
      (s.procAt 1).context = true ∧ (s.queueAt 1 0).enable = true ∧ (s.queueAt 1 0).device = false) ∧
    2 ^ 48 / 64 % 2 ^ 42 = 0 ∧ (2 ^ 48 + 64) / 64 % 2 ^ 42 ≠ 0 := by decide +kernel

/-- A queue with one record that starts a launch, and one whose record is refused. -/
theorem witness_intake : (let s := space 0x41 1
      s.canonical = true ∧ s.platform.serving = true ∧ (s.queueAt 1 0).enable = true ∧ (s.queueAt 1 0).lsize = 1 ∧
      ((if (s.queueAt 1 0).device then (s.queueAt 1 0).tail else tget 0 s.rung 64) + 2 ^ 32 - (s.queueAt 1 0).head) % 2 ^ 32 = 1 ∧
      (match s.checkRecord 1 0 (s.recordAddr (s.queueAt 1 0) 0) with | .ok _ => true | .error _ => false) = true ∧
      s.queueAddr 1 0 % 256 = 0 ∧ (s.dirAt (lineOf (s.queueAddr 1 0))).st = .u) ∧
    (let s := { space 0x41 1 with mem := tput 0 (space 0x41 1).mem 0x4008 17 }
     match s.checkRecord 1 0 (s.recordAddr (s.queueAt 1 0) 0) with | .ok _ => false | .error _ => true) = true := by decide +kernel

theorem witness_intake_rests : (space 0x41 1).Rests ((space 0x41 1).queueAddr 1 0) 256 ∧ (space 0x41 1).NoTransactions :=
  ⟨rests_of (by decide +kernel), no_txn rfl⟩

/-- Its record names no producer; a producer of another queue that no launch has taken has still to be given. -/
theorem witness_intake_producers : (let s := space 0x41 1
      match s.checkRecord 1 0 (s.recordAddr (s.queueAt 1 0) 0) with
      | .ok (_, x) => (recordLaunch 1 0 0 x).prods == []
      | .error _ => false) = true ∧ (space 0x41 1).producer 1 (2 ^ 25) = .unstarted ∧ 2 ^ 25 / 2 ^ 25 ≠ 0 := by decide +kernel

/-- LAUNCH into the queue with room: the places that it writes rest. -/
theorem witness_launch_rests : let f := { fz with b := 2 }
    (match (space 0x61 1).readOnce f ((space 0x61 1).regs .s f.a.toNat 0 2) 1024 with
      | (u, .ok _) => restful u (u.queueAddr 1 0) 256 && restful u (u.recordAddr (u.queueAt 1 0) 1) 1024 && u.dir.isEmpty &&
        lineOf (u.queueAddr 1 0) != lineOf (u.recordAddr (u.queueAt 1 0) 1) && u.dies.isEmpty && decide (u.homeLines.length < 15)
      | _ => false) = true := by decide +kernel

theorem l2_few {s : State} (h : s.dies = []) (hh : s.homeLines.length < 15) (d : Nat) : (s.l2Lines d).length < 15 := by
  have := List.length_filter_le (fun x : Nat × HomeLine => x.2.held && s.isHomeOf d x.1) s.homeLines
  simp [State.l2Lines, State.dieAt, h, Die.reset]
  omega

/-- A launch whose blocks are anchored at an address on die 0. -/
def launch0 : Launch :=
  { Launch.none with
    taken := true, started := true, process := 1, grid := [1, 1, 1], warps := 1, args := 2 ^ 33 + 0x8000
    header := { Header.none with width := 16, vunits := 1, kregs := 8, l1min := 131072, savearea := 10240, anchor := 0 } }

theorem witness_dispatch : let s := { space 0x41 1 with launches := [(2 ^ 32, launch0)] }
    s.canonical = true ∧ s.nextLaunch = some launch0 ∧ launch0.next = 0 ∧ launch0.clusterSize = 1 ∧ 9 / 8 = 1 % 8 ∧
    (s.dispatchDie launch0 0 launch0.needs).map (·.1) = some 0 ∧ s.fitCores 0 [] ([9].zip launch0.needs) = true := by decide +kernel

theorem witness_promotion : let s := b0.modWarp fun w => { w with waited := 4096 }
    s.canonical = true ∧ s.warp.live = true ∧ s.warp.halted = false ∧ 4096 ≤ s.warp.waited := by decide +kernel

theorem witness_retirement : let b := { loadBlock with initial := 0 }
    let s := { b0 with blocks := [(16, b)], warp := Warp.idle }
    s.canonical = true ∧ (s.blockAt 16).place = .resident ∧ (s.blockAt 16).initial = 0 ∧ (s.blockAt 16).extra = 0 ∧
    s.dir = [] ∧ (s.blockAt 16).counted = false ∧ (s.blockAt 16).discarded = false ∧
    (let t := { s with blocks := [(16, { b with discarded := true, place := .retired })] }
     t.canonical = true ∧ (t.blockAt 16).discarded = true ∧ (t.blockAt 16).place = .retired ∧ t.blockBusy 16 true = false) ∧
    s.blockBusy 16 true = false ∧ ({ s with ops := [(0, some (op0 0 (.copy copy0)))] } : State).blockBusy 16 true = true := by
  decide +kernel

/-! ### Traps and the system instructions -/

/-- A Vesper core that is handling a trap. -/
def v1 : State := v0.modCore 0 64 fun c => { c with ves := { c.ves with ecause := 0x8011#64 } }

theorem witness_traps : b0.canonical = true ∧ b0.warp.isVesper = false ∧ v0.canonical = true ∧ v0.warp.isVesper = true ∧
    (v0.coreAt 0 64).ves.ecause.getLsbD 15 = false ∧ v1.canonical = true ∧ v1.warp.isVesper = true ∧
    (v1.coreAt 0 64).ves.ecause.getLsbD 15 = true := by decide +kernel

def faulty (x : Nat) : Bool := match decode (BitVec.ofNat 256 x) with | .ok _ => false | .error _ => true

theorem witness_checks : faulty 0 = true ∧
    (let i := Instr.mma { fz with asel := 1, bsel := 1, ext := .full 0 0 0 0 }
     decode (BitVec.ofNat 256 (encode i).toNat) = .ok i ∧ Instr.noVesper i = true) ∧ v0.warp.isVesper = true ∧
    decode (BitVec.ofNat 256 (encode (.halt fz)).toNat) = .ok (.halt fz) ∧
    Sys2Proof.Machine.Instr.privileged (.halt fz) = true ∧ b0.warp.user = true := by
  exact ⟨by decide +kernel, ⟨rfl, by decide +kernel⟩, by decide +kernel, rfl, by decide +kernel, by decide +kernel⟩

theorem witness_checks_registers : let i := Instr.iadd { fz with d := 20 }
    decode (BitVec.ofNat 256 (encode i).toNat) = .ok i ∧ b0.warp.boundBreach i = none ∧ b0.scoreWait i = false ∧
    ({ b0.warp with info := { b0.warp.info with vregs := 16 } } : Warp).boundBreach i = some 20 ∧
    (withEntry { entry0 with covers := [.v 20] }).scoreWait i = true ∧ (withEntry { entry0 with covers := [.v 20] }).warp.boundBreach i = none := by
  refine ⟨rfl, by decide +kernel, by decide +kernel, by decide +kernel, by decide +kernel, by decide +kernel⟩

/-- The number of a register, or of a trap, in a vector register. -/
def numbered (s : State) (n v : Nat) : State := withRegs s [⟨.v 2, 0, n⟩, ⟨.v 0, 0, v⟩]

theorem witness_system : let f := { fz with b := 2 }
    (∀ n ∈ [0, 0xFFFF], (numbered b0 n 0).srcB f false 32 1 0 = n ∧ (numbered b0 n 0).acts f = true) ∧
    (numbered b0 0x10000 0).srcB f false 32 1 0 = 0x10000 ∧ (numbered v0 7 0).srcB f false 32 1 0 = 7 ∧
    (b0.coreAt 0 0).dbgctl.getLsbD 2 = false ∧
    (b0.modCore 0 0 fun c => { c with dbgctl := 6 }).myCore.dbgctl.getLsbD 2 = true ∧
    (b0.modCore 0 0 fun c => { c with dbgctl := 6 }).myCore.dbgctl.getLsbD 1 = true ∧
    v0.release 3 = (v0, true) ∧ v0.warp.ended .vesperHalt = [] ∧ (v0.coreAt 0 64).ves.woken = false ∧
    ((v0.modCore 0 64 fun c => { c with ves := { c.ves with woken := true } }).coreAt 0 64).ves.woken = true ∧
    (v0.modWarp fun w => { w with quads := w.quads.map fun q => { q with wait := .vesperHalt } }).warp.ended .vesperHalt = [0] ∧
    (v0.modWarp fun w => { w with
      gang := [0, 1], quads := w.quads.mapIdx fun i q => if i = 0 then { q with wait := .vesperHalt } else q }).warp.ended .vesperHalt = [0] := by
  decide +kernel

/-- Every system register of the table: some number names it, a read of it or a write to it is allowed, and some read and some
write are not. -/
theorem witness_registers : (∀ r ∈ [SysReg.procsel, .userroot, .hostroot, .lqtable, .pltable, .savepool, .dbhost, .fqbase, .fqsync, .dmap,
      .tvec, .epc, .ecause, .eaddr, .emode, .fqhead, .rotthresh, .pltimeout, .migthresh, .leaseper, .suproot, .wake, .corectl 0, .corectl 63],
    (((List.range 0x400) ++ ((List.range 64).map (0x1000 + ·))).any fun n => sysReg n == some r) = true ∧
      (v0.sysWrite r 1).isSome = true) ∧
    (v0.sysRead .userroot).isSome = true ∧ sysReg 0xFFFF = none ∧ v0.sysRead .wake = none ∧ (v0.sysWrite .fqtail 0).isNone = true := by
  decide +kernel

theorem witness_pmark : let s := (b0.modCore 0 0 fun c => { c with dbgctl := 2 })
    let t := s.modDie 0 fun d => { d with regs := { d.regs with smpbase := 0x40000, smpctl := 0x0100 } }
    let u := t.modDie 0 fun d => { d with regs := { d.regs with smptail := 2 } }
    t.canonical = true ∧ t.acts fz = true ∧ t.indirectBreach (.pmark fz) fz = none ∧ (t.dirAt (lineOf 0x40000)).st = .u ∧
    ((t.dieAt 0).regs.smptail.toNat + 2 ^ 32 - (t.dieAt 0).regs.smphead.toNat) % 2 ^ 32 ≠ 2 ^ ((t.dieAt 0).regs.smpctl.toNat / 256 % 32) ∧
    ((u.dieAt 0).regs.smptail.toNat + 2 ^ 32 - (u.dieAt 0).regs.smphead.toNat) % 2 ^ 32 = 2 ^ ((u.dieAt 0).regs.smpctl.toNat / 256 % 32) ∧
    restful t (t.device * 2 ^ 55 + 0x40000) 256 = true ∧ (t.device * 2 ^ 55 + 0x40000) % 64 = 0 := by decide +kernel

/-! ### LOOPNEST -/

/-- One level of 40 elements of FP32; the result at bit 0x4000 from the sources at bit 0. -/
def nf (xop : BitVec 5) (r : BitVec 3) : NestFields where
  drain := false
  d := 8
  a := 0
  b := 0
  c := 0
  ext0 := 39
  ext1 := 0
  ext2 := 0
  ext3 := 0
  ext4 := 0
  tC := 0
  tB := 16
  tA := 16
  tD := 16
  rnd := 0
  fd := 0
  fs := 0
  r
  lv := 0
  xop

/-- A nest that runs: at its start, and at its second chunk. -/
def nesting (f : NestFields) (at_ : Nat) : State :=
  (withRegs b0 [⟨.s 8, 0, 0x4000⟩, ⟨.s 16, 0, 32⟩]).modWarp fun w => { w with nest := ⟨true, w.pc, [at_], 0, 0, some f⟩ }

theorem witness_loopnest : (∀ f ∈ [nf 1 0, nf 16 1, nf 18 1], ∀ k ∈ [0, 32], let s := nesting f k
      s.canonical = true ∧ s.warp.live = true ∧ s.warp.nest.running = some f ∧ s.nestWaits = false ∧
      nestLinear (nestExts f) s.warp.nest.idx = k ∧ (s.coreAt 0 0).watches = [] ∧
      (match s.nestElems f ((List.range (min 32 (40 - k))).map (k + ·)) with
        | (u, .ok es) => !u.nestMarked es && u.nestTurn es && (u.coreAt 0 0).watches.isEmpty && u.free == s.free && u.dir.isEmpty
        | _ => false) = true) ∧
    (withEntry { entry0 with kind := .wait }).nestWaits = true := by decide +kernel

/-- A nest whose element is refused its access: a source beyond the end of the scratchpad. -/
theorem witness_loopnest_trap : let f := { nf 1 0 with a := 4 }
    let s := withRegs (nesting f 0) [⟨.s 4, 0, 8 * 4096⟩, ⟨.s 5, 0, 0x08000000⟩]
    (match s.nestElems f ((List.range 32).map (0 + ·)) with
      | (_, .error e) => (match e.bar with | .trap _ _ => true | _ => false)
      | _ => false) = true := by decide +kernel

/-! ### Wakes, debug, the fault queue and pre-emption -/

/-- A Vesper core whose warp waits in HALT, and one that a double trap halted. -/
theorem witness_wakes :
    (let s := v0.modWarp fun w => { w with quads := w.quads.map fun q => { q with wait := .vesperHalt, operand := 1 } }
     s.canonical = true ∧ s.warp ∈ s.warps ∧ s.warp.id.die = 0 ∧ s.warp.id.core = 64 + 0 ∧
     ∃ q ∈ s.warp.quads, q.wait = .vesperHalt ∧ q.operand ≠ 0) ∧
    (∀ w ∈ v0.warps, ∀ q ∈ w.quads, ¬ (q.wait = .vesperHalt ∧ q.operand ≠ 0)) ∧
    (∀ v < 4, (v0.coreAt 0 (64 + v)).ves.down = false) ∧
    (let s := v0.modCore 0 64 fun c => { c with ves := { c.ves with down := true } }
     s.canonical = true ∧ (s.coreAt 0 64).ves.down = true) := by decide +kernel

def record0 : FaultRecord :=
  { addr := 1, pc := 2, info0 := 3, info1 := 0, regions := 0, process := 1, launch := 0, warp := 0, lane := 0, slot := 0, core := 0, die := 0
    kind := 1, code := 6, status := 0, flags := 0, aux16 := 0, time := 0 }

/-- A fault queue of 2 records with `used` of them taken, and a record that waits. -/
def queued (set : Bool) (used : DWord) : State :=
  b0.modDie 0 fun d => { d with
    waiting := [⟨record0, some 0, some b0.warp.id, false⟩]
    regs := { d.regs with fqbase := 0x40000, fqctl := 1, fqsync := 0x50000, fqtail := used, fqSet := set, fqCtlSet := set } }

theorem witness_fault_queue : (∀ s ∈ [queued false 0, queued true 0, queued true 1, queued true 2],
      s.canonical = true ∧ (s.dieAt 0).waiting = [⟨record0, some 0, some b0.warp.id, false⟩] ∧ s.warp.live = true ∧
      (∀ x ∈ [(0x40000, 512), (0x40200, 512), (0x50000, 64)], restful s x.1 x.2 = true ∧ x.1 % x.2 = 0) ∧
      0x40000 / 512 ≠ 0x50000 / 512 ∧ 0x40200 / 512 ≠ 0x50000 / 512) ∧
    (b0.dieAt 0).waiting = [] ∧ ((queued true 1).dieAt 0).regs.fqtail.toNat < 2 ^ 1 ∧ ((queued true 2).dieAt 0).regs.fqtail.toNat = 2 ^ 1 := by
  decide +kernel

theorem witness_no_home_watches : ∀ k, ((queued true 1).dieAt k).homeWatches = [] := by
  intro k
  rcases Nat.lt_trichotomy k 0 with h | rfl | h
  · omega
  · decide +kernel
  · have : ¬ k = 0 := by omega
    simp [queued, State.modDie, State.dieAt, tmod, tput, tget, b0, State.reset, Die.reset, this]

theorem witness_queue_room (k : Nat) : ((queued true 1).l2Lines k).length < 15 := by
  rcases Nat.lt_trichotomy k 0 with h | rfl | h
  · omega
  · decide +kernel
  · have : ¬ k = 0 := by omega
    simp [State.l2Lines, queued, State.modDie, State.dieAt, tmod, tput, tget, b0, State.reset, Die.reset, this]

theorem witness_park_record : (∀ r ∈ (b0.dieAt 0).waiting, r.warp ≠ some b0.warp.id) ∧
    (∃ r ∈ ((queued true 0).dieAt 0).waiting, r.warp = some (queued true 0).warp.id) := by decide +kernel

theorem witness_sampler :
    let s := (b0.modCore 0 0 fun c => { c with dbgctl := 1 }).modDie 0 fun d => { d with regs := { d.regs with smpbase := 0x40000, smpctl := 0x10100 } }
    s.canonical = true ∧ (s.dieAt 0).regs.smpctl.getLsbD 16 = true ∧ (∀ m < 64, (s.coreAt 0 m).dbgctl.getLsbD 0 = (m == 0)) ∧
    s.rotationPick 0 0 0 = some s.warp ∧ (∀ j < 4, j ≠ 0 → s.rotationPick 0 0 j = none) ∧
    (0 + 2 ^ 32 - (s.dieAt 0).regs.smphead.toNat) % 2 ^ 32 ≠ 2 ^ ((s.dieAt 0).regs.smpctl.toNat / 256 % 32) ∧
    restful s (s.device * 2 ^ 55 + 0x40000) 256 = true ∧ (s.device * 2 ^ 55 + 0x40000) % 64 = 0 ∧
    (b0.dieAt 0).regs.smpctl.getLsbD 16 = false := by decide +kernel

def watch0 : Watch := { lo := 64, hi := 128, mask := -1, ctl := 1 }

/-- A home watchpoint in force on the controller of the line (whichever it is) that matches the bits 64 to 95. -/
theorem witness_home_watch : let s := { State.reset with dies := [(0, { Die.reset with homeWatches := [(Config.controllerOf (lineOf 64) % 3 * 4 + 3, watch0)] })] }
    s.canonical = true ∧ (s.dieAt 0).homeWatches = [(Config.controllerOf (lineOf 64) % 3 * 4 + 3, watch0)] ∧
    (watch0.ctl.getLsbD 0 = true ∧ (0xFFFFFFFF : Nat).testBit 0 = true ∧ (0xFFFFFFFF : Nat).testBit 31 = true ∧
      watch0.lo.toNat ≤ 64 ∧ 95 < watch0.hi.toNat ∧ watch0.mask.getLsbD (64 % 64) = true ∧ watch0.mask.getLsbD (95 % 64) = true ∧
      ∀ i < 128, (0xFFFFFFFF : Nat).testBit i = true → i < 32) := by
  refine ⟨rfl, rfl, by decide +kernel⟩

theorem witness_core_halts :
    (let s := b0.modCore 0 0 fun c => { c with trapped := true }
     s.canonical = true ∧ (s.coreAt 0 0).trapped = true ∧ (s.coreAt 0 0).halt ≠ .halting) ∧
    (let s := b0.modCore 0 0 fun c => { c with halt := .halting, cause := .preempt }
     s.canonical = true ∧ (s.coreAt 0 0).halt = .halting) ∧
    (b0.coreAt 0 0).trapped = false ∧ (b0.coreAt 0 0).halt = .running ∧ b0.warp.halted = false ∧
    (let s := (b0.modCore 0 0 fun c => { c with halt := .halted }).modWarp fun w => { w with halted := true }
     s.canonical = true ∧ (s.coreAt 0 0).halt = .halted ∧
     (∀ w ∈ s.warps, w.halted = true ∧ w.score = [] ∧ (s.blockAt w.id.block).rotating = false) ∧
     s.slotBlock 0 0 0 = some 16 ∧ s.slotBlock 0 0 1 = none) ∧
    (let s := ((withEntry entry0).modCore 0 0 fun c => { c with halt := .halted }).modWarp fun w => { w with halted := true }
     s.canonical = true ∧ ∃ w ∈ s.warps, w.score ≠ [] ∧ (s.blockAt w.id.block).rotating = false) := by decide +kernel

/-! ### The Dusk engine -/

/-- A small block: one warp of 16 lanes, 8 vector registers, no scratchpad. -/
def small : Block := { loadBlock with header := { loadBlock.header with spad := 0, vunits := 1, barriers := 0 } }

/-- Its core halted, and a context command at bit 0x8000 that saves it at bit 2^20, or (op 2) restores it from there. -/
def commanded (op : Byte) (halt : HaltState) (b : Block) : State :=
  { State.reset with
    warp := if b.place = .resident then { w0 with info := { w0.info with vregs := 8 }, halted := true } else Warp.idle
    blocks := [(16, b)]
    cores := [(0, { Core.reset with halt })]
    dies := [(0, { Die.reset with dusk := [0x8000] })]
    mem := [(0x1003, op), (0x100A, 1), (0x100E, 1), (0x101A, 0x10)] }

theorem witness_save : let s := commanded 1 .halted small
    s.canonical = true ∧ (s.dieAt 0).dusk.head? = some 0x8000 ∧ s.contextCommand 0x8000 = ⟨2 ^ 20, 0, 65536, 1, 0, 0, 1, true⟩ ∧
    s.saveRefused 0 (s.contextCommand 0x8000) = none ∧ s.slotBlock 0 0 0 = some 16 ∧ (s.haltWarps 0 0).blockQuiet 16 = true ∧
    (s.coreAt 0 0).matrix ≠ some 16 ∧ (s.dieAt 0).l2 = [] ∧
    (let t := { s with ops := [(0, some { op0 2 (.matrix (mat0 .accz)) with started := false })] }
     (t.haltWarps 0 0).blockQuiet 16 = false) := by decide +kernel

theorem witness_save_refused : let s := commanded 1 .running small
    s.canonical = true ∧ (s.dieAt 0).dusk.head? = some 0x8000 ∧ s.saveRefused 0 (s.contextCommand 0x8000) = some 0x40 ∧
    (s.contextCommand 0x8000).clean = true ∧ (s.coreAt 0 0).halt ≠ .halted ∧ (s.coreAt 0 0).byTrap = false ∧
    (commanded 3 .halted small).contextCommand 0x8000 = ⟨2 ^ 20, 0, 65536, 1, 0, 0, 3, true⟩ := by decide +kernel

/-- Every line of the area is plain. -/
theorem witness_save_area : let s := commanded 1 .halted small
    ∀ x < 8 * 10240, (s.haltWarps 0 0).plainLine (lineOf (2 ^ 20 + x)) ∧ ((s.haltWarps 0 0).dirAt (lineOf (2 ^ 20 + x))).st = .u ∧
      ((s.haltWarps 0 0).dirAt (lineOf (2 ^ 20 + x))).busy = none := by
  intro s x hx
  have hl : lineOf (2 ^ 20 + x) < 2 ^ 10 := by unfold lineOf; omega
  refine ⟨⟨by omega, ?_, nofun, ?_⟩, rfl, rfl⟩
  · have : ∀ l < 2 ^ 10, (s.haltWarps 0 0).isLocal (l * 2048) = true := by decide +kernel
    exact this _ hl
  · have : ∀ l < 2 ^ 10, dieOf (l * 2048) = 0 := by decide +kernel
    rw [this _ hl]
    rfl

theorem witness_context_image : let w := { w0 with info := { w0.info with vregs := 8 }, replays := [⟨0, [(15, 7)], false, false, 64⟩] }
    w.wf = true ∧ w.quads.length ≤ 16 ∧ w.regions.length ≤ 8 ∧ w.nest.idx.length ≤ 5 ∧ w.replays.length ≤ 32 ∧ w.info.width ≤ 64 ∧
    ∀ r ∈ w.replays, ∀ l ∈ r.lanes, l.1 < w.info.width := by decide +kernel

theorem witness_restore : let s := commanded 2 .running { small with place := .saved, area := some (2 ^ 20) }
    s.canonical = true ∧ (s.contextCommand 0x8000).clean = true ∧ (s.contextCommand 0x8000).op = 2 ∧
    s.savedBlock 1 (s.cohRead (s.device * 2 ^ 55 + 2 ^ 20) 4096) = some 16 ∧ small.header.cluster = 1 ∧ s.moveBusy 16 = false ∧
    (let t := { s with ops := [(0, some (op0 0 (.copy copy0)))] }
     t.canonical = true ∧ t.moveBusy 16 = true) := by decide +kernel

theorem witness_restore_fits : let s := commanded 2 .running { small with place := .saved, area := some (2 ^ 20) }
    s.restoreRefused 0 (s.contextCommand 0x8000) 16 = none := by
  intro s
  have hm : (s.coreAt 0 (s.contextCommand 0x8000).core).matrix.isSome = false := by decide +kernel
  unfold State.restoreRefused
  simp only [no_poison (rfl : s.poison = []), hm, Bool.and_false, Bool.or_false]
  decide +kernel

/-- A checkpoint descriptor at bit 0x8000: one or two granules of die 0 to host-attached memory, full (0) or incremental (0x40). -/
def checkpointing (mode count map : Nat) : State :=
  { State.reset with
    dies := [(0, { Die.reset with ckpts := [(0x8000, 0, false)], regs := { DieRegs.reset with dmap := BitVec.ofNat 64 map } })]
    ranges := [(0, (0x00000004#32 ++ 0x00E00000#32 ++ 0#64 : BitVec 128).setWidth 256)]
    tray := [(0, (0x00000004#32 ++ 0x00E00000#32 ++ 0#64 : BitVec 128).setWidth 256)]
    mem := (if mode = 0 then [] else [(0x100B, BitVec.ofNat 8 mode)]) ++ [(0x100C, BitVec.ofNat 8 count), (0x1016, 0x20)] ++ if map = 0 then [] else [(0x8000, 1)] }

theorem witness_checkpoints : (∀ x ∈ [(0, 1, 0), (0x40, 1, 0), (0x40, 2, 0x40000), (0, 2, 0x40000)], let s := checkpointing x.1 x.2.1 x.2.2
      s.canonical = true ∧ (s.dieAt 0).ckpts = [(0x8000, 0, false)] ∧ (s.checkpointAt 0 0x8000).sync = 0 ∧
      (s.checkpointAt 0 0x8000).clean = true ∧ (s.checkpointAt 0 0x8000).mode = x.1 / 64 ∧
      (s.checkpointAt 0 0x8000).count = x.2.1 ∧ frameOk (s.checkpointAt 0 0x8000).src 32768 = true ∧
      (s.hostRange (s.checkpointAt 0 0x8000).dst 32768 (·.w)).isSome = true ∧
      (x.2.2 ≠ 0 → s.cohRead 0x40000 1 = 1)) ∧
    (checkpointing 0x80 1 0).canonical = true ∧ ((checkpointing 0x80 1 0).checkpointAt 0 0x8000).mode = 2 := by decide +kernel

theorem witness_checkpoint_lines : let s := checkpointing 0 1 0
    let dst := (s.checkpointAt 0 0x8000).dst
    ∀ o < 32768, (∀ h ∈ s.holders, h.1 ≠ lineOf (dst + o)) ∧ (s.dirAt (lineOf (dst + o))).st = .u ∧
      (s.dirAt (lineOf (dst + o))).busy = none := by
  intro s dst o _
  exact ⟨nofun, rfl, rfl⟩

/-- The bit of the dirty map lies in a line that rests and that the granule does not hold. -/
theorem witness_dirty_map : let s := checkpointing 0x40 1 0x40000
    s.isLocal 0x40000 = true ∧ s.holders = [] ∧ (s.dirAt (lineOf 0x40000)).st = .u ∧ (s.dirAt (lineOf 0x40000)).busy = none ∧
    s.hasRoom (dieOf 0x40000) (lineOf 0x40000) ∧ (s.checkpointAt 0 0x8000).src = 0 ∧ ∀ o < 32768, lineOf 0x40000 ≠ lineOf (0 + o) := by
  refine ⟨by decide +kernel, rfl, by decide +kernel, by decide +kernel, roomy (by decide +kernel), by decide +kernel, fun o ho => ?_⟩
  unfold lineOf
  omega

/-- A cluster that may be swapped out for one that cannot be resident beside it. -/
def rotating : State :=
  let wide : Block := { small with place := .saved, cluster := 1, header := { small.header with spad := 655361 } }
  { State.reset with
    warp := { w0 with quads := w0.quads.map fun q => { q with wait := .await } }
    blocks := [(16, { small with waitSince := some 0, header := { small.header with savearea := 10240 } }), (32, wide)]
    launches := [(2 ^ 32, { Launch.none with started := true, process := 1, swapped := [(1, 0)], next := 2, grid := [2, 1, 1], prods := [7] })]
    procs := [(1, { Process.reset with savepool := 0x100008 })]
    timer := 100001 }

theorem witness_rotation : rotating.canonical = true ∧ rotating.liveBlocks 1 0 0 ≠ [] ∧ rotating.rotatable 1 0 0 = true ∧
    rotating.clusterAwaits 1 0 0 = true ∧ (rotating.takeAreas (rotating.rotatingBlocks 1 0 0)).isSome = true ∧
    ({ rotating with timer := 100000 } : State).rotatable 1 0 0 = false := by decide +kernel

theorem witness_swap : let s : State := { rotating with
      warp := { rotating.warp with halted := true }
      blocks := rotating.blocks.map fun (n, b) => (n, if n = 16 then { b with held := true, area := some (2 ^ 20) } else b) }
    s.canonical = true ∧ (∀ x ∈ s.liveBlocks 1 0 0, x.2.place = .resident ∧ x.2.held = true ∧ x.2.area.isSome = true ∧
      (∀ w ∈ s.warps, w.isVesper = true ∨ w.id.block ≠ x.1 ∨ w.halted = true) ∧ s.blockQuiet x.1 = true) ∧ s.liveBlocks 1 0 0 ≠ [] := by
  decide +kernel

theorem witness_swapped_in : let b := { small with place := .saved }
    let l := { Launch.none with started := true, process := 1, swapped := [(0, 0)], next := 1, grid := [1, 1, 1] }
    let s := { State.reset with blocks := [(16, b)], launches := [(2 ^ 32, l)] }
    s.canonical = true ∧ s.nextSwapped = some (l, 0) ∧ launchKey 1 0 = 2 ^ 32 ∧ s.savedRanks l 0 = [(16, b)] ∧ 9 / 8 = 1 ∧
    s.restoreFits 0 [(16, b)] [9] = true ∧ s.moveBusy 16 = false ∧ b0.nextSwapped = none ∧
    (let t := { s with ops := [(0, some (op0 0 (.copy copy0)))] }
     t.canonical = true ∧ t.moveBusy 16 = true) := by decide +kernel

/-! ### The Angelus channels -/

def message0 (kind : BitVec 8) (seq : Nat) (payload : Nat) : AngelusMsg :=
  { seq, epoch := 0, kind, srcDev := 0, srcDie := 0, payload := BitVec.ofNat 384 payload }

/-- TLBINV: addresses that R367 refuses and one that it takes, with none and with all of a die's shoot-downs under way. -/
theorem witness_tlbinv : let f := { fz with b := 2 }
    let s := withRegs v0 [⟨.v 2, 0, 1⟩]
    s.canonical = true ∧ s.acts f = true ∧ s.release 4 = (s, true) ∧ s.srcA f 2 0 = 0 ∧ s.srcB f false 32 1 0 = 1 ∧ f.mb 1 = false ∧
    regionOf 0 = 0 ∧ s.shootdownsFull 0 = false ∧ v0.srcB f false 32 1 0 = 0 ∧
    (let t := { s with package := { s.package with waits := (List.range 64).map fun n => ⟨n, 4, 0, [], s.warp.id, 0, 0⟩ } }
     t.canonical = true ∧ t.shootdownsFull 0 = true) ∧
    (0, 1) ∉ s.package.tickets ∧
    (let t := { s with package := { s.package with tickets := [(0, 1)] } }
     t.canonical = true ∧ (0, 1) ∈ t.package.tickets) := by decide +kernel

/-- A Vesper warp whose operand a is the boot translation's first address. -/
theorem witness_amsg : let f := { fz with b := 2 }
    (∀ n ∈ [1, 7, 4], let s := withRegs v0 [⟨.v 1, 0, 0xF8000000⟩, ⟨.v 2, 0, n⟩]
      s.acts f = true ∧ s.srcA f 2 0 = bootBase ∧ s.srcB f false 32 1 0 = n ∧
      (match s.readOnce f bootBase 384 with
        | (u, .ok _) => decide (u.release 4 = (u, true)) && decide (u.release 5 = (u, true))
        | _ => false) = true) ∧
    (v0.channel false).queues.getD 0 [] = [] ∧
    (let s := { withRegs v0 [⟨.v 1, 0, 0xF8000000⟩] with package := { Channel.reset with queues := [[message0 1 0 0], [], [], []] } }
     s.canonical = true ∧ (s.channel false).queues.getD 0 [] = [message0 1 0 0] ∧ s.srcA f 2 0 % 512 = 0 ∧ spaceOf (s.srcA f 2 0) = 2 ∧
     (s.reachAll s.warp ⟨.store, needW, 512, none⟩ [(0, s.srcA f 2 0)]).2.bad = [] ∧
     ((s.reachAll s.warp ⟨.store, needW, 512, none⟩ [(0, s.srcA f 2 0)]).1.dieAt 0).l2 = []) := by decide +kernel

theorem witness_arecv_place : v0.place v0.warp bootBase 512 = .ok .mem := rfl

/-- A message submitted by a warp that waits for it; and a queue that is full. -/
theorem witness_stamp :
    (∀ k ∈ [1, 4, 5, 7], let m := message0 (BitVec.ofNat 8 k) 0 0
      let s := { v0 with package := { Channel.reset with backlog := [(m, some (v0.warp.id, 0))] } }
      s.canonical = true ∧ m.kind ≠ 3 ∧ s.fullDies false = [] ∧ ((s.package.backlog.find? fun x => x.1 == m).bind (·.2)) = some (v0.warp.id, 0)) ∧
    (let s := { v0 with package := { Channel.reset with queues := [List.replicate 64 (message0 1 0 0), [], [], []] } }
     s.canonical = true ∧ s.fullDies false = [0]) ∧
    ((v0.package.backlog.find? fun x => x.1 == message0 1 0 0).bind (·.2)) = none := by decide +kernel

/-- Deliveries: a message that is due, one that comes early, and one that has been delivered. -/
theorem witness_deliveries : let s := { v0 with package := { Channel.reset with delivered := [1, 0, 0, 0] } }
    s.canonical = true ∧ s.alive 0 = true ∧ (message0 1 1 0).seq = (s.channel false).delivered.getD 0 0 ∧
    (s.channel false).delivered.getD 0 0 < (message0 1 2 0).seq ∧ (message0 1 0 0).seq < (s.channel false).delivered.getD 0 0 ∧
    ({ s with members := 0b1110 } : State).alive 0 = false := by decide +kernel

/-- INVALIDATE of one line that an agent shares, and of every line; COMMIT with an access that was issued before, and
without; PAGEFLUSH; MEMBERSHIP of die 1. -/
theorem witness_messages :
    (let s := v0.modDie 0 fun d => { d with lineDir := [(1, 3)] }
     s.canonical = true ∧ (s.dieAt 0).lineDir.find? (fun x => x.1 == 1) = some (1, 3) ∧ (3 : Nat).testBit 1 = true ∧ dieOf (1 * 2048) = 0 ∧
     (message0 4 0 2048).payload.getLsbD 77 = false ∧ (message0 4 0 (2 ^ 77)).payload.getLsbD 77 = true) ∧
    (let s := { b0 with package := { Channel.reset with drops := [(0, 5)] }, agenda := [.homeStore (store0 0 .homeStore)] }
     s.canonical = true ∧ ∃ p ∈ s.pendings, p.die = 0 ∧ p.line ≠ noLine ∧ p.seq < tget 0 s.package.drops (0 % 2 ^ 31 * 4 + 0)) ∧
    (∀ p ∈ v0.pendings, ¬ (p.die = 0 ∧ p.seq < 5)) ∧
    ((2 ^ 64 : Nat) % 2 ^ 19 = 0 ∧ 2 ^ 64 / 2 ^ 64 % 2 ^ 32 ≠ 0 ∧ 2 ^ 64 / 2 ^ 96 = 0 ∧ (1 : Nat) % 2 ^ 19 ≠ 0) ∧
    (let s := { b0 with dir := [(1, { DirEntry.idle with st := .s 2, busy := some ⟨[1], none⟩ })] }
     s.canonical = true ∧ ∃ x ∈ s.dir, 0 ≤ x.1 * 2048 ∧ x.1 * 2048 < 2 ^ 19 ∧ s.isLocal (x.1 * 2048) = true ∧ dieOf (x.1 * 2048) = 0 ∧
       x.2.busy.isSome = true) ∧
    ((message0 3 0 1).payload.toNat % 2 ^ 11 = v0.device * 4 + 1 ∧ v0.device < 512 ∧ v0.blocks = [] ∧ v0.convs = [] ∧ v0.ops = [] ∧
      v0.package.waits = [] ∧ v0.group.waits = [] ∧ v0.forwarding = false ∧ v0.dies = []) := by decide +kernel

theorem witness_acknowledgements : let w : AckWait := { seq := 5, kind := 4, die := 0, waiting := [2, 9], warp := v0.warp.id, entry := 0, value := 5 }
    let e := { entry0 with kind := .wait, parts := [], results := [⟨.v 2, 0, 0⟩] }
    let s := { v0.modWarp (fun u => { u with score := [e], nextId := 1 }) with package := { Channel.reset with waits := [w] } }
    s.canonical = true ∧ (s.channel false).waits = [] ++ w :: [] ∧ 9 ∈ w.waiting ∧ w.waiting.filter (· != 9) ≠ [] ∧
    [9].filter (· != 9) = [] ∧ s.warp.live = true ∧ s.warp.id = w.warp ∧ ∃ x ∈ s.warp.score, x.id = w.entry := by decide +kernel

/-- A die that is silent for 30 µs, heard by die 1; the first member, and another. -/
theorem witness_heartbeats : let s := { v0 with timer := 30000 }
    s.canonical = true ∧ s.alive 0 = true ∧ s.survivors = [0, 1, 2, 3] ∧ s.packageMembers = [0, 1, 2, 3] ∧ s.device < 512 ∧
    (∀ d ∈ s.survivors, 30000 ≤ s.timer - tget 0 s.heard (0 * 4 + d)) ∧
    (let t := { s with heard := [(1, 1)] }
     t.canonical = true ∧ t.timer - tget 0 t.heard (0 * 4 + 1) < 30000 ∧ 10000 < t.timer - tget 0 t.heard (0 * 4 + 1)) ∧
    ({ s with members := 0b1110 } : State).alive 0 = false ∧ s.packageMembers.head? = some 0 ∧
    (let t := { s with gmembers := [0, 1, 3] }
     s.device * 4 + 2 ∉ t.gmembers ∧ t.canonical = true) ∧
    ({ s with gmembers := [0, 1, 3] } : State).packageMembers.filter (· != 2) = 0 :: [1, 3] := by decide +kernel

/-! ### Links and planes -/

/-- A link with wavelength 0 in a given condition. -/
def linked (x : Wavelength) (l : Link) : State := { v0 with links := [(3, { l with waves := [(0, x)] })] }

theorem witness_error_window :
    (∀ x ∈ [{ Wavelength.reset with rxBits := 2 ^ 30 }, { Wavelength.reset with rxBits := 2 ^ 30, corrBits := 1074 },
        { Wavelength.reset with rxBits := 2 ^ 30, corrBits := 1073 }],
      (linked x Link.reset).canonical = true ∧ ((linked x Link.reset).linkAt 3).wave 0 = x ∧ 2 ^ 30 ≤ (x.rxBits - x.winBits).toNat) ∧
    1000000 * 2 ^ 30 < 1074 * 10 ^ 12 ∧ ¬ 1000000 * 2 ^ 30 < 1073 * 10 ^ 12 ∧ Link.reset.active &&& 1#8 ≠ 0 ∧ Link.reset.training = 0 ∧
    ((linked Wavelength.reset { Link.reset with training := 2 }).linkAt 3).training ≠ 0 := by decide +kernel

theorem witness_training :
    (∀ k ∈ [0, 1, 2], let s := linked { Wavelength.reset with attempts := k } { Link.reset with training := 1, active := 0xFE }
      s.canonical = true ∧ (s.linkAt 3).training &&& 1#8 <<< 0 ≠ 0 ∧ ((s.linkAt 3).wave 0).retryAt = none ∧ ((s.linkAt 3).wave 0).attempts = k ∧
      ∀ v < 8, ((s.linkAt 3).wave v).pending = false) ∧
    (let s := linked Wavelength.reset { Link.reset with txActive := 0xFE }
     s.canonical = true ∧ (s.linkAt 3).training &&& 1#8 <<< 0 = 0 ∧ (s.linkAt 3).txActive &&& 1#8 <<< 0 = 0 ∧ (s.linkAt 3).back = none) ∧
    (let s := linked { Wavelength.reset with retryAt := some 5 } Link.reset
     ((s.linkAt 3).wave 0).retryAt = some 5 ∧ s.timer < 5 ∧ 5 ≤ ({ s with timer := 5 } : State).timer) ∧
    (let s := linked Wavelength.reset { Link.reset with training := 1 }
     (s.linkAt 3).back ≠ some (0, 7) ∧ (s.linkAt 3).training = 1#8 <<< 0) ∧
    ((linked Wavelength.reset { Link.reset with back := some (0, 7) }).linkAt 3).back = some (0, 7) := by decide +kernel

def flit0 (seq : BitVec 16) : Flit := { seq, vc := 0, kind := 0, credit := 0, payload := 0 }

/-- Flits in sequence, ahead of it by 1 and by 2^15 - 1, and behind it. -/
theorem witness_flits :
    (∀ x ∈ [(0, 0), (1, 1), (0x7FFF, 0x7FFF), (0x8000, 0x8000), (0xFFFF, 0xFFFF)],
      ((flit0 (BitVec.ofNat 16 x.1)).seq - Link.reset.expect).toNat = x.2) ∧ Link.reset.early = [] ∧
    (let s := linked Wavelength.reset { Link.reset with early := [flit0 1] }
     s.canonical = true ∧ (s.linkAt 3).early = [flit0 1] ∧ (flit0 1).seq = (s.linkAt 3).expect + 1) ∧
    (let s := linked { Wavelength.reset with winUncorr := 2 } Link.reset
     s.canonical = true ∧ ((s.linkAt 3).wave 0).winUncorr = 2 ∧ (s.linkAt 3).active &&& 1#8 <<< 0 ≠ 0 ∧ (s.linkAt 3).training = 0) ∧
    ((linked Wavelength.reset { Link.reset with unacked := [flit0 1, flit0 2, flit0 3] }).linkAt 3).unacked = [flit0 1] ++ flit0 2 :: [flit0 3] ∧
    (flit0 1).seq ≠ 2 := by decide +kernel

theorem witness_planes : (∀ p ∈ [Plane.up, .draining, .down], let s := { v0 with planes := v0.planes.set 3 p }
      s.canonical = true ∧ s.planes[3]? = some p) ∧ v0.planes[48]? = none := by decide +kernel

/-! ### Hosts, other devices and the platform -/

/-- A partition of host 2: die 0's first 2^20 bits, every right; in force in both copies of the table. -/
def range0 : BitVec 256 := (0x00000002#32 ++ 0x09F80000#32 ++ 0#64 : BitVec 128).setWidth 256

def served : State :=
  { b0 with ranges := [(0, range0)], tray := [(0, range0)], platform := { Platform.reset with stage := 6 }, saved := [(1, 4, 0, .response 1 4 9)] }

theorem witness_requests_outside : served.canonical = true ∧
    (∀ x ∈ [(RemoteOp.load 64 32), .store 64 32 7, .load (2 ^ 20 - 32) 32],
      (served.partition 2 (opSpan x).1 (opSpan x).2 (opGranted x)).isSome = true) ∧
    (served.partition 3 64 32 (opGranted (.load 64 32))).isSome = false ∧
    (served.partition 2 (2 ^ 20) 32 (opGranted (.load 64 32))).isSome = false ∧
    (let kept := served.saved.filter fun x => decide (served.timer ≤ x.2.2.1 + 64000)
     kept.find? (fun x => x.1 == 1 && x.2.1 == 4) = some (1, 4, 0, .response 1 4 9) ∧ kept.find? (fun x => x.1 == 1 && x.2.1 == 5) = none) ∧
    served.alive (dieOf 64) = true ∧ restful served 64 32 = true ∧ served.poisonOf 64 32 = none ∧
    (∀ x ∈ [RemoteOp.load 64 32, .store 64 32 7], served.remoteHeld x = false ∧ served.hostOwns 2 (opSpan x).1 (opSpan x).2 = false ∧
      ({ served with dstMarks := [⟨0, 4096, 0, 0⟩] } : State).remoteHeld x = true) ∧
    ({ served with poison := [(0, some ⟨1, 0⟩)] } : State).poisonOf 64 32 = some 1 ∧ ({ served with poison := [(0, some ⟨1, 0⟩)] } : State).canonical = true := by
  decide +kernel

theorem witness_request_rests : served.Rests 64 32 := rests_of (by decide +kernel)

/-- A host's own request to the memory that the device sees in region 01. -/
theorem witness_host_memory : let s := checkpointing 0 1 0
    (∀ x ∈ [RemoteOp.load (2 ^ 53) 32, .store (2 ^ 53 + 64) 32 7], s.hostOwns 0 (opSpan x).1 (opSpan x).2 = true ∧
      (s.dirAt (lineOf (opSpan x).1)).st = .u ∧ (s.dirAt (lineOf (opSpan x).1)).busy = none) ∧ s.holders = [] ∧
    s.poisonOf (2 ^ 53) 32 = none := by decide +kernel

/-- Entries that R408 accepts and refuses: another host's overlapping partition, a reserved bit, index 64. -/
theorem witness_range_table : served.entryOk 0 range0 = true ∧ served.entryOk 63 range0 = true ∧ served.entryOk 64 range0 = false ∧
    served.entryOk 1 (range0 ||| 1) = false ∧
    (let other : BitVec 256 := range0 ^^^ BitVec.ofNat 256 (2 ^ 90)
     served.entryOk 1 other = false ∧ (rangeOf other).kind = 1 ∧ (rangeOf other).valid = true ∧ (rangeOf other).hostId = 3 ∧
     (rangeOf range0).hostId = 2 ∧ (rangeOf other).covers 64 1 = true ∧ (rangeOf range0).covers 64 1 = true) := by decide +kernel

/-- A lease that has run out, with a line that the host holds modified. -/
theorem witness_leases : served.extentsOf 2 1 ≠ [] ∧ served.extentsOf 3 1 = [] ∧ tget 0 served.leases 2 = 0 ∧
    (let s := { served with leases := [(2, 10)], timer := 10, holders := [(5, 2, true)] }
     s.canonical = true ∧ tget 0 s.leases 2 ≠ 0 ∧ tget 0 s.leases 2 ≤ s.timer ∧ s.device < 512 ∧ (5, 2, true) ∈ s.holders ∧
       ({ s with timer := 9 } : State).timer < tget 0 s.leases 2) := by decide +kernel

theorem witness_no_map : ∀ d, (served.dieAt d).regs.dmap = 0 := fun _ => rfl

/-- A record of type 1 without payload: every check of R453 but the signature, which is a free value. -/
theorem witness_record : let b : List Byte := [1, 0, 0, 0, 1, 0, 0, 0] ++ List.replicate 64 0
    leAt b 0 2 = 1 ∧ leAt b 2 2 = 0 ∧ b.length = 0 + 72 ∧ payloadOk 1 [] = true ∧ Platform.reset.anySeq = false ∧
    ¬ (7 ≤ Platform.reset.stage ∨ Platform.reset.stopped = true) ∧ signedByPlovem [] = false ∧
    signedByPlovem b = Config.plovemSignatureOk (b.take 8) (b.drop 8) := by
  exact ⟨by decide +kernel, by decide +kernel, by decide +kernel, rfl, rfl, by decide +kernel, rfl, rfl⟩

/-- A boot image of 64 bytes of code: every check of R458 but the signature. -/
theorem witness_boot_image : let b : List Byte := [0x56, 0x42, 0x53, 0x56, 1] ++ List.replicate 27 0 ++ [64] ++ List.replicate 159 0
    leAt b 0 4 = 0x56534256 ∧ leAt b 4 2 = 1 ∧ leAt b 32 4 = 64 ∧ b.length = 128 + 64 ∧ zeroBytes b 6 2 = true ∧
    zeroBytes b 36 28 = true ∧ leAt b 8 8 = 0 ∧ leAt b 16 8 = 0 ∧ leAt b 24 8 = 0 ∧ imageFits [] = false ∧
    ¬ 2 < Platform.reset.stage := by
  decide +kernel

theorem witness_keys_and_heat : tget none served.platform.keys 1 = none ∧
    ¬ (served.platform.stage ≠ 6 ∨ served.platform.recovery = true ∨ served.platform.stopped = true ∨ 24 < 24 ∨ 31 < 31) ∧
    (List.replicate 32 (0 : Byte)).length = 32 ∧ 2 ≤ served.platform.stage ∧
    (tget Island.reset served.platform.islands 0).tlim + 15 = 115 ∧ ¬ 32 ≤ 31 := by decide +kernel

/-! ### Encoding, stepping, invariants -/

theorem witness_encoding : (Instr.iadd fz).WellFormed ∧ decode (encode (.iadd fz)) = .ok (.iadd fz) ∧
    (∀ r ∈ opcodeRanges, 0x3FF < r.1 ∨ r.2 < 0x3FF) ∧ ((0x3FF#10 ++ 1#2 : BitVec 12).setWidth 256).extractLsb' 2 10 = 0x3FF := by
  refine ⟨(by decide +kernel : (Instr.iadd fz).check = true), rfl, by decide +kernel, by decide +kernel⟩

/-- The state in which an instruction is placed meets the conditions of a scheduler's turn. -/
theorem witness_turn : let s := { (State.reset.withFetchWord 64 (encode (.iadd fz)).toNat) with turns := [] }
    let s1 := ((s.focus s.warp.id).modWarp fun w => { w with stall := 0 }).payAcquire
    let u := s1.modWarp s1.select
    let d := u.dieRead 0 0x40000 512
    s.candidates (fun w => w.id.die == 0 && w.id.core == 0 && w.sched == 0) = [s.warp] ∧ s1.warp.trapCode = none ∧ s1.warp.gang = [] ∧
    s1.warp.replays = [] ∧ s1.regangs s1.warp = false ∧ u.warp.gang = [0, 1, 2, 3] ∧ u.ackWait u.warp.id = false ∧ u.mustHold u.warp = false ∧
    fetchWindow u.warp.user u.warp.pc.toNat = none ∧
    u.translate 0 0 (u.processOf u.warp) true u.warp.pc.toNat needX = (u, .ok 0x40000 0x27D) ∧
    u.barred (u.processOf u.warp) true .load 0x40000 0x27D 64 none = none ∧
    u.served 0x40000 (leafMode 0x27D 0) = some 0x40000 ∧ (u.coreAt 0 0).code (sectorOf 0x40000) = some d ∧
    d / 2 ^ (0x40000 % 512) % 2 ^ 64 = u.dieRead 0 0x40000 64 ∧ u.warp.pc.toNat % 256 + 64 ≤ 256 ∧ 8 * slotBytes (BitVec.ofNat 2 (u.dieRead 0 0x40000 64)) = 64 ∧
    u.poisonOf 0x40000 64 = none ∧ u.warp.decodeTrap (.iadd fz) = none ∧ u.scoreWait (.iadd fz) = false ∧ s.canonical = true := by
  decide +kernel

theorem witness_turn_word : let s := { (State.reset.withFetchWord 64 (encode (.iadd fz)).toNat) with turns := [] }
    decode (BitVec.ofNat 256 (s.dieRead 0 0x40000 64)) = .ok (.iadd fz) := by
  have h : ((State.reset.withFetchWord 64 (encode (.iadd fz)).toNat).dieRead 0 0x40000 64) = (encode (.iadd fz)).toNat := by decide +kernel
  exact (congrArg (fun x => decode (BitVec.ofNat 256 x)) h).trans rfl

theorem witness_events : let s := { b0 with agenda := [.transactionComplete 0], inputs := [.packageReset] }
    s.agenda[0]? = some (.transactionComplete 0) ∧ s.inputs = .packageReset :: [] ∧ s.turns = [] := by decide +kernel

theorem witness_canonical : State.reset.canonical = true ∧ ∃ t, step State.reset = .next t := ⟨by decide +kernel, _, rfl⟩

/-! ## Single steps, with results that the spec works out -/

/-- What a register holds in a lane after an instruction. -/
def after (i : Instr) (s : State) (n : RegName) (lane : Nat) : Nat :=
  match exec i s with
  | .next t => t.warp.regs.get n lane
  | _ => 0

/-- Chapter 3, worked example: IADD on eight i4 elements. -/
theorem test_iadd_i4 : let s := withRegs b0 [⟨.v 11, 0, 0x88007356⟩, ⟨.v 12, 0, 0xF9001235⟩]
    after (.iadd (.plain false 10 10 11 12 1 0 0 .none)) s (.v 10) 0 = 0x88007577 ∧
    after (.iadd (.plain false 10 10 11 12 0 0 0 .none)) s (.v 10) 0 = 0x7100858B := by decide +kernel

theorem test_iadd_n4 : let s := withRegs b0 [⟨.v 11, 0, 0x88007356⟩, ⟨.v 12, 0, 0xF9001235⟩]
    after (.iadd (.plain false 11 10 11 12 1 0 0 .none)) s (.v 10) 0 = 0xFF00858B := by decide +kernel

/-- Chapter 3, worked example: a sub-gang of lanes 0 to 7 reads lanes of the other. -/
theorem test_xlane_rot : let s := (withRegs b0 ((List.range 16).map fun l => ⟨.v 1, l, 10 * l⟩)).modWarp fun w => { w with gang := [0, 1] }
    let i := Instr.xlane (.plain false 1 2 1 0 4 0 2 .none)
    after i s (.v 2) 0 = 40 ∧ after i s (.v 2) 7 = 110 ∧ after i s (.v 2) 8 = 0 := by decide +kernel

theorem test_pgath : let s := (withRegs b0 ((List.range 16).map fun l => ⟨.p 1, l, (l + 1) % 2⟩)).modWarp fun w => { w with gang := [0, 1] }
    after (.pgath (.plain false 0 2 1 0 0 0 0 .none)) s (.s 2) 0 = 0x55 := by decide +kernel

/-- R95's example. -/
theorem test_dsh : let s (n : Nat) := withRegs b0 [⟨.v 1, 0, 0x89ABCDEF⟩, ⟨.v 2, 0, n⟩, ⟨.v 3, 0, 0x01234567⟩]
    let i := Instr.dsh (.plain false 0 4 1 2 3 0 0 .none)
    after i (s 8) (.v 4) 0 = 0x6789ABCD ∧ after i (s 40) (.v 4) 0 = 0x00012345 := by decide +kernel

/-- R101's example. -/
theorem test_icvt : let s := withRegs b0 [⟨.v 1, 0, 0x13⟩]
    after (.icvt (.plain false 0 2 1 0 0x1A 0 0 .none)) s (.v 2) 0 = 7 ∧
    after (.icvt (.plain false 0 2 1 0 0x0A 0 0 .none)) s (.v 2) 0 = 3 := by decide +kernel

/-- R134's example, under RNE and under RU. -/
theorem test_fscale : let s := withRegs b0 [⟨.v 1, 0, 0x3C00⟩, ⟨.v 2, 0, 2 ^ 32 - 25⟩]
    after (.fscale (.plain false 1 3 1 2 0 0 0 .none)) s (.v 3) 0 = 0 ∧
    after (.fscale (.plain false 1 3 1 2 2 0 0 .none)) s (.v 3) 0 = 1 := by decide +kernel

/-- R144's example. -/
theorem test_f2f : let s := withRegs b0 [⟨.v 3, 0, 0x41240000⟩, ⟨.v 7, 0, 0x11223344⟩]
    after (.f2f (.plain false 0 7 3 0 0x20 0 0 (.extE 0x40 0 0))) s (.v 7) 0 = 0x11523344 := by decide +kernel

/-- Chapter 1, worked example: element 10 of an array of i6. -/
theorem test_lea : let s := withRegs b0 [⟨.v 2, 0, 0x40000⟩, ⟨.v 6, 0, 10⟩]
    after (.lea (.plain false 1 4 2 6 5 0 0 (.immI 0x80))) s (.v 4) 0 = 0x400BC := by decide +kernel

theorem test_pdiff : let s := withRegs b0 [⟨.v 2, 0, 0x40000⟩, ⟨.v 4, 0, 0x400BC⟩]
    after (.pdiff (.plain false 0 8 4 2 5 0 0 .none)) s (.v 8) 0 = 31 ∧
    after (.pdiff (.plain false 0 8 2 4 5 0 0 .none)) s (.v 8) 0 = 0xFFFFFFE0 := by decide +kernel

theorem test_bitofs_alcls : let s := withRegs b0 [⟨.v 4, 0, 0x400BC⟩, ⟨.p 1, 0, 1⟩]
    after (.bitofs (.plain false 0 10 4 0 63 0 0 .none)) s (.v 10) 0 = 60 ∧
    after (.alcls (.plain false 2 1 4 0 5 0 0 .none)) s (.p 1) 0 = 0 := by decide +kernel

/-- R49: imm16 0xFFF0 is -16 for IADD.i32, and 0x0000FFF0 for AND. -/
theorem test_imm16 : let s := withRegs b0 [⟨.v 3, 0, 0xFFFFFFFF⟩]
    after (.iadd (.plain false 0 3 3 0xFF 0xF0 0 2 .none)) s (.v 3) 0 = 0xFFFFFFEF ∧
    after (.and_ (.plain false 0 3 3 0xFF 0xF0 0 2 .none)) s (.v 3) 0 = 0x0000FFF0 := by decide +kernel

/-- R217's example: gen 5, count 200, target 256, and 512 bits land. -/
theorem test_sync_word : syncAdd 512 (5 * 2 ^ 56 + 200 * 2 ^ 28 + 256) = 7 * 2 ^ 56 + 200 * 2 ^ 28 + 256 := by decide +kernel

/-- R88: division by 0 gives all ones, and the most negative number by -1 itself. -/
theorem test_idiv : let s := withRegs b0 [⟨.v 1, 0, 7⟩, ⟨.v 1, 1, 0x80000000⟩, ⟨.v 2, 1, 0xFFFFFFFF⟩]
    (match exec (.idiv (.plain false 0 3 1 2 0 0 0 .none)) s with
     | .next t => (t.warp.score.flatMap (·.results)).take 2
     | _ => []) = [⟨.v 3, 0, 0xFFFFFFFF⟩, ⟨.v 3, 1, 0x80000000⟩] := by decide +kernel

end Sys2Proof.Tests
end

/-! PROOFS. The address instructions (R26 to R34): what each operation computes, and how the instructions that share a way of
running complete. -/

namespace Sys2Proof.Machine

/-! ## Arithmetic of bit addresses -/

theorem widthOperand_pos (f : Fields) : 0 < widthOperand f := by
  unfold widthOperand; split <;> positivity

/-- ALIGNDN (R30): the greatest multiple that is not above. -/
theorem alignDown_eq (x w : Nat) : alignDown x w = x / w * w := Nat.div_mul_self_eq_mod_sub_self.symm

/-- The step up to a multiple of `w`, as R30 writes it, is the rounding up of the quotient. -/
theorem add_gap_eq {w : Nat} (hw : 0 < w) (x : Nat) : x + (w - x % w) % w = (x + w - 1) / w * w := by
  have hx : x = x / w * w + x % w := (Nat.div_add_mod' x w).symm
  have hlt : x % w < w := Nat.mod_lt x hw
  generalize x / w = q at hx
  generalize x % w = r at hx hlt
  subst hx
  rcases Nat.eq_zero_or_pos r with rfl | hr
  · have hq : (q * w + 0 + w - 1) / w = q := Nat.div_eq_of_lt_le (by omega) (by rw [Nat.succ_mul]; omega)
    rw [hq, Nat.sub_zero, Nat.mod_self, Nat.add_zero]
  · have hq : (q * w + r + w - 1) / w = q + 1 :=
      Nat.div_eq_of_lt_le (by rw [Nat.succ_mul]; omega) (by rw [Nat.succ_mul, Nat.succ_mul]; omega)
    rw [hq, Nat.mod_eq_of_lt (by omega), Nat.succ_mul]
    omega

/-- ALIGNUP (R30): the least multiple that is not below, modulo 2^64. -/
theorem alignUp_eq {w : Nat} (hw : 0 < w) (x : Nat) : alignUp x w = (x + w - 1) / w * w % 2 ^ 64 := by
  rw [alignUp, add_gap_eq hw]

/-- The natural class within a word is the natural class of the widths up to 64. -/
theorem naturalClass_and_le (a w : Nat) :
    (naturalClass a w && decide (w ≤ 64)) = (decide (w ∈ [1, 2, 4, 8, 16, 32, 64]) && a % w == 0) := by
  rw [Bool.eq_iff_iff]
  simp only [naturalClass, Bool.and_eq_true, beq_iff_eq, List.contains_iff_mem, decide_eq_true_eq, List.mem_cons,
    List.not_mem_nil, or_false]
  omega

/-- The three tests of ALCLS (R31), listed by their code. -/
theorem alignTest_eq {t : Nat} (ht : t < 3) (a w : Nat) :
    alignTest t a w =
      [decide (w ∈ [1, 2, 4, 8, 16, 32, 64, 128]) && a % w == 0,
        decide (w ∈ [1, 2, 4, 8, 16, 32, 64]) && a % w == 0, decide (w ≤ 64) && decide (a % 64 + w ≤ 64)].getD t false := by
  match t, ht with
  | 0, _ => simp only [alignTest, naturalClass, List.elem_eq_mem, List.getD_cons_zero]
  | 1, _ => exact naturalClass_and_le a w
  | 2, _ => rfl

/-- The index of LEA (R29), read from operand b as mod[1:0] says. -/
def State.leaIndex (s : State) (f : Fields) (l : Nat) : Int :=
  [sintOf 32 (s.srcBReg f 1 l), ((s.srcBReg f 1 l % 2 ^ 32 : Nat) : Int), sintOf 64 (s.srcBReg f 2 l)].getD (f.mn 1 0) 0

theorem leaResult_eq {f : Fields} (hk : f.mn 1 0 < 3) (s : State) (l base w : Nat) (disp : Int) :
    leaResult (f.mn 1 0) base (s.srcBReg f (if f.mn 1 0 = 2 then 2 else 1) l) w disp =
      wrapInt 64 (base + s.leaIndex f l * w + disp) := by
  unfold State.leaIndex
  match f.mn 1 0, hk with
  | 0, _ | 1, _ | 2, _ => rfl

/-! ## What the word of a row allows -/

/-- A row's word that passes the checks of R59 keeps the row's own conditions on its modifier fields. -/
theorem wellFormed_mods {i : Instr} {f : Fields} {o : OpSpec} (h : i.WellFormed) (hf : i.fields? = some f)
    (ho : i.spec? = some o) : o.mods = true := by
  unfold Instr.WellFormed Instr.check at h
  split at h
  · cases hf
  · simp only [hf, ho, Bool.and_eq_true] at h
    obtain ⟨⟨-, hmods⟩, -⟩ := h
    exact hmods

/-- The kind of LEA's index and the test of ALCLS are never the reserved code 3 (R29, R31). -/
theorem kind_lt_three {i : Instr} {f : Fields} {o : OpSpec} (h : i.WellFormed) (hf : i.fields? = some f)
    (ho : i.spec? = some o) (hm : o.mods = ((!f.mb 2 && f.mn 1 0 != 3) && widthFieldOk f)) : f.mn 1 0 < 3 := by
  have hmods := wellFormed_mods h hf ho
  simp only [hm, Bool.and_eq_true, bne_iff_ne] at hmods
  obtain ⟨⟨-, h3⟩, -⟩ := hmods
  have h4 : f.mn 1 0 < 4 := Nat.mod_lt _ (by decide)
  omega

/-! ## How the address instructions complete -/

section
variable {i : Instr} {f : Fields} {s : State}

/-- A 64-bit address computation on operand a. -/
theorem gives_of_runAddr (op : Nat → Nat) (e : exec i s = .next (s.runAddr i f op)) :
    Gives i f s 2 fun l => op (s.srcA f 2 l) := completes_of_runRegs e

/-- A 64-bit result that is an exact number wrapped. -/
theorem givesInt_of_runRegs_wrap {r : Nat → Int}
    (e : exec i s = .next (s.runRegs i f fun l => noFlags (dest f 2 l (wrapInt 64 (r l))))) : GivesInt i f s 3 r := by
  have pack : ∀ z, packElems 3 (fun _ => narrow 3 false z) = wrapInt 64 z := fun z => Nat.zero_add _
  refine completes_of_elements (fun _ => by decide) ?_
  simp only [pack]
  exact e

end

theorem lea_gives (f : Fields) (s : State) : GivesInt (.lea f) f s 3 fun l =>
    s.srcA f 2 l + s.leaIndex f l * widthOperand f + sintOf 32 f.imm32.toNat := by
  intro h
  have hk : f.mn 1 0 < 3 := kind_lt_three h.1 rfl rfl rfl
  refine givesInt_of_runRegs_wrap ?_ h
  simp only [← leaResult_eq hk]
  rfl

theorem aligndn_gives (f : Fields) (s : State) :
    Gives (.aligndn f) f s 2 fun l => s.srcA f 2 l / widthOperand f * widthOperand f := by
  simp only [← alignDown_eq]
  exact gives_of_runAddr (alignDown · (widthOperand f)) rfl

theorem alignup_gives (f : Fields) (s : State) : Gives (.alignup f) f s 2 fun l =>
    (s.srcA f 2 l + widthOperand f - 1) / widthOperand f * widthOperand f % 2 ^ 64 := by
  simp only [← alignUp_eq (widthOperand_pos f)]
  exact gives_of_runAddr (alignUp · (widthOperand f)) rfl

theorem alcls_gives (f : Fields) (s : State) : GivesPred (.alcls f) f s f.d fun l =>
    [decide (widthOperand f ∈ [1, 2, 4, 8, 16, 32, 64, 128]) && s.srcA f 2 l % widthOperand f == 0,
      decide (widthOperand f ∈ [1, 2, 4, 8, 16, 32, 64]) && s.srcA f 2 l % widthOperand f == 0,
      decide (widthOperand f ≤ 64) && decide (s.srcA f 2 l % 64 + widthOperand f ≤ 64)].getD (f.mn 1 0) false := by
  intro h
  have ht : f.mn 1 0 < 3 := kind_lt_three h.1 rfl rfl rfl
  refine completes_of_runRegs_pred ?_ h
  simp only [← alignTest_eq ht]
  rfl

theorem pdiff_gives (f : Fields) (s : State) : GivesInt (.pdiff f) f s 3 fun l =>
    sintOf 64 (s.srcA f 2 l + (2 ^ 64 - s.srcBReg f 2 l)) / widthOperand f := givesInt_of_runRegs_wrap rfl

/-- BIT2B runs when every lane in which it acts has a byte address (R33). -/
theorem exec_bit2b_of_bytes {f : Fields} {s : State} (h : ∀ l ∈ s.actLanes f, s.srcA f 2 l % 8 = 0) :
    exec (.bit2b f) s = .next (s.runAddr (.bit2b f) f fun x => x / 8) := by
  have hnone : ((s.actLanes f).find? fun l =>
      (s.indirectBreach (.bit2b f) f).isNone && s.srcA f 2 l % 8 != 0) = none :=
    List.find?_eq_none.mpr fun l hl => by simp [h l hl]
  simp only [exec, execBit2b, hnone]

/-- BIT2B traps for the first lane that has none, when no indirect source breaks R45 before it. -/
theorem exec_bit2b_of_bits {f : Fields} {s : State} {before after : List Nat} {l : Nat}
    (hb : s.indirectBreach (.bit2b f) f = none) (hs : s.actLanes f = before ++ l :: after)
    (hbefore : ∀ k ∈ before, s.srcA f 2 k % 8 = 0) (hl : s.srcA f 2 l % 8 ≠ 0) :
    exec (.bit2b f) s = .next (s.trap { code := cMisalign, addr := s.srcA f 2 l, info0 := 8, lane := l }) := by
  have hfind : ((s.actLanes f).find? fun l =>
      (s.indirectBreach (.bit2b f) f).isNone && s.srcA f 2 l % 8 != 0) = some l :=
    List.find?_eq_some_iff_append.mpr
      ⟨by simp [hb, hl], before, after, hs, fun k hk => by simp [hbefore k hk]⟩
  simp only [exec, execBit2b, hfind]

/-- Settles O21. R26 to R34: each row's own computation, and for BIT2B the check of all lanes before any is written. -/
theorem addressInstructions : Obligations.AddressInstructions := by
  intro f s
  refine ⟨lea_gives f s, aligndn_gives f s, alignup_gives f s, alcls_gives f s, completes_of_runRegs rfl,
    gives_of_runAddr (· * 8 % 2 ^ 64) rfl, pdiff_gives f s, fun h => gives_of_runAddr (· / 8) (exec_bit2b_of_bytes h), ?_⟩
  rintro ⟨-, -, hb⟩ before l after hs hbefore hl
  exact exec_bit2b_of_bits hb hs hbefore hl

end Sys2Proof.Machine

/-! PROOFS. Integer arithmetic (R73 to R91): the types that an instruction word can name, and the exact results of the
element-wise and of the wide instructions. -/

namespace Sys2Proof.Machine

/-! ## The types of a word (R73) -/

theorem typeWidth_pos {t : Nat} (h : typeOk t = true) : 0 < typeWidth t := by
  have hle : t ≤ 13 := of_decide_eq_true h
  interval_cases t <;> decide

theorem typeOk_of_wideType {t : Nat} (h : wideType t = true) : typeOk t = true :=
  decide_eq_true (Nat.le_trans (of_decide_eq_true h) (by decide))

/-- A wide type has one element, which fills its registers. -/
theorem wideType_fills {t : Nat} (h : wideType t = true) : elems t = 1 ∧ typeWidth t = 32 * regsOfType t := by
  have hle : t ≤ 3 := of_decide_eq_true h
  interval_cases t <;> decide

/-- The types of ISAD fit one register (R90). -/
theorem regsOfType_eq_one {t : Nat} (h : typeOk t = true) (h2 : t ≠ 2) (h3 : t ≠ 3) : regsOfType t = 1 := by
  have hall : ∀ t < 14, t ≠ 2 → t ≠ 3 → regsOfType t = 1 := by decide
  exact hall t (Nat.lt_succ_of_le (of_decide_eq_true h)) h2 h3

/-- A packed register of one element is that element. -/
theorem packElems_of_single {t : Nat} (h : elems t = 1) (g : Nat → Nat) : packElems t g = g 0 := by
  simp [packElems, h]

/-! ## Values -/

theorem ite_neg_eq_natAbs (x : Int) : (if x < 0 then -x else x) = (x.natAbs : Int) := by
  split <;> omega

/-- The sum of absolute differences (R90), as a sum over the elements. -/
theorem sumAbsDiff_eq (t x y z : Nat) :
    sumAbsDiff t x y z = (z + ((List.range (elems t)).map fun k => (elt x t k - elt y t k).natAbs).sum) % 2 ^ 32 := by
  rw [sumAbsDiff, List.sum_eq_foldl, List.foldl_map]

/-- IMADW (R86): the product widened and added in the 64-bit type of the same sign. -/
theorem mulAddWide_eq (t x y z : Nat) :
    mulAddWide t x y z = wrapInt 64 (readAs t x * readAs t y + readAs (if typeSigned t then 2 else 3) z) := by
  unfold mulAddWide
  cases typeSigned t <;> rfl

/-! ## How the integer instructions complete -/

section
variable {i : Instr} {f : Fields} {s : State}

/-- A type of one element: the result is the exact number narrowed. -/
theorem givesElements_of_single {t : Nat} {sat : Bool} {r : Nat → Int}
    (ht : i.WellFormed → elems t = 1 ∧ 0 < typeWidth t)
    (e : exec i s = .next (s.runRegs i f fun l => noFlags (dest f (regsOfType t) l (narrow t sat (r l))))) :
    GivesElements i f s t sat fun l _ => r l := by
  intro h
  obtain ⟨hone, hpos⟩ := ht h.1
  refine completes_of_elements (fun _ => hpos) ?_ h
  simp only [packElems_of_single hone]
  exact e

end

/-- A row whose modifiers must name an assigned type. -/
theorem typeWidth_pos_of_row {i : Instr} {f : Fields} {o : OpSpec} (hf : i.fields? = some f) (ho : i.spec? = some o)
    (hm : o.mods = true → typeOk f.mod.toNat = true) (h : i.WellFormed) : 0 < typeWidth f.mod.toNat :=
  typeWidth_pos (hm (wellFormed_mods h hf ho))

/-- IABS (R89), with the absolute value as a number. -/
theorem iabs_gives (f : Fields) (s : State) : GivesElements (.iabs f) f s f.mod.toNat (f.cb 0)
    fun l k => ((elt (s.srcA f (regsOfType f.mod.toNat) l) f.mod.toNat k).natAbs : Int) := by
  simp only [← ite_neg_eq_natAbs]
  exact completes_of_elements
    (typeWidth_pos_of_row rfl rfl fun h => Bool.and_elim_left (Bool.and_elim_left h)) rfl

/-- Settles O1. R85, R86, R89: each element is the exact result narrowed to the type, which R59 lets the word name. -/
theorem elementwiseIntegers : Obligations.ElementwiseIntegers := by
  intro f s
  exact ⟨completes_of_elements (typeWidth_pos_of_row rfl rfl Bool.and_elim_left) rfl,
    completes_of_elements (typeWidth_pos_of_row rfl rfl Bool.and_elim_left) rfl,
    completes_of_elements (typeWidth_pos_of_row rfl rfl Bool.and_elim_left) rfl,
    completes_of_elements (typeWidth_pos_of_row rfl rfl id) rfl,
    completes_of_elements (typeWidth_pos_of_row rfl rfl id) rfl,
    completes_of_elements (typeWidth_pos_of_row rfl rfl id) rfl,
    completes_of_elements (typeWidth_pos_of_row rfl rfl id) rfl,
    iabs_gives f s,
    completes_of_elements (typeWidth_pos_of_row rfl rfl Bool.and_elim_left) rfl⟩

theorem imulhi_gives (f : Fields) (s : State) : GivesInt (.imulhi f) f s f.mod.toNat fun l =>
    readAs f.mod.toNat (s.srcA f (regsOfType f.mod.toNat) l) * readAs f.mod.toNat (s.srcBTyped f f.mod.toNat l) /
      (2 ^ typeWidth f.mod.toNat : Nat) := by
  have hwide (h : (Instr.imulhi f).WellFormed) : wideType f.mod.toNat = true := wellFormed_mods h rfl rfl
  exact givesElements_of_single
    (fun h => ⟨(wideType_fills (hwide h)).1, typeWidth_pos (typeOk_of_wideType (hwide h))⟩) rfl

theorem imadw_gives (f : Fields) (s : State) :
    GivesInt (.imadw f) f s (if typeSigned f.mod.toNat then 2 else 3) fun l =>
      readAs f.mod.toNat (s.srcA f 1 l) * readAs f.mod.toNat (s.srcBTyped f f.mod.toNat l) +
        readAs (if typeSigned f.mod.toNat then 2 else 3) (s.srcC f 2 l) := by
  have e : exec (.imadw f) s = .next (s.runRegs (.imadw f) f fun l => noFlags (dest f 2 l (mulAddWide f.mod.toNat
      (s.srcA f 1 l) (s.srcBTyped f f.mod.toNat l) (s.srcC f 2 l)))) := rfl
  simp only [mulAddWide_eq] at e
  cases hs : typeSigned f.mod.toNat <;> simp only [hs] at e <;>
    exact givesElements_of_single (fun _ => by decide) e

theorem isad_gives (f : Fields) (s : State) : Gives (.isad f) f s 1 fun l => (s.srcC f 1 l +
    ((List.range (elems f.mod.toNat)).map fun k =>
      (elt (s.srcA f 1 l) f.mod.toNat k - elt (s.srcBTyped f f.mod.toNat l) f.mod.toNat k).natAbs).sum) % 2 ^ 32 := by
  intro h
  have hmods : (typeOk f.mod.toNat && f.mod.toNat != 2 && f.mod.toNat != 3) = true := wellFormed_mods h.1 rfl rfl
  simp only [Bool.and_eq_true, bne_iff_ne] at hmods
  obtain ⟨⟨hok, h2⟩, h3⟩ := hmods
  have e : exec (.isad f) s = .next (s.runInt3 (.isad f) f (sumAbsDiff f.mod.toNat)) := rfl
  simp only [State.runInt3, regsOfType_eq_one hok h2 h3, sumAbsDiff_eq] at e
  exact completes_of_runRegs e h

/-- IADDC (R87): the sum modulo the width goes to d and its carry to the predicate of field c. -/
theorem iaddc_completes {f : Fields} {s : State} (h : s.clear (.iaddc f) f) :
    let t := f.mod.toNat
    let z l := s.srcA f (regsOfType t) l + s.srcBTyped f t l + b2n (s.predField f f.c l)
    Completes (.iaddc f) f s ((s.actLanes f).flatMap fun l =>
      dest f (regsOfType t) l (z l % 2 ^ typeWidth t) ++ [destPred f f.c l (decide (2 ^ typeWidth t ≤ z l))]) 0 := by
  refine completes_of_runRegs_list rfl (fun l hl x hx => ?_) h
  rcases List.mem_append.mp hx with hx | hx
  · exact dest_has hl x hx
  · rw [List.mem_singleton.mp hx]
    exact destPred_has hl

/-- Settles O2. R86, R87, R90, R91: each row's own exact result; DOT4's four products are the model's own sum. -/
theorem wideIntegers : Obligations.WideIntegers := by
  intro f s
  refine ⟨imulhi_gives f s, imadw_gives f s, isad_gives f s, ?_, iaddc_completes, fun h => ?_⟩
  · exact givesElements_of_single (fun _ => by decide) rfl
  · have hmods : (!f.mb 2) = true := wellFormed_mods h rfl rfl
    simpa using hmods

end Sys2Proof.Machine

/-! PROOFS. Bits of numbers: what each operation of the logic group (R92 to R97) leaves in bit `j`. -/

namespace Sys2Proof.Machine

/-! ## Single bits -/

theorem bitOf_eq_testBit (x j : Nat) : bitOf x j = x.testBit j := by
  rw [Nat.testBit_eq_decide_div_mod_eq, bitOf, Nat.shiftRight_eq_div_pow]; rfl

/-- The complement in `w` bits. -/
theorem testBit_notBits {w j : Nat} (hj : j < w) (x : Nat) : (notBits w x).testBit j = !x.testBit j := by
  have hlt : x % 2 ^ w < 2 ^ w := Nat.mod_lt _ (Nat.two_pow_pos w)
  have hsub : notBits w x = 2 ^ w - (x % 2 ^ w + 1) := by rw [notBits, Nat.sub_sub, Nat.add_comm 1]
  rw [hsub, Nat.testBit_two_pow_sub_succ hlt, Nat.testBit_mod_two_pow, decide_eq_true hj, Bool.true_and, Bool.true_and]

theorem testBit_foldl_setBit (l : List Nat) (m j : Nat) :
    (l.foldl (fun m i => m ||| 1 <<< i) m).testBit j = (m.testBit j || l.contains j) := by
  induction l generalizing m with
  | nil => simp
  | cons i l ih =>
    have hbit : (1 <<< i).testBit j = (j == i) := by
      rw [Nat.one_shiftLeft, Nat.testBit_two_pow, Bool.eq_iff_iff, decide_eq_true_eq, beq_iff_eq, eq_comm]
    rw [List.foldl_cons, ih, Nat.testBit_or, hbit, List.contains_cons, Bool.or_assoc]

/-- A mask has the listed bits and no other. -/
theorem testBit_maskOf (l : List Nat) (j : Nat) : (maskOf l).testBit j = l.contains j := by
  rw [maskOf, testBit_foldl_setBit, Nat.zero_testBit, Bool.false_or]

/-- The mask of those below `w` that a test passes. -/
theorem testBit_maskOf_filter {w j : Nat} (hj : j < w) (p : Nat → Bool) :
    (maskOf ((List.range w).filter p)).testBit j = p j := by
  rw [testBit_maskOf, Bool.eq_iff_iff, List.contains_iff_mem, List.mem_filter, List.mem_range, and_iff_right hj]

/-! ## Two's complement -/

theorem wrapInt_eq_ofInt (w : Nat) (z : Int) : wrapInt w z = (BitVec.ofInt w z).toNat := by
  rw [wrapInt, BitVec.toNat_ofInt]

theorem sintOf_eq_toInt {w : Nat} (hw : 0 < w) (x : Nat) : sintOf w x = (BitVec.ofNat w x).toInt := by
  obtain ⟨m, rfl⟩ := Nat.exists_eq_add_of_lt hw
  rw [BitVec.toInt_eq_toNat_cond, BitVec.toNat_ofNat, sintOf]
  simp only [Nat.zero_add, Nat.add_sub_cancel, pow_succ]
  push_cast
  split_ifs <;> omega

theorem msb_ofNat (w x : Nat) : (BitVec.ofNat (w + 1) x).msb = x.testBit w := by
  rw [BitVec.msb_eq_getLsbD_last, BitVec.getLsbD_ofNat]; simp

/-- SignExt of R10: above bit `w - 1` every bit is its copy. -/
theorem testBit_signExt {w n j : Nat} (hw : 0 < w) (hj : j < n) (x : Nat) :
    (signExt w n x).testBit j = x.testBit (min j (w - 1)) := by
  have h : signExt w n x = ((BitVec.ofNat w x).signExtend n).toNat := by
    rw [signExt, wrapInt_eq_ofInt, sintOf_eq_toInt hw]; rfl
  obtain ⟨m, rfl⟩ : ∃ m, w = m + 1 := ⟨w - 1, by omega⟩
  rw [h, BitVec.testBit_toNat, BitVec.getLsbD_signExtend, msb_ofNat, decide_eq_true hj, Bool.true_and, Nat.add_sub_cancel]
  split
  · next hlt => rw [BitVec.getLsbD_ofNat, decide_eq_true hlt, Bool.true_and, Nat.min_eq_left (by omega)]
  · next hge => rw [Nat.min_eq_right (by omega)]

/-! ## Shifts (R94, R95) -/

section
variable {w j : Nat} (hj : j < w)
include hj

theorem testBit_shiftLeft (x n : Nat) : (shiftLeft w x n).testBit j = (decide (n ≤ j) && x.testBit (j - n)) := by
  unfold shiftLeft
  split
  · next hn => rw [Nat.zero_testBit, decide_eq_false (by omega), Bool.false_and]
  · rw [Nat.testBit_mod_two_pow, Nat.testBit_shiftLeft, decide_eq_true hj, Bool.true_and]

omit hj in
theorem testBit_shiftRight (x n : Nat) : (shiftRight w x n).testBit j = (decide (j + n < w) && x.testBit (j + n)) := by
  unfold shiftRight
  split
  · next hn => rw [Nat.zero_testBit, decide_eq_false (by omega), Bool.false_and]
  · rw [Nat.testBit_shiftRight, Nat.testBit_mod_two_pow, Nat.add_comm n]

/-- SAR (R94): the sign fills from above. -/
theorem testBit_shiftArith (x n : Nat) : (shiftArith w x n).testBit j = x.testBit (min (j + n) (w - 1)) := by
  obtain ⟨m, rfl⟩ : ∃ m, w = m + 1 := ⟨w - 1, by omega⟩
  have h : shiftArith (m + 1) x n = ((BitVec.ofNat (m + 1) x).sshiftRight (min n m)).toNat := by
    rw [shiftArith, wrapInt_eq_ofInt, sintOf_eq_toInt (by omega), BitVec.sshiftRight_eq, Int.shiftRight_eq_div_pow,
      Nat.add_sub_cancel]
  rw [h, BitVec.testBit_toNat, BitVec.getLsbD_sshiftRight, msb_ofNat, decide_eq_false (by omega), Bool.not_false, Bool.true_and,
    Nat.add_sub_cancel]
  split
  · next hlt => rw [BitVec.getLsbD_ofNat, decide_eq_true hlt, Bool.true_and]; congr 1; omega
  · next hge => rw [Nat.min_eq_right (by omega)]

/-- ROT (R94): bit `j` comes from `count` places below, around the width. -/
theorem testBit_rotateLeft (x n : Nat) : (rotateLeft w x n).testBit j = x.testBit ((j + w - n % w) % w) := by
  have hk : n % w < w := Nat.mod_lt _ (by omega)
  simp only [rotateLeft, Nat.testBit_mod_two_pow, Nat.testBit_or, Nat.testBit_shiftLeft, Nat.testBit_shiftRight]
  generalize n % w = k at hk
  rw [decide_eq_true hj, Bool.true_and]
  rcases Nat.lt_or_ge j k with hjk | hjk
  · have hsrc : (j + w - k) % w = w - k + j := by rw [Nat.mod_eq_of_lt (by omega)]; omega
    rw [hsrc, decide_eq_false (by omega), decide_eq_true (by omega), Bool.false_and, Bool.false_or, Bool.true_and]
  · have hsrc : (j + w - k) % w = j - k := by
      rw [show j + w - k = j - k + w by omega, Nat.add_mod_right, Nat.mod_eq_of_lt (by omega)]
    rw [hsrc, decide_eq_true hjk, decide_eq_false (by omega), Bool.false_and, Bool.or_false, Bool.true_and]

end

/-- DSH (R95): 32 bits out of the pair, from its bit `n`. -/
theorem testBit_doubleShift {x z j : Nat} (hx : x < 2 ^ 32) (hz : z < 2 ^ 32) (hj : j < 32) (sat : Bool) (count : Nat) :
    let n := if sat then min count 64 else count % 64
    (doubleShift sat x count z).testBit j =
      if j + n < 32 then x.testBit (j + n) else decide (j + n < 64) && z.testBit (j + n - 32) := by
  intro n
  have hpair : doubleShift sat x count z = ((2 ^ 32 * z + x) >>> n) % 2 ^ 32 := by
    rw [doubleShift, Nat.shiftLeft_eq, Nat.mul_comm z]
  rw [hpair, Nat.testBit_mod_two_pow, Nat.testBit_shiftRight, decide_eq_true hj, Bool.true_and, Nat.add_comm n,
    Nat.testBit_two_pow_mul_add z hx]
  split
  · rfl
  · by_cases h64 : j + n < 64
    · rw [decide_eq_true h64, Bool.true_and]
    · rw [decide_eq_false h64, Bool.false_and]
      exact Nat.testBit_lt_two_pow (Nat.lt_of_lt_of_le hz (Nat.pow_le_pow_right (by decide) (by omega)))

/-! ## Bit fields (R96) -/

/-- A number with some bits replaced: the new bits in their places, the old ones elsewhere. -/
theorem testBit_insertBits (x p w v j : Nat) :
    (insertBits x p w v).testBit j = if p ≤ j ∧ j < p + w then v.testBit (j - p) else x.testBit j := by
  have hlow : x % 2 ^ p < 2 ^ p := Nat.mod_lt _ (Nat.two_pow_pos p)
  have hmid : v % 2 ^ w < 2 ^ w := Nat.mod_lt _ (Nat.two_pow_pos w)
  have hsum : 2 ^ p * (v % 2 ^ w) + x % 2 ^ p < 2 ^ (p + w) :=
    calc 2 ^ p * (v % 2 ^ w) + x % 2 ^ p < 2 ^ p * (v % 2 ^ w) + 2 ^ p := by omega
      _ = 2 ^ p * (v % 2 ^ w + 1) := by ring
      _ ≤ 2 ^ p * 2 ^ w := Nat.mul_le_mul_left _ hmid
      _ = 2 ^ (p + w) := (pow_add 2 p w).symm
  have hsplit : insertBits x p w v = 2 ^ (p + w) * (x >>> (p + w)) + (2 ^ p * (v % 2 ^ w) + x % 2 ^ p) := by
    rw [insertBits, Nat.shiftLeft_eq, Nat.shiftLeft_eq, Nat.mul_comm _ (2 ^ (p + w)), Nat.mul_comm _ (2 ^ p)]
  rw [hsplit, Nat.testBit_two_pow_mul_add _ hsum, Nat.testBit_two_pow_mul_add _ hlow, Nat.testBit_shiftRight,
    Nat.testBit_mod_two_pow, Nat.testBit_mod_two_pow]
  rcases Nat.lt_or_ge j p with hjp | hjp
  · rw [if_pos (by omega), if_pos hjp, if_neg (by omega), decide_eq_true hjp, Bool.true_and]
  · rcases Nat.lt_or_ge j (p + w) with hjw | hjw
    · rw [if_pos hjw, if_neg (by omega), if_pos ⟨hjp, hjw⟩, decide_eq_true (by omega), Bool.true_and]
    · rw [if_neg (by omega), if_neg (by omega), Nat.add_sub_cancel' hjw]

/-- The field that operand b names: its position and its length, clipped at the width. -/
theorem fieldSpan_eq (w b : Nat) : fieldSpan w b = (b % 256, min (b / 256 % 256) (w - b % 256)) := by
  simp only [fieldSpan, bits, Nat.shiftRight_eq_div_pow]
  norm_num

/-- BFX (R96): the field, extended by zeros or by its sign. -/
theorem testBit_bitFieldExtract {w j : Nat} (hj : j < w) (signed : Bool) (x b : Nat) :
    let pos := b % 256
    let len := min (b / 256 % 256) (w - pos)
    (bitFieldExtract signed w x b).testBit j =
      if len = 0 then false else if j < len then x.testBit (pos + j) else signed && x.testBit (pos + len - 1) := by
  intro pos len
  have h : bitFieldExtract signed w x b =
      if len = 0 then 0 else if signed then signExt len w (x >>> pos) else (x >>> pos) % 2 ^ len := by
    simp only [bitFieldExtract, fieldSpan_eq]; rfl
  rw [h]
  by_cases hlen : len = 0
  · rw [if_pos hlen, if_pos hlen, Nat.zero_testBit]
  · rw [if_neg hlen, if_neg hlen]
    cases signed
    · rw [if_neg Bool.false_ne_true, Nat.testBit_mod_two_pow, Nat.testBit_shiftRight, Bool.false_and]
      by_cases hjl : j < len <;> simp [hjl]
    · rw [if_pos rfl, testBit_signExt (by omega) hj, Nat.testBit_shiftRight, Bool.true_and]
      by_cases hjl : j < len
      · rw [if_pos hjl, Nat.min_eq_left (by omega)]
      · rw [if_neg hjl, Nat.min_eq_right (by omega), Nat.add_sub_assoc (by omega)]

/-- BFI (R96): the field replaced by the low bits of a. -/
theorem testBit_bitFieldInsert (w x b z j : Nat) :
    let pos := b % 256
    let len := min (b / 256 % 256) (w - pos)
    (bitFieldInsert w x b z).testBit j = if pos ≤ j ∧ j < pos + len then x.testBit (j - pos) else z.testBit j := by
  intro pos len
  have h : bitFieldInsert w x b z = if len = 0 then z else insertBits z pos len x := by
    simp only [bitFieldInsert, fieldSpan_eq]; rfl
  rw [h]
  split
  · next hlen => rw [if_neg (by omega)]
  · exact testBit_insertBits z pos len x j

/-! ## Counts and reversal (R97) -/

/-- POPC: the count is that of the set bits below the width. -/
theorem popCount_eq (w x : Nat) : popCount w x = ((List.range w).filter fun j => x.testBit j).length := by
  induction w generalizing x with
  | zero => rfl
  | succ w ih =>
    have hrest : ((List.range w).map Nat.succ).filter (fun j => x.testBit j) =
        ((List.range w).filter fun j => (x / 2).testBit j).map Nat.succ := by
      rw [List.filter_map]
      congr 1
      exact List.filter_congr fun j _ => Nat.testBit_succ x j
    rw [popCount, ih, List.range_succ_eq_map, List.filter_cons, Nat.testBit_zero, hrest]
    rcases Nat.mod_two_eq_zero_or_one x with h | h <;> simp [h, Nat.add_comm]

theorem reverseBits_lt (w x : Nat) : reverseBits w x < 2 ^ w := by
  induction w generalizing x with
  | zero => exact Nat.one_pos
  | succ w ih =>
    have hbit : x % 2 < 2 := Nat.mod_lt _ (by decide)
    have hrest := ih (x / 2)
    rw [reverseBits, Nat.shiftLeft_eq, pow_succ]
    have : x % 2 * 2 ^ w ≤ 1 * 2 ^ w := Nat.mul_le_mul_right _ (by omega)
    omega

/-- BREV: bit `j` is the bit as far below the top. -/
theorem testBit_reverseBits {w j : Nat} (hj : j < w) (x : Nat) : (reverseBits w x).testBit j = x.testBit (w - 1 - j) := by
  induction w generalizing x j with
  | zero => omega
  | succ w ih =>
    rw [reverseBits, Nat.shiftLeft_eq, Nat.mul_comm, Nat.testBit_two_pow_mul_add _ (reverseBits_lt w _)]
    split
    · next hlt => rw [ih hlt, ← Nat.testBit_succ]; congr 1; omega
    · next hge =>
      have hjw : j = w := by omega
      subst hjw
      simp [Nat.testBit_zero]

/-- CTZ: no bit below the count is set, and the one there is, when the count is below the width. -/
theorem trailingZeros_spec (w x : Nat) :
    trailingZeros w x ≤ w ∧ (∀ j < trailingZeros w x, x.testBit j = false) ∧
      (trailingZeros w x < w → x.testBit (trailingZeros w x) = true) := by
  induction w generalizing x with
  | zero => exact ⟨Nat.le_refl 0, fun j hj => absurd hj (Nat.not_lt_zero j), fun h => absurd h (Nat.lt_irrefl 0)⟩
  | succ w ih =>
    obtain ⟨hle, hzero, hone⟩ := ih (x / 2)
    unfold trailingZeros
    split
    · next hodd =>
      exact ⟨Nat.zero_le _, fun j hj => absurd hj (Nat.not_lt_zero j), fun _ => by simp [Nat.testBit_zero, hodd]⟩
    · next heven =>
      refine ⟨by omega, fun j hj => ?_, fun h => ?_⟩
      · cases j with
        | zero => simp [Nat.testBit_zero, heven]
        | succ j => rw [Nat.testBit_succ]; exact hzero j (by omega)
      · rw [Nat.add_comm, Nat.testBit_succ]; exact hone (by omega)

/-- CLZ: no bit above the counted ones is set, and the one below them is, when the count is below the width. -/
theorem leadingZeros_spec (w x : Nat) :
    leadingZeros w x ≤ w ∧ (∀ j < w, w - leadingZeros w x ≤ j → x.testBit j = false) ∧
      (leadingZeros w x < w → x.testBit (w - 1 - leadingZeros w x) = true) := by
  have hbit (j : Nat) (hj : j < w) : (x % 2 ^ w).testBit j = x.testBit j := by
    rw [Nat.testBit_mod_two_pow, decide_eq_true hj, Bool.true_and]
  have hlt : x % 2 ^ w < 2 ^ w := Nat.mod_lt _ (Nat.two_pow_pos w)
  unfold leadingZeros
  generalize x % 2 ^ w = y at hbit hlt
  dsimp only
  split
  · next h0 =>
    subst h0
    exact ⟨Nat.le_refl w, fun j hj _ => by rw [← hbit j hj, Nat.zero_testBit], fun h => absurd h (Nat.lt_irrefl w)⟩
  · next h0 =>
    have htop : y.log2 < w := (Nat.log2_lt h0).mpr hlt
    refine ⟨by omega, fun j hj hle => ?_, fun _ => ?_⟩
    · rw [← hbit j hj]
      exact Nat.testBit_lt_two_pow ((Nat.log2_lt h0).mp (by omega))
    · rw [show w - 1 - (w - 1 - y.log2) = y.log2 by omega, ← hbit _ htop]
      exact Nat.testBit_log2 h0

end Sys2Proof.Machine

/-! PROOFS. Logic, shifts, bit fields and bit counts (R92 to R97): how the instructions complete, bit by bit. -/

namespace Sys2Proof.Machine

theorem bitW_eq (f : Fields) : bitW f = 32 * bitN f := by
  unfold bitW bitN
  split <;> rfl

section
variable {i : Instr} {f : Fields} {s : State} {n : Nat}

/-- A lane-wise instruction whose result is known bit by bit. -/
theorem givesBits_of_runRegs {v : Nat → Nat} {b : Nat → Nat → Bool}
    (e : exec i s = .next (s.runRegs i f fun l => noFlags (dest f n l (v l))))
    (hv : s.clear i f → ∀ l, ∀ j < 32 * n, (v l).testBit j = b l j) : GivesBits i f s n b :=
  fun h => ⟨v, completes_of_runRegs e h, fun l _ => hv h l⟩

/-- A bitwise instruction (R92): an operation that acts bit by bit on a and b. -/
theorem givesBits_of_runBit2 {op : Nat → Nat → Nat} {b : Bool → Bool → Bool} (e : exec i s = .next (s.runBit2 i f op))
    (hop : ∀ x y, ∀ j < bitW f, (op x y).testBit j = b (x.testBit j) (y.testBit j)) :
    GivesBits i f s (bitN f) fun l j =>
      b ((s.srcA f (bitN f) l).testBit j) ((s.srcB f false (32 * bitN f) (bitN f) l).testBit j) := by
  rw [State.runBit2, bitW_eq] at e
  rw [bitW_eq] at hop
  exact givesBits_of_runRegs e fun _ _ j => hop _ _ j

/-- A shift or BFX (R94, R96): an operation on a and the 32 bits of b. -/
theorem givesBits_of_runShift {op : Nat → Nat → Nat → Nat} {b : Nat → Nat → Nat → Nat → Bool}
    (e : exec i s = .next (s.runShift i f (op (bitW f))))
    (hop : ∀ w x y, ∀ j < w, (op w x y).testBit j = b w x y j) :
    GivesBits i f s (bitN f) fun l => b (32 * bitN f) (s.srcA f (bitN f) l) (s.srcB f false 32 1 l) := by
  rw [State.runShift, bitW_eq] at e
  exact givesBits_of_runRegs e fun _ _ j => hop _ _ _ j

/-- A count (R97). -/
theorem completes_of_runCount {op : Nat → Nat → Nat} (e : exec i s = .next (s.runCount i f (op (bitW f)))) :
    Gives i f s 1 fun l => op (32 * bitN f) (s.srcA f (bitN f) l) := by
  rw [State.runCount, bitW_eq] at e
  exact completes_of_runRegs e

/-- A row whose only condition on its modifiers is that some bits of mod are 0. -/
theorem mn_eq_zero_of_row {hi lo : Nat} {o : OpSpec} (hf : i.fields? = some f) (ho : i.spec? = some o)
    (hm : o.mods = (f.mn hi lo == 0)) (h : i.WellFormed) : f.mn hi lo = 0 :=
  beq_iff_eq.mp (hm ▸ wellFormed_mods h hf ho)

end

/-! ## The bitwise instructions (R92, R93) -/

theorem not_gives (f : Fields) (s : State) :
    GivesBits (.not_ f) f s (bitN f) fun l j => !(s.srcA f (bitN f) l).testBit j :=
  givesBits_of_runRegs rfl fun _ _ _ hj => testBit_notBits (bitW_eq f ▸ hj) _

/-- The index of TERN into its table is below 8. -/
theorem ternIndex_lt : ∀ a b c : Bool, b2n a + 2 * b2n b + 4 * b2n c < 8 := by decide

theorem testBit_ternary {w j : Nat} (hj : j < w) (f : Fields) (x y z : Nat) :
    (ternary (f.xn 7 0) w x y z).testBit j =
      f.xmod.getLsbD (b2n (x.testBit j) + 2 * b2n (y.testBit j) + 4 * b2n (z.testBit j)) := by
  have htable (k : Nat) (hk : k < 8) : (f.xn 7 0).testBit k = f.xmod.getLsbD k := by
    rw [Fields.xn, Nat.shiftRight_zero, Nat.testBit_mod_two_pow, decide_eq_true hk, Bool.true_and, BitVec.testBit_toNat]
  rw [ternary, testBit_maskOf_filter hj]
  simp only [bitOf_eq_testBit]
  exact htable _ (ternIndex_lt _ _ _)

/-- Settles O6. R92, R93: each row acts on the bits of its operands one by one. -/
theorem bitwiseLogic : Obligations.BitwiseLogic := by
  intro f s
  refine ⟨givesBits_of_runBit2 rfl fun x y j _ => Nat.testBit_and x y j,
    givesBits_of_runBit2 rfl fun x y j _ => Nat.testBit_or x y j,
    givesBits_of_runBit2 rfl fun x y j _ => Nat.testBit_xor x y j,
    givesBits_of_runBit2 (b := fun p q => p && !q) rfl fun x y j hj => ?_,
    not_gives f s,
    givesBits_of_runRegs rfl fun _ _ _ hj => testBit_ternary hj f _ _ _, ?_⟩
  · rw [Nat.testBit_and, testBit_notBits hj]
  · simp only [List.forall_mem_cons, List.not_mem_nil, false_implies, implies_true, and_true]
    exact ⟨mn_eq_zero_of_row rfl rfl rfl, mn_eq_zero_of_row rfl rfl rfl, mn_eq_zero_of_row rfl rfl rfl,
      mn_eq_zero_of_row rfl rfl rfl, mn_eq_zero_of_row rfl rfl rfl⟩

/-! ## Shifts and bit fields (R94 to R96) -/

theorem dsh_gives (f : Fields) (s : State) :
    let n l := if f.mb 0 then min (s.srcB f false 32 1 l) 64 else s.srcB f false 32 1 l % 64
    GivesBits (.dsh f) f s 1 fun l j =>
      if j + n l < 32 then (s.srcA f 1 l).testBit (j + n l)
      else decide (j + n l < 64) && (s.srcC f 1 l).testBit (j + n l - 32) :=
  givesBits_of_runRegs rfl fun h l _ hj =>
    testBit_doubleShift (srcA_lt h.2.1 f 1 l) (field_lt h.2.1 f f.c 1 l) hj _ _

theorem bfi_gives (f : Fields) (s : State) :
    let pos l := s.srcB f false 32 1 l % 256
    let len l := min (s.srcB f false 32 1 l / 256 % 256) (32 * bitN f - pos l)
    GivesBits (.bfi f) f s (bitN f) fun l j =>
      if pos l ≤ j ∧ j < pos l + len l then (s.srcA f (bitN f) l).testBit (j - pos l)
      else (s.srcC f (bitN f) l).testBit j := by
  have e : exec (.bfi f) s = .next (s.runRegs (.bfi f) f fun l => noFlags (dest f (bitN f) l
      (bitFieldInsert (bitW f) (s.srcA f (bitN f) l) (s.srcB f false 32 1 l) (s.srcC f (bitN f) l)))) := rfl
  rw [bitW_eq] at e
  exact givesBits_of_runRegs e fun _ _ j _ => testBit_bitFieldInsert _ _ _ _ j

/-- BFI reserves mod[3:1]: all of mod but its size. -/
theorem bfi_reserves (f : Fields) (h : (Instr.bfi f).WellFormed) : f.mn 3 2 = 0 ∧ f.mb 1 = false := by
  have hmod : f.mn 3 1 = 0 := mn_eq_zero_of_row rfl rfl rfl h
  revert hmod
  unfold Fields.mn Fields.mb
  generalize f.mod = m
  revert m
  decide

/-- Settles O7. R94 to R96: where each bit of the result comes from. -/
theorem shifts : Obligations.Shifts := by
  intro f s
  refine ⟨givesBits_of_runShift (op := shiftLeft) rfl fun w x n j hj => testBit_shiftLeft hj x n,
    givesBits_of_runShift (op := shiftRight) rfl fun w x n j _ => testBit_shiftRight x n,
    givesBits_of_runShift (op := shiftArith) rfl fun w x n j hj => testBit_shiftArith hj x n,
    givesBits_of_runShift (op := rotateLeft) rfl fun w x n j hj => testBit_rotateLeft hj x n,
    dsh_gives f s,
    givesBits_of_runShift (op := bitFieldExtract (f.mb 1)) rfl fun w x b j hj => testBit_bitFieldExtract hj _ x b,
    bfi_gives f s, ?_, ?_, fun h => (bfi_reserves f h).2⟩
  · simp only [List.forall_mem_cons, List.not_mem_nil, false_implies, implies_true, and_true]
    exact ⟨mn_eq_zero_of_row rfl rfl rfl, mn_eq_zero_of_row rfl rfl rfl, mn_eq_zero_of_row rfl rfl rfl,
      mn_eq_zero_of_row rfl rfl rfl⟩
  · simp only [List.forall_mem_cons, List.not_mem_nil, false_implies, implies_true, and_true]
    exact ⟨mn_eq_zero_of_row rfl rfl rfl, fun h => (bfi_reserves f h).1⟩

/-! ## Bit counts (R97) -/

theorem popc_gives (f : Fields) (s : State) : Gives (.popc f) f s 1 fun l =>
    ((List.range (32 * bitN f)).filter fun j => (s.srcA f (bitN f) l).testBit j).length := by
  simp only [← popCount_eq]
  exact completes_of_runCount rfl

theorem brev_gives (f : Fields) (s : State) :
    GivesBits (.brev f) f s (bitN f) fun l j => (s.srcA f (bitN f) l).testBit (32 * bitN f - 1 - j) := by
  have e : exec (.brev f) s = .next (s.runRegs (.brev f) f fun l =>
      noFlags (dest f (bitN f) l (reverseBits (bitW f) (s.srcA f (bitN f) l)))) := rfl
  rw [bitW_eq] at e
  exact givesBits_of_runRegs e fun _ _ _ hj => testBit_reverseBits hj _

/-- Settles O8. R97: the counts have the properties that define them. -/
theorem bitCounts : Obligations.BitCounts := by
  intro f s
  exact ⟨popc_gives f s, brev_gives f s,
    fun h => ⟨_, completes_of_runCount rfl h, fun _ _ => leadingZeros_spec _ _⟩,
    fun h => ⟨_, completes_of_runCount rfl h, fun _ _ => trailingZeros_spec _ _⟩⟩

end Sys2Proof.Machine

/-! PROOFS. Compares and predicate combinations (R99, R100). -/

namespace Sys2Proof.Machine

/-- A row's word that passes the checks of R59 has the fields and selectors of the row's shape. -/
theorem wellFormed_shape {i : Instr} {f : Fields} {o : OpSpec} (h : i.WellFormed) (hf : i.fields? = some f)
    (ho : i.spec? = some o) : o.shape.ok f = true := by
  unfold Instr.WellFormed Instr.check at h
  split at h
  · cases hf
  · simp only [hf, ho, Bool.and_eq_true] at h
    obtain ⟨⟨⟨-, hshape⟩, -⟩, -⟩ := h
    exact hshape

/-- Bits [2:0] of a control byte keep its bound. -/
theorem cn_lt_of_ctl {f : Fields} {n : Nat} (h : f.ctl.toNat < n) : f.cn 2 0 < n :=
  Nat.lt_of_le_of_lt (Nat.mod_le _ _) h

/-- The conditions of R76, listed by their code. -/
theorem intCond_eq {c : Nat} (hc : c < 6) (x y : Int) :
    intCond c x y = [decide (x = y), decide (x ≠ y), decide (x < y), decide (x ≤ y), decide (x > y),
      decide (x ≥ y)].getD c false := by
  match c, hc with
  | 0, _ | 2, _ | 3, _ | 4, _ | 5, _ => rfl
  | 1, _ => exact (decide_not (p := x = y)).symm

/-- The operators of R100, listed by their code. -/
theorem predOp_eq {o : Nat} (ho : o < 4) (p q : Bool) :
    predOp o p q = [p && q, p || q, p != q, p && !q].getD o false := by
  match o, ho with
  | 0, _ | 1, _ | 2, _ | 3, _ => rfl

/-- A compare's control byte names one of the six conditions. -/
theorem cn_lt_six_of_row {i : Instr} {f : Fields} {o : OpSpec} (hf : i.fields? = some f) (ho : i.spec? = some o)
    (hm : o.mods = (wideType f.mod.toNat && decide (f.ctl.toNat < 6))) (h : i.WellFormed) : f.cn 2 0 < 6 := by
  have hmods : (wideType f.mod.toNat && decide (f.ctl.toNat < 6)) = true := hm ▸ wellFormed_mods h hf ho
  exact cn_lt_of_ctl (of_decide_eq_true (Bool.and_elim_right hmods))

theorem imask_gives (f : Fields) (s : State) :
    GivesBits (.imask f) f s (regsOfType f.mod.toNat) fun l _ => s.intCompare f l := by
  refine givesBits_of_runRegs rfl fun _ l j hj => ?_
  cases s.intCompare f l
  · exact Nat.zero_testBit j
  · exact (Nat.testBit_two_pow_sub_one _ j).trans (decide_eq_true hj)

theorem mn_lt (f : Fields) (hi lo : Nat) : f.mn hi lo < 2 ^ (hi + 1 - lo) := Nat.mod_lt _ (Nat.two_pow_pos _)

theorem pcomb_gives (f : Fields) (s : State) :
    let op (o : Nat) (p q : Bool) : Bool := [p && q, p || q, p != q, p && !q].getD o false
    GivesPred (.pcomb f) f s f.d fun l =>
      op (f.mn 3 2) (op (f.mn 1 0) (s.predField f f.a l) (s.predField f f.b l)) (s.predField f f.c l) := by
  have e : exec (.pcomb f) s = .next (s.runRegs (.pcomb f) f fun l => noFlags [destPred f f.d l
      (predOp (f.mn 3 2) (predOp (f.mn 1 0) (s.predField f f.a l) (s.predField f f.b l)) (s.predField f f.c l))]) := rfl
  simp only [predOp_eq (mn_lt f 3 2), predOp_eq (mn_lt f 1 0)] at e
  exact completes_of_runRegs_pred e

/-- PCOMB's operands are predicates, which have no selector, and it has no immediate (R43, R48). -/
theorem pcomb_selectors {f : Fields} (h : (Instr.pcomb f).WellFormed) : f.asel = 0 ∧ f.bsel = 0 := by
  have hshape := wellFormed_shape h rfl rfl
  simp only [Shape.ok, Bool.and_eq_true, SrcKind.ok, beq_iff_eq] at hshape
  obtain ⟨⟨⟨⟨⟨-, ha, -⟩, hb⟩, -⟩, -⟩, -⟩ := hshape
  refine ⟨ha, ?_⟩
  split at hb
  · generalize f.form = form at hb
    cases form <;> cases hb
  · simp only [Bool.and_eq_true, beq_iff_eq] at hb
    obtain ⟨⟨-, hsel, -⟩, -⟩ := hb
    exact hsel

/-- Settles O10. R99, R100: the condition's truth in a predicate or as a mask, and the combinations of predicates. -/
theorem compares : Obligations.Compares := by
  intro f s
  refine ⟨fun h => ?_, fun h => ?_, pcomb_gives f s, pcomb_selectors⟩
  · simp only [← intCond_eq (cn_lt_six_of_row rfl rfl rfl h.1)]
    exact completes_of_runRegs_pred rfl h
  · simp only [← intCond_eq (cn_lt_six_of_row rfl rfl rfl h.1)]
    exact imask_gives f s h

end Sys2Proof.Machine

/-! PROOFS. Reductions over lanes (R106): the sum, the extremes and the bitwise reductions of a list of operand values. -/

namespace Sys2Proof.Machine

/-! ## Values read as a type -/

theorem readAs_mod (t x : Nat) : readAs t (x % 2 ^ typeWidth t) = readAs t x := by
  simp only [readAs, sintOf, Nat.mod_mod]

/-- A value and what it reads as are congruent modulo the type's width. -/
theorem readAs_modEq (t x : Nat) : readAs t x ≡ x [ZMOD (2 ^ typeWidth t : Nat)] := by
  have hwrap : wrapInt (typeWidth t) x = x % 2 ^ typeWidth t := by
    rw [wrapInt, ← Int.natCast_mod, Int.toNat_natCast]
  have h := readAs_wrapInt t x
  rw [hwrap, readAs_mod] at h
  exact Int.emod_eq_emod_iff_emod_sub_eq_zero.mpr h

/-- What a value reads as lies within the type. -/
theorem readAs_range {t : Nat} (hw : 0 < typeWidth t) (x : Nat) : typeMin t ≤ readAs t x ∧ readAs t x ≤ typeMax t := by
  unfold typeMin typeMax readAs
  cases typeSigned t
  · have hlt : x % 2 ^ typeWidth t < 2 ^ typeWidth t := Nat.mod_lt _ (Nat.two_pow_pos _)
    simp only [Bool.false_eq_true, if_false]
    omega
  · have hlow := BitVec.le_two_mul_toInt (x := BitVec.ofNat (typeWidth t) x)
    have hhigh := BitVec.two_mul_toInt_lt (x := BitVec.ofNat (typeWidth t) x)
    have hdouble : (2 : Int) ^ typeWidth t = 2 * 2 ^ (typeWidth t - 1) := by rw [← pow_succ', Nat.sub_add_cancel hw]
    simp only [if_true, sintOf_eq_toInt hw]
    push_cast at *
    omega

/-- A value read as a type comes back from its encoding, and so do the type's bounds. -/
theorem readAs_wrapInt_of_mem {t : Nat} (hw : 0 < typeWidth t) {b z : Int} (hb : b = typeMin t ∨ b = typeMax t)
    {xs : List Nat} (hz : z ∈ b :: xs.map (readAs t)) : readAs t (wrapInt (typeWidth t) z) = z := by
  have hbounds : typeMin t ≤ typeMax t := Int.le_trans (clamp_range 0).1 (clamp_range 0).2
  rcases List.mem_cons.mp hz with rfl | hmem
  · rcases hb with rfl | rfl
    · exact readAs_of_range hw (Int.le_refl _) hbounds
    · exact readAs_of_range hw hbounds (Int.le_refl _)
  · obtain ⟨x, -, rfl⟩ := List.mem_map.mp hmem
    exact readAs_of_range hw (readAs_range hw x).1 (readAs_range hw x).2

/-! ## The sum -/

theorem foldl_addMod_lt {w : Nat} (xs : List Nat) {a : Nat} (ha : a < 2 ^ w) :
    xs.foldl (fun a x => (a + x) % 2 ^ w) a < 2 ^ w := by
  induction xs generalizing a with
  | nil => exact ha
  | cons x xs ih => exact ih (Nat.mod_lt _ (Nat.two_pow_pos w))

/-- Wrapped additions give the exact sum of the values, modulo the width. -/
theorem foldl_addMod_modEq (t : Nat) (xs : List Nat) (a : Nat) :
    ((xs.foldl (fun a x => (a + x) % 2 ^ typeWidth t) a : Nat) : Int) ≡ a + (xs.map (readAs t)).sum
      [ZMOD (2 ^ typeWidth t : Nat)] := by
  induction xs generalizing a with
  | nil => simp
  | cons x xs ih =>
    rw [List.foldl_cons, List.map_cons, List.sum_cons]
    have hstep : (((a + x) % 2 ^ typeWidth t : Nat) : Int) ≡ a + readAs t x [ZMOD (2 ^ typeWidth t : Nat)] := by
      rw [Int.natCast_mod, Int.natCast_add]
      exact (Int.mod_modEq _ _).trans ((readAs_modEq t x).symm.add_left _)
    calc _ ≡ _ [ZMOD (2 ^ typeWidth t : Nat)] := ih _
      _ ≡ a + readAs t x + (xs.map (readAs t)).sum [ZMOD (2 ^ typeWidth t : Nat)] := hstep.add_right _
      _ = _ := add_assoc _ _ _

/-! ## The extremes -/

theorem foldl_min_spec (M : Int) (zs : List Int) : zs.foldl min M ∈ M :: zs ∧ ∀ z ∈ M :: zs, zs.foldl min M ≤ z :=
  List.min?_eq_some_iff.mp List.min?_cons'

theorem foldl_max_spec (M : Int) (zs : List Int) : zs.foldl max M ∈ M :: zs ∧ ∀ z ∈ M :: zs, z ≤ zs.foldl max M :=
  List.max?_eq_some_iff.mp List.max?_cons'

/-- An extreme of the values and a bound of them is one of the values, when there are any. -/
theorem mem_of_extreme {r M : Int} {zs : List Int} (hmem : r ∈ M :: zs) (hne : zs ≠ []) (hM : ∀ z ∈ zs, r = M → M = z) :
    r ∈ zs := by
  rcases List.mem_cons.mp hmem with hr | hr
  · obtain ⟨z, hz⟩ := List.exists_mem_of_ne_nil zs hne
    rw [hr, hM z hz hr]
    exact hz
  · exact hr

/-! ## The bitwise reductions -/

theorem testBit_foldl_and (xs : List Nat) (a j : Nat) :
    (xs.foldl (fun a x => a &&& x) a).testBit j = (a.testBit j && xs.all (·.testBit j)) := by
  induction xs generalizing a with
  | nil => simp
  | cons x xs ih => rw [List.foldl_cons, ih, Nat.testBit_and, List.all_cons, Bool.and_assoc]

theorem testBit_foldl_or (xs : List Nat) (a j : Nat) :
    (xs.foldl (fun a x => a ||| x) a).testBit j = (a.testBit j || xs.any (·.testBit j)) := by
  induction xs generalizing a with
  | nil => simp
  | cons x xs ih => rw [List.foldl_cons, ih, Nat.testBit_or, List.any_cons, Bool.or_assoc]

theorem testBit_foldl_xor (xs : List Nat) (a j : Nat) :
    (xs.foldl (fun a x => a ^^^ x) a).testBit j =
      (a.testBit j ^^ ((xs.filter (·.testBit j)).length % 2 == 1)) := by
  induction xs generalizing a with
  | nil => simp
  | cons x xs ih =>
    rw [List.foldl_cons, ih, Nat.testBit_xor, List.filter_cons]
    rcases Nat.mod_two_eq_zero_or_one (xs.filter (·.testBit j)).length with h | h <;>
      cases x.testBit j <;> simp [h, Nat.add_mod]

/-! ## REDI -/

section
variable {t : Nat} {xs : List Nat}

/-- The codes from 5 on are the exclusive or. -/
theorem reduceInt_xor (n : Nat) : reduceInt (n + 5) t xs = xs.foldl (fun a x => a ^^^ x) 0 := rfl

/-- A reduction of values of the type's width has that width. -/
theorem reduceInt_lt (hx : ∀ x ∈ xs, x < 2 ^ typeWidth t) (op : Nat) : reduceInt op t xs < 2 ^ typeWidth t := by
  have hhigh (j : Nat) (hj : j ≥ typeWidth t) : ∀ x ∈ xs, x.testBit j = false := fun x hmem =>
    Nat.testBit_lt_two_pow (Nat.lt_of_lt_of_le (hx x hmem) (Nat.pow_le_pow_right (by decide) hj))
  match op with
  | 0 => exact foldl_addMod_lt xs (Nat.two_pow_pos _)
  | 1 | 2 => exact wrapInt_lt _ _
  | 3 =>
    refine Nat.lt_pow_two_of_testBit _ fun j hj => ?_
    rw [reduceInt, testBit_foldl_and, Nat.testBit_two_pow_sub_one, decide_eq_false (Nat.not_lt.mpr hj), Bool.false_and]
  | 4 =>
    refine Nat.lt_pow_two_of_testBit _ fun j hj => ?_
    rw [reduceInt, testBit_foldl_or, Nat.zero_testBit, Bool.false_or]
    exact List.any_eq_false.mpr fun x hmem => by simp [hhigh j hj x hmem]
  | _ + 5 =>
    refine Nat.lt_pow_two_of_testBit _ fun j hj => ?_
    have hnone : xs.filter (·.testBit j) = [] := List.filter_eq_nil_iff.mpr fun x hmem => by simp [hhigh j hj x hmem]
    rw [reduceInt_xor, testBit_foldl_xor, hnone, Nat.zero_testBit]
    rfl

theorem reduceInt_sum : (readAs t (reduceInt 0 t xs) - (xs.map (readAs t)).sum) % (2 ^ typeWidth t : Nat) = 0 := by
  have h := foldl_addMod_modEq t xs 0
  rw [Nat.cast_zero, zero_add] at h
  exact Int.emod_eq_emod_iff_emod_sub_eq_zero.mp ((readAs_modEq t _).trans h)

theorem readAs_reduceInt_min (hw : 0 < typeWidth t) :
    readAs t (reduceInt 1 t xs) = (xs.map (readAs t)).foldl min (typeMax t) := by
  rw [reduceInt, ← List.foldl_map]
  exact readAs_wrapInt_of_mem hw (.inr rfl) (foldl_min_spec _ _).1

theorem readAs_reduceInt_max (hw : 0 < typeWidth t) :
    readAs t (reduceInt 2 t xs) = (xs.map (readAs t)).foldl max (typeMin t) := by
  rw [reduceInt, ← List.foldl_map]
  exact readAs_wrapInt_of_mem hw (.inl rfl) (foldl_max_spec _ _).1

theorem reduceInt_min (hw : 0 < typeWidth t) (hne : xs.map (readAs t) ≠ []) :
    readAs t (reduceInt 1 t xs) ∈ xs.map (readAs t) ∧ ∀ z ∈ xs.map (readAs t), readAs t (reduceInt 1 t xs) ≤ z := by
  rw [readAs_reduceInt_min hw]
  obtain ⟨hmem, hle⟩ := foldl_min_spec (typeMax t) (xs.map (readAs t))
  refine ⟨mem_of_extreme hmem hne fun z hz hr => ?_, fun z hz => hle z (List.mem_cons_of_mem _ hz)⟩
  obtain ⟨x, -, rfl⟩ := List.mem_map.mp hz
  exact Int.le_antisymm (hr ▸ hle _ (List.mem_cons_of_mem _ hz)) (readAs_range hw x).2

theorem reduceInt_max (hw : 0 < typeWidth t) (hne : xs.map (readAs t) ≠ []) :
    readAs t (reduceInt 2 t xs) ∈ xs.map (readAs t) ∧ ∀ z ∈ xs.map (readAs t), z ≤ readAs t (reduceInt 2 t xs) := by
  rw [readAs_reduceInt_max hw]
  obtain ⟨hmem, hle⟩ := foldl_max_spec (typeMin t) (xs.map (readAs t))
  refine ⟨mem_of_extreme hmem hne fun z hz hr => ?_, fun z hz => hle z (List.mem_cons_of_mem _ hz)⟩
  obtain ⟨x, -, rfl⟩ := List.mem_map.mp hz
  exact Int.le_antisymm (readAs_range hw x).1 (hr ▸ hle _ (List.mem_cons_of_mem _ hz))

/-- The bits of the bitwise reductions. -/
theorem testBit_reduceInt {j : Nat} (hj : j < typeWidth t) :
    (reduceInt 3 t xs).testBit j = xs.all (·.testBit j) ∧ (reduceInt 4 t xs).testBit j = xs.any (·.testBit j) ∧
    (reduceInt 5 t xs).testBit j = ((xs.filter (·.testBit j)).length % 2 == 1) := by
  refine ⟨?_, ?_, ?_⟩
  · rw [reduceInt, testBit_foldl_and, Nat.testBit_two_pow_sub_one, decide_eq_true hj, Bool.true_and]
  · rw [reduceInt, testBit_foldl_or, Nat.zero_testBit, Bool.false_or]
  · rw [reduceInt_xor 0, testBit_foldl_xor, Nat.zero_testBit, Bool.false_xor]

end

end Sys2Proof.Machine

/-! PROOFS. Across lanes (R102 to R107): which lanes an instruction reads, and what it writes once for all of them. -/

namespace Sys2Proof.Machine

/-! ## Lanes and masks -/

/-- The segment lengths of R103, listed by their code. -/
theorem segLen_eq {m : Nat} (hm : m < 4) (W : Nat) : segLen W m = [W, min W 4, min W 8, min W 16].getD m W := by
  match m, hm with
  | 0, _ | 1, _ | 2, _ | 3, _ => rfl

/-- The source lanes of XLANE (R103), listed by mode: within the lane's own segment. -/
theorem xlaneSource_eq {m : Nat} (hm : m < 4) (S l k : Nat) :
    xlaneSource m S l k = l - l % S +
      [k % S, (l % S + k) % S, (S - 1 - l % S + k) % S, (l % S ^^^ k) % S].getD m 0 := by
  match m, hm with
  | 0, _ | 1, _ | 2, _ | 3, _ => rfl

theorem contains_filter (l : List Nat) (p : Nat → Bool) (j : Nat) : (l.filter p).contains j = (l.contains j && p j) := by
  rw [Bool.eq_iff_iff, Bool.and_eq_true, List.contains_iff_mem, List.contains_iff_mem, List.mem_filter]

/-- The two uniform registers of a 64-bit result. -/
theorem spread_pair (d v : Nat) :
    spread .s d 0 v 2 = [⟨.s d, 0, v % 2 ^ 32⟩, ⟨.s (d + 1), 0, v / 2 ^ 32 % 2 ^ 32⟩] := by
  simp [spread, Nat.shiftRight_eq_div_pow]

theorem spread_uniform_has (d v n : Nat) : ∀ x ∈ spread .s d 0 v n, x.name.has x.lane = true :=
  spread_has (fun _ => rfl) n d v

/-! ## How the instructions complete -/

section
variable {i : Instr} {f : Fields} {s : State}

/-- An instruction over the lanes together, with its writes named. -/
theorem completes_of_effect {effect : List Nat → LaneEffect} {ws : List RegWrite}
    (e : exec i s = .next (s.runWrites i f effect)) (hws : effect (s.actLanes f) = (ws, 0))
    (hl : ∀ r ∈ ws, r.name.has r.lane = true) (h : s.clear i f) : Completes i f s ws 0 := by
  have hc := completes_of_runWrites e (by rwa [hws]) h
  rwa [hws] at hc

/-- An instruction that acts once, in the lowest active lane. -/
theorem completes_of_runOnce {body : Nat → List RegWrite} (e : exec i s = .next (s.runOnce i f body))
    (hl : ∀ l, ∀ x ∈ body l, x.name.has x.lane = true) (h : s.clear i f) :
    Completes i f s (((s.actLanes f).take 1).flatMap body) 0 := by
  refine completes_of_effect e ?_ (fun x hx => ?_) h
  · cases s.actLanes f with
    | nil => rfl
    | cons l ls => simp
  · obtain ⟨l, -, hx⟩ := List.mem_flatMap.mp hx
    exact hl l x hx

end

theorem xlane_gives (f : Fields) (s : State) :
    let S := [s.warp.info.width, min s.warp.info.width 4, min s.warp.info.width 8, min s.warp.info.width 16].getD (f.mn 3 2)
      s.warp.info.width
    let k l := s.srcB f false 32 1 l
    Gives (.xlane f) f s 1 fun l => s.srcA f 1 (l - l % S +
      [k l % S, (l % S + k l) % S, (S - 1 - l % S + k l) % S, (l % S ^^^ k l) % S].getD (f.mn 1 0) 0) := by
  intro S k
  have e : exec (.xlane f) s = .next (s.runRegs (.xlane f) f fun l => noFlags (dest f 1 l
      (s.srcA f 1 (xlaneSource (f.mn 1 0) (segLen s.warp.info.width (f.mn 3 2)) l (k l))))) := rfl
  simp only [segLen_eq (mn_lt f 3 2), xlaneSource_eq (mn_lt f 1 0)] at e
  exact completes_of_runRegs e

/-- PGATH (R104): the mask goes to a uniform pair, and a test of it to the predicates of the active lanes and to a uniform one. -/
theorem pgath_completes {f : Fields} {s : State} (h : s.clear (.pgath f) f) :
    let lanes := s.actLanes f
    let M := maskOf (lanes.filter fun l => s.predField f f.a l != f.mb 2)
    let all := maskOf lanes
    let test := [false, M == all, M != 0, M == 0 || M == all].getD (f.mn 1 0) false
    Completes (.pgath f) f s
      ([⟨.s f.d.toNat, 0, M % 2 ^ 32⟩, ⟨.s (f.d.toNat + 1), 0, M / 2 ^ 32 % 2 ^ 32⟩] ++
        if f.mn 1 0 = 0 then []
        else (lanes.map fun l => ⟨.p f.b.toNat, l, b2n test⟩) ++ [⟨.q f.c.toNat, 0, b2n test⟩]) 0 := by
  intro lanes M all test
  refine completes_of_effect rfl ?_ (fun x hx => ?_) h
  · rw [← spread_pair]
    have hk : f.mn 1 0 < 4 := mn_lt f 1 0
    simp only [test]
    generalize f.mn 1 0 = k at hk ⊢
    match k, hk with
    | 0, _ | 1, _ | 2, _ | 3, _ => rfl
  · rw [← spread_pair] at hx
    rcases List.mem_append.mp hx with hx | hx
    · exact spread_uniform_has _ _ _ x hx
    · split at hx
      · cases hx
      · rcases List.mem_append.mp hx with hx | hx
        · obtain ⟨l, hl, rfl⟩ := List.mem_map.mp hx
          exact decide_eq_true (actLanes_lt hl)
        · rw [List.mem_singleton.mp hx]; rfl

theorem redi_completes {f : Fields} {s : State} (h : s.clear (.redi f) f) :
    Completes (.redi f) f s (spread .s f.d.toNat 0 (reduceInt (f.cn 2 0) f.mod.toNat
      ((s.actLanes f).map fun l => s.srcA f (regsOfType f.mod.toNat) l)) (regsOfType f.mod.toNat)) 0 :=
  completes_of_effect rfl rfl (spread_uniform_has _ _ _) h

theorem match_gives (f : Fields) (s : State) : GivesBits (.match_ f) f s 2 fun l j =>
    (s.actLanes f).contains j && s.srcA f (bitN f) j == s.srcA f (bitN f) l := by
  have e : exec (.match_ f) s = .next (s.runRegs (.match_ f) f fun l => noFlags (dest f 2 l
      (maskOf ((s.actLanes f).filter fun u => s.srcA f (bitN f) u == s.srcA f (bitN f) l)))) := rfl
  refine givesBits_of_runRegs e fun _ l j _ => ?_
  rw [testBit_maskOf, contains_filter]

/-- The operands of REDI have the width of its type, which fills their registers. -/
theorem srcA_lt_of_wideType {f : Fields} {s : State} {t : Nat} (h : s.warp.wf = true) (ht : wideType t = true) :
    ∀ x ∈ (s.actLanes f).map fun l => s.srcA f (regsOfType t) l, x < 2 ^ typeWidth t := by
  intro x hx
  obtain ⟨l, -, rfl⟩ := List.mem_map.mp hx
  rw [(wideType_fills ht).2]
  exact srcA_lt h f _ l

/-- Settles O20. R102 to R107: the lanes that each row reads, and for REDI the reduction of their values by each operation. -/
theorem crossLane : Obligations.CrossLane := by
  intro f s
  refine ⟨xlane_gives f s, pgath_completes, completes_of_runOnce rfl fun _ => spread_uniform_has _ _ _, fun h => ?_,
    match_gives f s, mn_eq_zero_of_row rfl rfl rfl⟩
  have hmods : (wideType f.mod.toNat && decide (f.ctl.toNat < 6)) = true := wellFormed_mods h.1 rfl rfl
  have hwide : wideType f.mod.toNat = true := Bool.and_elim_left hmods
  have hw : 0 < typeWidth f.mod.toNat := typeWidth_pos (typeOk_of_wideType hwide)
  refine ⟨_, redi_completes h, reduceInt_lt (srcA_lt_of_wideType h.2.1 hwide) _, fun hop => ?_, fun hop => ?_,
    fun hop => ?_, fun j hj => ?_⟩
  · rw [hop]
    exact reduceInt_sum
  · rw [hop]
    exact ⟨fun hnil => by rw [readAs_reduceInt_min hw, hnil]; rfl, reduceInt_min hw⟩
  · rw [hop]
    exact ⟨fun hnil => by rw [readAs_reduceInt_max hw, hnil]; rfl, reduceInt_max hw⟩
  · obtain ⟨hand, hor, hxor⟩ := testBit_reduceInt
      (xs := (s.actLanes f).map fun l => s.srcA f (regsOfType f.mod.toNat) l) hj
    exact ⟨fun hop => by rw [hop]; exact hand, fun hop => by rw [hop]; exact hor, fun hop => by rw [hop]; exact hxor⟩

end Sys2Proof.Machine

/-! PROOFS. Control transfers (R161 to R163, R166 to R168): where each quad of the sub-gang goes by its vote and its target,
and what the link and the count owe. -/

namespace Sys2Proof.Machine

/-! ## One quad (R161, R162, R168) -/

section
variable (u : Quad) (j : Jump) (lx take : Bool) (pc next a : DWord)

@[simp] theorem Quad.jump_live (t : Option DWord) : (u.jump j lx pc next t take).live = u.live := by
  unfold Quad.jump; dsimp only; split <;> rfl

theorem Quad.jump_untargeted :
    u.jump j lx pc next none take = { u with pc := next, wait := .none, operand := 0 } := by
  simp [Quad.jump]

theorem Quad.jump_taken : u.jump j lx pc next (some a) true =
    { u with
      pc := a, wait := .none, operand := 0
      ctr := if lx && !decide (a ≤ pc) then 0xFFFF
        else if (j == .branch || j == .loop) && decide (a ≤ pc) then u.ctr + 1 else u.ctr } := by
  simp only [Quad.jump, Bool.and_comm, Option.isSome_some, Bool.and_true, if_true, Option.getD_some]

theorem Quad.jump_passed : u.jump j lx pc next (some a) false =
    { u with
      pc := next, wait := .none, operand := 0
      ctr := if lx && decide (a ≤ pc) then 0xFFFF else u.ctr } := rfl

end

section
variable (f : Fields) (s : State)

/-! ## The vote and the target of a quad (R163, R168) -/

theorem contains_votes (j : Jump) (l : Nat) :
    (s.votes f j).contains l = ((s.activeLanes f).contains l && (!(j == .loop) || s.loopCount f l != 0)) :=
  contains_filter _ _ l

/-- The vote of R163, lane by lane in place of a list of votes. -/
theorem takes_eq (j : Jump) (q : Nat) : s.takes f j q =
    if f.k then s.guardTrue f 0 && (!(j == .loop) || s.loopCount f 0 != 0)
    else if f.mb 0 then
      (s.warp.quadLanes q).all fun l => (s.activeLanes f).contains l && (!(j == .loop) || s.loopCount f l != 0)
    else (s.warp.quadLanes q).any fun l => (s.activeLanes f).contains l && (!(j == .loop) || s.loopCount f l != 0) := by
  simp only [← contains_votes]
  rfl

/-- An indirect form takes the target of the first active lane of the quad. -/
theorem target_indirect (q : Nat) : s.target f false q =
    if f.k then some (BitVec.ofNat 64 (s.srcA f 2 0))
    else ((s.warp.quadLanes q).filter (s.activeLanes f).contains).head?.map fun l => BitVec.ofNat 64 (s.srcA f 2 l) := by
  rw [List.head?_filter]
  rfl

/-! ## The sub-gang -/

/-- A transfer changes nothing outside its warp but the agenda. -/
theorem jump_rest (j : Jump) (rel : Bool) :
    s.jump f j rel = { s with warp := (s.jump f j rel).warp, agenda := (s.jump f j rel).agenda } := by
  cases j <;> rfl

theorem sameBytes_jump (j : Jump) (rel : Bool) : SameBytes s (s.jump f j rel) := by
  rw [jump_rest]
  exact ⟨fun _ _ => rfl, fun _ => rfl⟩

/-- A transfer ends the run and writes no register. -/
theorem jump_ends_run (j : Jump) (rel : Bool) :
    (s.jump f j rel).warp.regs = s.warp.regs ∧ (s.jump f j rel).warp.gang = [] ∧
      (s.jump f j rel).warp.fmode = s.warp.fmode ||| s.warp.runFlags := by
  cases j <;> exact ⟨rfl, rfl, rfl⟩

/-- The sub-gang moves and its run ends: of a quad outside it only the yield mark goes (R165). -/
theorem endRun_get_of_gang {w : Warp} {g : Nat → Quad → Quad} {q : Nat} {u : Quad} (hq : w.quads[q]? = some u) :
    ({ w with quads := w.quads.mapIdx fun i v => if w.gang.contains i then g i v else v } : Warp).endRun.quads[q]? =
      some (if w.gang.contains q then g q u else { u with yielded := false }) := by
  rw [Warp.endRun_get, List.getElem?_mapIdx, hq]
  simp only [Option.map_some]
  split <;> rfl

theorem jump_get (j : Jump) (rel : Bool) {q : Nat} {u : Quad} (hq : s.warp.quads[q]? = some u) :
    (s.jump f j rel).warp.quads[q]? = some
      (if s.warp.gang.contains q then
        u.jump j (f.mb 1 && (j == .branch || j == .loop)) s.warp.pc (s.warp.pc + BitVec.ofNat 64 f.slot) (s.target f rel q)
          (s.takes f j q)
      else { u with yielded := false }) := by
  cases j <;> exact endRun_get_of_gang hq

theorem jump_quads_length (j : Jump) (rel : Bool) : (s.jump f j rel).warp.quads.length = s.warp.quads.length := by
  cases j <;> simp [State.jump, Warp.endRun, State.later, State.post, Warp.takeEntry]

/-! ## The results (R52, R55) -/

/-- A result with the value at issue is owed, whatever else of the warp changes outside the scoreboard. -/
theorem due_of_later {covers : List RegName} {ws : List RegWrite} {g : Warp → Warp}
    (hscore : ∀ w, (g w).score = w.score) (hid : ∀ w, (g w).nextId = w.nextId) :
    Due s ((s.later covers ws 0).modWarp g) covers ws :=
  ⟨rfl, hid _, _, hscore _, rfl, rfl, rfl, rfl, rfl, rfl, rfl, rfl, rfl, fun x hx => Warp.raceLost_in _ _ _ x hx⟩

/-- The link is owed to every eligible lane of the quads that take the call. -/
theorem call_due (rel : Bool) : Due s (s.jump f .call rel) (coversD f 2)
    (if f.k then (if s.guardTrue f 0 then dest f 2 0 (s.warp.pc.toNat + f.slot) else [])
     else (s.warp.gang.filter fun q => s.takes f .call q && (s.target f rel q).isSome).flatMap fun q =>
      (s.warp.quadLanes q).flatMap fun l => dest f 2 l (s.warp.pc.toNat + f.slot)) := by
  rw [← List.flatMap_assoc]
  exact due_of_later s (fun _ => rfl) fun _ => rfl

/-- The decremented count is owed to each active lane. -/
theorem loop_due (rel : Bool) : Due s (s.jump f .loop rel) [regName f.k f.d.toNat]
    ((s.actLanes f).map fun l => ⟨regName f.k f.d.toNat, l, s.loopCount f l⟩) :=
  due_of_later s (fun _ => rfl) fun _ => rfl

end

/-- Settles O22. R161 to R163, R166 to R168: all six transfers move the quads by `Quad.jump`; a quad outside the sub-gang, one
without a target, one that takes the transfer and one that does not are its cases. -/
theorem controlTransfers : Obligations.ControlTransfers := by
  intro f s pc next active guard count takes rel ind jumps none_ link counts
  have htakes (j : Jump) (q : Nat) : s.takes f j q = takes (j == .loop) q := takes_eq f s j q
  have hind : s.target f false = ind := funext (target_indirect f s)
  have hrel : s.target f true = rel := rfl
  have hjumps (j : Jump) (r : Bool) {i : Instr} {due : State → Prop} (he : exec i s = .next (s.jump f j r))
      (hdue : due (s.jump f j r)) : jumps i (j == .loop) (j == .branch || j == .loop) (s.target f r) due := by
    obtain ⟨hregs, hgang, hflags⟩ := jump_ends_run f s j r
    refine ⟨_, he, hdue, hregs, sameBytes_jump f s j r, jump_rest f s j r, hgang, hflags, jump_quads_length f s j r,
      fun q u hq => ?_⟩
    have hget := jump_get f s j r hq
    by_cases hg : s.warp.gang.contains q = true
    · rw [if_pos hg, htakes, Bool.and_comm (f.mb 1)] at hget
      refine ⟨_, hget, Quad.jump_live .., ?_⟩
      rw [hg]
      cases s.target f r q with
      | none => rw [Quad.jump_untargeted]; exact ⟨rfl, rfl⟩
      | some a =>
        cases takes (j == .loop) q with
        | true => rw [Quad.jump_taken]; exact ⟨rfl, rfl⟩
        | false => rw [Quad.jump_passed]; exact ⟨rfl, rfl⟩
    · rw [if_neg hg] at hget
      refine ⟨_, hget, rfl, ?_⟩
      rw [Bool.eq_false_iff.mpr hg]
      exact ⟨rfl, rfl⟩
  have hlink (r : Bool) : link (s.target f r) (s.jump f .call r) := by
    have h := call_due f s r
    simp only [htakes] at h
    exact h
  rw [← hind, ← hrel]
  exact ⟨hjumps .branch true rfl ⟨rfl, rfl⟩, hjumps .branch false rfl ⟨rfl, rfl⟩, hjumps .ret false rfl ⟨rfl, rfl⟩,
    hjumps .call true rfl (hlink true), hjumps .call false rfl (hlink false), hjumps .loop true rfl (loop_due f s true)⟩

end Sys2Proof.Machine
